-- ==== Sys2Proof/Word.lean ====
section
/-! DEFINITION. The two word types of the block: the byte of the line (rule R10) and the 16-bit checksum word
(rules R9, R21). -/

namespace Sys2Proof

/-- A byte, 8 bits, unsigned (rule R10). -/
abbrev Byte := BitVec 8

/-- A 16-bit checksum word, unsigned (rules R9, R21). -/
abbrev Half := BitVec 16

end Sys2Proof
end

