-- ==== Sys2Proof/Config.lean ====
section
/-! DEFINITION. What is fixed for the block or chosen by the caller at construction: the role, the
configuration registers of rules R8 and R37, and the one value no rule constrains, the clock of the progress
report (rule R34, U22). -/

namespace Sys2Proof

/-- The two operating modes (rule R238), chosen by the caller at construction (rule R37). -/
inductive Role where
  | sender
  | receiver
deriving DecidableEq, Repr

/-- The configuration registers (rules R8, R37): written once, by the caller, at construction.
The default values are the spec's where it has one; `role`, `txMaxRetries`, `payloadMax` and `sizeW` have none
in the spec and carry this model's choice (DESIGN CHOICE, log entry 2). -/
structure Cfg where
  /-- `ROLE`: which state machine runs. No default in the spec. -/
  role : Role := .receiver
  /-- `CUSTOMSIZE`: custom block size, 0 = disabled. -/
  customSize : Nat := 0
  /-- `RX_MAXRETRIES`: the receiver's bound. -/
  rxMaxRetries : Nat := 200
  /-- `TX_MAXRETRIES`: the sender's bound. OPEN in the spec. -/
  txMaxRetries : Nat := 10
  /-- `TX_EOT_RETRIES`: the sender's bound of the end-of-transmission step. -/
  txEotRetries : Nat := 2
  /-- `PAYLOAD_MAX`: capacity of the payload buffer in bytes. OPEN in the spec. -/
  payloadMax : Nat := 1024
  /-- `SIZE_W`: width in bits of the size, offset and written counters. OPEN in the spec. -/
  sizeW : Nat := 64
  /-- `SEQ_RESET_PER_FILE`. -/
  seqResetPerFile : Bool := true
  /-- `RX_RESEND_CRQ_ON_RETRY`. -/
  rxResendCrq : Bool := false
  /-- `TX_HEADER_REHANDSHAKE`. -/
  txRehandshake : Bool := false
deriving DecidableEq, Repr

/-- The legal values of rule R8. A configuration outside them is refused at construction (U7; rules R132,
R263). -/
def Cfg.legal (c : Cfg) : Bool :=
  decide (1024 ≤ c.payloadMax ∧ c.customSize ≤ c.payloadMax ∧ 1 ≤ c.rxMaxRetries ∧ 1 ≤ c.txMaxRetries ∧
    1 ≤ c.txEotRetries ∧ 1 ≤ c.sizeW)

/-- FREE VALUE (rules R34, R239; U22; D36; log entry 7): what the clock of the engine of a role gives at its k-th `Progress`
call. It has no body, so no proof can use a value of it, no order and no unit. The two engines of a line have clocks of their
own (rule R57 (d)); that two engines of one role with the same count get the same value is this model's choice (DESIGN CHOICE,
log entry 7). -/
opaque Config.freeElapsed : Role → Nat → Nat

end Sys2Proof
end

