-- ==== Sys2Proof/Syntax.lean ====
section
/-! DEFINITION. The wire symbols and operations of the block (rule R98): one constructor of `Instr` for each
row of the operation table. The eight wire symbols are units of the line (a data frame with its fields, or a
control symbol, rule R80); the other rows are the block's internal operations. -/

namespace Sys2Proof

/-- The three data markers (rules R81, R130). Their byte values are in `Decode.lean`. -/
inductive Marker where
  | soh
  | stx
  | cus
deriving DecidableEq, Repr

/-- A file of the sender's list as the file interface shows it (rules R13, R42): the base name and the size that
`FileInfo` reports, and the bytes `FileRead` reads. The two can disagree: the file may change while it is sent
(U19). -/
structure SrcFile where
  name : List Byte
  size : Nat
  data : List Byte
deriving DecidableEq, Repr

/-- The operations of the block. -/
inductive Instr where
  -- wire symbols: data frames, with the fields of rule R83 in wire order
  /-- `SOH`: a frame with a 128-byte payload. -/
  | soh (s0 s1 : Byte) (payload : List Byte) (crc : Half)
  /-- `STX`: a frame with a 1024-byte payload. -/
  | stx (s0 s1 : Byte) (payload : List Byte) (crc : Half)
  /-- `CUS`: a frame with a `CUSTOMSIZE`-byte payload. -/
  | cus (s0 s1 : Byte) (payload : List Byte) (crc : Half)
  -- wire symbols: control symbols (rule R82)
  /-- `EOT`: end of the current file's transmission. -/
  | eot
  /-- `ACK`: acknowledge. -/
  | ack
  /-- `NAK`: negative acknowledge. -/
  | nak
  /-- `CAN`: cancel, two in succession abort. -/
  | can
  /-- `CRQ`: request 16-bit-CRC mode. -/
  | crq
  -- Channel primitives (rule R12)
  /-- `CH.READ`: `ChRead(n)`. -/
  | chRead (n : Nat)
  /-- `CH.WRITE`: `ChWrite(s)`. -/
  | chWrite (bs : List Byte)
  /-- `CH.CLEAR`: `ChClear()`. -/
  | chClear
  -- checksum engine
  /-- `CRC.INIT`. -/
  | crcInit
  /-- `CRC.BYTE(b)`. -/
  | crcByte (b : Byte)
  /-- `CRC16(s)`. -/
  | crc16 (bs : List Byte)
  -- framer
  /-- `PAD(chunk, n)`. -/
  | pad (chunk : List Byte) (n : Nat)
  /-- `HDR.BUILD(name, size)`. -/
  | hdrBuild (name : List Byte) (size : Nat)
  /-- `HDR.PARSE(p)`. -/
  | hdrParse (p : List Byte)
  /-- `ENCODE(m, s, p)`. -/
  | encode (m : Marker) (sq : Byte) (p : List Byte)
  /-- `DECODE(e0, e1)`. -/
  | decode (e0 e1 : Byte)
  /-- `READRESP()`. -/
  | readResp
  -- sender
  /-- `TX.START`, with the caller's file list and configuration. -/
  | txStart (files : List SrcFile) (cfg : Cfg)
  /-- `TX.HANDSHAKE`. -/
  | txHandshake
  /-- `TX.HEADER`. -/
  | txHeader
  /-- `TX.DATA`. -/
  | txData
  /-- `TX.EOT`. -/
  | txEot
  /-- `TX.TERM`. -/
  | txTerm
  -- receiver
  /-- `RX.START`, with the caller's configuration. -/
  | rxStart (cfg : Cfg)
  /-- `RX.HANDSHAKE`. -/
  | rxHandshake
  /-- `RX.HEADER`. -/
  | rxHeader
  /-- `RX.DATA`. -/
  | rxData
  /-- `RX.EOT`. -/
  | rxEot
deriving DecidableEq, Repr

end Sys2Proof
end

