-- ==== Sys2Proof/Decode.lean ====
section
/-! DEFINITION. The wire encoding (30_encoding.md): the symbol values, the payload size a marker declares, the
decoder of one unit from the bytes of the line, and the encoder. The internal operations have no bit pattern
(rule R98). -/

namespace Sys2Proof

/-! ### Symbol values (rules R15, R81) -/

def SOH : Byte := 0x01#8
def STX : Byte := 0x02#8
def CUS : Byte := 0x03#8
def EOT : Byte := 0x04#8
def ACK : Byte := 0x06#8
def NAK : Byte := 0x15#8
def CAN : Byte := 0x18#8
def CRQ : Byte := 0x43#8

/-- The marker byte of a data frame (rule R81). -/
def Marker.byte (m : Marker) : Byte :=
  match m with
  | .soh => SOH
  | .stx => STX
  | .cus => CUS

/-! ### Byte order and bit fields (rules R60, R86) -/

/-- `zeros(n)` (rule R10). -/
def zeros (n : Nat) : List Byte := List.replicate n 0x00#8

/-- `crc[15:8]`, the first byte of the trailer. -/
def hiByte (c : Half) : Byte := c.extractLsb' 8 8

/-- `crc[7:0]`, the second byte of the trailer. -/
def loByte (c : Half) : Byte := c.extractLsb' 0 8

/-- `(crc_hi << 8) | crc_lo` (rule R86). -/
def joinBytes (hi lo : Byte) : Half := (hi.setWidth 16 <<< 8) ||| lo.setWidth 16

/-! ### Payload sizes (rules R16, R84) -/

/-- `Size(m)` for a data marker, with the receiver's `CUSTOMSIZE`; undefined for `CUS` when it is 0. -/
def payloadSize (customSize : Nat) (m : Marker) : Option Nat :=
  match m with
  | .soh => some 128
  | .stx => some 1024
  | .cus => if customSize = 0 then none else some customSize

/-! ### Decoding -/

/-- Why a unit is rejected. -/
inductive DecodeError where
  /-- No byte is on the line. -/
  | empty
  /-- The first byte is none of the eight symbols, or is `CUS` with the custom size disabled (rules R91, R93). -/
  | unrecognized (b : Byte)
  /-- Fewer bytes than the frame that the marker begins (rule R84). -/
  | short (m : Marker)
deriving DecidableEq, Repr

/-- What the first byte of a unit says (rules R84, R91, R92). -/
inductive SymbolClass where
  /-- A data marker whose payload has `n` bytes: `n + 4` more bytes belong to the unit. -/
  | data (m : Marker) (n : Nat)
  /-- A control symbol: nothing more belongs to the unit. -/
  | control (i : Instr)
  /-- No meaning. -/
  | undefined
deriving DecidableEq, Repr

/-- The symbol table of rule R81, read by its byte value. -/
def symbolClass (customSize : Nat) (b : Byte) : SymbolClass :=
  if b = SOH then .data .soh 128
  else if b = STX then .data .stx 1024
  else if b = CUS then (if customSize = 0 then .undefined else .data .cus customSize)
  else if b = EOT then .control .eot
  else if b = ACK then .control .ack
  else if b = NAK then .control .nak
  else if b = CAN then .control .can
  else if b = CRQ then .control .crq
  else .undefined

/-- The data frame with a marker and its fields. -/
def Marker.frame (m : Marker) (s0 s1 : Byte) (payload : List Byte) (crc : Half) : Instr :=
  match m with
  | .soh => .soh s0 s1 payload crc
  | .stx => .stx s0 s1 payload crc
  | .cus => .cus s0 s1 payload crc

/-- The bytes of a data frame after its marker: `seq0`, `seq1`, payload, `crc_hi`, `crc_lo` (rules R64, R83). -/
def decodeBody (m : Marker) (n : Nat) (bs : List Byte) : Except DecodeError (Instr × List Byte) :=
  match bs with
  | s0 :: s1 :: r =>
    match r.drop n with
    | hi :: lo :: rest => .ok (m.frame s0 s1 (r.take n) (joinBytes hi lo), rest)
    | _ => .error (.short m)
  | _ => .error (.short m)

/-- One unit from the bytes of the line, first byte first, and the bytes after it. -/
def decode (customSize : Nat) (bs : List Byte) : Except DecodeError (Instr × List Byte) :=
  match bs with
  | [] => .error .empty
  | b :: r =>
    match symbolClass customSize b with
    | .data m n => decodeBody m n r
    | .control i => .ok (i, r)
    | .undefined => .error (.unrecognized b)

/-! ### Encoding -/

/-- The bytes of a data frame in wire order (rules R60, R83). -/
def frameBytes (m : Marker) (s0 s1 : Byte) (payload : List Byte) (crc : Half) : List Byte :=
  m.byte :: s0 :: s1 :: payload ++ [hiByte crc, loByte crc]

/-- The bytes of a unit on the line. An internal operation has none (rule R98). -/
def encode (i : Instr) : List Byte :=
  match i with
  | .soh s0 s1 p c => frameBytes .soh s0 s1 p c
  | .stx s0 s1 p c => frameBytes .stx s0 s1 p c
  | .cus s0 s1 p c => frameBytes .cus s0 s1 p c
  | .eot => [EOT]
  | .ack => [ACK]
  | .nak => [NAK]
  | .can => [CAN]
  | .crq => [CRQ]
  | .chRead _ => []
  | .chWrite _ => []
  | .chClear => []
  | .crcInit => []
  | .crcByte _ => []
  | .crc16 _ => []
  | .pad _ _ => []
  | .hdrBuild _ _ => []
  | .hdrParse _ => []
  | .encode _ _ _ => []
  | .decode _ _ => []
  | .readResp => []
  | .txStart _ _ => []
  | .txHandshake => []
  | .txHeader => []
  | .txData => []
  | .txEot => []
  | .txTerm => []
  | .rxStart _ => []
  | .rxHandshake => []
  | .rxHeader => []
  | .rxData => []
  | .rxEot => []

/-! ### The words of the opcode table -/

/-- The custom size under which the table's row `CUS` is read: the row is defined only when `CUSTOMSIZE ≠ 0`
(rule R91), and a word of the table does not carry it (DESIGN CHOICE, log entry 11). -/
def tableCustomSize : Nat := 64

/-- The longest unit that a word of the table can begin: an `STX` frame (rule R145). -/
def longestUnit : Nat := 1029

/-- The `k` bytes of a word, the least significant first. -/
def wordBytes (k : Nat) (w : Nat) : List Byte :=
  match k with
  | 0 => []
  | k + 1 => BitVec.ofNat 8 w :: wordBytes k (w / 256)

/-- The bytes of a word of the table, and zeros above them. -/
def tableBytes (nbits w : Nat) : List Byte :=
  wordBytes ((nbits + 7) / 8) w ++ zeros (longestUnit - (nbits + 7) / 8)

/-- The instruction the decoder reads from a word of the opcode table, the bits above it zero. -/
def decodeTableWord (nbits w : Nat) : Option Instr :=
  match decode tableCustomSize (tableBytes nbits w) with
  | .ok (i, _) => some i
  | .error _ => none

end Sys2Proof
end

