-- ==== Sys2Proof/Machine/State.lean ====
section
/-! DEFINITION. The machine's state as plain data: the Session of 10_state.md with its registers, the payload
buffer, the environment behind the Channel and the file interface, and the log of observable events. -/

namespace Sys2Proof.Machine

/-- Why the machine stops with a fault. -/
inductive Fault where
  /-- Raised by `PAD`, `HDR.BUILD` and nothing else: the payload buffer has bytes 0 to `PAYLOAD_MAX - 1` (rule R40) and
  the operation names a byte above them. Safe: the spec gives such an address no meaning. -/
  | bufferRange
  /-- Raised by every operation that reads, and by `step`: a `ChRead` on a Channel whose read has no timeout waits for bytes that
  never come (U18: "stuck: the engine is blocked in ChRead for ever"; rules R263, R277). Safe: the machine has no next step. -/
  | readBlocked
deriving DecidableEq, Repr

/-- Why an operation has no meaning where it was asked for. -/
inductive Refusal where
  /-- An operation without a meaning in this model; none is left. Safe. -/
  | notModelled (mnemonic : String)
  /-- Raised by `TX.START`, `RX.START` (U7: "refuse (at construction)") and by every operation that runs under a
  configuration that construction would have refused. Safe. -/
  | badConfig
  /-- Raised by `TX.START` when `ROLE ≠ sender`, by `RX.START` when `ROLE ≠ receiver` (U6). Safe. -/
  | wrongRole
  /-- Raised by `TX.START` on an empty file list (U6, D30). Safe. -/
  | emptyFileList
  /-- Raised by `TX.HEADER` on entry and by `HDR.BUILD`: a file that rule R134 does not admit, or whose size is at
  least 2^SIZE_W (U5). Safe. -/
  | unfitFile
  /-- Raised by every operation on the line or of a state machine, and by `step`, after `Done` or `Aborted` (U17).
  Safe. -/
  | sessionEnded
  /-- Raised by an operation of one state when the state register names another: the rules perform it in its own
  state only. Safe. -/
  | notInState
  /-- Raised by `ENCODE` with the marker `CUS` when `CUSTOMSIZE = 0`: `Size` is undefined (rule R16). Safe. -/
  | sizeUndefined
deriving DecidableEq, Repr

/-- The result of a step or of an operation. -/
abbrev Step (σ : Type) := Host.Outcome σ Fault Refusal

/-! ### State registers and flags -/

/-- `tx_state` (rule R35). -/
inductive TxState where
  | idle
  | handshaking
  | sendingHeader
  | sendingData
  | awaitingEot
  | sendingTerminator
  | done
  | aborted
deriving DecidableEq, Repr

/-- `rx_state` (rule R35). -/
inductive RxState where
  | idle
  | handshaking
  | awaitingHeader
  | receivingData
  | awaitingNextOrEnd
  | done
  | aborted
deriving DecidableEq, Repr

/-- Where the sender stands within one attempt: `none` between attempts, `resp1` or `resp2` when it has written its
request and waits for the first or the second response byte (rule R92). The model's own register (log entry 6). -/
inductive Pos where
  | none
  | resp1
  | resp2
deriving DecidableEq, Repr

/-- The decode outcome (rule R36), the block's condition flags. -/
inductive DecodeOutcome where
  | packet
  | ctrlNak
  | ctrlEot
  | ctrlCan
  | timeout
  | badSeqLow
  | badSeqHigh
  | badChecksum
  | unrecognized
deriving DecidableEq, Repr

/-- The result of `HDR.PARSE` (rule R137). -/
inductive HdrResult where
  | null
  | bad
  | file (name : List Byte) (size : Nat)
deriving DecidableEq, Repr

/-- `exit_class` (rules R37, R222). -/
inductive ExitClass where
  | none
  | success
  | handshakeFailed
  | protocolAbort
  | localIoError
deriving DecidableEq, Repr

/-- `last_err`, and the causes of failed attempts and aborts (rules R37, R221, R222). -/
inductive Cause where
  | noError
  | timeout
  | badSeqLow
  | badSeqHigh
  | badChecksum
  | unrecognized
  | nak
  | unexpected
  | cancelled
  | ioError
deriving DecidableEq, Repr

/-! ### The payload buffer -/

/-- The payload buffer `Buf` (rule R40) as a list of cells in one canonical form: addresses strictly rising, no
cell holding 0x00, which is what an unlisted address reads as (DESIGN CHOICE, log entry 4). -/
abbrev Memory := List Host.Cell

/-! ### The environment -/

/-- What the environment does just before one Channel call (rules R57, R58): the bytes that arrive, how many bytes of
unflushed output leave for the peer, how many bytes a read returns at most before the transport's timeout
(`none`: no timeout while bytes are there), and whether the caller has torn the Channel down. Where reads have no timeout, what
arrives stands for all that comes until the call returns (log entry 14). -/
structure LineStep where
  arrive : List Byte
  flush : Nat
  cut : Option Nat
  tearDown : Bool
deriving DecidableEq, Repr

/-- The transport's read timeout (rules R51, R263 (a), U18): finite, as the caller must provide it; infinite; or infinite with a
read that is blocked for ever. -/
inductive ReadTimeout where
  | finite
  | infinite
  | hung
deriving DecidableEq, Repr

/-- The Channel (rules R41, R44, R57): the transport's buffered unread input and unflushed output, the bytes that
have left for the peer, whether it is torn down, what the environment is going to do, one entry a call, what it does again and
again for ever after that (rule R277; empty: the ideal line), and the transport's read timeout. -/
structure Channel where
  inBuf : List Byte
  outBuf : List Byte
  wire : List Byte
  torn : Bool
  script : List LineStep
  again : List LineStep
  timeout : ReadTimeout
deriving DecidableEq, Repr

/-- A file of the receiver's file store (rules R42, R200, U12). -/
structure StoredFile where
  name : List Byte
  declared : Nat
  data : List Byte
  closed : Bool
deriving DecidableEq, Repr

/-- The receiver's files, the file opened last first, and the results the file interface is going to give, one entry
a call, `true` for `IoError` (rules R13, R42; U25). -/
structure FileStore where
  stored : List StoredFile
  ioErrors : List Bool
deriving DecidableEq, Repr

/-- The exit signal (rule R232): success, or the pair (`exit_class`, `last_err`). -/
inductive ExitSignal where
  | success
  | failure (c : ExitClass) (e : Cause)
deriving DecidableEq, Repr

/-- The observable events of an engine (rule R18). -/
inductive Event where
  | write (bs : List Byte)
  | read (n : Nat) (got : List Byte)
  | clear
  | fileInfo (i : Nat) (answer : Option (List Byte × Nat))
  | fileRead (i offset n : Nat) (answer : Option (List Byte))
  | fileOpen (name : List Byte) (size : Nat) (ok : Bool)
  | fileWrite (bs : List Byte) (ok : Bool)
  | fileClose (ok : Bool)
  | progress (done total elapsed : Nat)
  | exit (signal : ExitSignal)
deriving DecidableEq, Repr

/-! ### The state -/

/-- All the state the spec gives the block, its environment, and this model's own registers. -/
structure State where
  /-- The configuration registers (rule R37). -/
  cfg : Cfg
  /-- The caller's file list (rules R30, R42). -/
  files : List SrcFile
  /-- `crc` (rule R21). -/
  crc : Half
  /-- `seq0` (rule R22). -/
  seq0 : Byte
  /-- `seq1` (rule R23). -/
  seq1 : Byte
  /-- `retry` (rule R27). -/
  retry : Nat
  /-- `marker` (rule R28). -/
  marker : Byte
  /-- `n` (rule R29). -/
  n : Nat
  /-- `file_idx` (rule R30). -/
  fileIdx : Nat
  /-- `size` (rule R31). -/
  size : Nat
  /-- `offset` (rule R32). -/
  offset : Nat
  /-- `written` (rule R32). -/
  written : Nat
  /-- `rx_s0` (rule R33). -/
  rxS0 : Byte
  /-- `rx_s1` (rule R33). -/
  rxS1 : Byte
  /-- `rx_crc` (rule R33). -/
  rxCrc : Half
  /-- `resp` (rule R33). -/
  resp : Byte
  /-- `bytes_done` (rule R34). -/
  bytesDone : Nat
  /-- `elapsed` (rule R34). -/
  elapsed : Nat
  /-- The payload buffer (rule R40). -/
  buf : Memory
  /-- The frame built for the step (rules R139, R163, R166, R169). -/
  frame : List Byte
  /-- `t`, the bytes the last `ChRead` returned (rule R140's temporary). -/
  rd : List Byte
  /-- `tx_state` (rule R35). -/
  txState : TxState
  /-- `rx_state` (rule R35). -/
  rxState : RxState
  /-- The state has been entered and its "on entry, once" part is still to be done (rules R163, R166, R169). -/
  fresh : Bool
  /-- The handshake that runs is a re-handshake of rule R176. -/
  rehandshake : Bool
  /-- Where the sender stands within an attempt. -/
  pos : Pos
  /-- The decode outcome held (rule R36). -/
  outcome : Option DecodeOutcome
  /-- The result of `HDR.PARSE` held (rule R137). -/
  hdr : Option HdrResult
  /-- `exit_class` (rule R37). -/
  exitClass : ExitClass
  /-- `last_err` (rule R37). -/
  lastErr : Cause
  /-- The Channel (rules R41, R44). -/
  chan : Channel
  /-- The file store (rule R42). -/
  store : FileStore
  /-- The observable events so far, the newest first (rule R18). -/
  trace : List Event
  /-- How many free values this engine has drawn (the model's own register, log entry 7). -/
  draws : Nat
deriving DecidableEq, Repr

/-- The state before `TX.START` or `RX.START` (rules R46, R260, R261): the registers of rule R46 at their values;
those the spec leaves unspecified at zero (DESIGN CHOICE, log entry 3); the environment empty (log entry 5). -/
def State.reset : State where
  cfg := {}
  files := []
  crc := 0#16
  seq0 := 0x00#8
  seq1 := 0xFF#8
  retry := 0
  marker := 0x01#8
  n := 0
  fileIdx := 0
  size := 0
  offset := 0
  written := 0
  rxS0 := 0#8
  rxS1 := 0#8
  rxCrc := 0#16
  resp := 0#8
  bytesDone := 0
  elapsed := 0
  buf := []
  frame := []
  rd := []
  txState := .idle
  rxState := .idle
  fresh := false
  rehandshake := false
  pos := .none
  outcome := none
  hdr := none
  exitClass := .none
  lastErr := .noError
  chan := { inBuf := [], outBuf := [], wire := [], torn := false, script := [], again := [], timeout := .finite }
  store := { stored := [], ioErrors := [] }
  trace := []
  draws := 0

end Sys2Proof.Machine
end

