-- ==== Sys2Proof/WellFormed.lean ====
section
/-! DEFINITION. Which operations are well formed under a configuration: the operand conditions the spec states
for each operation. -/

namespace Sys2Proof

/-- The number of decimal digits of a size as `dec(n)` spells it is bounded through its bytes, see
`Machine/Operands.lean`; here only the shape of a name is checked: non-empty and without 0x00 (rules R88, R134). -/
abbrev nameOk (name : List Byte) : Prop := name ≠ [] ∧ 0x00#8 ∉ name

/-- The payload has the size the marker declares (rules R83, R132). -/
abbrev payloadOk (customSize : Nat) (m : Marker) (payload : List Byte) : Prop :=
  payloadSize customSize m = some payload.length

/-- A file of the sender's list that satisfies the name part of rule R134. -/
abbrev SrcFile.wf (f : SrcFile) : Prop := nameOk f.name

/-- Well-formedness of an operation under a configuration. -/
def Instr.wf (c : Cfg) (i : Instr) : Bool :=
  match i with
  | .soh _ _ p _ => decide (payloadOk c.customSize .soh p)
  | .stx _ _ p _ => decide (payloadOk c.customSize .stx p)
  | .cus _ _ p _ => decide (payloadOk c.customSize .cus p)
  | .eot => true
  | .ack => true
  | .nak => true
  | .can => true
  | .crq => true
  | .chRead n => decide (1 ≤ n)                                          -- rule R51
  | .chWrite bs => decide (bs ≠ [])                                      -- rule R53
  | .chClear => true
  | .crcInit => true
  | .crcByte _ => true
  | .crc16 _ => true
  | .pad chunk n => decide (chunk.length ≤ n ∧ n ≤ c.payloadMax)         -- rules R40, R133
  | .hdrBuild name _ => decide (nameOk name)                             -- rule R134
  | .hdrParse p => decide (p ≠ [])                                       -- rule R137
  | .encode m _ p => decide (payloadOk c.customSize m p)                 -- rule R139
  | .decode _ _ => true
  | .readResp => true
  | .txStart files cfg => decide (files ≠ [] ∧ cfg.role = .sender ∧ cfg.legal)   -- rule R161, U6, U7
  | .txHandshake => true
  | .txHeader => true
  | .txData => true
  | .txEot => true
  | .txTerm => true
  | .rxStart cfg => decide (cfg.role = .receiver ∧ cfg.legal)            -- rule R191, U6, U7
  | .rxHandshake => true
  | .rxHeader => true
  | .rxData => true
  | .rxEot => true

/-- The operation is one of the eight wire symbols: the only ones with a bit pattern (rule R98). -/
def Instr.onWire (i : Instr) : Bool := !(Sys2Proof.encode i).isEmpty

end Sys2Proof
end

