-- ==== Sys2Proof/Machine/Operands.lean ====
section
/-! DEFINITION. The operand forms: derived sizes, the choice of the data marker, the decimal size and the header
payload, padding, and the frame a sender builds. Pure functions. -/

namespace Sys2Proof.Machine

/-! ### Derived sizes (rules R16, R165) -/

/-- `L`, the large-block size. -/
def largeSize (c : Cfg) : Nat := if c.customSize = 0 then 1024 else c.customSize

/-- `MLARGE`, the large-block marker. -/
def largeMarker (c : Cfg) : Marker := if c.customSize = 0 then .stx else .cus

/-- The data marker for `remaining` bytes of a file (rule R165). -/
def chunkMarker (c : Cfg) (remaining : Nat) : Marker :=
  if largeSize c ≤ remaining then largeMarker c else .soh

/-- The payload size that goes with it. -/
def chunkSize (c : Cfg) (remaining : Nat) : Nat :=
  if largeSize c ≤ remaining then largeSize c else 128

/-- `take`, the number of file bytes the packet carries. -/
def chunkTake (c : Cfg) (remaining : Nat) : Nat := min (chunkSize c remaining) remaining

/-! ### Padding (rules R87, R133) -/

/-- `chunk || zeros(n - len(chunk))`. -/
def padBytes (chunk : List Byte) (n : Nat) : List Byte := chunk ++ zeros (n - chunk.length)

/-! ### The decimal size (rules R10, R89) -/

/-- The ASCII digit of `d < 10`. -/
def digitByte (d : Nat) : Byte := BitVec.ofNat 8 (0x30 + d)

/-- The digits of `n`, most significant first, before those in `acc`; `fuel` bounds their number. -/
def decFuel (fuel n : Nat) (acc : List Byte) : List Byte :=
  match fuel with
  | 0 => acc
  | f + 1 => if n < 10 then digitByte n :: acc else decFuel f (n / 10) (digitByte (n % 10) :: acc)

/-- `dec(n)`: the decimal ASCII spelling without leading zeros, `dec(0)` the one byte 0x30. -/
def decBytes (n : Nat) : List Byte := decFuel (n + 1) n []

/-- The byte is an ASCII digit, 0x30 to 0x39. -/
def isDigit (b : Byte) : Bool := decide (0x30 ≤ b.toNat ∧ b.toNat ≤ 0x39)

/-- The value of a digit string, first digit most significant (rule R89). -/
def digitsValue (ds : List Byte) : Nat := ds.foldl (fun v b => 10 * v + (b.toNat - 0x30)) 0

/-! ### The header payload (rules R88, R134 to R137) -/

/-- A file that a header packet can carry (rule R134). -/
def headerFits (name : List Byte) (size : Nat) : Bool :=
  decide (nameOk name ∧ name.length + 1 + (decBytes size).length + 1 ≤ 128)

/-- The header payload of a file (rules R88, R135). -/
def headerBytes (name : List Byte) (size : Nat) : List Byte :=
  padBytes (name ++ 0x00#8 :: decBytes size ++ [0x00#8]) 128

/-- The bytes before the first 0x00 and those after it; `none` when there is no 0x00. -/
def splitZero (p : List Byte) : Option (List Byte × List Byte) :=
  match p with
  | [] => none
  | b :: r =>
    if b = 0x00#8 then some ([], r)
    else
      match splitZero r with
      | none => none
      | some (x, y) => some (b :: x, y)

/-- The size field, the bytes after the name's terminator, read as digits up to the next 0x00 (rule R137). -/
def parseSize (sizeW : Nat) (name rest : List Byte) : HdrResult :=
  match splitZero rest with
  | none => .bad
  | some (digits, _) =>
    if digits = [] ∨ digits.all isDigit = false then .bad
    else if 2 ^ sizeW ≤ digitsValue digits then .bad
    else .file name (digitsValue digits)

/-- `HDR.PARSE(p)` (rule R137). -/
def parseHeader (sizeW : Nat) (p : List Byte) : HdrResult :=
  if p.head? = some 0x00#8 then .null
  else
    match splitZero p with
    | none => .bad
    | some (name, rest) => parseSize sizeW name rest

/-! ### The frame a sender builds (rule R139) -/

/-- `0xFF - s`, the complement of a sequence byte (rules R85, R144). -/
def seqComplement (s : Byte) : Byte := 0xFF#8 - s

/-- The bytes of `ENCODE(m, s, p)`. -/
def builtFrame (m : Marker) (sq : Byte) (p : List Byte) : List Byte :=
  frameBytes m sq (seqComplement sq) p (crcOf p)

end Sys2Proof.Machine
end

