-- ==== Sys2Proof/Machine/Ops.lean ====
section
/-! DEFINITION. The named operations over the state, each written once: the payload buffer, the Channel primitives, the
file primitives, the sequence pair, the progress report, the retry path and the abort path. -/

namespace Sys2Proof.Machine

/-! ### The payload buffer (rules R11, R40) -/

/-- `Buf[a]`. An unlisted byte reads as 0x00 (log entry 4). -/
def Memory.read (m : Memory) (a : Nat) : Byte :=
  match m with
  | [] => 0x00#8
  | c :: r => if c.1 = a then c.2 else if a < c.1 then 0x00#8 else Memory.read r a

/-- `Buf[a : a + k]`, in order. -/
def Memory.readBlock (m : Memory) (a : Nat) (k : Nat) : List Byte :=
  match k with
  | 0 => []
  | k + 1 =>
    let r := m.dropWhile (fun c => decide (c.1 < a))
    Memory.read r a :: Memory.readBlock r (a + 1) k

/-- The cells of a byte string that starts at an address, less its 0x00 bytes. -/
def cellsFrom (a : Nat) (bs : List Byte) : Memory :=
  match bs with
  | [] => []
  | b :: r => if b = 0x00#8 then cellsFrom (a + 1) r else (a, b) :: cellsFrom (a + 1) r

/-- `Buf[a : a + len(bs)] <- bs`. -/
def Memory.writeBlock (m : Memory) (a : Nat) (bs : List Byte) : Memory :=
  m.filter (fun c => decide (c.1 < a)) ++ cellsFrom a bs ++ m.filter (fun c => decide (a + bs.length ≤ c.1))

/-- `Buf[a] <- b`. -/
def Memory.write (m : Memory) (a : Nat) (b : Byte) : Memory := m.writeBlock a [b]

/-- The canonical form: addresses strictly rising, no cell equal to what an unlisted address reads as. -/
abbrev Memory.wf (m : Memory) : Prop :=
  m.Pairwise (fun c d => c.1 < d.1) ∧ ∀ c ∈ m, c.2 ≠ 0x00#8

/-- `Buf[0:k]` of a state. -/
def State.payload (s : State) (k : Nat) : List Byte := s.buf.readBlock 0 k

/-- `Buf[0:len(bs)] <- bs`. -/
def State.setPayload (bs : List Byte) (s : State) : State := { s with buf := s.buf.writeBlock 0 bs }

/-! ### Single registers -/

/-- `marker <- b`. -/
def State.setMarker (b : Byte) (s : State) : State := { s with marker := b }

/-- `n <- k`. -/
def State.setN (k : Nat) (s : State) : State := { s with n := k }

/-- `rx_s0 <- b`. -/
def State.setRxS0 (b : Byte) (s : State) : State := { s with rxS0 := b }

/-- `rx_s1 <- b`. -/
def State.setRxS1 (b : Byte) (s : State) : State := { s with rxS1 := b }

/-- `rx_crc <- c`. -/
def State.setRxCrc (c : Half) (s : State) : State := { s with rxCrc := c }

/-- `resp <- b`. -/
def State.setResp (b : Byte) (s : State) : State := { s with resp := b }

/-- The sender's place within its attempt. -/
def State.setPos (p : Pos) (s : State) : State := { s with pos := p }

/-! ### The Channel (20_memory.md) -/

/-- What an ideal line does before a call: nothing arrives, all output leaves, no timeout comes early (rule R57). -/
def LineStep.ideal (c : Channel) : LineStep :=
  { arrive := [], flush := c.outBuf.length, cut := none, tearDown := false }

/-- What the environment does before the next call: the next entry of the script; at its end the first of the entries that repeat
for ever (rule R277); the ideal line where there are none (log entry 5). -/
def Channel.upcoming (c : Channel) : LineStep :=
  match c.script with
  | [] => c.again.headD (LineStep.ideal c)
  | e :: _ => e

/-- What is left of the script after one call; a script at its end begins again with the entries that repeat. -/
def Channel.rest (c : Channel) : List LineStep :=
  match c.script with
  | [] => c.again.tail
  | _ :: r => r

/-- The Channel when the next call begins: the environment has moved (rules R57, R58). Nothing moves on a torn
Channel: no input arrives, and output that was still unflushed stays where it is. Rule R58 does not say what becomes of that
output (DESIGN CHOICE, log entry 27). -/
def Channel.move (c : Channel) : Channel :=
  if c.torn = true ∨ c.upcoming.tearDown = true then
    { c with torn := true, script := c.rest }
  else
    { c with inBuf := c.inBuf ++ c.upcoming.arrive,
             wire := c.wire ++ c.outBuf.take c.upcoming.flush,
             outBuf := c.outBuf.drop c.upcoming.flush,
             script := c.rest }

/-- How many bytes `ChRead(n)` returns at most: a timeout may cut it short at any time (rule R57), where the transport has one. -/
def Channel.readLimit (c : Channel) (n : Nat) : Nat :=
  match c.timeout, c.upcoming.cut with
  | .finite, some k => min k n
  | _, _ => n

/-- The bytes `ChRead(n)` returns (rules R51, R58). -/
def Channel.readBytes (n : Nat) (c : Channel) : List Byte :=
  if c.move.torn then [] else c.move.inBuf.take (c.readLimit n)

/-- The read timeout after `ChRead(n)`: without one, a read for which too few bytes come is blocked for ever (U18). -/
def Channel.waited (n : Nat) (c : Channel) : ReadTimeout :=
  if c.timeout = .infinite ∧ (c.readBytes n).length < n then .hung else c.timeout

/-- The Channel after `ChRead(n)`: what was returned is consumed. On a torn Channel a read returns at once (rule R58). -/
def Channel.afterRead (n : Nat) (c : Channel) : Channel :=
  if c.move.torn then c.move
  else { c.move with inBuf := c.move.inBuf.drop (c.readLimit n), timeout := c.waited n }

/-- The Channel after `ChWrite(s)` (rules R53, R58). -/
def Channel.afterWrite (bs : List Byte) (c : Channel) : Channel :=
  if c.move.torn then c.move else { c.move with outBuf := c.move.outBuf ++ bs }

/-- The Channel after `ChClear()` (rules R54, R58). -/
def Channel.afterClear (c : Channel) : Channel :=
  if c.move.torn then c.move else { c.move with inBuf := [], outBuf := [] }

/-- Bytes that arrive at an engine that is not reading: they join the unread input (rules R44, R58). -/
def Channel.arrive (bs : List Byte) (c : Channel) : Channel :=
  if c.torn then c else { c with inBuf := c.inBuf ++ bs }

/-- Bytes still unread in front of the unread input. -/
def Channel.unread (bs : List Byte) (c : Channel) : Channel := { c with inBuf := bs ++ c.inBuf }

/-- An observable event (rule R18). -/
def State.log (e : Event) (s : State) : State := { s with trace := e :: s.trace }

/-- `ChRead(n)`; the bytes are in `rd` (rules R12, R51). -/
def State.chRead (n : Nat) (s : State) : State :=
  { s with rd := s.chan.readBytes n, chan := s.chan.afterRead n,
           trace := .read n (s.chan.readBytes n) :: s.trace }

/-- `ChWrite(s)` (rules R12, R53). -/
def State.chWrite (bs : List Byte) (s : State) : State :=
  { s with chan := s.chan.afterWrite bs, trace := .write bs :: s.trace }

/-- `ChClear()` (rules R12, R54). -/
def State.chClear (s : State) : State :=
  { s with chan := s.chan.afterClear, trace := .clear :: s.trace }

/-- `ACKC`: an acknowledgement and the checksum-mode byte, two calls of one byte (rules R56, R97). -/
def State.ackCrq (s : State) : State := (s.chWrite [ACK]).chWrite [CRQ]

/-! ### The file interface (rule R13) -/

/-- The next file primitive returns `IoError` whatever the file is (U25). -/
def FileStore.ioError (f : FileStore) : Bool := f.ioErrors.headD false

/-- The file store after one more call. -/
def FileStore.called (f : FileStore) : FileStore := { f with ioErrors := f.ioErrors.tail }

/-- What `FileInfo(i)` returns; `none` is `IoError`. -/
def State.fileInfoAnswer (i : Nat) (s : State) : Option (List Byte × Nat) :=
  if s.store.ioError then none
  else
    match s.files[i]? with
    | none => none
    | some f => some (f.name, f.size)

/-- `FileInfo(i)`. -/
def State.fileInfo (i : Nat) (s : State) : State :=
  { s with store := s.store.called, trace := .fileInfo i (s.fileInfoAnswer i) :: s.trace }

/-- What `FileRead(i, offset, n)` returns: exactly `n` bytes or `IoError` (rule R13, U19). -/
def State.fileReadAnswer (i offset n : Nat) (s : State) : Option (List Byte) :=
  if s.store.ioError then none
  else
    match s.files[i]? with
    | none => none
    | some f => if offset + n ≤ f.data.length then some ((f.data.drop offset).take n) else none

/-- `FileRead(i, offset, n)`. -/
def State.fileRead (i offset n : Nat) (s : State) : State :=
  { s with store := s.store.called, trace := .fileRead i offset n (s.fileReadAnswer i offset n) :: s.trace }

/-- `FileOpen(name, size)` succeeds. -/
def State.fileOpenOk (s : State) : Bool := !s.store.ioError

/-- `FileOpen(name, size)`: a new, empty, open file (rule R42). -/
def State.fileOpen (name : List Byte) (size : Nat) (s : State) : State :=
  { s with
    store :=
      if s.fileOpenOk then
        { s.store.called with
          stored := { name := name, declared := size, data := [], closed := false } :: s.store.stored }
      else s.store.called,
    trace := .fileOpen name size s.fileOpenOk :: s.trace }

/-- The file opened last is open. -/
def FileStore.hasOpen (f : FileStore) : Bool :=
  match f.stored with
  | [] => false
  | x :: _ => !x.closed

/-- `FileWrite` and `FileClose` succeed: the interface gives no error and a file is open. -/
def State.fileUseOk (s : State) : Bool := !s.store.ioError && s.store.hasOpen

/-- The stored files with the file opened last changed. -/
def FileStore.updateLast (g : StoredFile → StoredFile) (f : FileStore) : FileStore :=
  match f.stored with
  | [] => f
  | x :: r => { f with stored := g x :: r }

/-- `FileWrite(bytes)`: appends to the file opened last (rules R13, R59). -/
def State.fileWrite (bs : List Byte) (s : State) : State :=
  { s with
    store :=
      if s.fileUseOk then s.store.called.updateLast (fun x => { x with data := x.data ++ bs })
      else s.store.called,
    trace := .fileWrite bs s.fileUseOk :: s.trace }

/-- `FileClose()`. -/
def State.fileClose (s : State) : State :=
  { s with
    store :=
      if s.fileUseOk then s.store.called.updateLast (fun x => { x with closed := true })
      else s.store.called,
    trace := .fileClose s.fileUseOk :: s.trace }

/-! ### The sequence pair (rules R24, R25) -/

/-- `SeqAdvance`. -/
def State.seqAdvance (s : State) : State := { s with seq0 := s.seq0 + 1#8, seq1 := s.seq1 - 1#8 }

/-- `seq0 <- 0x00; seq1 <- 0xFF` when `SEQ_RESET_PER_FILE` is true. -/
def State.seqReset (s : State) : State :=
  { s with seq0 := if s.cfg.seqResetPerFile then 0x00#8 else s.seq0,
           seq1 := if s.cfg.seqResetPerFile then 0xFF#8 else s.seq1 }

/-! ### Progress and exit (rules R232, R244) -/

/-- `Progress(done, total, elapsed)`: `elapsed` is a free value (rules R18, R34), drawn from the clock of the engine's role. That the
same role and count give the same value is this model's choice (DESIGN CHOICE, log entry 7). -/
def State.progress (done total : Nat) (s : State) : State :=
  { s with elapsed := Config.freeElapsed s.cfg.role s.draws, draws := s.draws + 1,
           trace := .progress done total (Config.freeElapsed s.cfg.role s.draws) :: s.trace }

/-- The attempt is over: no flag survives it (rule R36). -/
def State.endAttempt (s : State) : State := { s with outcome := none, hdr := none, pos := .none }

/-- The session ends in `Done` (rules R170, R194, R232). -/
def State.finish (s : State) : State :=
  { s.endAttempt with
    retry := 0, exitClass := .success, trace := .exit .success :: s.trace,
    txState := if s.cfg.role = .sender then .done else s.txState,
    rxState := if s.cfg.role = .receiver then .done else s.rxState }

/-! ### The abort path and the retry path (rules R227, R228, R231) -/

/-- `abort(class, cause)` (rule R231): no primitive is called. -/
def State.abort (c : ExitClass) (e : Cause) (s : State) : State :=
  { s.endAttempt with
    exitClass := c, lastErr := e, trace := .exit (.failure c e) :: s.trace,
    txState := if s.cfg.role = .sender then .aborted else s.txState,
    rxState := if s.cfg.role = .receiver then .aborted else s.rxState }

/-- The bound `b` of the current step (rule R227). -/
def State.bound (s : State) : Nat :=
  match s.cfg.role with
  | .sender => if s.txState = .awaitingEot then s.cfg.txEotRetries else s.cfg.txMaxRetries
  | .receiver => s.cfg.rxMaxRetries

/-- The abort class `K` of the current step (rules R176, R222, R228). -/
def State.abortClass (s : State) : ExitClass :=
  if s.cfg.role = .sender ∧ s.txState = .handshaking ∧ s.rehandshake = false then .handshakeFailed
  else .protocolAbort

/-- `state <- Handshaking` for a re-handshake (rule R176). -/
def State.backToHandshake (s : State) : State := { s with txState := .handshaking, rehandshake := true }

/-- What follows the `ChClear()` of the retry path: the receiver's optional `CRQ` (rule R205), the sender's optional
re-handshake (rule R176), and otherwise nothing. -/
def State.prepareRetry (s : State) : State :=
  match s.cfg.role with
  | .receiver =>
    if s.rxState = .awaitingHeader ∧ s.cfg.rxResendCrq = true then s.chWrite [CRQ] else s
  | .sender =>
    if s.txState = .sendingHeader ∧ s.cfg.txRehandshake = true then s.backToHandshake else s

/-- `last_err <- cause; retry <- retry + 1`, at the end of a failed attempt. -/
def State.countFailure (e : Cause) (s : State) : State := { s.endAttempt with lastErr := e, retry := s.retry + 1 }

/-- `fail(cause)`: the retry path (rule R228). -/
def State.fail (e : Cause) (s : State) : State :=
  if s.bound ≤ s.retry + 1 then (s.countFailure e).abort s.abortClass e else (s.countFailure e).chClear.prepareRetry

/-- `CancelTest()` (rule R94): a 0x18 has been read in marker or response position. -/
def State.cancelTest (s : State) : State :=
  if (s.chRead 1).rd = [CAN] then (s.chRead 1).abort .protocolAbort .cancelled else (s.chRead 1).fail .unrecognized

/-! ### Guards -/

/-- The session has ended in `Done` or `Aborted` (rules R171, R200). -/
def State.ended (s : State) : Bool :=
  match s.cfg.role with
  | .sender => decide (s.txState = .done ∨ s.txState = .aborted)
  | .receiver => decide (s.rxState = .done ∨ s.rxState = .aborted)

/-- An operation ends in its next state unless one of its reads is blocked for ever (U18). -/
def settle (k : Step State) : Step State :=
  match k with
  | .next t => if t.chan.timeout = .hung then .fault .readBlocked else .next t
  | .fault f => .fault f
  | .refused e => .refused e

/-- An operation on the line of a session that is running or not yet started (U17). -/
def whileOpen (s : State) (k : Step State) : Step State :=
  if s.ended then .refused .sessionEnded else settle k

/-- An operation of the sender's state `q` (U7, U17; 42_sender.md). At a sender that still waits for a response, where no rule calls it (R68,
R270) and `step` does not, it is a whole new attempt (DESIGN CHOICE, log entry 29). -/
def inTx (q : TxState) (s : State) (k : Step State) : Step State :=
  if s.ended then .refused .sessionEnded
  else if ¬ s.cfg.legal then .refused .badConfig
  else if s.cfg.role = .sender ∧ s.txState = q then settle k
  else .refused .notInState

/-- An operation of the receiver's state `q` (U7, U17; 43_receiver.md). -/
def inRx (q : RxState) (s : State) (k : Step State) : Step State :=
  if s.ended then .refused .sessionEnded
  else if ¬ s.cfg.legal then .refused .badConfig
  else if s.cfg.role = .receiver ∧ s.rxState = q then settle k
  else .refused .notInState

end Sys2Proof.Machine
end

