-- ==== Sys2Proof/Machine/Flags.lean ====
section
/-! DEFINITION. The block's flags: the decode outcome (rule R36), how it is computed from the received fields (rules
R140, R141), the cause each outcome stands for (rule R221), and the codes of the status registers (rule R233). -/

namespace Sys2Proof.Machine

/-- The cause an outcome gives a failed attempt (rules R36, R221). `Packet`, `Ctrl(EOT)` and `Ctrl(CAN)` are not errors of
the framer (rule R146); where a state fails on `Packet` or `Ctrl(EOT)` the cause is `Unexpected` (rule R199), and a single
`CAN` is `Unrecognized` (rule R94). -/
def DecodeOutcome.cause (d : DecodeOutcome) : Cause :=
  match d with
  | .packet => .unexpected
  | .ctrlNak => .nak
  | .ctrlEot => .unexpected
  | .ctrlCan => .unrecognized
  | .timeout => .timeout
  | .badSeqLow => .badSeqLow
  | .badSeqHigh => .badSeqHigh
  | .badChecksum => .badChecksum
  | .unrecognized => .unrecognized

/-- The checks of `DECODE`, made in this order after all bytes are in (rules R140, R141): `seq0`, `seq1`, checksum. The
checksum is computed only when both sequence bytes match. -/
def State.judge (e0 e1 : Byte) (s : State) : DecodeOutcome :=
  if s.rxS0 ≠ e0 then .badSeqLow
  else if s.rxS1 ≠ e1 then .badSeqHigh
  else if s.rxCrc ≠ crcOf (s.payload s.n) then .badChecksum
  else .packet

/-- The register `crc` after the checks. -/
def State.afterJudge (e0 e1 : Byte) (s : State) : State :=
  { s with crc := if s.rxS0 = e0 ∧ s.rxS1 = e1 then crcOf (s.payload s.n) else s.crc }

/-- The cause of a response byte that is not the expected one (rule R143). -/
def respCause (b : Byte) : Cause := if b = NAK then .nak else .unexpected

/-- The code of `exit_class` in a hardware status register (rule R233). -/
def ExitClass.code (c : ExitClass) : Nat :=
  match c with
  | .none => 0
  | .success => 1
  | .handshakeFailed => 2
  | .protocolAbort => 3
  | .localIoError => 4

/-- The code of `last_err` in a hardware status register (rule R233). -/
def Cause.code (e : Cause) : Nat :=
  match e with
  | .noError => 0
  | .timeout => 1
  | .badSeqLow => 2
  | .badSeqHigh => 3
  | .badChecksum => 4
  | .unrecognized => 5
  | .nak => 6
  | .unexpected => 7
  | .cancelled => 8
  | .ioError => 9

end Sys2Proof.Machine
end

