-- ==== Sys2Proof/Machine/Line.lean ====
section
/-! DEFINITION. The meanings of the Channel primitives (20_memory.md). No primitive is called after `Done` or `Aborted`
(rules R171, R200, U17). That one asked for by itself in a running session is performed, also while a response is owed, where R270 and U20 exclude
such use by the caller, is this model's choice (DESIGN CHOICE, log entry 30). -/

namespace Sys2Proof.Machine

/-- `CH.READ`: `ChRead(n)` (rules R51, R52). The bytes returned are in `rd`.By itself, log entry 30. -/
def execChRead (n : Nat) (s : State) : Step State := whileOpen s (.next (s.chRead n))

/-- `CH.WRITE`: `ChWrite(s)` (rule R53).By itself, log entry 30. -/
def execChWrite (bs : List Byte) (s : State) : Step State := whileOpen s (.next (s.chWrite bs))

/-- `CH.CLEAR`: `ChClear()` (rule R54).By itself, log entry 30. -/
def execChClear (s : State) : Step State := whileOpen s (.next s.chClear)

end Sys2Proof.Machine
end

