-- ==== Sys2Proof/Machine/Framer.lean ====
section
/-! DEFINITION. The packet framer (41_framer.md): the shared operations `encodeFrame` and `decodeUnit`, and the
meanings of `PAD`, `HDR.BUILD`, `HDR.PARSE`, `ENCODE`, `DECODE` and `READRESP`. -/

namespace Sys2Proof.Machine

/-! ### Building -/

/-- `ENCODE(m, s, p)` with `Size(m) = k` (rule R139). -/
def State.encodeFrame (m : Marker) (k : Nat) (sq : Byte) (p : List Byte) (s : State) : State :=
  { s with marker := m.byte, n := k, crc := crcOf p, frame := builtFrame m sq p }

/-! ### Decoding -/

/-- The second half of a frame, after the sequence bytes: payload, `crc_hi`, `crc_lo`, then the checks (rule R140). -/
def State.readPayload (e0 e1 : Byte) (s : State) : DecodeOutcome × State :=
  let s1 := s.chRead s.n
  if s1.rd.length < s.n then (.timeout, s1)
  else
    let s2 := (s1.setPayload s1.rd).chRead 1
    match s2.rd with
    | [] => (.timeout, s2)
    | hi :: _ =>
      let s3 := s2.chRead 1
      match s3.rd with
      | [] => (.timeout, s3)
      | lo :: _ =>
        let s4 := s3.setRxCrc (joinBytes hi lo)
        (s4.judge e0 e1, s4.afterJudge e0 e1)

/-- The frame after its marker: `seq0`, `seq1`, then the rest (rule R140). -/
def State.readFrame (e0 e1 : Byte) (s : State) : DecodeOutcome × State :=
  let s1 := s.chRead 1
  match s1.rd with
  | [] => (.timeout, s1)
  | a :: _ =>
    let s2 := (s1.setRxS0 a).chRead 1
    match s2.rd with
    | [] => (.timeout, s2)
    | b :: _ => (s2.setRxS1 b).readPayload e0 e1

/-- What `DECODE` does with the marker byte it has read (rules R91, R140). -/
def State.decodeMarker (e0 e1 : Byte) (s : State) : DecodeOutcome × State :=
  match symbolClass s.cfg.customSize s.marker with
  | .data _ k => (s.setN k).readFrame e0 e1
  | .control .eot => (.ctrlEot, s)
  | .control .nak => (.ctrlNak, s)
  | .control .can => (.ctrlCan, s)
  | .control _ => (.unrecognized, s)
  | .undefined => (.unrecognized, s)

/-- `DECODE(e0, e1)` (rule R140). -/
def State.decodeUnit (e0 e1 : Byte) (s : State) : DecodeOutcome × State :=
  let s1 := s.chRead 1
  match s1.rd with
  | [] => (.timeout, s1)
  | b :: _ => (s1.setMarker b).decodeMarker e0 e1

/-! ### The meanings -/

/-- `PAD(chunk, n)` (rule R133). The buffer has `PAYLOAD_MAX` bytes (rule R40). -/
def execPad (chunk : List Byte) (n : Nat) (s : State) : Step State :=
  if (padBytes chunk n).length ≤ s.cfg.payloadMax then .next (s.setPayload (padBytes chunk n))
  else .fault .bufferRange

/-- `HDR.BUILD(name, size)` (rules R134, R135). -/
def execHdrBuild (name : List Byte) (size : Nat) (s : State) : Step State :=
  if ¬ headerFits name size then .refused .unfitFile
  else if 128 ≤ s.cfg.payloadMax then .next (s.setPayload (headerBytes name size))
  else .fault .bufferRange

/-- `HDR.PARSE(p)` (rule R137). A `Bad` result is the outcome `FrameError.Unrecognized`. -/
def execHdrParse (p : List Byte) (s : State) : Step State :=
  let r := parseHeader s.cfg.sizeW p
  .next { s with hdr := some r, outcome := if r = .bad then some .unrecognized else s.outcome }

/-- `ENCODE(m, s, p)` (rule R139). It writes nothing to the Channel. -/
def execEncode (m : Marker) (sq : Byte) (p : List Byte) (s : State) : Step State :=
  match payloadSize s.cfg.customSize m with
  | none => .refused .sizeUndefined
  | some k => .next (s.encodeFrame m k sq p)

/-- `DECODE(e0, e1)` (rule R140); the outcome is held in `outcome`. -/
def execDecode (e0 e1 : Byte) (s : State) : Step State :=
  whileOpen s
    (if ¬ s.cfg.legal then .refused .badConfig
     else .next { (s.decodeUnit e0 e1).2 with outcome := some (s.decodeUnit e0 e1).1 })

/-- The sender's states with a retry bound, those in which it reads responses (rule R227). -/
def State.txBounded (s : State) : Bool :=
  decide (s.cfg.role = .sender) &&
    match s.txState with
    | .idle => false
    | .handshaking => true
    | .sendingHeader => true
    | .sendingData => true
    | .awaitingEot => true
    | .sendingTerminator => true
    | .done => false
    | .aborted => false

/-- `READRESP()` (rule R143); the byte is in `resp`, and the caller compares it. -/
def State.readResponse (s : State) : State :=
  match (s.chRead 1).rd with
  | [] => (s.chRead 1).fail .timeout
  | b :: _ => if b = CAN then ((s.chRead 1).setResp b).cancelTest else (s.chRead 1).setResp b

/-- `READRESP()` (rule R143), used by the sender in the states that read a response. -/
def execReadResp (s : State) : Step State :=
  whileOpen s (if s.txBounded then .next s.readResponse else .refused .notInState)

end Sys2Proof.Machine
end

