-- ==== Sys2Proof/Machine/Sender.lean ====
section
/-! DEFINITION. The sender state machine (42_sender.md): what a response byte does in each state, the "on entry" parts,
and the meanings of `TX.START`, `TX.HANDSHAKE`, `TX.HEADER`, `TX.DATA`, `TX.EOT` and `TX.TERM`. Each operation is one
whole attempt of its step. -/

namespace Sys2Proof.Machine

/-! ### Successful completion of a step -/

/-- The handshake is confirmed (rule R162); a re-handshake returns to the header with `retry` counting on and without a
fresh entry (rule R176). -/
def State.handshakeDone (s : State) : State :=
  { s.endAttempt with
    txState := .sendingHeader, rehandshake := false,
    retry := if s.rehandshake then s.retry else 0,
    fresh := if s.rehandshake then s.fresh else true }

/-- The header is acknowledged (rule R164). -/
def State.headerDone (s : State) : State :=
  { s.endAttempt.seqAdvance with
    retry := 0, offset := 0, bytesDone := 0, txState := .sendingData, fresh := true }

/-- The number of file bytes in the current data packet (rules R165, R166). -/
def State.take (s : State) : Nat := chunkTake s.cfg (s.size - s.offset)

/-- The data packet is acknowledged (rule R166). -/
def State.dataDone (s : State) : State :=
  { s.endAttempt.seqAdvance.progress (s.offset + s.take) s.size with
    offset := s.offset + s.take, bytesDone := s.offset + s.take, retry := 0,
    txState := if s.size ≤ s.offset + s.take then .awaitingEot else .sendingData,
    fresh := decide (s.offset + s.take < s.size) }

/-- The end of transmission is acknowledged (rule R168). -/
def State.eotDone (s : State) : State :=
  { s.endAttempt with
    retry := 0, fileIdx := s.fileIdx + 1, fresh := true,
    txState := if s.fileIdx + 1 < s.files.length then .sendingHeader else .sendingTerminator }

/-- The response byte a sender state waits for, first or second (rules R162, R164, R166, R168, R170). -/
def State.expected (s : State) : Byte :=
  match s.txState, s.pos with
  | .handshaking, _ => CRQ
  | .sendingHeader, .resp2 => CRQ
  | .awaitingEot, .resp2 => CRQ
  | _, _ => ACK

/-- The expected response byte is there. -/
def State.accepted (s : State) : State :=
  match s.txState with
  | .idle => s
  | .handshaking => s.handshakeDone
  | .sendingHeader => if s.pos = .resp2 then s.headerDone else s.setPos .resp2
  | .sendingData => s.dataDone
  | .awaitingEot => if s.pos = .resp2 then s.eotDone else s.setPos .resp2
  | .sendingTerminator => s.finish
  | .done => s
  | .aborted => s

/-- A response byte has been read (rules R92, R94, R143). -/
def State.onResponse (b : Byte) (s : State) : State :=
  if b = CAN then (s.setResp b).cancelTest
  else if b = s.expected then (s.setResp b).accepted
  else (s.setResp b).fail (respCause b)

/-- One `READRESP` and what its caller does with the byte (rule R143). -/
def State.awaitOne (s : State) : State :=
  match (s.chRead 1).rd with
  | [] => (s.chRead 1).fail .timeout
  | b :: _ => (s.chRead 1).onResponse b

/-- The sender writes its request and stands in the first response position. -/
def State.send (bs : List Byte) (s : State) : State := (s.chWrite bs).setPos .resp1

/-- One attempt: the request, the first response, and the second where the step has one. -/
def State.txAttempt (bs : List Byte) (s : State) : State :=
  if (s.send bs).awaitOne.pos = .resp2 then (s.send bs).awaitOne.awaitOne else (s.send bs).awaitOne

/-! ### Entry parts -/

/-- What an "on entry, once" part ends in. -/
inductive Entry where
  /-- The frame is built: the attempt follows. -/
  | ready (s : State)
  /-- The session has been aborted by a file error. -/
  | ended (s : State)
  /-- The file is outside the admitted inputs (U5). -/
  | unfit

/-- The frame of a header packet (rule R163). -/
def State.buildHeader (name : List Byte) (size : Nat) (s : State) : State :=
  let t := { s with size := size, fresh := false }.seqReset.setPayload (headerBytes name size)
  t.encodeFrame .soh 128 t.seq0 (t.payload 128)

/-- Entry to `SendingHeader` (rule R163); nothing on a re-attempt. -/
def State.enterHeader (s : State) : Entry :=
  if s.fresh = false then .ready s
  else
    match s.fileInfoAnswer s.fileIdx with
    | none => .ended ((s.fileInfo s.fileIdx).abort .localIoError .ioError)
    | some (name, size) =>
      if headerFits name size ∧ size < 2 ^ s.cfg.sizeW then
        .ready ((s.fileInfo s.fileIdx).buildHeader name size)
      else .unfit

/-- The frame of a data packet (rule R166). -/
def State.buildData (chunk : List Byte) (s : State) : State :=
  let k := chunkSize s.cfg (s.size - s.offset)
  let t := { s with fresh := false }.setPayload (padBytes chunk k)
  t.encodeFrame (chunkMarker s.cfg (s.size - s.offset)) k t.seq0 (t.payload k)

/-- Entry to `SendingData` (rule R166); nothing on a re-attempt. -/
def State.enterData (s : State) : Entry :=
  if s.fresh = false then .ready s
  else
    match s.fileReadAnswer s.fileIdx s.offset s.take with
    | none => .ended ((s.fileRead s.fileIdx s.offset s.take).abort .localIoError .ioError)
    | some chunk => .ready ((s.fileRead s.fileIdx s.offset s.take).buildData chunk)

/-- Entry to `SendingTerminator` (rule R169); nothing on a re-attempt. -/
def State.enterTerm (s : State) : State :=
  if s.fresh = false then s
  else
    let t := { s with fresh := false }.seqReset.setPayload (padBytes [] 128)
    t.encodeFrame .soh 128 t.seq0 (zeros 128)

/-- The attempt after an entry part. -/
def attemptAfter (e : Entry) : Step State :=
  match e with
  | .ready s => .next (s.txAttempt s.frame)
  | .ended s => .next s
  | .unfit => .refused .unfitFile

/-! ### Construction of a Session (rules R46, R161, R191, R260) -/

/-- The registers rule R46 gives a value, at that value; the others keep theirs. -/
def State.construct (cfg : Cfg) (files : List SrcFile) (s : State) : State :=
  { s.endAttempt with
    cfg := cfg, files := files, seq0 := 0x00#8, seq1 := 0xFF#8, retry := 0, marker := SOH, fileIdx := 0,
    offset := 0, written := 0, bytesDone := 0, elapsed := 0, exitClass := .none, lastErr := .noError,
    fresh := false, rehandshake := false }

/-- No Session has been constructed yet. -/
def State.unstarted (s : State) : Bool := decide (s.txState = .idle ∧ s.rxState = .idle)

/-! ### The meanings -/

/-- `TX.START` (rule R161). -/
def execTxStart (files : List SrcFile) (cfg : Cfg) (s : State) : Step State :=
  whileOpen s
    (if s.unstarted = false then .refused .notInState
     else if cfg.role ≠ .sender then .refused .wrongRole
     else if files = [] then .refused .emptyFileList
     else if ¬ cfg.legal then .refused .badConfig
     else .next { s.construct cfg files with txState := .handshaking })

/-- `TX.HANDSHAKE` (rule R162; as a re-handshake rule R176). -/
def execTxHandshake (s : State) : Step State := inTx .handshaking s (.next (s.txAttempt [CRQ]))

/-- `TX.HEADER` (rules R163, R164). -/
def execTxHeader (s : State) : Step State := inTx .sendingHeader s (attemptAfter s.enterHeader)

/-- `TX.DATA` (rules R165, R166). -/
def execTxData (s : State) : Step State := inTx .sendingData s (attemptAfter s.enterData)

/-- `TX.EOT` (rule R168). -/
def execTxEot (s : State) : Step State := inTx .awaitingEot s (.next (s.txAttempt [EOT]))

/-- `TX.TERM` (rules R169, R170). -/
def execTxTerm (s : State) : Step State :=
  inTx .sendingTerminator s (.next (s.enterTerm.txAttempt s.enterTerm.frame))

end Sys2Proof.Machine
end

