-- ==== Sys2Proof/Machine/Receiver.lean ====
section
/-! DEFINITION. The receiver state machine (43_receiver.md): what a decode outcome does in each state, and the meanings of
`RX.START`, `RX.HANDSHAKE`, `RX.HEADER`, `RX.DATA` and `RX.EOT`. Each operation is one whole attempt of its step. -/

namespace Sys2Proof.Machine

/-- Entry to `AwaitingHeader` (rule R193). -/
def State.enterAwaitHeader (s : State) : State :=
  { s.endAttempt.seqReset with rxState := .awaitingHeader }

/-- The header of a file has been accepted and its file is open (rule R194). -/
def State.headerAccepted (size : Nat) (s : State) : State :=
  { s.ackCrq.endAttempt.seqAdvance with
    size := size, written := 0, bytesDone := 0, retry := 0, rxState := .receivingData }

/-- A header packet has been decoded: its payload is `Buf[0:n]` (rules R194, R196). -/
def State.onHeader (s : State) : State :=
  match parseHeader s.cfg.sizeW (s.payload s.n) with
  | .null => (s.chWrite [ACK]).finish
  | .bad => s.fail .unrecognized
  | .file name size =>
    if s.fileOpenOk then (s.fileOpen name size).headerAccepted size
    else (s.fileOpen name size).abort .localIoError .ioError

/-- The outcome of `DECODE` in `AwaitingHeader` (rules R194, R195). -/
def State.headerOutcome (d : DecodeOutcome) (s : State) : State :=
  match d with
  | .packet => s.onHeader
  | .ctrlEot => s.ackCrq.enterAwaitHeader
  | .ctrlCan => s.cancelTest
  | .ctrlNak => s.fail .nak
  | .timeout => s.fail .timeout
  | .badSeqLow => s.fail .badSeqLow
  | .badSeqHigh => s.fail .badSeqHigh
  | .badChecksum => s.fail .badChecksum
  | .unrecognized => s.fail .unrecognized

/-- The number of payload bytes that belong to the file (rule R197). -/
def State.rxTake (s : State) : Nat := min s.n (s.size - s.written)

/-- A data packet whose bytes are in the file (rule R197): acknowledge, advance, report. -/
def State.dataAccepted (s : State) : State :=
  { (s.chWrite [ACK]).endAttempt.seqAdvance.progress s.written s.size with
    retry := 0, rxState := if s.size ≤ s.written then .awaitingNextOrEnd else .receivingData }

/-- `written <- written + take; bytes_done <- written`. -/
def State.count (take : Nat) (s : State) : State :=
  { s with written := s.written + take, bytesDone := s.written + take }

/-- A data packet whose bytes have been passed to `FileWrite`: count them, close the file after the last (rule R197). -/
def State.dataWritten (take : Nat) (s : State) : State :=
  if s.size ≤ s.written + take then
    (if s.fileUseOk then (s.count take).fileClose.dataAccepted
     else (s.count take).fileClose.abort .localIoError .ioError)
  else (s.count take).dataAccepted

/-- A data packet has been decoded: its payload is `Buf[0:n]` (rule R197). -/
def State.onData (s : State) : State :=
  if s.fileUseOk then (s.fileWrite ((s.payload s.n).take s.rxTake)).dataWritten s.rxTake
  else (s.fileWrite ((s.payload s.n).take s.rxTake)).abort .localIoError .ioError

/-- The outcome of `DECODE` in `ReceivingData` (rules R197, R199). -/
def State.dataOutcome (d : DecodeOutcome) (s : State) : State :=
  match d with
  | .packet => s.onData
  | .ctrlEot => s.fail .unexpected
  | .ctrlCan => s.cancelTest
  | .ctrlNak => s.fail .nak
  | .timeout => s.fail .timeout
  | .badSeqLow => s.fail .badSeqLow
  | .badSeqHigh => s.fail .badSeqHigh
  | .badChecksum => s.fail .badChecksum
  | .unrecognized => s.fail .unrecognized

/-- The outcome of `DECODE` in `AwaitingNextOrEnd` (rules R198, R199). -/
def State.eotOutcome (d : DecodeOutcome) (s : State) : State :=
  match d with
  | .packet => s.fail .unexpected
  | .ctrlEot => { s.ackCrq with retry := 0 }.enterAwaitHeader
  | .ctrlCan => s.cancelTest
  | .ctrlNak => s.fail .nak
  | .timeout => s.fail .timeout
  | .badSeqLow => s.fail .badSeqLow
  | .badSeqHigh => s.fail .badSeqHigh
  | .badChecksum => s.fail .badChecksum
  | .unrecognized => s.fail .unrecognized

/-- `DECODE(seq0, seq1)`, as every receiver state calls it. -/
def State.rxDecode (s : State) : DecodeOutcome × State := s.decodeUnit s.seq0 s.seq1

/-! ### The meanings -/

/-- `RX.START` (rule R191). -/
def execRxStart (cfg : Cfg) (s : State) : Step State :=
  whileOpen s
    (if s.unstarted = false then .refused .notInState
     else if cfg.role ≠ .receiver then .refused .wrongRole
     else if ¬ cfg.legal then .refused .badConfig
     else .next { s.construct cfg s.files with rxState := .handshaking })

/-- `RX.HANDSHAKE` (rules R192, R193). -/
def execRxHandshake (s : State) : Step State :=
  inRx .handshaking s (.next (s.chWrite [CRQ]).enterAwaitHeader)

/-- `RX.HEADER` (rules R194 to R196). -/
def execRxHeader (s : State) : Step State :=
  inRx .awaitingHeader s (.next (s.rxDecode.2.headerOutcome s.rxDecode.1))

/-- `RX.DATA` (rules R197, R199). -/
def execRxData (s : State) : Step State :=
  inRx .receivingData s (.next (s.rxDecode.2.dataOutcome s.rxDecode.1))

/-- `RX.EOT` (rules R198, R199). -/
def execRxEot (s : State) : Step State :=
  inRx .awaitingNextOrEnd s (.next (s.rxDecode.2.eotOutcome s.rxDecode.1))

end Sys2Proof.Machine
end

