-- ==== Sys2Proof/Machine/Symbols.lean ====
section
/-! DEFINITION. The meanings of the eight wire symbols: what an engine does with a unit of the line where it stands (rules
R82, R91, R92). A receiver in a state that decodes stands in marker position; a sender that has written its request
stands in response position; any other engine is not reading, and what arrives joins the unread input (rule R44). -/

namespace Sys2Proof.Machine

/-- Where an engine stands when a unit of the line reaches it. -/
inductive Standing where
  | marker
  | response
  | deaf
deriving DecidableEq, Repr

/-- The receiver's states that call `DECODE` (rules R194, R197, R198). -/
def State.rxDecoding (s : State) : Bool :=
  decide (s.cfg.role = .receiver) &&
    match s.rxState with
    | .idle => false
    | .handshaking => false
    | .awaitingHeader => true
    | .receivingData => true
    | .awaitingNextOrEnd => true
    | .done => false
    | .aborted => false

/-- The position the engine reads in. -/
def State.standing (s : State) : Standing :=
  if s.rxDecoding then .marker
  else if s.txBounded = true ∧ s.pos ≠ .none then .response
  else .deaf

/-- The receiver acts on a decode outcome in its current state. -/
def State.receive (d : DecodeOutcome) (s : State) : State :=
  match s.rxState with
  | .idle => s
  | .handshaking => s
  | .awaitingHeader => s.headerOutcome d
  | .receivingData => s.dataOutcome d
  | .awaitingNextOrEnd => s.eotOutcome d
  | .done => s
  | .aborted => s

/-- The unit is bytes on the line of an engine that is not reading. -/
def State.arrive (bs : List Byte) (s : State) : State := { s with chan := s.chan.arrive bs }

/-- A control symbol `b`, whose outcome in marker position is `d`. -/
def State.onControl (b : Byte) (d : DecodeOutcome) (s : State) : State :=
  match s.standing with
  | .marker => (s.setMarker b).receive d
  | .response => s.onResponse b
  | .deaf => s.arrive [b]

/-- The registers of a whole frame as `DECODE` reads them (rule R140). -/
def State.latchFrame (m : Marker) (s0 s1 : Byte) (p : List Byte) (c : Half) (s : State) : State :=
  { s.setPayload p with marker := m.byte, n := p.length, rxS0 := s0, rxS1 := s1, rxCrc := c }

/-- A whole frame in marker position: the checks of `DECODE` and the state's reaction. -/
def State.receiveFrame (m : Marker) (s0 s1 : Byte) (p : List Byte) (c : Half) (s : State) : State :=
  let t := s.latchFrame m s0 s1 p c
  (t.afterJudge t.seq0 t.seq1).receive (t.judge t.seq0 t.seq1)

/-- The bytes of a frame after its marker, still unread. -/
def State.leaveBody (m : Marker) (s0 s1 : Byte) (p : List Byte) (c : Half) (s : State) : State :=
  { s with chan := s.chan.unread (frameBytes m s0 s1 p c).tail }

/-- A frame in marker position that was built for another payload size than the receiver's `Size` of its marker (rules R132, R275): the
receiver reads its own `k` payload bytes, and the checksum after them, from the body and whatever follows it. A frame whose bytes hold a right
checksum there is accepted, as the algorithm of rule R140 has it, although R275 says that none ever is (DESIGN CHOICE, log entry 28). -/
def State.receiveResized (m : Marker) (k : Nat) (s0 s1 : Byte) (p : List Byte) (c : Half) (s : State) : State :=
  let t := ((s.leaveBody m s0 s1 p c).setMarker m.byte).setN k
  (t.readFrame t.seq0 t.seq1).2.receive (t.readFrame t.seq0 t.seq1).1

/-- A data frame at an engine. In response position its first byte is an unexpected response and the others stay unread
(rule R143); in marker position `CUS` with the custom size disabled is an unrecognised marker and the others stay unread
(rules R91, R275). -/
def State.onFrame (m : Marker) (s0 s1 : Byte) (p : List Byte) (c : Half) (s : State) : Step State :=
  match s.standing with
  | .marker =>
    if ¬ s.cfg.legal then .refused .badConfig
    else
      match payloadSize s.cfg.customSize m with
      | none => .next (((s.leaveBody m s0 s1 p c).setMarker m.byte).receive .unrecognized)
      | some k => .next (if p.length = k then s.receiveFrame m s0 s1 p c else s.receiveResized m k s0 s1 p c)
  | .response => .next ((s.leaveBody m s0 s1 p c).onResponse m.byte)
  | .deaf => .next (s.arrive (frameBytes m s0 s1 p c))

/-! ### The meanings -/

/-- `SOH`: a frame with a 128-byte payload (rules R91, R140). A payload of another size is read as rule R275 says. -/
def execSoh (s0 s1 : Byte) (p : List Byte) (c : Half) (s : State) : Step State :=
  settle (s.onFrame .soh s0 s1 p c)

/-- `STX`: a frame with a 1024-byte payload (rules R91, R140). A payload of another size is read as rule R275 says. -/
def execStx (s0 s1 : Byte) (p : List Byte) (c : Half) (s : State) : Step State :=
  settle (s.onFrame .stx s0 s1 p c)

/-- `CUS`: a frame with a `CUSTOMSIZE`-byte payload (rules R91, R140), or with that of a peer whose `CUSTOMSIZE` differs (rule R275). -/
def execCus (s0 s1 : Byte) (p : List Byte) (c : Half) (s : State) : Step State :=
  settle (s.onFrame .cus s0 s1 p c)

/-- `EOT` (rules R195, R198, R199); an unexpected byte in response position. -/
def execEot (s : State) : Step State := settle (.next (s.onControl EOT .ctrlEot))

/-- `ACK` (rule R143); unrecognised in marker position (rule R91). -/
def execAck (s : State) : Step State := settle (.next (s.onControl ACK .unrecognized))

/-- `NAK` (rules R140, R143): a failed attempt in either position. -/
def execNak (s : State) : Step State := settle (.next (s.onControl NAK .ctrlNak))

/-- `CAN` (rule R94): the cancel test in either position. -/
def execCan (s : State) : Step State := settle (.next (s.onControl CAN .ctrlCan))

/-- `CRQ` (rules R162, R164, R168); unrecognised in marker position (rule R91). -/
def execCrq (s : State) : Step State := settle (.next (s.onControl CRQ .unrecognized))

end Sys2Proof.Machine
end

