-- ==== Sys2Proof/Machine/Sequencer.lean ====
section
/-! DEFINITION. What `step` performs next: the state register is the block's program counter (rule R35) and names the
operation. Also where a unit of the line stands when an engine reads it next. -/

namespace Sys2Proof.Machine

/-- The sender's operation by `tx_state` (rules R160, R172, R261). -/
def State.txOp (s : State) : Option Instr :=
  match s.txState with
  | .idle => some (.txStart s.files s.cfg)
  | .handshaking => some .txHandshake
  | .sendingHeader => some .txHeader
  | .sendingData => some .txData
  | .awaitingEot => some .txEot
  | .sendingTerminator => some .txTerm
  | .done => none
  | .aborted => none

/-- The receiver's operation by `rx_state` (rules R190, R202, R261). -/
def State.rxOp (s : State) : Option Instr :=
  match s.rxState with
  | .idle => some (.rxStart s.cfg)
  | .handshaking => some .rxHandshake
  | .awaitingHeader => some .rxHeader
  | .receivingData => some .rxData
  | .awaitingNextOrEnd => some .rxEot
  | .done => none
  | .aborted => none

/-- The operation the engine performs next; none after `Done` or `Aborted`. -/
def State.nextOp (s : State) : Option Instr :=
  match s.cfg.role with
  | .sender => s.txOp
  | .receiver => s.rxOp

/-- A quiet Channel with given bytes in front of its unread input. -/
def Channel.holding (bs : List Byte) (c : Channel) : Channel :=
  { c with inBuf := bs ++ c.inBuf, torn := false, script := [], again := [], timeout := .finite }

/-- A receiver that waits for a header, the unit the next to be read. -/
def State.placeMarker (bs : List Byte) (s : State) : State :=
  { s with cfg := { s.cfg with role := .receiver }, txState := .idle, rxState := .awaitingHeader, pos := .none,
           chan := s.chan.holding bs }

/-- A sender in a given state that has written its request, the response the next byte to be read. -/
def State.placeResponse (q : TxState) (bs : List Byte) (s : State) : State :=
  { s with cfg := { s.cfg with role := .sender }, txState := q, rxState := .idle, pos := .resp1,
           chan := s.chan.holding bs }

/-- The engine whose next step reads and runs a given unit (log entry 12): `ACK` and `CRQ` are recognised in response
position, every other symbol in marker position (rule R81). `CUS` needs the custom size of the table. -/
def State.placeUnit (i : Instr) (s : State) : State :=
  match i with
  | .ack => s.placeResponse .awaitingEot (encode .ack)
  | .crq => s.placeResponse .handshaking (encode .crq)
  | .cus s0 s1 p c =>
    { s with cfg := { s.cfg with customSize := p.length } }.placeMarker (encode (.cus s0 s1 p c))
  | .soh s0 s1 p c => s.placeMarker (encode (.soh s0 s1 p c))
  | .stx s0 s1 p c => s.placeMarker (encode (.stx s0 s1 p c))
  | .eot => s.placeMarker (encode .eot)
  | .nak => s.placeMarker (encode .nak)
  | .can => s.placeMarker (encode .can)
  | .chRead _ => s
  | .chWrite _ => s
  | .chClear => s
  | .crcInit => s
  | .crcByte _ => s
  | .crc16 _ => s
  | .pad _ _ => s
  | .hdrBuild _ _ => s
  | .hdrParse _ => s
  | .encode _ _ _ => s
  | .decode _ _ => s
  | .readResp => s
  | .txStart _ _ => s
  | .txHandshake => s
  | .txHeader => s
  | .txData => s
  | .txEot => s
  | .txTerm => s
  | .rxStart _ => s
  | .rxHandshake => s
  | .rxHeader => s
  | .rxData => s
  | .rxEot => s

/-- A word of the opcode table on the line. A word that begins no unit is placed as its own bytes. -/
def State.placeWord (nbits w : Nat) (s : State) : State :=
  match decodeTableWord nbits w with
  | some i => s.placeUnit i
  | none => s.placeMarker (wordBytes ((nbits + 7) / 8) w)

end Sys2Proof.Machine
end

