-- ==== Sys2Proof/Machine/Dispatch.lean ====
section
/-! DEFINITION. One arm per operation of the table: its meaning. -/

namespace Sys2Proof.Machine

def exec (i : Instr) (s : State) : Host.Outcome State Fault Refusal :=
  match i with
  | .soh s0 s1 payload crc => Sys2Proof.Machine.execSoh s0 s1 payload crc s
  | .stx s0 s1 payload crc => Sys2Proof.Machine.execStx s0 s1 payload crc s
  | .cus s0 s1 payload crc => Sys2Proof.Machine.execCus s0 s1 payload crc s
  | .eot => Sys2Proof.Machine.execEot s
  | .ack => Sys2Proof.Machine.execAck s
  | .nak => Sys2Proof.Machine.execNak s
  | .can => Sys2Proof.Machine.execCan s
  | .crq => Sys2Proof.Machine.execCrq s
  | .chRead n => Sys2Proof.Machine.execChRead n s
  | .chWrite bs => Sys2Proof.Machine.execChWrite bs s
  | .chClear => Sys2Proof.Machine.execChClear s
  | .crcInit => Sys2Proof.Machine.execCrcInit s
  | .crcByte b => Sys2Proof.Machine.execCrcByte b s
  | .crc16 bs => Sys2Proof.Machine.execCrc16 bs s
  | .pad chunk n => Sys2Proof.Machine.execPad chunk n s
  | .hdrBuild name size => Sys2Proof.Machine.execHdrBuild name size s
  | .hdrParse p => Sys2Proof.Machine.execHdrParse p s
  | .encode m sq p => Sys2Proof.Machine.execEncode m sq p s
  | .decode e0 e1 => Sys2Proof.Machine.execDecode e0 e1 s
  | .readResp => Sys2Proof.Machine.execReadResp s
  | .txStart files cfg => Sys2Proof.Machine.execTxStart files cfg s
  | .txHandshake => Sys2Proof.Machine.execTxHandshake s
  | .txHeader => Sys2Proof.Machine.execTxHeader s
  | .txData => Sys2Proof.Machine.execTxData s
  | .txEot => Sys2Proof.Machine.execTxEot s
  | .txTerm => Sys2Proof.Machine.execTxTerm s
  | .rxStart cfg => Sys2Proof.Machine.execRxStart cfg s
  | .rxHandshake => Sys2Proof.Machine.execRxHandshake s
  | .rxHeader => Sys2Proof.Machine.execRxHeader s
  | .rxData => Sys2Proof.Machine.execRxData s
  | .rxEot => Sys2Proof.Machine.execRxEot s

end Sys2Proof.Machine
end

