-- ==== Sys2Proof/Machine/Step.lean ====
section
/-! DEFINITION. One step of the machine. A sender that stands in response position reads one response byte and acts on it;
otherwise the engine performs the operation its state register names. After `Done` or `Aborted` there is no step
(rules R171, R200, U17). -/

namespace Sys2Proof.Machine

def step (s : State) : Host.Outcome State Fault Refusal :=
  if s.standing = .response then settle (.next s.awaitOne)
  else
    match s.nextOp with
    | some i => exec i s
    | none => .refused .sessionEnded

def State.withFetchWord (s : State) (nbits w : Nat) : State := s.placeWord nbits w

end Sys2Proof.Machine
end

