-- ==== Sys2Proof/Machine/Link.lean ====
section
/-! DEFINITION. Two engines at the two ends of a line (rules R17, R241): one sender and one receiver joined by two
one-directional byte queues. A move lets one engine make progress up to its next wait; the order of the moves is the
schedule, which the environment chooses (rule R57), and a move says what of the bytes in flight the line delivers. -/

namespace Sys2Proof.Machine

/-- The sender's half attempt: its "on entry" part and the request, up to the wait for the response. -/
def State.txBegin (s : State) : Step State :=
  match s.txState with
  | .idle => execTxStart s.files s.cfg s
  | .handshaking => inTx .handshaking s (.next (s.send [CRQ]))
  | .sendingHeader => inTx .sendingHeader s (beginAfter s.enterHeader)
  | .sendingData => inTx .sendingData s (beginAfter s.enterData)
  | .awaitingEot => inTx .awaitingEot s (.next (s.send [EOT]))
  | .sendingTerminator => inTx .sendingTerminator s (.next (s.enterTerm.send s.enterTerm.frame))
  | .done => .refused .sessionEnded
  | .aborted => .refused .sessionEnded
where
  /-- The request after an entry part. -/
  beginAfter (e : Entry) : Step State :=
    match e with
    | .ready t => .next (t.send t.frame)
    | .ended t => .next t
    | .unfit => .refused .unfitFile

/-- The sender's move: the request, or one response byte. -/
def State.txMove (s : State) : Step State :=
  if s.standing = .response then settle (.next s.awaitOne) else s.txBegin

/-- All unflushed output leaves for the peer. On a torn Channel none does, as in `Channel.move`: rule R58 does not say what becomes of
output that is still unflushed at the teardown (DESIGN CHOICE, log entry 27). -/
def Channel.flushed (c : Channel) : Channel :=
  if c.torn then c else { c with wire := c.wire ++ c.outBuf, outBuf := [] }

/-- All unflushed output of an engine leaves for the peer, if its Channel is not torn down. -/
def State.flushed (s : State) : State := { s with chan := s.chan.flushed }

/-- A sender and a receiver, and how many of the bytes each has sent have come to the other. -/
structure Link where
  tx : State
  rx : State
  txSent : Nat
  rxSent : Nat
deriving DecidableEq, Repr

/-- A move: which engine, and what it receives in place of the bytes in flight to it; `none` when the line delivers them
unchanged (rule R57). -/
inductive LinkMove where
  | tx (instead : Option (List Byte))
  | rx (instead : Option (List Byte))
deriving DecidableEq, Repr

/-- The bytes in flight from an engine that has sent `wire`, of which `k` have been delivered. -/
def inFlight (s : State) (k : Nat) : List Byte := s.flushed.chan.wire.drop k

/-- The sender moves. -/
def Link.moveTx (instead : Option (List Byte)) (l : Link) : Step Link :=
  match (l.tx.arrive (instead.getD (inFlight l.rx l.rxSent))).txMove with
  | .next t => .next { l with tx := t, rx := l.rx.flushed, rxSent := l.rx.flushed.chan.wire.length }
  | .fault f => .fault f
  | .refused r => .refused r

/-- The receiver moves: one step. -/
def Link.moveRx (instead : Option (List Byte)) (l : Link) : Step Link :=
  match step (l.rx.arrive (instead.getD (inFlight l.tx l.txSent))) with
  | .next r => .next { l with rx := r, tx := l.tx.flushed, txSent := l.tx.flushed.chan.wire.length }
  | .fault f => .fault f
  | .refused r => .refused r

/-- One move of the link. -/
def Link.step (m : LinkMove) (l : Link) : Step Link :=
  match m with
  | .tx instead => l.moveTx instead
  | .rx instead => l.moveRx instead

/-- A schedule, one move after another. -/
def Link.run (ms : List LinkMove) (l : Link) : Step Link :=
  match ms with
  | [] => .next l
  | m :: r =>
    match l.step m with
    | .next l' => l'.run r
    | .fault f => .fault f
    | .refused e => .refused e

end Sys2Proof.Machine
end

