-- ==== Sys2Proof/Safety.lean ====
section
/-! DEFINITION. What the claims about runs are stated in: the invariants of a session, the writes a role may make, and
runs of several operations. -/

namespace Sys2Proof.Machine

/-! ### Invariants -/

/-- `seq1 = 0xFF - seq0` (rule R26). -/
abbrev State.seqInv (s : State) : Prop := s.seq1 = 0xFF#8 - s.seq0

/-- A session has been constructed and has not ended. -/
abbrev State.running (s : State) : Prop := s.unstarted = false ∧ s.ended = false

/-- The frame held is one that rule R131 allows, with the current sequence byte. -/
abbrev State.frameOk (s : State) : Prop :=
  ∃ m p, payloadSize s.cfg.customSize m = some p.length ∧ s.frame = builtFrame m s.seq0 p

/-- The sender holds a frame for its step: it is in a state that sends one and the entry part is done, or it
re-handshakes for a header (rule R176). -/
abbrev State.holdsFrame (s : State) : Prop :=
  (s.fresh = false ∧ (s.txState = .sendingHeader ∨ s.txState = .sendingData ∨ s.txState = .sendingTerminator)) ∨
    (s.txState = .handshaking ∧ s.rehandshake = true)

/-- The sender's states in which a file of the list is being sent. -/
abbrev State.inFile (s : State) : Prop :=
  s.txState = .sendingHeader ∨ s.txState = .sendingData ∨ s.txState = .awaitingEot

/-- The receiver's file in progress: the bytes passed to `FileWrite` so far, `written` of them, not closed (rules R32,
R204, U12). -/
abbrev FileStore.inProgress (f : FileStore) (size written : Nat) : Prop :=
  ∃ x r, f.stored = x :: r ∧ x.closed = false ∧ x.declared = size ∧ x.data.length = written

/-- The receiver's file that is complete: exactly the declared size, closed (rules R197, R204). -/
abbrev FileStore.complete (f : FileStore) (size : Nat) : Prop :=
  ∃ x r, f.stored = x :: r ∧ x.closed = true ∧ x.declared = size ∧ x.data.length = size

/-- The invariant of a session. -/
structure State.Inv (s : State) : Prop where
  /-- Rule R26. -/
  seq : s.seqInv
  /-- The payload buffer is in canonical form. -/
  buf : s.buf.wf
  /-- A session is constructed only under a legal configuration (U7). -/
  legal : s.unstarted = false → s.cfg.legal
  /-- Only the state register of the role moves (rule R238). -/
  senderOnly : s.cfg.role = .sender → s.rxState = .idle
  receiverOnly : s.cfg.role = .receiver → s.txState = .idle
  /-- The retry counter has not reached the bound of the step (rule R228). -/
  retry : s.running → s.retry < s.bound
  /-- The exit class is set exactly at the end (rules R37, R232). -/
  exitNone : s.exitClass = .none ↔ s.ended = false
  exitDone : s.exitClass = .success ↔
    (s.cfg.role = .sender ∧ s.txState = .done) ∨ (s.cfg.role = .receiver ∧ s.rxState = .done)
  /-- `bytes_done` follows `offset` or `written` (rule R34). -/
  doneTx : s.cfg.role = .sender → s.bytesDone = s.offset
  doneRx : s.cfg.role = .receiver → s.bytesDone = s.written
  /-- A file of the list is being sent, and no more of it than there is (rules R30, R32). -/
  fileIdx : s.inFile → s.fileIdx < s.files.length
  firstFile : s.txState = .handshaking → s.fileIdx < s.files.length
  offset : s.txState = .sendingData → s.offset ≤ s.size
  allSent : s.txState = .awaitingEot → s.offset = s.size
  /-- The frame held is a frame of rule R131, and a wait for a response follows a request that has been built. -/
  frame : s.holdsFrame → s.frameOk
  rehandshake : s.txState = .handshaking → s.rehandshake = true → s.fresh = false
  built : s.pos ≠ .none → s.cfg.role = .sender ∧
    (s.txState = .sendingHeader ∨ s.txState = .sendingData ∨ s.txState = .sendingTerminator → s.fresh = false)
  /-- The receiver's file (rules R32, R197, R204). -/
  receiving : s.rxState = .receivingData → s.written ≤ s.size ∧ s.store.inProgress s.size s.written
  received : s.rxState = .awaitingNextOrEnd → s.written = s.size ∧ s.store.complete s.size

/-! ### What a role may write -/

/-- The one-byte requests of the sender and its frames (rules R131, R175). -/
abbrev senderWrites (customSize : Nat) (bs : List Byte) : Prop :=
  bs = [CRQ] ∨ bs = [EOT] ∨ ∃ m sq p, payloadSize customSize m = some p.length ∧ bs = builtFrame m sq p

/-- The bytes of the receiver (rule R201). -/
abbrev receiverWrites (bs : List Byte) : Prop := bs = [CRQ] ∨ bs = [ACK]

/-! ### Runs of operations -/

/-- Operations one after another, stopping at the first that does not answer a next state. -/
def execAll (is : List Instr) (s : State) : Step State :=
  match is with
  | [] => .next s
  | i :: r =>
    match exec i s with
    | .next t => execAll r t
    | .fault f => .fault f
    | .refused e => .refused e

/-- The sizes of the reads that take one unit from the line (rule R55). -/
def unitReads (i : Instr) : List Nat :=
  match i with
  | .soh _ _ p _ => [1, 1, 1, p.length, 1, 1]
  | .stx _ _ p _ => [1, 1, 1, p.length, 1, 1]
  | .cus _ _ p _ => [1, 1, 1, p.length, 1, 1]
  | _ => [1]

/-- The state after reads of given sizes, whatever they return. -/
def State.afterReads (ns : List Nat) (s : State) : State := ns.foldl (fun t n => t.chRead n) s

/-- The line is quiet: not torn down, nothing scripted, and the reads have a timeout, so that they return what is there (rule R57's ideal
environment; rule R263 (a)). -/
abbrev State.quiet (s : State) : Prop :=
  s.chan.torn = false ∧ s.chan.script = [] ∧ s.chan.again = [] ∧ s.chan.timeout = .finite

/-- No read of the engine is blocked for ever (U18). -/
abbrev State.live (s : State) : Prop := s.chan.timeout ≠ .hung

/-- The data markers of the packets in which `remaining` more bytes of a file are sent, in order, by repeated choice of rule R165; `fuel`
bounds their number. -/
def packetsFor (c : Cfg) (fuel remaining : Nat) : List Marker :=
  match fuel with
  | 0 => []
  | f + 1 =>
    chunkMarker c remaining ::
      (if remaining ≤ chunkTake c remaining then [] else packetsFor c f (remaining - chunkTake c remaining))

end Sys2Proof.Machine
end

