-- ==== Sys2Proof/Certificates/Slice0/Obligations.lean ====
section
/-! DEFINITION. The statements about the model, for the provers. Byte values and formulas are written out from the rules, not
through the model's own names for them, where that is possible. -/

open Sys2Proof Sys2Proof.Machine

/-! ### Encoding -/

/-- Words written out from rule R81 and rule R83 decode to the units they stand for. -/
def Obligations.SymbolWordsDecode : Prop :=
  decode 0 [0x04#8] = .ok (.eot, []) ∧ decode 0 [0x06#8] = .ok (.ack, []) ∧
  decode 0 [0x15#8] = .ok (.nak, []) ∧ decode 0 [0x18#8] = .ok (.can, []) ∧
  decode 0 [0x43#8] = .ok (.crq, []) ∧
  decode 0 ([0x01#8, 0x80#8, 0x7F#8] ++ List.replicate 128 0x68#8 ++ [0xA5#8, 0x46#8, 0x06#8]) =
    .ok (.soh 0x80#8 0x7F#8 (List.replicate 128 0x68#8) 0xA546#16, [0x06#8]) ∧
  decode 0 ([0x02#8, 0x01#8, 0xFE#8] ++ List.replicate 1024 0xFF#8 ++ [0xC0#8, 0x84#8]) =
    .ok (.stx 0x01#8 0xFE#8 (List.replicate 1024 0xFF#8) 0xC084#16, []) ∧
  decode 2 [0x03#8, 0x05#8, 0xFA#8, 0x11#8, 0x22#8, 0x2B#8, 0xF5#8] =
    .ok (.cus 0x05#8 0xFA#8 [0x11#8, 0x22#8] 0x2BF5#16, [])

/-- Decoding the bytes of a well-formed wire symbol, with anything after them, gives it back and leaves what follows (rules
R83, R84): no bit of an encoding is dropped. -/
def Obligations.DecodeEncode : Prop :=
  ∀ (c : Cfg) (i : Instr) (rest : List Byte), i.wf c = true → i.onWire = true →
    decode c.customSize (encode i ++ rest) = .ok (i, rest)

/-- A unit the decoder accepts encodes to exactly the bytes it took, so each byte string has one reading; a byte that is none of the eight
symbols begins no unit, and neither does 0x03 with the custom size disabled (rules R91, R93). -/
def Obligations.DecodeUnambiguous : Prop :=
  (∀ (k : Nat) (bs : List Byte) (i : Instr) (rest : List Byte),
    decode k bs = .ok (i, rest) → encode i ++ rest = bs ∧ i.onWire = true) ∧
  (∀ k b r, b ∉ [0x01#8, 0x02#8, 0x03#8, 0x04#8, 0x06#8, 0x15#8, 0x18#8, 0x43#8] →
    decode k (b :: r) = .error (.unrecognized b)) ∧
  ∀ r, decode 0 (0x03#8 :: r) = .error (.unrecognized 0x03#8)

/-! ### Checksum engine -/

/-- `CRC.INIT` loads 0x0000, `CRC.BYTE` applies the source's formula, on unbounded naturals with its masks, and `CRC16(s)` is `CRC.INIT` and
then `CRC.BYTE` of each byte in order (rules R97, R111, R112, R115); nothing but `crc` changes. -/
def Obligations.CrcOperations : Prop :=
  (∀ s, exec .crcInit s = .next { s with crc := 0x0000#16 }) ∧
  (∀ (b : Byte) (s : State),
    exec (.crcByte b) s = .next { s with
      crc := BitVec.ofNat 16
        (((s.crc.toNat <<< 8) ^^^
          (crcRom (BitVec.ofNat 8 (((s.crc.toNat >>> 8) ^^^ b.toNat) &&& 0xFF))).toNat) &&& 0xFFFF) }) ∧
  ∀ (bs : List Byte) (s : State),
    exec (.crc16 bs) s = execAll (.crcInit :: bs.map Instr.crcByte) s ∧
    ∃ c, exec (.crc16 bs) s = .next { s with crc := c }

/-- The table ROM holds the 256 printed entries (rule R114), the first two of which are the source's (rule R39). The other 254 are the spec's own
inference from rule R113 (R114: `[derived: from rule R113]`; decision D26). -/
def Obligations.RomListing : Prop :=
  (∀ i : Byte, crcRomListing[i.toNat]? = some (crcRom i)) ∧ crcRomListing.length = 256 ∧
    crcRom 0#8 = 0x0000#16 ∧ crcRom 1#8 = 0x1021#16

/-- The table-driven byte update equals the bit-serial form: the spec's own inference (R116: `[derived: from rule R112 and rule R113]`). -/
def Obligations.BitSerial : Prop :=
  ∀ (b : Byte) (s : State), ∃ t, exec (.crcByte b) s = .next t ∧
    t.crc = Nat.repeat
      (fun c : Half => if 0x8000 ≤ c.toNat then (c <<< 1) ^^^ 0x1021#16 else c <<< 1) 8
      (s.crc ^^^ (b.setWidth 16 <<< 8))

/-- The consequences of the zero initial value (rule R118): zeros, leading zeros, linearity, residue. -/
def Obligations.CrcLaws : Prop :=
  (∀ k, crcOf (List.replicate k 0x00#8) = 0x0000#16) ∧
  (∀ j bs, crcOf (List.replicate j 0x00#8 ++ bs) = crcOf bs) ∧
  (∀ as bs : List Byte, as.length = bs.length →
    crcOf (List.zipWith (fun x y => x ^^^ y) as bs) = crcOf as ^^^ crcOf bs) ∧
  ∀ bs, crcOf (bs ++ [hiByte (crcOf bs), loByte (crcOf bs)]) = 0x0000#16

/-- Order sensitivity where the spec claims it (rule R121): two distinct bytes, and three bytes that are no palindrome; and
the two counterexamples to the source's wider claim. -/
def Obligations.CrcOrder : Prop :=
  (∀ a b : Byte, a ≠ b → crcOf [a, b] ≠ crcOf [b, a]) ∧
  (∀ a b c : Byte, a ≠ c → crcOf [a, b, c] ≠ crcOf [c, b, a]) ∧
  crcOf [0x08#8, 0x89#8, 0x00#8, 0x00#8] = 0x2008#16 ∧
  crcOf [0x00#8, 0x00#8, 0x89#8, 0x08#8] = 0x2008#16

/-! ### Framer -/

/-- `PAD(chunk, n)` (rule R133): byte by byte, the chunk, then 0x00 up to `n`, and the rest of the buffer and every register
unchanged. The buffer has `PAYLOAD_MAX` bytes (rule R40); that a size above it is the fault `bufferRange` is the model's choice, which no rule
names (DESIGN CHOICE, log entry 17). -/
def Obligations.PadWrites : Prop :=
  ∀ (chunk : List Byte) (n : Nat) (s : State), s.buf.wf → chunk.length ≤ n →
    (n ≤ s.cfg.payloadMax → ∃ t, exec (.pad chunk n) s = .next t ∧ t = { s with buf := t.buf } ∧
      ∀ a, t.buf.read a =
        if h : a < chunk.length then chunk[a] else if a < n then 0x00#8 else s.buf.read a) ∧
    (s.cfg.payloadMax < n → exec (.pad chunk n) s = .fault .bufferRange)

/-- `HDR.BUILD(name, size)` (rules R88, R134, R135): name, 0x00, digits, 0x00, zeros up to 128 bytes in the buffer, nothing
else changed; a file rule R134 does not admit is refused (U5). -/
def Obligations.HdrBuild : Prop :=
  ∀ (name : List Byte) (size : Nat) (s : State), s.buf.wf →
    (name ≠ [] ∧ 0x00#8 ∉ name ∧ name.length + 1 + (decBytes size).length + 1 ≤ 128 → 128 ≤ s.cfg.payloadMax →
      ∃ t, exec (.hdrBuild name size) s = .next t ∧ t = { s with buf := t.buf } ∧
        t.buf.readBlock 0 128 =
          name ++ [0x00#8] ++ decBytes size ++ [0x00#8] ++
            List.replicate (128 - (name.length + (decBytes size).length + 2)) 0x00#8 ∧
        ∀ a, 128 ≤ a → t.buf.read a = s.buf.read a) ∧
    (¬ (name ≠ [] ∧ 0x00#8 ∉ name ∧ name.length + 1 + (decBytes size).length + 1 ≤ 128) →
      exec (.hdrBuild name size) s = .refused .unfitFile)

/-- `HDR.PARSE(p)` (rule R137), case by case; only the result registers change. -/
def Obligations.HdrParse : Prop :=
  ∀ (s : State),
    (∀ r, exec (.hdrParse (0x00#8 :: r)) s = .next { s with hdr := some .null }) ∧
    (∀ name, name ≠ [] → 0x00#8 ∉ name →
      exec (.hdrParse name) s = .next { s with hdr := some .bad, outcome := some .unrecognized }) ∧
    (∀ name field, name ≠ [] → 0x00#8 ∉ name → 0x00#8 ∉ field →
      exec (.hdrParse (name ++ [0x00#8] ++ field)) s =
        .next { s with hdr := some .bad, outcome := some .unrecognized }) ∧
    ∀ name digits rest, name ≠ [] → 0x00#8 ∉ name → 0x00#8 ∉ digits →
      exec (.hdrParse (name ++ [0x00#8] ++ digits ++ [0x00#8] ++ rest)) s =
        if digits ≠ [] ∧ (∀ b ∈ digits, 0x30 ≤ b.toNat ∧ b.toNat ≤ 0x39) ∧ digitsValue digits < 2 ^ s.cfg.sizeW then
          .next { s with hdr := some (.file name (digitsValue digits)) }
        else .next { s with hdr := some .bad, outcome := some .unrecognized }

/-- The decimal spelling (rules R10, R89) and the round trip of the header (rule R138): `dec(n)` is a string of ASCII digits whose value is `n`,
without a leading zero; parsing a built header payload gives the file back, and the null header payload parses to `Null`. -/
def Obligations.HeaderRoundTrip : Prop :=
  (∀ n, digitsValue (decBytes n) = n ∧ decBytes n ≠ [] ∧
    (∀ b ∈ decBytes n, 0x30 ≤ b.toNat ∧ b.toNat ≤ 0x39) ∧
    (n ≠ 0 → (decBytes n).head? ≠ some 0x30#8) ∧ decBytes 0 = [0x30#8]) ∧
  (∀ (name : List Byte) (size : Nat) (s t : State),
    name ≠ [] ∧ 0x00#8 ∉ name ∧ name.length + 1 + (decBytes size).length + 1 ≤ 128 → size < 2 ^ s.cfg.sizeW →
    exec (.hdrBuild name size) s = .next t →
    exec (.hdrParse (t.buf.readBlock 0 128)) t = .next { t with hdr := some (.file name size) }) ∧
  ∀ s : State, exec (.hdrParse (List.replicate 128 0x00#8)) s = .next { s with hdr := some .null }

/-- `ENCODE(m, s, p)` (rules R83, R139): the registers it writes and the frame, byte by byte; nothing goes to the Channel. `CUS` has no size
when `CUSTOMSIZE = 0` (rule R16); that the operation is then refused with `sizeUndefined` is the model's choice (DESIGN CHOICE, log entry 23). -/
def Obligations.EncodeFrame : Prop :=
  ∀ (m : Marker) (sq : Byte) (p : List Byte) (s : State),
    (payloadSize s.cfg.customSize m = some p.length →
      exec (.encode m sq p) s = .next { s with
        marker := (match m with | .soh => 0x01#8 | .stx => 0x02#8 | .cus => 0x03#8),
        n := p.length, crc := crcOf p,
        frame := [match m with | .soh => 0x01#8 | .stx => 0x02#8 | .cus => 0x03#8] ++ [sq] ++
          [BitVec.ofNat 8 (0xFF - sq.toNat)] ++ p ++
          [BitVec.ofNat 8 ((crcOf p).toNat / 256)] ++ [BitVec.ofNat 8 ((crcOf p).toNat % 256)] }) ∧
    (s.cfg.customSize = 0 → exec (.encode .cus sq p) s = .refused .sizeUndefined)

/-- A whole frame on a quiet line (rules R140, R141): all `n + 5` bytes are read in six reads, the received fields are in their
registers, and the outcome is the first of the three checks that fails, or `Packet`. -/
def Obligations.DecodeWholeFrame : Prop :=
  ∀ (m : Marker) (e0 e1 s0 s1 hi lo : Byte) (p rest : List Byte) (s : State),
    s.ended = false → s.cfg.legal → s.quiet → payloadSize s.cfg.customSize m = some p.length →
    s.chan.inBuf = m.byte :: s0 :: s1 :: p ++ [hi, lo] ++ rest →
    ∃ t, exec (.decode e0 e1) s = .next t ∧
      t.marker = m.byte ∧ t.n = p.length ∧ t.rxS0 = s0 ∧ t.rxS1 = s1 ∧
      t.rxCrc = hi ++ lo ∧ t.buf.readBlock 0 p.length = p ∧ t.chan.inBuf = rest ∧
      t.trace = [.read 1 [lo], .read 1 [hi], .read p.length p, .read 1 [s1], .read 1 [s0], .read 1 [m.byte]] ++ s.trace ∧
      t.outcome = some (if s0 ≠ e0 then .badSeqLow else if s1 ≠ e1 then .badSeqHigh
        else if hi ++ lo ≠ crcOf p then .badChecksum else .packet)

/-- The round trip of the frame (rule R142): a frame built by `ENCODE` and delivered unchanged and without timeout decodes to the packet; with one
bit of the payload or of the checksum flipped the outcome is `FrameError.BadChecksum`. -/
def Obligations.FrameRoundTrip : Prop :=
  ∀ (m : Marker) (sq : Byte) (p rest : List Byte) (s : State),
    s.ended = false → s.cfg.legal → s.quiet → payloadSize s.cfg.customSize m = some p.length →
    (s.chan.inBuf = builtFrame m sq p ++ rest →
      ∃ t, exec (.decode sq (0xFF#8 - sq)) s = .next t ∧ t.outcome = some .packet ∧
        t.marker = m.byte ∧ t.rxS0 = sq ∧ t.n = p.length ∧ t.buf.readBlock 0 t.n = p ∧ t.chan.inBuf = rest) ∧
    ∀ i k, 3 ≤ i → i < p.length + 5 → k < 8 →
      s.chan.inBuf = (builtFrame m sq p).modify i (fun b => b ^^^ (1#8 <<< k)) ++ rest →
      ∃ t, exec (.decode sq (0xFF#8 - sq)) s = .next t ∧ t.outcome = some .badChecksum

/-- The marker position (rule R91) on a quiet line: a control marker or an unrecognised byte ends the decode at once; exactly one
byte is consumed and every other register keeps its value. -/
def Obligations.DecodeMarkerPosition : Prop :=
  ∀ (e0 e1 b : Byte) (rest : List Byte) (s : State),
    s.ended = false → s.cfg.legal → s.quiet → s.chan.inBuf = b :: rest →
    b ≠ 0x01#8 → b ≠ 0x02#8 → (b = 0x03#8 → s.cfg.customSize = 0) →
    exec (.decode e0 e1) s = .next { s.chRead 1 with
      marker := b,
      outcome := some (if b = 0x15#8 then .ctrlNak else if b = 0x04#8 then .ctrlEot
        else if b = 0x18#8 then .ctrlCan else .unrecognized) } ∧
    (s.chRead 1).chan.inBuf = rest

/-- What `DECODE` does whatever the line does (rules R52, R55, R91, R140): it makes only reads, of the sizes 1, 1, 1, `n`, 1, 1 in this order, and stops at
the first that is short, with `Timeout`. It writes only its own registers and the payload buffer. `marker` is the first byte read, `n` the size that a data marker
declares; any other marker ends it at once and leaves `n`. The buffer is written below `n`, and only by a payload read that is complete. -/
def Obligations.DecodeFrameCondition : Prop :=
  ∀ (e0 e1 : Byte) (s t : State), exec (.decode e0 e1) s = .next t →
    t = { s with
      marker := t.marker, n := t.n, crc := t.crc, rxS0 := t.rxS0, rxS1 := t.rxS1, rxCrc := t.rxCrc, buf := t.buf,
      rd := t.rd, outcome := t.outcome, chan := t.chan, trace := t.trace } ∧
    t.outcome ≠ none ∧ (s.buf.wf → ∀ a, t.n ≤ a → t.buf.read a = s.buf.read a) ∧
    ∃ calls : List Event, t.trace = calls.reverse ++ s.trace ∧ 1 ≤ calls.length ∧ calls.length ≤ 6 ∧
      (∀ (j : Nat) e, calls[j]? = some e → ∃ n got, e = .read n got ∧ [1, 1, 1, t.n, 1, 1][j]? = some n ∧
        (j + 1 < calls.length → got.length = n)) ∧
      (t.outcome = some .timeout ↔ ∃ n got, calls.getLast? = some (.read n got) ∧ got.length < n) ∧
      (calls[0]? = some (.read 1 []) → t.marker = s.marker ∧ t.n = s.n) ∧
      (∀ b, calls[0]? = some (.read 1 [b]) → t.marker = b ∧
        (∀ m k, payloadSize s.cfg.customSize m = some k → b = m.byte → t.n = k) ∧
        ((∀ m k, payloadSize s.cfg.customSize m = some k → b ≠ m.byte) → t.n = s.n ∧ calls.length = 1)) ∧
      (∀ k p, calls[3]? = some (.read k p) → t.buf = if p.length = k then s.buf.writeBlock 0 p else s.buf) ∧
      (calls[3]? = none → t.buf = s.buf)

/-- `READRESP()` (rule R143): a byte other than `CAN` is in `resp`; `CAN` is the cancel test, no byte a failed attempt. -/
def Obligations.ReadResponse : Prop :=
  ∀ s : State, s.cfg.role = .sender →
    (s.txState = .handshaking ∨ s.txState = .sendingHeader ∨ s.txState = .sendingData ∨ s.txState = .awaitingEot ∨
      s.txState = .sendingTerminator) →
    (∀ b, (s.chRead 1).rd = [b] → b ≠ 0x18#8 → s.live → exec .readResp s = .next ((s.chRead 1).setResp b)) ∧
    ((s.chRead 1).rd = [0x18#8] → ((s.chRead 1).chRead 1).live →
      exec .readResp s = .next ((s.chRead 1).setResp 0x18#8).cancelTest) ∧
    ((s.chRead 1).rd = [] → (s.chRead 1).live → exec .readResp s = .next ((s.chRead 1).fail .timeout))

/-! ### Channel -/

/-- `ChRead(n)` (rules R51, R57, R58): a prefix of the unread input of at most `n` bytes, removed from it; the empty string on a torn Channel. A read loses no
output. Nothing but the read register, the Channel and the log changes. Where the transport's reads have no timeout and fewer than `n` bytes come, the engine is blocked for ever
(U18; rules R263, R277; log entry 14). Rule R58 does not say what becomes of output that is unflushed at the teardown: that it stays, `outBuf` and `wire` as they were, is the
model's choice (DESIGN CHOICE, log entry 27).
That the primitive, asked for by itself in a running session, is performed is the model's choice, since R270 and U20 exclude such use (DESIGN CHOICE,
log entry 30). -/
def Obligations.ChannelRead : Prop :=
  ∀ (n : Nat) (s : State), s.ended = false →
    let blocks := s.chan.timeout = .infinite ∧ s.chan.torn = false ∧ s.chan.upcoming.tearDown = false ∧
      (s.chan.inBuf ++ s.chan.upcoming.arrive).length < n
    (s.live → ¬ blocks → ∃ t, exec (.chRead n) s = .next t ∧ t.rd.length ≤ n ∧
      t = { s with rd := t.rd, chan := t.chan, trace := .read n t.rd :: s.trace } ∧
      (t.chan.torn = true → t.rd = [] ∧
        t.chan.inBuf = s.chan.inBuf ∧ t.chan.outBuf = s.chan.outBuf ∧ t.chan.wire = s.chan.wire) ∧
      (t.chan.torn = false → t.rd ++ t.chan.inBuf = s.chan.inBuf ++ s.chan.upcoming.arrive ∧
        t.chan.wire ++ t.chan.outBuf = s.chan.wire ++ s.chan.outBuf) ∧
      (s.chan.timeout = .infinite → t.chan.torn = false → t.rd.length = n) ∧
      (s.quiet → t.rd = s.chan.inBuf.take n)) ∧
    (blocks → exec (.chRead n) s = .fault .readBlocked)

/-- `ChWrite(s)` and `ChClear()` (rules R53, R54, R58): a write joins the output after what was there; a clear empties both buffers and calls back
nothing that has left. On a torn Channel neither has an effect. Rule R58 does not say what becomes of output that is unflushed at the teardown: that it stays, `outBuf` and `wire` as
they were, is the model's choice (DESIGN CHOICE, log entry 27).
That the primitive, asked for by itself in a running session, is performed is the model's choice, since R270 and U20 exclude such use (DESIGN CHOICE,
log entry 30). -/
def Obligations.ChannelWriteClear : Prop :=
  ∀ (bs : List Byte) (s : State), s.ended = false → s.live →
    (∃ t, exec (.chWrite bs) s = .next t ∧
      t = { s with chan := t.chan, trace := .write bs :: s.trace } ∧
      (t.chan.torn = false →
        t.chan.wire ++ t.chan.outBuf = s.chan.wire ++ s.chan.outBuf ++ bs ∧
        t.chan.inBuf = s.chan.inBuf ++ s.chan.upcoming.arrive) ∧
      (t.chan.torn = true →
        t.chan.wire = s.chan.wire ∧ t.chan.outBuf = s.chan.outBuf ∧ t.chan.inBuf = s.chan.inBuf)) ∧
    ∃ t, exec .chClear s = .next t ∧ t = { s with chan := t.chan, trace := .clear :: s.trace } ∧
      (t.chan.torn = false → t.chan.inBuf = [] ∧ t.chan.outBuf = [] ∧
        ∃ left, t.chan.wire = s.chan.wire ++ left ∧ left <+: s.chan.outBuf) ∧
      (t.chan.torn = true →
        t.chan.wire = s.chan.wire ∧ t.chan.outBuf = s.chan.outBuf ∧ t.chan.inBuf = s.chan.inBuf)

/-! ### Errors -/

/-- The retry path (rules R227, R228). Two clauses are the variant of rule R176, which departs from R228: with `TX_HEADER_REHANDSHAKE` a failed header
attempt goes to `Handshaking` after the clear, and a re-handshake that exhausts the bound aborts with `ProtocolAbort`, where R228 has the state register unchanged and
`HandshakeFailed` for `TX.HANDSHAKE`. The receiver's 0x43 is the variant of rule R205. That a failed attempt drops the flags held and the place within the attempt is the model's
(log entries 6 and 21). -/
def Obligations.RetryPath : Prop :=
  ∀ (e : Cause) (s : State),
    let b := match s.cfg.role with
      | .sender => if s.txState = .awaitingEot then s.cfg.txEotRetries else s.cfg.txMaxRetries
      | .receiver => s.cfg.rxMaxRetries
    let t := { s with lastErr := e, retry := s.retry + 1, outcome := none, hdr := none, pos := .none }
    (b ≤ s.retry + 1 →
      s.fail e = t.abort (if s.cfg.role = .sender ∧ s.txState = .handshaking ∧ s.rehandshake = false
        then .handshakeFailed else .protocolAbort) e) ∧
    (s.retry + 1 < b →
      s.fail e =
        if s.cfg.role = .receiver ∧ s.rxState = .awaitingHeader ∧ s.cfg.rxResendCrq = true then t.chClear.chWrite [0x43#8]
        else if s.cfg.role = .sender ∧ s.txState = .sendingHeader ∧ s.cfg.txRehandshake = true then
          { t.chClear with txState := .handshaking, rehandshake := true }
        else t.chClear)

/-- The abort path (rules R231, R232): class, cause and state are written, the exit signal is given, no primitive is called.
That it drops the flags held and the place within the attempt is the model's (log entries 6 and 21). -/
def Obligations.AbortPath : Prop :=
  ∀ (c : ExitClass) (e : Cause) (s : State),
    s.abort c e = { s with
      exitClass := c, lastErr := e,
      txState := if s.cfg.role = .sender then .aborted else s.txState,
      rxState := if s.cfg.role = .receiver then .aborted else s.rxState,
      outcome := none, hdr := none, pos := .none, trace := .exit (.failure c e) :: s.trace }

/-- `NAK` (rules R91, R92, R143) is a failed attempt with cause `Nak` in either position. `CAN` (rule R94): one more byte is read; 0x18 again aborts with
`ProtocolAbort` and `Cancelled`, anything else or nothing fails the attempt with `Unrecognized`, the byte dropped. `t` is the state with the symbol in the
register of its position. That a symbol acts where it is read is the model's reading (DEDUCED, log entry 13). -/
def Obligations.NakAndCan : Prop :=
  ∀ (s t : State) (b : Byte), s.live →
    (s.rxDecoding = true ∧ t = s.setMarker b ∨
      s.txBounded = true ∧ s.pos ≠ .none ∧ t = s.setResp b) →
    (b = 0x15#8 → exec .nak s = .next (t.fail .nak)) ∧
    (b = 0x18#8 → (t.chRead 1).rd = [0x18#8] → exec .can s = .next ((t.chRead 1).abort .protocolAbort .cancelled)) ∧
    (b = 0x18#8 → (t.chRead 1).rd ≠ [0x18#8] → (t.chRead 1).live →
      exec .can s = .next ((t.chRead 1).fail .unrecognized))

/-- A file error is fatal at once (rules R163, R166, R197, R222): the sender's entry parts abort with `LocalIoError` and make no Channel
call; the receiver's `RX.DATA` aborts without acknowledging, whether `FileWrite` fails or `FileClose` after the last byte. `d` is the receiver's state after `DECODE`, `x`
the file being received. What a failed primitive leaves in the store (a failed `FileWrite` no byte, a failed `FileClose` the file open with its bytes) is the model's choice
(DESIGN CHOICE, log entry 9).
That `pos`, `outcome` and `hdr` are cleared with the attempt is the model's (log entries 6 and 21).
A sender that still waits for a response is not shut out: that the operation, asked for by itself, is then a new attempt is the model's choice, since R68
and R270 exclude the call (DESIGN CHOICE, log entry 29). -/
def Obligations.FileErrorAborts : Prop :=
  (∀ s d : State, s.cfg.role = .receiver → s.cfg.legal → s.rxState = .receivingData →
    s.decodeUnit s.seq0 s.seq1 = (.packet, d) → d.live →
    let take := min d.n (s.size - s.written)
    let bytes := (d.buf.readBlock 0 d.n).take take
    (d.store.ioErrors.head? = some true →
      exec .rxData s = .next { d with
        store := { d.store with ioErrors := d.store.ioErrors.tail },
        exitClass := .localIoError, lastErr := .ioError, rxState := .aborted, outcome := none, hdr := none, pos := .none,
        trace := .exit (.failure .localIoError .ioError) :: .fileWrite bytes false :: d.trace }) ∧
    ∀ (x : StoredFile) (older : List StoredFile), d.store.stored = x :: older → x.closed = false →
      d.store.ioErrors.head? ≠ some true → s.size ≤ s.written + take → d.store.ioErrors.tail.head? = some true →
      exec .rxData s = .next { d with
        store := { ioErrors := d.store.ioErrors.tail.tail, stored := { x with data := x.data ++ bytes } :: older },
        written := s.written + take, bytesDone := s.written + take,
        exitClass := .localIoError, lastErr := .ioError, rxState := .aborted, outcome := none, hdr := none, pos := .none,
        trace := .exit (.failure .localIoError .ioError) :: .fileClose false :: .fileWrite bytes true :: d.trace }) ∧
  ∀ s : State, s.cfg.role = .sender → s.cfg.legal → s.live → s.fresh = true →
    (s.txState = .sendingHeader → s.store.ioErrors.head? = some true →
      exec .txHeader s = .next { s with
        store := { s.store with ioErrors := s.store.ioErrors.tail },
        exitClass := .localIoError, lastErr := .ioError, txState := .aborted, outcome := none, hdr := none, pos := .none,
        trace := .exit (.failure .localIoError .ioError) :: .fileInfo s.fileIdx none :: s.trace }) ∧
    (s.txState = .sendingData →
      s.store.ioErrors.head? = some true ∨
        (∃ f, s.files[s.fileIdx]? = some f ∧ f.data.length < s.offset + s.take) →
      exec .txData s = .next { s with
        store := { s.store with ioErrors := s.store.ioErrors.tail },
        exitClass := .localIoError, lastErr := .ioError, txState := .aborted, outcome := none, hdr := none, pos := .none,
        trace := .exit (.failure .localIoError .ioError) :: .fileRead s.fileIdx s.offset s.take none :: s.trace })

/-! ### Sender -/

/-- `TX.START` (rules R46, R161): the registers of a new session, and the conditions under which it is refused: the wrong role or an empty file list
(U6), an illegal configuration (U7; rules R132, R263), that is a custom size above `PAYLOAD_MAX`, a bound of 0, or a value outside rule R8.
That `pos`, `outcome` and `hdr` are cleared with the attempt is the model's (log entries 6 and 21).
That construction keeps `crc`, `n`, `size`, `rx_s0`, `rx_s1`, `rx_crc`, `resp` and the payload buffer, which R46 and U21 leave unspecified, is the
model's choice (DESIGN CHOICE, log entry 3), as it is for the count `draws` (log entry 7) and the registers of the pseudocode (log entry 8). -/
def Obligations.TxStart : Prop :=
  ∀ (files : List SrcFile) (cfg : Cfg) (s : State), s.txState = .idle → s.rxState = .idle →
    (cfg.role = .sender → files ≠ [] → cfg.legal → s.live →
      exec (.txStart files cfg) s = .next { s with
        cfg := cfg, files := files, seq0 := 0x00#8, seq1 := 0xFF#8, retry := 0, marker := 0x01#8, fileIdx := 0,
        offset := 0, written := 0, bytesDone := 0, elapsed := 0, exitClass := .none, lastErr := .noError,
        fresh := false, rehandshake := false, pos := .none, outcome := none, hdr := none, txState := .handshaking }) ∧
    (cfg.role ≠ .sender → exec (.txStart files cfg) s = .refused .wrongRole) ∧
    (cfg.role = .sender → files = [] → exec (.txStart files cfg) s = .refused .emptyFileList) ∧
    (cfg.role = .sender → files ≠ [] →
      cfg.payloadMax < 1024 ∨ cfg.payloadMax < cfg.customSize ∨ cfg.rxMaxRetries = 0 ∨ cfg.txMaxRetries = 0 ∨
        cfg.txEotRetries = 0 ∨ cfg.sizeW = 0 →
      exec (.txStart files cfg) s = .refused .badConfig)

/-- `TX.HANDSHAKE` succeeds on reading 0x43 (rule R162). As a re-handshake (rule R176) it leaves `retry` counting and returns to the header without a
fresh entry.
That `pos`, `outcome` and `hdr` are cleared with the attempt is the model's (log entries 6 and 21).
A sender that still waits for a response is not shut out: that the operation, asked for by itself, is then a new attempt is the model's choice, since R68
and R270 exclude the call (DESIGN CHOICE, log entry 29). -/
def Obligations.TxHandshake : Prop :=
  ∀ s : State, s.cfg.role = .sender → s.txState = .handshaking → s.cfg.legal → s.live →
    ((s.chWrite [0x43#8]).chRead 1).rd = [0x43#8] →
    exec .txHandshake s = .next { (s.chWrite [0x43#8]).chRead 1 with
      resp := 0x43#8, retry := if s.rehandshake then s.retry else 0, txState := .sendingHeader,
      fresh := if s.rehandshake then s.fresh else true, rehandshake := false,
      pos := .none, outcome := none, hdr := none }

/-- The entry part of `TX.HEADER` (rule R163): once, the header frame of the current file is built, and the operation goes on as on a
re-attempt. A file outside rule R134 is refused (U5).
A sender that still waits for a response is not shut out: that the operation, asked for by itself, is then a new attempt is the model's choice, since R68
and R270 exclude the call (DESIGN CHOICE, log entry 29). -/
def Obligations.TxHeaderEntry : Prop :=
  ∀ (s : State) (f : SrcFile), s.cfg.role = .sender → s.txState = .sendingHeader → s.cfg.legal → s.fresh = true →
    s.store.ioErrors.head? ≠ some true → s.files[s.fileIdx]? = some f →
    let q0 := if s.cfg.seqResetPerFile then 0x00#8 else s.seq0
    let q1 := if s.cfg.seqResetPerFile then 0xFF#8 else s.seq1
    let p := headerBytes f.name f.size
    (headerFits f.name f.size → f.size < 2 ^ s.cfg.sizeW →
      exec .txHeader s = exec .txHeader { s with
        store := { s.store with ioErrors := s.store.ioErrors.tail },
        trace := .fileInfo s.fileIdx (some (f.name, f.size)) :: s.trace,
        size := f.size, fresh := false, seq0 := q0, seq1 := q1,
        buf := s.buf.writeBlock 0 p, marker := 0x01#8, n := 128, crc := crcOf p,
        frame := builtFrame .soh q0 p }) ∧
    (¬ (headerFits f.name f.size ∧ f.size < 2 ^ s.cfg.sizeW) → exec .txHeader s = .refused .unfitFile)

/-- One attempt of `TX.HEADER` that is answered by `ACK` and 0x43 (rule R164).
That `pos`, `outcome` and `hdr` are cleared with the attempt is the model's (log entries 6 and 21).
A sender that still waits for a response is not shut out: that the operation, asked for by itself, is then a new attempt is the model's choice, since R68
and R270 exclude the call (DESIGN CHOICE, log entry 29). -/
def Obligations.TxHeader : Prop :=
  ∀ s : State, s.cfg.role = .sender → s.txState = .sendingHeader → s.cfg.legal → s.fresh = false → s.live →
    ((s.chWrite s.frame).chRead 1).rd = [0x06#8] →
    (((s.chWrite s.frame).chRead 1).chRead 1).rd = [0x43#8] →
    exec .txHeader s = .next { ((s.chWrite s.frame).chRead 1).chRead 1 with
      resp := 0x43#8, seq0 := s.seq0 + 1#8, seq1 := s.seq1 - 1#8, retry := 0, offset := 0, bytesDone := 0,
      txState := .sendingData, fresh := true, pos := .none, outcome := none, hdr := none }

/-- The choice of the data marker (rule R165). -/
def Obligations.MarkerChoice : Prop :=
  ∀ (c : Cfg) (remaining : Nat),
    let large := if c.customSize = 0 then 1024 else c.customSize
    (large ≤ remaining →
      chunkMarker c remaining = (if c.customSize = 0 then Marker.stx else .cus) ∧ chunkSize c remaining = large ∧
        chunkTake c remaining = large) ∧
    (remaining < large →
      chunkMarker c remaining = .soh ∧ chunkSize c remaining = 128 ∧ chunkTake c remaining = min 128 remaining) ∧
    payloadSize c.customSize (chunkMarker c remaining) = some (chunkSize c remaining)

/-- The data packets of a file (rule R167): `floor(size / L)` large ones, then the tail in 128-byte packets; one 128-byte packet for an empty file. -/
def Obligations.PacketCount : Prop :=
  ∀ (c : Cfg) (size : Nat),
    let large := if c.customSize = 0 then 1024 else c.customSize
    packetsFor c (size + 1) size =
      List.replicate (size / large) (if c.customSize = 0 then Marker.stx else .cus) ++
        List.replicate (if size = 0 then 1 else (size % large + 127) / 128) Marker.soh

/-- The entry part of `TX.DATA` (rules R165, R166): once, one chunk is read, padded and framed, and the operation goes on as on a
re-attempt.
A sender that still waits for a response is not shut out: that the operation, asked for by itself, is then a new attempt is the model's choice, since R68
and R270 exclude the call (DESIGN CHOICE, log entry 29). -/
def Obligations.TxDataEntry : Prop :=
  ∀ (s : State) (f : SrcFile), s.cfg.role = .sender → s.txState = .sendingData → s.cfg.legal → s.fresh = true →
    s.store.ioErrors.head? ≠ some true → s.files[s.fileIdx]? = some f →
    let remaining := s.size - s.offset
    let k := chunkSize s.cfg remaining
    let take := min k remaining
    let chunk := (f.data.drop s.offset).take take
    let p := chunk ++ List.replicate (k - take) 0x00#8
    s.offset + take ≤ f.data.length →
    exec .txData s = exec .txData { s with
      store := { s.store with ioErrors := s.store.ioErrors.tail },
      trace := .fileRead s.fileIdx s.offset take (some chunk) :: s.trace,
      fresh := false, buf := s.buf.writeBlock 0 p,
      marker := (match chunkMarker s.cfg remaining with | .soh => 0x01#8 | .stx => 0x02#8 | .cus => 0x03#8),
      n := k, crc := crcOf p, frame := builtFrame (chunkMarker s.cfg remaining) s.seq0 p }

/-- One attempt of `TX.DATA` that is answered by `ACK` (rule R166).
The time in the report is a free value (log entry 7).
That `pos`, `outcome` and `hdr` are cleared with the attempt is the model's (log entries 6 and 21).
A sender that still waits for a response is not shut out: that the operation, asked for by itself, is then a new attempt is the model's choice, since R68
and R270 exclude the call (DESIGN CHOICE, log entry 29). -/
def Obligations.TxData : Prop :=
  ∀ s : State, s.cfg.role = .sender → s.txState = .sendingData → s.cfg.legal → s.fresh = false → s.live →
    ((s.chWrite s.frame).chRead 1).rd = [0x06#8] →
    let o := s.offset + min (chunkSize s.cfg (s.size - s.offset)) (s.size - s.offset)
    exec .txData s = .next { (s.chWrite s.frame).chRead 1 with
      resp := 0x06#8, seq0 := s.seq0 + 1#8, seq1 := s.seq1 - 1#8, offset := o, bytesDone := o, retry := 0,
      elapsed := Config.freeElapsed .sender s.draws, draws := s.draws + 1,
      trace := .progress o s.size (Config.freeElapsed .sender s.draws) :: ((s.chWrite s.frame).chRead 1).trace,
      txState := if s.size ≤ o then .awaitingEot else .sendingData, fresh := decide (o < s.size),
      pos := .none, outcome := none, hdr := none }

/-- One attempt of `TX.EOT` that is answered by `ACK` and 0x43 (rule R168).
That `pos`, `outcome` and `hdr` are cleared with the attempt is the model's (log entries 6 and 21).
A sender that still waits for a response is not shut out: that the operation, asked for by itself, is then a new attempt is the model's choice, since R68
and R270 exclude the call (DESIGN CHOICE, log entry 29). -/
def Obligations.TxEot : Prop :=
  ∀ s : State, s.cfg.role = .sender → s.txState = .awaitingEot → s.cfg.legal → s.live →
    ((s.chWrite [0x04#8]).chRead 1).rd = [0x06#8] →
    (((s.chWrite [0x04#8]).chRead 1).chRead 1).rd = [0x43#8] →
    exec .txEot s = .next { ((s.chWrite [0x04#8]).chRead 1).chRead 1 with
      resp := 0x43#8, retry := 0, fileIdx := s.fileIdx + 1, fresh := true,
      txState := if s.fileIdx + 1 < s.files.length then .sendingHeader else .sendingTerminator,
      pos := .none, outcome := none, hdr := none }

/-- `TX.TERM` with its entry part (rules R169, R170), answered by `ACK`: the null header frame, then `Done`.
That `pos`, `outcome` and `hdr` are cleared with the attempt is the model's (log entries 6 and 21).
A sender that still waits for a response is not shut out: that the operation, asked for by itself, is then a new attempt is the model's choice, since R68
and R270 exclude the call (DESIGN CHOICE, log entry 29). -/
def Obligations.TxTerm : Prop :=
  ∀ s : State, s.cfg.role = .sender → s.txState = .sendingTerminator → s.cfg.legal → s.live →
    let q0 := if s.cfg.seqResetPerFile then 0x00#8 else s.seq0
    let q1 := if s.cfg.seqResetPerFile then 0xFF#8 else s.seq1
    let e := if s.fresh = false then s else { s with
      fresh := false, seq0 := q0, seq1 := q1, buf := s.buf.writeBlock 0 (List.replicate 128 0x00#8),
      marker := 0x01#8, n := 128, crc := 0x0000#16,
      frame := [0x01#8, q0, 0xFF#8 - q0] ++ List.replicate 128 0x00#8 ++ [0x00#8, 0x00#8] }
    ((e.chWrite e.frame).chRead 1).rd = [0x06#8] →
    exec .txTerm s = .next { (e.chWrite e.frame).chRead 1 with
      resp := 0x06#8, retry := 0, exitClass := .success, txState := .done,
      trace := .exit .success :: ((e.chWrite e.frame).chRead 1).trace,
      pos := .none, outcome := none, hdr := none }

/-- An attempt of the sender that is not answered as its step expects (rules R143, R172): no byte is `Timeout`, 0x15 is `Nak`, any other
byte but 0x18 is `Unexpected`, and the retry path follows; 0x18 is the cancel test. After an expected first byte the second is judged alike. `e` is the state from which the
request is sent: for the terminator's first attempt the state after its entry part (rule R169). A wait that is blocked for ever (U18) has no next state.
That it is the fault `readBlocked` is log entry 14.
A sender that still waits for a response is not shut out: that the operation, asked for by itself, is then a new attempt is the model's choice, since R68
and R270 exclude the call (DESIGN CHOICE, log entry 29). -/
def Obligations.TxUnanswered : Prop :=
  ∀ (s e : State) (i : Instr) (request : List Byte) (first : Byte),
    s.cfg.role = .sender → s.cfg.legal →
    (e = s ∧
      (s.txState = .handshaking ∧ i = .txHandshake ∧ request = [0x43#8] ∧ first = 0x43#8 ∨
        s.txState = .sendingHeader ∧ s.fresh = false ∧ i = .txHeader ∧ request = s.frame ∧ first = 0x06#8 ∨
        s.txState = .sendingData ∧ s.fresh = false ∧ i = .txData ∧ request = s.frame ∧ first = 0x06#8 ∨
        s.txState = .awaitingEot ∧ i = .txEot ∧ request = [0x04#8] ∧ first = 0x06#8) ∨
      s.txState = .sendingTerminator ∧ i = .txTerm ∧ request = e.frame ∧ first = 0x06#8 ∧
      e = (if s.fresh = false then s else { s with
        fresh := false,
        seq0 := if s.cfg.seqResetPerFile then 0x00#8 else s.seq0,
        seq1 := if s.cfg.seqResetPerFile then 0xFF#8 else s.seq1,
        buf := s.buf.writeBlock 0 (List.replicate 128 0x00#8), marker := 0x01#8, n := 128, crc := 0x0000#16,
        frame := [0x01#8, if s.cfg.seqResetPerFile then 0x00#8 else s.seq0,
          0xFF#8 - (if s.cfg.seqResetPerFile then 0x00#8 else s.seq0)] ++
          List.replicate 128 0x00#8 ++ [0x00#8, 0x00#8] })) →
    let r := (e.chWrite request).chRead 1
    let q := r.chRead 1
    (r.rd = [] → r.live → exec i s = .next (r.fail .timeout)) ∧
    (r.rd = [0x15#8] → r.live → exec i s = .next ((r.setResp 0x15#8).fail .nak)) ∧
    (r.rd = [0x18#8] → q.live → exec i s = .next (r.setResp 0x18#8).cancelTest) ∧
    (∀ b, r.rd = [b] → r.live → b ≠ first → b ≠ 0x15#8 → b ≠ 0x18#8 →
      exec i s = .next ((r.setResp b).fail .unexpected)) ∧
    (r.chan.timeout = .hung → exec i s = .fault .readBlocked) ∧
    (r.rd = [0x06#8] → i = .txHeader ∨ i = .txEot →
      (q.rd = [] → q.live → exec i s = .next ((q.setResp 0x06#8).fail .timeout)) ∧
      (q.rd = [0x15#8] → q.live → exec i s = .next ((q.setResp 0x15#8).fail .nak)) ∧
      (q.rd = [0x18#8] → (q.chRead 1).live → exec i s = .next (q.setResp 0x18#8).cancelTest) ∧
      (∀ b, q.rd = [b] → q.live → b ≠ 0x43#8 → b ≠ 0x15#8 → b ≠ 0x18#8 →
        exec i s = .next ((q.setResp b).fail .unexpected)) ∧
      (q.chan.timeout = .hung → exec i s = .fault .readBlocked))

/-- `ACK` and `CRQ` in response position (rules R164, R166, R168, R170, R162): the sender's step completes, or waits for its second
response (where it waits is the model's register `pos`, log entry 6; that the symbol acts where it is read is log entry 13).
That `pos`, `outcome` and `hdr` are cleared with the attempt is the model's (log entries 6 and 21).
The time in the report, by role and count, is a free value (DESIGN CHOICE, log entry 7).
`CRQ` as the answer to a re-handshake leaves `retry` counting and makes no fresh entry (rule R176). -/
def Obligations.AcceptedResponses : Prop :=
  ∀ s : State, s.cfg.role = .sender → s.live →
    (s.pos = .resp1 → s.txState = .sendingHeader ∨ s.txState = .awaitingEot →
      exec .ack s = .next { s with resp := 0x06#8, pos := .resp2 }) ∧
    (s.pos = .resp1 → s.txState = .sendingData →
      let o := s.offset + min (chunkSize s.cfg (s.size - s.offset)) (s.size - s.offset)
      exec .ack s = .next { s with
        resp := 0x06#8, seq0 := s.seq0 + 1#8, seq1 := s.seq1 - 1#8, offset := o, bytesDone := o, retry := 0,
        elapsed := Config.freeElapsed .sender s.draws, draws := s.draws + 1,
        trace := .progress o s.size (Config.freeElapsed .sender s.draws) :: s.trace,
        txState := if s.size ≤ o then .awaitingEot else .sendingData, fresh := decide (o < s.size),
        pos := .none, outcome := none, hdr := none }) ∧
    (s.pos = .resp1 → s.txState = .sendingTerminator →
      exec .ack s = .next { s with
        resp := 0x06#8, retry := 0, exitClass := .success, txState := .done, trace := .exit .success :: s.trace,
        pos := .none, outcome := none, hdr := none }) ∧
    (s.pos ≠ .none → s.txState = .handshaking →
      exec .crq s = .next { s with
        resp := 0x43#8, retry := if s.rehandshake then s.retry else 0, txState := .sendingHeader,
        fresh := if s.rehandshake then s.fresh else true, rehandshake := false,
        pos := .none, outcome := none, hdr := none }) ∧
    (s.pos = .resp2 → s.txState = .sendingHeader →
      exec .crq s = .next { s with
        resp := 0x43#8, seq0 := s.seq0 + 1#8, seq1 := s.seq1 - 1#8, retry := 0, offset := 0, bytesDone := 0,
        txState := .sendingData, fresh := true, pos := .none, outcome := none, hdr := none }) ∧
    (s.pos = .resp2 → s.txState = .awaitingEot →
      exec .crq s = .next { s with
        resp := 0x43#8, retry := 0, fileIdx := s.fileIdx + 1, fresh := true,
        txState := if s.fileIdx + 1 < s.files.length then .sendingHeader else .sendingTerminator,
        pos := .none, outcome := none, hdr := none })

/-! ### Receiver -/

/-- `RX.START` (rules R46, R191), its refusal under the wrong role (U6) and under an illegal configuration (U7; rules R132, R263).
That `pos`, `outcome` and `hdr` are cleared with the attempt is the model's (log entries 6 and 21).
That construction keeps `crc`, `n`, `size`, `rx_s0`, `rx_s1`, `rx_crc`, `resp` and the payload buffer, which R46 and U21 leave unspecified, is the
model's choice (DESIGN CHOICE, log entry 3), as it is for the count `draws` (log entry 7) and the registers of the pseudocode (log entry 8). -/
def Obligations.RxStart : Prop :=
  ∀ (cfg : Cfg) (s : State), s.txState = .idle → s.rxState = .idle →
    (cfg.role = .receiver → cfg.legal → s.live →
      exec (.rxStart cfg) s = .next { s with
        cfg := cfg, seq0 := 0x00#8, seq1 := 0xFF#8, retry := 0, marker := 0x01#8, fileIdx := 0,
        offset := 0, written := 0, bytesDone := 0, elapsed := 0, exitClass := .none, lastErr := .noError,
        fresh := false, rehandshake := false, pos := .none, outcome := none, hdr := none, rxState := .handshaking }) ∧
    (cfg.role ≠ .receiver → exec (.rxStart cfg) s = .refused .wrongRole) ∧
    (cfg.role = .receiver →
      cfg.payloadMax < 1024 ∨ cfg.payloadMax < cfg.customSize ∨ cfg.rxMaxRetries = 0 ∨ cfg.txMaxRetries = 0 ∨
        cfg.txEotRetries = 0 ∨ cfg.sizeW = 0 →
      exec (.rxStart cfg) s = .refused .badConfig)

/-- `RX.HANDSHAKE` (rules R192, R193): 0x43 is written once and the sequence pair is reset on entry to `AwaitingHeader`.
That `pos`, `outcome` and `hdr` are cleared with the attempt is the model's (log entries 6 and 21). -/
def Obligations.RxHandshake : Prop :=
  ∀ s : State, s.cfg.role = .receiver → s.rxState = .handshaking → s.cfg.legal → s.live →
    exec .rxHandshake s = .next { s.chWrite [0x43#8] with
      rxState := .awaitingHeader,
      seq0 := if s.cfg.seqResetPerFile then 0x00#8 else s.seq0,
      seq1 := if s.cfg.seqResetPerFile then 0xFF#8 else s.seq1,
      pos := .none, outcome := none, hdr := none }

/-- `RX.HEADER` on a header packet (rules R194, R196). On a file header the file is opened, then `ACK` and 0x43 are written and the pair advances; a file
error aborts without a write. On the null header one `ACK` is written, no file is opened, and the session is `Done`. `d` is the state after `DECODE`. That `FileOpen` makes
a new file in front of the others, also under a name that is there already, and that a failed `FileOpen` leaves the store, is the model's choice (DESIGN CHOICE, log entry 9).
That `pos`, `outcome` and `hdr` are cleared with the attempt is the model's (log entries 6 and 21). -/
def Obligations.RxHeader : Prop :=
  ∀ s d : State, s.cfg.role = .receiver → s.rxState = .awaitingHeader → s.cfg.legal →
    s.decodeUnit s.seq0 s.seq1 = (.packet, d) → d.live →
    (∀ name size, parseHeader s.cfg.sizeW (d.buf.readBlock 0 d.n) = .file name size →
      (d.store.ioErrors.head? ≠ some true →
        let o := { d with
          store := { ioErrors := d.store.ioErrors.tail,
                     stored := { name := name, declared := size, data := [], closed := false } :: d.store.stored },
          trace := .fileOpen name size true :: d.trace }
        exec .rxHeader s = .next { (o.chWrite [0x06#8]).chWrite [0x43#8] with
          size := size, written := 0, bytesDone := 0, seq0 := s.seq0 + 1#8, seq1 := s.seq1 - 1#8, retry := 0,
          rxState := .receivingData, pos := .none, outcome := none, hdr := none }) ∧
      (d.store.ioErrors.head? = some true →
        exec .rxHeader s = .next { d with
          store := { d.store with ioErrors := d.store.ioErrors.tail },
          exitClass := .localIoError, lastErr := .ioError, rxState := .aborted, pos := .none, outcome := none, hdr := none,
          trace := .exit (.failure .localIoError .ioError) :: .fileOpen name size false :: d.trace })) ∧
    (0 < d.n → d.buf.read 0 = 0x00#8 →
      exec .rxHeader s = .next { d.chWrite [0x06#8] with
        retry := 0, exitClass := .success, rxState := .done, pos := .none, outcome := none, hdr := none,
        trace := .exit .success :: (d.chWrite [0x06#8]).trace })

/-- A stray `EOT` in `AwaitingHeader` (rules R193, R195): acknowledged, `retry` and `last_err` unchanged; as the symbol (log entry 13), and as the next byte
of a quiet line. A line that delivers 0x04 for ever keeps the receiver there for ever, writing 0x06 0x43 each time (rule R277): a run of every length.
That `pos`, `outcome` and `hdr` are cleared with the attempt is the model's (log entries 6 and 21). -/
def Obligations.StrayEot : Prop :=
  ∀ s : State, s.cfg.role = .receiver → s.rxState = .awaitingHeader → s.live →
    (exec .eot s = .next { (s.chWrite [0x06#8]).chWrite [0x43#8] with
      marker := 0x04#8,
      seq0 := if s.cfg.seqResetPerFile then 0x00#8 else s.seq0,
      seq1 := if s.cfg.seqResetPerFile then 0xFF#8 else s.seq1,
      pos := .none, outcome := none, hdr := none }) ∧
    (∀ rest, s.cfg.legal → s.quiet → s.chan.inBuf = 0x04#8 :: rest →
      ∃ t, step s = .next t ∧ t.rxState = .awaitingHeader ∧ t.retry = s.retry ∧ t.lastErr = s.lastErr ∧
        t.chan.inBuf = rest ∧ t.quiet ∧
        t.chan.wire ++ t.chan.outBuf = s.chan.wire ++ s.chan.outBuf ++ [0x06#8, 0x43#8]) ∧
    ∀ e : LineStep, s.cfg.legal → s.chan.torn = false → s.chan.script = [] → s.chan.again = [e] →
      e.arrive = [0x04#8] → e.cut = none → e.tearDown = false → (∀ b ∈ s.chan.inBuf, b = 0x04#8) →
      ∀ k, ∃ t, core.run k s = .next t ∧ t.rxState = .awaitingHeader ∧ t.retry = s.retry ∧ t.lastErr = s.lastErr ∧
        t.chan.wire ++ t.chan.outBuf =
          s.chan.wire ++ s.chan.outBuf ++ (List.replicate k [0x06#8, 0x43#8]).flatten

/-- `RX.DATA` on an accepted packet (rule R197): `min(n, size - written)` payload bytes are appended to the file, which is closed when the declared size is
reached, then `ACK` is written, the pair advances and progress is reported; the state is `AwaitingNextOrEnd` when the file is complete. `d` is the state after
`DECODE`, `x` the file being received. A `FileWrite` or `FileClose` that fails is in `FileErrorAborts`; the time is a free value (log entry 7).
That `pos`, `outcome` and `hdr` are cleared with the attempt is the model's (log entries 6 and 21). -/
def Obligations.RxData : Prop :=
  ∀ (s d : State) (x : StoredFile) (older : List StoredFile), s.cfg.role = .receiver → s.rxState = .receivingData →
    s.cfg.legal → d.live → s.decodeUnit s.seq0 s.seq1 = (.packet, d) →
    d.store.stored = x :: older → x.closed = false → d.store.ioErrors.head? ≠ some true →
    let take := min d.n (s.size - s.written)
    let bytes := (d.buf.readBlock 0 d.n).take take
    let w := s.written + take
    let answer := fun (o : State) (q : RxState) => { o.chWrite [0x06#8] with
      written := w, bytesDone := w, seq0 := s.seq0 + 1#8, seq1 := s.seq1 - 1#8, retry := 0,
      elapsed := Config.freeElapsed .receiver s.draws, draws := s.draws + 1,
      trace := .progress w s.size (Config.freeElapsed .receiver s.draws) :: (o.chWrite [0x06#8]).trace,
      rxState := q, pos := .none, outcome := none, hdr := none }
    (w < s.size →
      exec .rxData s = .next (answer { d with
        store := { ioErrors := d.store.ioErrors.tail, stored := { x with data := x.data ++ bytes } :: older },
        trace := .fileWrite bytes true :: d.trace } .receivingData)) ∧
    (s.size ≤ w → d.store.ioErrors.tail.head? ≠ some true →
      exec .rxData s = .next (answer { d with
        store := { ioErrors := d.store.ioErrors.tail.tail,
                   stored := { x with data := x.data ++ bytes, closed := true } :: older },
        trace := .fileClose true :: .fileWrite bytes true :: d.trace } .awaitingNextOrEnd))

/-- `RX.EOT` on `EOT` (rule R198), as the operation and as the symbol: `ACK`, 0x43, and the next header is awaited.
That the symbol acts where it is read is log entry 13.
That `pos`, `outcome` and `hdr` are cleared with the attempt is the model's (log entries 6 and 21). -/
def Obligations.RxEot : Prop :=
  ∀ s d : State, s.cfg.role = .receiver → s.rxState = .awaitingNextOrEnd →
    (s.cfg.legal → d.live → s.decodeUnit s.seq0 s.seq1 = (.ctrlEot, d) →
      exec .rxEot s = .next { (d.chWrite [0x06#8]).chWrite [0x43#8] with
        retry := 0, rxState := .awaitingHeader,
        seq0 := if s.cfg.seqResetPerFile then 0x00#8 else s.seq0,
        seq1 := if s.cfg.seqResetPerFile then 0xFF#8 else s.seq1,
        pos := .none, outcome := none, hdr := none }) ∧
    (s.live → exec .eot s = .next { (s.chWrite [0x06#8]).chWrite [0x43#8] with
      marker := 0x04#8, retry := 0, rxState := .awaitingHeader,
      seq0 := if s.cfg.seqResetPerFile then 0x00#8 else s.seq0,
      seq1 := if s.cfg.seqResetPerFile then 0xFF#8 else s.seq1,
      pos := .none, outcome := none, hdr := none })

/-- Every other outcome of `DECODE` at a receiver (rules R94, R194, R197, R198, R199): which cause the attempt fails with; `Ctrl(CAN)` is the cancel
test. `d` is the state after `DECODE`. A read that is blocked for ever (U18) has no next state.
That it is the fault `readBlocked` is log entry 14. -/
def Obligations.RxFailedAttempt : Prop :=
  ∀ (s d : State) (o : DecodeOutcome) (i : Instr), s.cfg.role = .receiver → s.cfg.legal →
    (s.rxState = .awaitingHeader ∧ i = .rxHeader ∨ s.rxState = .receivingData ∧ i = .rxData ∨
      s.rxState = .awaitingNextOrEnd ∧ i = .rxEot) →
    s.decodeUnit s.seq0 s.seq1 = (o, d) →
    (o = .ctrlNak → d.live → exec i s = .next (d.fail .nak)) ∧
    (o = .timeout → d.live → exec i s = .next (d.fail .timeout)) ∧
    (o = .badSeqLow → d.live → exec i s = .next (d.fail .badSeqLow)) ∧
    (o = .badSeqHigh → d.live → exec i s = .next (d.fail .badSeqHigh)) ∧
    (o = .badChecksum → d.live → exec i s = .next (d.fail .badChecksum)) ∧
    (o = .unrecognized → d.live → exec i s = .next (d.fail .unrecognized)) ∧
    (o = .ctrlCan → (d.chRead 1).live → exec i s = .next d.cancelTest) ∧
    (o = .ctrlEot → s.rxState = .receivingData → d.live → exec i s = .next (d.fail .unexpected)) ∧
    (o = .packet → s.rxState = .awaitingNextOrEnd → d.live → exec i s = .next (d.fail .unexpected)) ∧
    (o = .packet → s.rxState = .awaitingHeader → parseHeader s.cfg.sizeW (d.buf.readBlock 0 d.n) = .bad → d.live →
      exec i s = .next (d.fail .unrecognized)) ∧
    (d.chan.timeout = .hung → exec i s = .fault .readBlocked)

/-- A whole data frame at a receiver (rules R91, R140, R197): with the expected pair and a right checksum it is accepted in `ReceivingData`; its payload is
in the buffer, its file bytes are appended, the file is closed when its declared size is reached, and `ACK` is written. For each of the three data
markers. A frame whose payload has another size than the receiver's for its marker (rule R275) is read with the receiver's own size: what it and the bytes after it hold is taken as
the frame of that size, the rest stays unread; with too few bytes the attempt fails with `Timeout`. That it is
accepted where those bytes hold a right checksum follows R140 and not the sentence of R275 (DESIGN CHOICE, log entry 28). That a frame acts where it is read is log entry 13, the file store log entry 9.
That `pos`, `outcome` and `hdr` are cleared with the attempt is the model's (log entries 6 and 21).
The time in the report, by role and count, is a free value (DESIGN CHOICE, log entry 7). -/
def Obligations.FrameSymbolAccepted : Prop :=
  (∀ (m : Marker) (p : List Byte) (s : State) (x : StoredFile) (older : List StoredFile),
    s.cfg.role = .receiver → s.rxState = .receivingData → s.cfg.legal →
    payloadSize s.cfg.customSize m = some p.length →
    s.store.stored = x :: older → x.closed = false → s.store.ioErrors = [] → s.live →
    let take := min p.length (s.size - s.written)
    let w := s.written + take
    let last := decide (s.size ≤ w)
    let o := { s with
      marker := (match m with | .soh => 0x01#8 | .stx => 0x02#8 | .cus => 0x03#8), n := p.length,
      rxS0 := s.seq0, rxS1 := s.seq1, rxCrc := crcOf p, crc := crcOf p, buf := s.buf.writeBlock 0 p,
      store := { ioErrors := [], stored := { x with data := x.data ++ p.take take, closed := last } :: older },
      trace := (if last then [Event.fileClose true] else []) ++ Event.fileWrite (p.take take) true :: s.trace }
    exec (m.frame s.seq0 s.seq1 p (crcOf p)) s = .next { o.chWrite [0x06#8] with
      written := w, bytesDone := w, seq0 := s.seq0 + 1#8, seq1 := s.seq1 - 1#8, retry := 0,
      elapsed := Config.freeElapsed .receiver s.draws, draws := s.draws + 1,
      trace := .progress w s.size (Config.freeElapsed .receiver s.draws) :: (o.chWrite [0x06#8]).trace,
      rxState := if last then .awaitingNextOrEnd else .receivingData, pos := .none, outcome := none, hdr := none } ∧
    (s.buf.wf → ∀ a, (s.buf.writeBlock 0 p).read a = if h : a < p.length then p[a] else s.buf.read a)) ∧
  ∀ (m : Marker) (k : Nat) (s0 s1 : Byte) (p : List Byte) (c : Half) (s : State),
    s.rxDecoding = true → s.cfg.legal → s.quiet → payloadSize s.cfg.customSize m = some k → p.length ≠ k →
    let u := { s with chan := { s.chan with inBuf := [s0, s1] ++ p ++ [hiByte c, loByte c] ++ s.chan.inBuf } }
    (∀ i rest, decode s.cfg.customSize (m.byte :: u.chan.inBuf) = .ok (i, rest) →
      exec (m.frame s0 s1 p c) s = exec i (u.afterReads [1, 1, k, 1, 1]) ∧
        (u.afterReads [1, 1, k, 1, 1]).chan.inBuf = rest) ∧
    (u.chan.inBuf.length < k + 4 →
      ∃ d : State, exec (m.frame s0 s1 p c) s = .next (d.fail .timeout) ∧ d.chan.inBuf = [] ∧ d.marker = m.byte ∧ d.n = k ∧
        d.rxState = s.rxState ∧ d.retry = s.retry ∧ d.seq0 = s.seq0 ∧ d.seq1 = s.seq1 ∧ d.store = s.store)

/-- `ACK` and 0x43 in marker position, and any data marker or `EOT` in response position (rules R91, R92, R143): failed attempts. That a unit reaching an engine
that is not reading stays unread is the model's reading of rules R44 and R82 (DEDUCED, log entry 13). -/
def Obligations.MisplacedSymbols : Prop :=
  ∀ (s : State) (m : Marker) (s0 s1 : Byte) (p : List Byte) (c : Half), s.live →
    (s.rxDecoding = true →
      exec .ack s = .next ((s.setMarker 0x06#8).fail .unrecognized) ∧
      exec .crq s = .next ((s.setMarker 0x43#8).fail .unrecognized)) ∧
    (s.txBounded = true → s.pos ≠ .none →
      exec .eot s = .next ((s.setResp 0x04#8).fail .unexpected) ∧
      exec (m.frame s0 s1 p c) s = .next ({ s with
        resp := m.byte,
        chan := { s.chan with inBuf := [s0, s1] ++ p ++ [hiByte c, loByte c] ++ s.chan.inBuf } }.fail .unexpected)) ∧
    (s.rxDecoding = false → (s.txBounded = false ∨ s.pos = .none) → s.chan.torn = false →
      exec (m.frame s0 s1 p c) s = .next { s with
        chan := { s.chan with inBuf := s.chan.inBuf ++ ([m.byte, s0, s1] ++ p ++ [hiByte c, loByte c]) } } ∧
      exec .ack s = .next { s with chan := { s.chan with inBuf := s.chan.inBuf ++ [0x06#8] } } ∧
      exec .crq s = .next { s with chan := { s.chan with inBuf := s.chan.inBuf ++ [0x43#8] } } ∧
      exec .eot s = .next { s with chan := { s.chan with inBuf := s.chan.inBuf ++ [0x04#8] } } ∧
      exec .nak s = .next { s with chan := { s.chan with inBuf := s.chan.inBuf ++ [0x15#8] } } ∧
      exec .can s = .next { s with chan := { s.chan with inBuf := s.chan.inBuf ++ [0x18#8] } })

/-! ### The whole machine -/

/-- The state before construction (rules R46, R261): every value rule R46 gives, and the invariant of a session holds. -/
def Obligations.ResetValues : Prop :=
  State.reset.txState = .idle ∧ State.reset.rxState = .idle ∧ State.reset.seq0 = 0x00#8 ∧ State.reset.seq1 = 0xFF#8 ∧
  State.reset.retry = 0 ∧ State.reset.marker = 0x01#8 ∧ State.reset.fileIdx = 0 ∧ State.reset.offset = 0 ∧
  State.reset.written = 0 ∧ State.reset.bytesDone = 0 ∧ State.reset.elapsed = 0 ∧ State.reset.exitClass = .none ∧
  State.reset.lastErr = .noError ∧ State.reset.cfg.customSize = 0 ∧ State.reset.cfg.rxMaxRetries = 200 ∧
  State.reset.cfg.txEotRetries = 2 ∧ State.reset.cfg.seqResetPerFile = true ∧ State.reset.cfg.rxResendCrq = false ∧
  State.reset.cfg.txRehandshake = false ∧ State.reset.outcome = none ∧ State.reset.Inv

/-- A step performs the operation the state register names (rules R35, R160, R190, R261).
That one whole attempt is one step is the model's granularity (DESIGN CHOICE, log entry 1). -/
def Obligations.StepRunsOperation : Prop :=
  ∀ s : State,
    (s.cfg.role = .sender → s.pos = .none →
      (s.txState = .idle → step s = exec (.txStart s.files s.cfg) s) ∧
      (s.txState = .handshaking → step s = exec .txHandshake s) ∧
      (s.txState = .sendingHeader → step s = exec .txHeader s) ∧
      (s.txState = .sendingData → step s = exec .txData s) ∧
      (s.txState = .awaitingEot → step s = exec .txEot s) ∧
      (s.txState = .sendingTerminator → step s = exec .txTerm s)) ∧
    (s.cfg.role = .receiver →
      (s.rxState = .idle → step s = exec (.rxStart s.cfg) s) ∧
      (s.rxState = .handshaking → step s = exec .rxHandshake s) ∧
      (s.rxState = .awaitingHeader → step s = exec .rxHeader s) ∧
      (s.rxState = .receivingData → step s = exec .rxData s) ∧
      (s.rxState = .awaitingNextOrEnd → step s = exec .rxEot s))

/-- A step runs the unit on the line. At a receiver in marker position, when the unread bytes of a quiet line decode to a unit, the step is the unit's own meaning
after the reads that took it from the line (rules R55, R84, R140). A sender that stands in response position reads one byte, and if it is a control symbol the
step is that symbol's own meaning (rule R92).
That a unit has its meaning where it is read is the model's reading (DEDUCED, log entry 13). -/
def Obligations.StepRunsUnit : Prop :=
  (∀ (s : State) (i : Instr) (rest : List Byte),
    s.rxDecoding = true → s.cfg.legal → s.quiet → decode s.cfg.customSize s.chan.inBuf = .ok (i, rest) →
    step s = exec i (s.afterReads (unitReads i)) ∧ (s.afterReads (unitReads i)).chan.inBuf = rest) ∧
  ∀ (s : State) (b : Byte) (i : Instr) (rest : List Byte),
    s.txBounded = true → s.pos ≠ .none → (s.chRead 1).rd = [b] → decode s.cfg.customSize [b] = .ok (i, rest) →
    step s = exec i (s.chRead 1)

/-- `Done` and `Aborted` are terminal (rules R171, R200, U17): there is no step, every operation of a state machine and every Channel
primitive is refused, and no operation at all leaves the state. -/
def Obligations.TerminalStates : Prop :=
  ∀ s : State, s.ended = true →
    step s = .refused .sessionEnded ∧
    (∀ i ∈ [Instr.txHandshake, .txHeader, .txData, .txEot, .txTerm, .rxHandshake, .rxHeader, .rxData, .rxEot, .chClear,
      .readResp], exec i s = .refused .sessionEnded) ∧
    (∀ files cfg, exec (.txStart files cfg) s = .refused .sessionEnded ∧ exec (.rxStart cfg) s = .refused .sessionEnded) ∧
    (∀ n bs, exec (.chRead n) s = .refused .sessionEnded ∧ exec (.chWrite bs) s = .refused .sessionEnded) ∧
    ∀ i t, exec i s = .next t →
      t.txState = s.txState ∧ t.rxState = s.rxState ∧ t.exitClass = s.exitClass ∧ t.lastErr = s.lastErr

/-- The sequence invariant (rule R26): every operation keeps `seq1 = 0xFF - seq0`. -/
def Obligations.SeqInvariant : Prop :=
  ∀ (i : Instr) (s t : State), s.seq1 = 0xFF#8 - s.seq0 → exec i s = .next t → t.seq1 = 0xFF#8 - t.seq0

/-- Every operation keeps the payload buffer in its canonical form.
The form is the model's representation of rule R40's buffer (DESIGN CHOICE, log entry 4). -/
def Obligations.BufferCanonical : Prop :=
  ∀ (i : Instr) (s t : State), s.buf.wf → exec i s = .next t → t.buf.wf

/-- The configuration registers and the file list are written at construction and nowhere else (rules R37, R238). -/
def Obligations.ConfigReadOnly : Prop :=
  ∀ (i : Instr) (s t : State), exec i s = .next t →
    (t.cfg = s.cfg ∧ t.files = s.files) ∨
      ((∃ files cfg, i = .txStart files cfg ∨ i = .rxStart cfg) ∧ s.txState = .idle ∧ s.rxState = .idle)

/-- Every step keeps the invariant of a session: the sequence pair, the retry bound, the exit class, the progress counters, the file position,
the frame held, and the receiver's file (rules R26, R34, R131, R204, R228, R232). -/
def Obligations.InvariantKept : Prop :=
  ∀ s t : State, s.Inv → step s = .next t → t.Inv

/-- What the two roles write (rules R131, R175, R201): in every step, from a state with the invariant. -/
def Obligations.WritesOfRoles : Prop :=
  ∀ s t : State, s.Inv → step s = .next t →
    ∃ new, t.trace = new ++ s.trace ∧ ∀ bs, Event.write bs ∈ new →
      (s.cfg.role = .sender → senderWrites s.cfg.customSize bs) ∧
      (s.cfg.role = .receiver → bs = [0x43#8] ∨ bs = [0x06#8])

/-- Silence on abort (rules R231, R234): in a step that ends in `Aborted`, the event before the exit signal is a read or a file primitive;
nothing is written or cleared after it. -/
def Obligations.SilenceOnAbort : Prop :=
  ∀ s t : State, s.Inv → step s = .next t → t.exitClass ≠ .none → t.exitClass ≠ .success →
    ∃ e r, t.trace = .exit (.failure t.exitClass t.lastErr) :: e :: r ∧
      ((∃ n got, e = .read n got) ∨ (∃ i, e = .fileInfo i none) ∨ (∃ i o n, e = .fileRead i o n none) ∨
        (∃ name size, e = .fileOpen name size false) ∨ (∃ bs, e = .fileWrite bs false) ∨ e = .fileClose false)

/-- Precision (rule R226): a failed attempt, one that counts a retry, leaves the position in the transfer alone; the state register moves
only to `Aborted`, or to `Handshaking` in the variant of rule R176. The entry part is no part of the attempt. -/
def Obligations.FailedAttemptPrecise : Prop :=
  ∀ s t : State, s.Inv → step s = .next t → t.retry = s.retry + 1 → s.fresh = false →
    t.seq0 = s.seq0 ∧ t.seq1 = s.seq1 ∧ t.offset = s.offset ∧ t.written = s.written ∧ t.fileIdx = s.fileIdx ∧
    t.size = s.size ∧ t.frame = s.frame ∧ t.store = s.store ∧
    (t.txState = s.txState ∨ t.txState = .aborted ∨ t.txState = .handshaking ∧ s.cfg.txRehandshake = true) ∧
    (t.rxState = s.rxState ∨ t.rxState = .aborted)

/-- The progress report (rule R244): a step makes at most one, only when a data packet has been accepted, with the bytes of the current file
done and its size. The time is a free value, drawn by role and count (log entry 7). -/
def Obligations.ProgressReports : Prop :=
  ∀ s t : State, s.Inv → step s = .next t →
    ∃ new, t.trace = new ++ s.trace ∧
      ((∀ a b c, Event.progress a b c ∉ new) ∧ t.draws = s.draws ∨
        ∃ older, new = .progress t.bytesDone t.size (Config.freeElapsed s.cfg.role s.draws) :: older ∧
          (∀ a b c, Event.progress a b c ∉ older) ∧ t.draws = s.draws + 1 ∧
          t.seq0 = s.seq0 + 1#8 ∧ t.retry = 0 ∧
          (s.txState = .sendingData ∨ s.rxState = .receivingData))

/-- A torn Channel ends a receiver's session (rules R58, R235): after the remaining attempts of its step the session is `Aborted` with
`ProtocolAbort` and `Timeout`.
That an attempt is one step is log entry 1. -/
def Obligations.TornReceiverEnds : Prop :=
  ∀ s : State, s.rxDecoding = true → s.cfg.legal → s.chan.torn = true → s.live → s.retry < s.cfg.rxMaxRetries →
    ∃ t, core.run (s.cfg.rxMaxRetries - s.retry) s = .next t ∧ t.rxState = .aborted ∧ t.exitClass = .protocolAbort ∧
      t.lastErr = .timeout ∧ t.retry = s.cfg.rxMaxRetries

/-- A torn Channel ends the sender's handshake (rules R58, R162, R235): exactly the remaining attempts are made, and the session is `Aborted`
with `HandshakeFailed`.
That an attempt is one step is log entry 1. -/
def Obligations.TornHandshakeFails : Prop :=
  ∀ s : State, s.cfg.role = .sender → s.txState = .handshaking → s.rehandshake = false → s.pos = .none → s.cfg.legal →
    s.chan.torn = true → s.live → s.retry < s.cfg.txMaxRetries →
    ∃ t, core.run (s.cfg.txMaxRetries - s.retry) s = .next t ∧ t.txState = .aborted ∧ t.exitClass = .handshakeFailed ∧
      t.lastErr = .timeout ∧ t.retry = s.cfg.txMaxRetries ∧
      (t.trace.take (t.trace.length - s.trace.length)).count (.write [0x43#8]) = s.cfg.txMaxRetries - s.retry

/-- One data packet from end to end (rules R24, R166, R197, R204): a sender and a receiver at the same place of the same file, joined by a line
that delivers every byte, exchange one packet and its acknowledgement. The receiver's file grows by exactly the sender's next bytes, and both ends
advance in lock-step. The line with its moves, and their order, are the model's (DEDUCED, log entry 26). -/
def Obligations.LinkDataPacket : Prop :=
  ∀ (l : Link) (f : SrcFile) (x : StoredFile) (older : List StoredFile),
    l.tx.cfg.role = .sender → l.tx.txState = .sendingData → l.tx.pos = .none → l.tx.fresh = true → l.tx.cfg.legal →
    l.rx.cfg.role = .receiver → l.rx.rxState = .receivingData → l.rx.cfg.legal →
    l.rx.cfg.customSize = l.tx.cfg.customSize →
    l.tx.quiet → l.rx.quiet → l.tx.chan.inBuf = [] → l.rx.chan.inBuf = [] →
    inFlight l.tx l.txSent = [] → inFlight l.rx l.rxSent = [] →
    l.txSent = l.tx.flushed.chan.wire.length → l.rxSent = l.rx.flushed.chan.wire.length →
    l.tx.store.ioErrors = [] → l.tx.files[l.tx.fileIdx]? = some f → f.data.length = l.tx.size →
    l.rx.store.ioErrors = [] → l.rx.store.stored = x :: older → x.closed = false →
    l.rx.seq0 = l.tx.seq0 → l.rx.seq1 = 0xFF#8 - l.rx.seq0 → l.rx.size = l.tx.size → l.rx.written = l.tx.offset →
    l.tx.offset ≤ l.tx.size → x.data = f.data.take l.tx.offset →
    ∃ l', l.run [.tx none, .rx none, .tx none] = .next l' ∧
      l'.rx.written = l'.tx.offset ∧ l'.rx.seq0 = l'.tx.seq0 ∧ l'.tx.seq0 = l.tx.seq0 + 1#8 ∧
      (l.tx.offset < l.tx.size → l.tx.offset < l'.tx.offset) ∧
      (∃ y, l'.rx.store.stored = y :: older ∧ y.name = x.name ∧ y.data = f.data.take l'.tx.offset ∧
        y.closed = decide (l.tx.size ≤ l'.tx.offset)) ∧
      (l'.tx.txState = .awaitingEot ↔ l'.rx.rxState = .awaitingNextOrEnd)
end

