-- ==== Sys2Proof/Laws/State.lean ====
section
/-! SUPPORT. One lemma per field and update: what each shared operation of `Machine/Ops.lean`, `Framer.lean`, `Sender.lean` and
`Symbols.lean` leaves in each register. No later proof unfolds a record update. -/

namespace Sys2Proof.Machine

variable (s : State)

/-! ### `log` -/

@[simp] theorem State.log_cfg (e : Event) : (s.log e).cfg = s.cfg := rfl
@[simp] theorem State.log_files (e : Event) : (s.log e).files = s.files := rfl
@[simp] theorem State.log_crc (e : Event) : (s.log e).crc = s.crc := rfl
@[simp] theorem State.log_seq0 (e : Event) : (s.log e).seq0 = s.seq0 := rfl
@[simp] theorem State.log_seq1 (e : Event) : (s.log e).seq1 = s.seq1 := rfl
@[simp] theorem State.log_retry (e : Event) : (s.log e).retry = s.retry := rfl
@[simp] theorem State.log_marker (e : Event) : (s.log e).marker = s.marker := rfl
@[simp] theorem State.log_n (e : Event) : (s.log e).n = s.n := rfl
@[simp] theorem State.log_fileIdx (e : Event) : (s.log e).fileIdx = s.fileIdx := rfl
@[simp] theorem State.log_size (e : Event) : (s.log e).size = s.size := rfl
@[simp] theorem State.log_offset (e : Event) : (s.log e).offset = s.offset := rfl
@[simp] theorem State.log_written (e : Event) : (s.log e).written = s.written := rfl
@[simp] theorem State.log_rxS0 (e : Event) : (s.log e).rxS0 = s.rxS0 := rfl
@[simp] theorem State.log_rxS1 (e : Event) : (s.log e).rxS1 = s.rxS1 := rfl
@[simp] theorem State.log_rxCrc (e : Event) : (s.log e).rxCrc = s.rxCrc := rfl
@[simp] theorem State.log_resp (e : Event) : (s.log e).resp = s.resp := rfl
@[simp] theorem State.log_bytesDone (e : Event) : (s.log e).bytesDone = s.bytesDone := rfl
@[simp] theorem State.log_elapsed (e : Event) : (s.log e).elapsed = s.elapsed := rfl
@[simp] theorem State.log_buf (e : Event) : (s.log e).buf = s.buf := rfl
@[simp] theorem State.log_frame (e : Event) : (s.log e).frame = s.frame := rfl
@[simp] theorem State.log_rd (e : Event) : (s.log e).rd = s.rd := rfl
@[simp] theorem State.log_txState (e : Event) : (s.log e).txState = s.txState := rfl
@[simp] theorem State.log_rxState (e : Event) : (s.log e).rxState = s.rxState := rfl
@[simp] theorem State.log_fresh (e : Event) : (s.log e).fresh = s.fresh := rfl
@[simp] theorem State.log_rehandshake (e : Event) : (s.log e).rehandshake = s.rehandshake := rfl
@[simp] theorem State.log_pos (e : Event) : (s.log e).pos = s.pos := rfl
@[simp] theorem State.log_outcome (e : Event) : (s.log e).outcome = s.outcome := rfl
@[simp] theorem State.log_hdr (e : Event) : (s.log e).hdr = s.hdr := rfl
@[simp] theorem State.log_exitClass (e : Event) : (s.log e).exitClass = s.exitClass := rfl
@[simp] theorem State.log_lastErr (e : Event) : (s.log e).lastErr = s.lastErr := rfl
@[simp] theorem State.log_chan (e : Event) : (s.log e).chan = s.chan := rfl
@[simp] theorem State.log_store (e : Event) : (s.log e).store = s.store := rfl
@[simp] theorem State.log_trace (e : Event) : (s.log e).trace = e :: s.trace := rfl
@[simp] theorem State.log_draws (e : Event) : (s.log e).draws = s.draws := rfl

/-! ### `setMarker` -/

@[simp] theorem State.setMarker_cfg (b : Byte) : (s.setMarker b).cfg = s.cfg := rfl
@[simp] theorem State.setMarker_files (b : Byte) : (s.setMarker b).files = s.files := rfl
@[simp] theorem State.setMarker_crc (b : Byte) : (s.setMarker b).crc = s.crc := rfl
@[simp] theorem State.setMarker_seq0 (b : Byte) : (s.setMarker b).seq0 = s.seq0 := rfl
@[simp] theorem State.setMarker_seq1 (b : Byte) : (s.setMarker b).seq1 = s.seq1 := rfl
@[simp] theorem State.setMarker_retry (b : Byte) : (s.setMarker b).retry = s.retry := rfl
@[simp] theorem State.setMarker_marker (b : Byte) : (s.setMarker b).marker = b := rfl
@[simp] theorem State.setMarker_n (b : Byte) : (s.setMarker b).n = s.n := rfl
@[simp] theorem State.setMarker_fileIdx (b : Byte) : (s.setMarker b).fileIdx = s.fileIdx := rfl
@[simp] theorem State.setMarker_size (b : Byte) : (s.setMarker b).size = s.size := rfl
@[simp] theorem State.setMarker_offset (b : Byte) : (s.setMarker b).offset = s.offset := rfl
@[simp] theorem State.setMarker_written (b : Byte) : (s.setMarker b).written = s.written := rfl
@[simp] theorem State.setMarker_rxS0 (b : Byte) : (s.setMarker b).rxS0 = s.rxS0 := rfl
@[simp] theorem State.setMarker_rxS1 (b : Byte) : (s.setMarker b).rxS1 = s.rxS1 := rfl
@[simp] theorem State.setMarker_rxCrc (b : Byte) : (s.setMarker b).rxCrc = s.rxCrc := rfl
@[simp] theorem State.setMarker_resp (b : Byte) : (s.setMarker b).resp = s.resp := rfl
@[simp] theorem State.setMarker_bytesDone (b : Byte) : (s.setMarker b).bytesDone = s.bytesDone := rfl
@[simp] theorem State.setMarker_elapsed (b : Byte) : (s.setMarker b).elapsed = s.elapsed := rfl
@[simp] theorem State.setMarker_buf (b : Byte) : (s.setMarker b).buf = s.buf := rfl
@[simp] theorem State.setMarker_frame (b : Byte) : (s.setMarker b).frame = s.frame := rfl
@[simp] theorem State.setMarker_rd (b : Byte) : (s.setMarker b).rd = s.rd := rfl
@[simp] theorem State.setMarker_txState (b : Byte) : (s.setMarker b).txState = s.txState := rfl
@[simp] theorem State.setMarker_rxState (b : Byte) : (s.setMarker b).rxState = s.rxState := rfl
@[simp] theorem State.setMarker_fresh (b : Byte) : (s.setMarker b).fresh = s.fresh := rfl
@[simp] theorem State.setMarker_rehandshake (b : Byte) : (s.setMarker b).rehandshake = s.rehandshake := rfl
@[simp] theorem State.setMarker_pos (b : Byte) : (s.setMarker b).pos = s.pos := rfl
@[simp] theorem State.setMarker_outcome (b : Byte) : (s.setMarker b).outcome = s.outcome := rfl
@[simp] theorem State.setMarker_hdr (b : Byte) : (s.setMarker b).hdr = s.hdr := rfl
@[simp] theorem State.setMarker_exitClass (b : Byte) : (s.setMarker b).exitClass = s.exitClass := rfl
@[simp] theorem State.setMarker_lastErr (b : Byte) : (s.setMarker b).lastErr = s.lastErr := rfl
@[simp] theorem State.setMarker_chan (b : Byte) : (s.setMarker b).chan = s.chan := rfl
@[simp] theorem State.setMarker_store (b : Byte) : (s.setMarker b).store = s.store := rfl
@[simp] theorem State.setMarker_trace (b : Byte) : (s.setMarker b).trace = s.trace := rfl
@[simp] theorem State.setMarker_draws (b : Byte) : (s.setMarker b).draws = s.draws := rfl

/-! ### `setN` -/

@[simp] theorem State.setN_cfg (k : Nat) : (s.setN k).cfg = s.cfg := rfl
@[simp] theorem State.setN_files (k : Nat) : (s.setN k).files = s.files := rfl
@[simp] theorem State.setN_crc (k : Nat) : (s.setN k).crc = s.crc := rfl
@[simp] theorem State.setN_seq0 (k : Nat) : (s.setN k).seq0 = s.seq0 := rfl
@[simp] theorem State.setN_seq1 (k : Nat) : (s.setN k).seq1 = s.seq1 := rfl
@[simp] theorem State.setN_retry (k : Nat) : (s.setN k).retry = s.retry := rfl
@[simp] theorem State.setN_marker (k : Nat) : (s.setN k).marker = s.marker := rfl
@[simp] theorem State.setN_n (k : Nat) : (s.setN k).n = k := rfl
@[simp] theorem State.setN_fileIdx (k : Nat) : (s.setN k).fileIdx = s.fileIdx := rfl
@[simp] theorem State.setN_size (k : Nat) : (s.setN k).size = s.size := rfl
@[simp] theorem State.setN_offset (k : Nat) : (s.setN k).offset = s.offset := rfl
@[simp] theorem State.setN_written (k : Nat) : (s.setN k).written = s.written := rfl
@[simp] theorem State.setN_rxS0 (k : Nat) : (s.setN k).rxS0 = s.rxS0 := rfl
@[simp] theorem State.setN_rxS1 (k : Nat) : (s.setN k).rxS1 = s.rxS1 := rfl
@[simp] theorem State.setN_rxCrc (k : Nat) : (s.setN k).rxCrc = s.rxCrc := rfl
@[simp] theorem State.setN_resp (k : Nat) : (s.setN k).resp = s.resp := rfl
@[simp] theorem State.setN_bytesDone (k : Nat) : (s.setN k).bytesDone = s.bytesDone := rfl
@[simp] theorem State.setN_elapsed (k : Nat) : (s.setN k).elapsed = s.elapsed := rfl
@[simp] theorem State.setN_buf (k : Nat) : (s.setN k).buf = s.buf := rfl
@[simp] theorem State.setN_frame (k : Nat) : (s.setN k).frame = s.frame := rfl
@[simp] theorem State.setN_rd (k : Nat) : (s.setN k).rd = s.rd := rfl
@[simp] theorem State.setN_txState (k : Nat) : (s.setN k).txState = s.txState := rfl
@[simp] theorem State.setN_rxState (k : Nat) : (s.setN k).rxState = s.rxState := rfl
@[simp] theorem State.setN_fresh (k : Nat) : (s.setN k).fresh = s.fresh := rfl
@[simp] theorem State.setN_rehandshake (k : Nat) : (s.setN k).rehandshake = s.rehandshake := rfl
@[simp] theorem State.setN_pos (k : Nat) : (s.setN k).pos = s.pos := rfl
@[simp] theorem State.setN_outcome (k : Nat) : (s.setN k).outcome = s.outcome := rfl
@[simp] theorem State.setN_hdr (k : Nat) : (s.setN k).hdr = s.hdr := rfl
@[simp] theorem State.setN_exitClass (k : Nat) : (s.setN k).exitClass = s.exitClass := rfl
@[simp] theorem State.setN_lastErr (k : Nat) : (s.setN k).lastErr = s.lastErr := rfl
@[simp] theorem State.setN_chan (k : Nat) : (s.setN k).chan = s.chan := rfl
@[simp] theorem State.setN_store (k : Nat) : (s.setN k).store = s.store := rfl
@[simp] theorem State.setN_trace (k : Nat) : (s.setN k).trace = s.trace := rfl
@[simp] theorem State.setN_draws (k : Nat) : (s.setN k).draws = s.draws := rfl

/-! ### `setRxS0` -/

@[simp] theorem State.setRxS0_cfg (b : Byte) : (s.setRxS0 b).cfg = s.cfg := rfl
@[simp] theorem State.setRxS0_files (b : Byte) : (s.setRxS0 b).files = s.files := rfl
@[simp] theorem State.setRxS0_crc (b : Byte) : (s.setRxS0 b).crc = s.crc := rfl
@[simp] theorem State.setRxS0_seq0 (b : Byte) : (s.setRxS0 b).seq0 = s.seq0 := rfl
@[simp] theorem State.setRxS0_seq1 (b : Byte) : (s.setRxS0 b).seq1 = s.seq1 := rfl
@[simp] theorem State.setRxS0_retry (b : Byte) : (s.setRxS0 b).retry = s.retry := rfl
@[simp] theorem State.setRxS0_marker (b : Byte) : (s.setRxS0 b).marker = s.marker := rfl
@[simp] theorem State.setRxS0_n (b : Byte) : (s.setRxS0 b).n = s.n := rfl
@[simp] theorem State.setRxS0_fileIdx (b : Byte) : (s.setRxS0 b).fileIdx = s.fileIdx := rfl
@[simp] theorem State.setRxS0_size (b : Byte) : (s.setRxS0 b).size = s.size := rfl
@[simp] theorem State.setRxS0_offset (b : Byte) : (s.setRxS0 b).offset = s.offset := rfl
@[simp] theorem State.setRxS0_written (b : Byte) : (s.setRxS0 b).written = s.written := rfl
@[simp] theorem State.setRxS0_rxS0 (b : Byte) : (s.setRxS0 b).rxS0 = b := rfl
@[simp] theorem State.setRxS0_rxS1 (b : Byte) : (s.setRxS0 b).rxS1 = s.rxS1 := rfl
@[simp] theorem State.setRxS0_rxCrc (b : Byte) : (s.setRxS0 b).rxCrc = s.rxCrc := rfl
@[simp] theorem State.setRxS0_resp (b : Byte) : (s.setRxS0 b).resp = s.resp := rfl
@[simp] theorem State.setRxS0_bytesDone (b : Byte) : (s.setRxS0 b).bytesDone = s.bytesDone := rfl
@[simp] theorem State.setRxS0_elapsed (b : Byte) : (s.setRxS0 b).elapsed = s.elapsed := rfl
@[simp] theorem State.setRxS0_buf (b : Byte) : (s.setRxS0 b).buf = s.buf := rfl
@[simp] theorem State.setRxS0_frame (b : Byte) : (s.setRxS0 b).frame = s.frame := rfl
@[simp] theorem State.setRxS0_rd (b : Byte) : (s.setRxS0 b).rd = s.rd := rfl
@[simp] theorem State.setRxS0_txState (b : Byte) : (s.setRxS0 b).txState = s.txState := rfl
@[simp] theorem State.setRxS0_rxState (b : Byte) : (s.setRxS0 b).rxState = s.rxState := rfl
@[simp] theorem State.setRxS0_fresh (b : Byte) : (s.setRxS0 b).fresh = s.fresh := rfl
@[simp] theorem State.setRxS0_rehandshake (b : Byte) : (s.setRxS0 b).rehandshake = s.rehandshake := rfl
@[simp] theorem State.setRxS0_pos (b : Byte) : (s.setRxS0 b).pos = s.pos := rfl
@[simp] theorem State.setRxS0_outcome (b : Byte) : (s.setRxS0 b).outcome = s.outcome := rfl
@[simp] theorem State.setRxS0_hdr (b : Byte) : (s.setRxS0 b).hdr = s.hdr := rfl
@[simp] theorem State.setRxS0_exitClass (b : Byte) : (s.setRxS0 b).exitClass = s.exitClass := rfl
@[simp] theorem State.setRxS0_lastErr (b : Byte) : (s.setRxS0 b).lastErr = s.lastErr := rfl
@[simp] theorem State.setRxS0_chan (b : Byte) : (s.setRxS0 b).chan = s.chan := rfl
@[simp] theorem State.setRxS0_store (b : Byte) : (s.setRxS0 b).store = s.store := rfl
@[simp] theorem State.setRxS0_trace (b : Byte) : (s.setRxS0 b).trace = s.trace := rfl
@[simp] theorem State.setRxS0_draws (b : Byte) : (s.setRxS0 b).draws = s.draws := rfl

/-! ### `setRxS1` -/

@[simp] theorem State.setRxS1_cfg (b : Byte) : (s.setRxS1 b).cfg = s.cfg := rfl
@[simp] theorem State.setRxS1_files (b : Byte) : (s.setRxS1 b).files = s.files := rfl
@[simp] theorem State.setRxS1_crc (b : Byte) : (s.setRxS1 b).crc = s.crc := rfl
@[simp] theorem State.setRxS1_seq0 (b : Byte) : (s.setRxS1 b).seq0 = s.seq0 := rfl
@[simp] theorem State.setRxS1_seq1 (b : Byte) : (s.setRxS1 b).seq1 = s.seq1 := rfl
@[simp] theorem State.setRxS1_retry (b : Byte) : (s.setRxS1 b).retry = s.retry := rfl
@[simp] theorem State.setRxS1_marker (b : Byte) : (s.setRxS1 b).marker = s.marker := rfl
@[simp] theorem State.setRxS1_n (b : Byte) : (s.setRxS1 b).n = s.n := rfl
@[simp] theorem State.setRxS1_fileIdx (b : Byte) : (s.setRxS1 b).fileIdx = s.fileIdx := rfl
@[simp] theorem State.setRxS1_size (b : Byte) : (s.setRxS1 b).size = s.size := rfl
@[simp] theorem State.setRxS1_offset (b : Byte) : (s.setRxS1 b).offset = s.offset := rfl
@[simp] theorem State.setRxS1_written (b : Byte) : (s.setRxS1 b).written = s.written := rfl
@[simp] theorem State.setRxS1_rxS0 (b : Byte) : (s.setRxS1 b).rxS0 = s.rxS0 := rfl
@[simp] theorem State.setRxS1_rxS1 (b : Byte) : (s.setRxS1 b).rxS1 = b := rfl
@[simp] theorem State.setRxS1_rxCrc (b : Byte) : (s.setRxS1 b).rxCrc = s.rxCrc := rfl
@[simp] theorem State.setRxS1_resp (b : Byte) : (s.setRxS1 b).resp = s.resp := rfl
@[simp] theorem State.setRxS1_bytesDone (b : Byte) : (s.setRxS1 b).bytesDone = s.bytesDone := rfl
@[simp] theorem State.setRxS1_elapsed (b : Byte) : (s.setRxS1 b).elapsed = s.elapsed := rfl
@[simp] theorem State.setRxS1_buf (b : Byte) : (s.setRxS1 b).buf = s.buf := rfl
@[simp] theorem State.setRxS1_frame (b : Byte) : (s.setRxS1 b).frame = s.frame := rfl
@[simp] theorem State.setRxS1_rd (b : Byte) : (s.setRxS1 b).rd = s.rd := rfl
@[simp] theorem State.setRxS1_txState (b : Byte) : (s.setRxS1 b).txState = s.txState := rfl
@[simp] theorem State.setRxS1_rxState (b : Byte) : (s.setRxS1 b).rxState = s.rxState := rfl
@[simp] theorem State.setRxS1_fresh (b : Byte) : (s.setRxS1 b).fresh = s.fresh := rfl
@[simp] theorem State.setRxS1_rehandshake (b : Byte) : (s.setRxS1 b).rehandshake = s.rehandshake := rfl
@[simp] theorem State.setRxS1_pos (b : Byte) : (s.setRxS1 b).pos = s.pos := rfl
@[simp] theorem State.setRxS1_outcome (b : Byte) : (s.setRxS1 b).outcome = s.outcome := rfl
@[simp] theorem State.setRxS1_hdr (b : Byte) : (s.setRxS1 b).hdr = s.hdr := rfl
@[simp] theorem State.setRxS1_exitClass (b : Byte) : (s.setRxS1 b).exitClass = s.exitClass := rfl
@[simp] theorem State.setRxS1_lastErr (b : Byte) : (s.setRxS1 b).lastErr = s.lastErr := rfl
@[simp] theorem State.setRxS1_chan (b : Byte) : (s.setRxS1 b).chan = s.chan := rfl
@[simp] theorem State.setRxS1_store (b : Byte) : (s.setRxS1 b).store = s.store := rfl
@[simp] theorem State.setRxS1_trace (b : Byte) : (s.setRxS1 b).trace = s.trace := rfl
@[simp] theorem State.setRxS1_draws (b : Byte) : (s.setRxS1 b).draws = s.draws := rfl

/-! ### `setRxCrc` -/

@[simp] theorem State.setRxCrc_cfg (c : Half) : (s.setRxCrc c).cfg = s.cfg := rfl
@[simp] theorem State.setRxCrc_files (c : Half) : (s.setRxCrc c).files = s.files := rfl
@[simp] theorem State.setRxCrc_crc (c : Half) : (s.setRxCrc c).crc = s.crc := rfl
@[simp] theorem State.setRxCrc_seq0 (c : Half) : (s.setRxCrc c).seq0 = s.seq0 := rfl
@[simp] theorem State.setRxCrc_seq1 (c : Half) : (s.setRxCrc c).seq1 = s.seq1 := rfl
@[simp] theorem State.setRxCrc_retry (c : Half) : (s.setRxCrc c).retry = s.retry := rfl
@[simp] theorem State.setRxCrc_marker (c : Half) : (s.setRxCrc c).marker = s.marker := rfl
@[simp] theorem State.setRxCrc_n (c : Half) : (s.setRxCrc c).n = s.n := rfl
@[simp] theorem State.setRxCrc_fileIdx (c : Half) : (s.setRxCrc c).fileIdx = s.fileIdx := rfl
@[simp] theorem State.setRxCrc_size (c : Half) : (s.setRxCrc c).size = s.size := rfl
@[simp] theorem State.setRxCrc_offset (c : Half) : (s.setRxCrc c).offset = s.offset := rfl
@[simp] theorem State.setRxCrc_written (c : Half) : (s.setRxCrc c).written = s.written := rfl
@[simp] theorem State.setRxCrc_rxS0 (c : Half) : (s.setRxCrc c).rxS0 = s.rxS0 := rfl
@[simp] theorem State.setRxCrc_rxS1 (c : Half) : (s.setRxCrc c).rxS1 = s.rxS1 := rfl
@[simp] theorem State.setRxCrc_rxCrc (c : Half) : (s.setRxCrc c).rxCrc = c := rfl
@[simp] theorem State.setRxCrc_resp (c : Half) : (s.setRxCrc c).resp = s.resp := rfl
@[simp] theorem State.setRxCrc_bytesDone (c : Half) : (s.setRxCrc c).bytesDone = s.bytesDone := rfl
@[simp] theorem State.setRxCrc_elapsed (c : Half) : (s.setRxCrc c).elapsed = s.elapsed := rfl
@[simp] theorem State.setRxCrc_buf (c : Half) : (s.setRxCrc c).buf = s.buf := rfl
@[simp] theorem State.setRxCrc_frame (c : Half) : (s.setRxCrc c).frame = s.frame := rfl
@[simp] theorem State.setRxCrc_rd (c : Half) : (s.setRxCrc c).rd = s.rd := rfl
@[simp] theorem State.setRxCrc_txState (c : Half) : (s.setRxCrc c).txState = s.txState := rfl
@[simp] theorem State.setRxCrc_rxState (c : Half) : (s.setRxCrc c).rxState = s.rxState := rfl
@[simp] theorem State.setRxCrc_fresh (c : Half) : (s.setRxCrc c).fresh = s.fresh := rfl
@[simp] theorem State.setRxCrc_rehandshake (c : Half) : (s.setRxCrc c).rehandshake = s.rehandshake := rfl
@[simp] theorem State.setRxCrc_pos (c : Half) : (s.setRxCrc c).pos = s.pos := rfl
@[simp] theorem State.setRxCrc_outcome (c : Half) : (s.setRxCrc c).outcome = s.outcome := rfl
@[simp] theorem State.setRxCrc_hdr (c : Half) : (s.setRxCrc c).hdr = s.hdr := rfl
@[simp] theorem State.setRxCrc_exitClass (c : Half) : (s.setRxCrc c).exitClass = s.exitClass := rfl
@[simp] theorem State.setRxCrc_lastErr (c : Half) : (s.setRxCrc c).lastErr = s.lastErr := rfl
@[simp] theorem State.setRxCrc_chan (c : Half) : (s.setRxCrc c).chan = s.chan := rfl
@[simp] theorem State.setRxCrc_store (c : Half) : (s.setRxCrc c).store = s.store := rfl
@[simp] theorem State.setRxCrc_trace (c : Half) : (s.setRxCrc c).trace = s.trace := rfl
@[simp] theorem State.setRxCrc_draws (c : Half) : (s.setRxCrc c).draws = s.draws := rfl

/-! ### `setResp` -/

@[simp] theorem State.setResp_cfg (b : Byte) : (s.setResp b).cfg = s.cfg := rfl
@[simp] theorem State.setResp_files (b : Byte) : (s.setResp b).files = s.files := rfl
@[simp] theorem State.setResp_crc (b : Byte) : (s.setResp b).crc = s.crc := rfl
@[simp] theorem State.setResp_seq0 (b : Byte) : (s.setResp b).seq0 = s.seq0 := rfl
@[simp] theorem State.setResp_seq1 (b : Byte) : (s.setResp b).seq1 = s.seq1 := rfl
@[simp] theorem State.setResp_retry (b : Byte) : (s.setResp b).retry = s.retry := rfl
@[simp] theorem State.setResp_marker (b : Byte) : (s.setResp b).marker = s.marker := rfl
@[simp] theorem State.setResp_n (b : Byte) : (s.setResp b).n = s.n := rfl
@[simp] theorem State.setResp_fileIdx (b : Byte) : (s.setResp b).fileIdx = s.fileIdx := rfl
@[simp] theorem State.setResp_size (b : Byte) : (s.setResp b).size = s.size := rfl
@[simp] theorem State.setResp_offset (b : Byte) : (s.setResp b).offset = s.offset := rfl
@[simp] theorem State.setResp_written (b : Byte) : (s.setResp b).written = s.written := rfl
@[simp] theorem State.setResp_rxS0 (b : Byte) : (s.setResp b).rxS0 = s.rxS0 := rfl
@[simp] theorem State.setResp_rxS1 (b : Byte) : (s.setResp b).rxS1 = s.rxS1 := rfl
@[simp] theorem State.setResp_rxCrc (b : Byte) : (s.setResp b).rxCrc = s.rxCrc := rfl
@[simp] theorem State.setResp_resp (b : Byte) : (s.setResp b).resp = b := rfl
@[simp] theorem State.setResp_bytesDone (b : Byte) : (s.setResp b).bytesDone = s.bytesDone := rfl
@[simp] theorem State.setResp_elapsed (b : Byte) : (s.setResp b).elapsed = s.elapsed := rfl
@[simp] theorem State.setResp_buf (b : Byte) : (s.setResp b).buf = s.buf := rfl
@[simp] theorem State.setResp_frame (b : Byte) : (s.setResp b).frame = s.frame := rfl
@[simp] theorem State.setResp_rd (b : Byte) : (s.setResp b).rd = s.rd := rfl
@[simp] theorem State.setResp_txState (b : Byte) : (s.setResp b).txState = s.txState := rfl
@[simp] theorem State.setResp_rxState (b : Byte) : (s.setResp b).rxState = s.rxState := rfl
@[simp] theorem State.setResp_fresh (b : Byte) : (s.setResp b).fresh = s.fresh := rfl
@[simp] theorem State.setResp_rehandshake (b : Byte) : (s.setResp b).rehandshake = s.rehandshake := rfl
@[simp] theorem State.setResp_pos (b : Byte) : (s.setResp b).pos = s.pos := rfl
@[simp] theorem State.setResp_outcome (b : Byte) : (s.setResp b).outcome = s.outcome := rfl
@[simp] theorem State.setResp_hdr (b : Byte) : (s.setResp b).hdr = s.hdr := rfl
@[simp] theorem State.setResp_exitClass (b : Byte) : (s.setResp b).exitClass = s.exitClass := rfl
@[simp] theorem State.setResp_lastErr (b : Byte) : (s.setResp b).lastErr = s.lastErr := rfl
@[simp] theorem State.setResp_chan (b : Byte) : (s.setResp b).chan = s.chan := rfl
@[simp] theorem State.setResp_store (b : Byte) : (s.setResp b).store = s.store := rfl
@[simp] theorem State.setResp_trace (b : Byte) : (s.setResp b).trace = s.trace := rfl
@[simp] theorem State.setResp_draws (b : Byte) : (s.setResp b).draws = s.draws := rfl

/-! ### `setPos` -/

@[simp] theorem State.setPos_cfg (p : Pos) : (s.setPos p).cfg = s.cfg := rfl
@[simp] theorem State.setPos_files (p : Pos) : (s.setPos p).files = s.files := rfl
@[simp] theorem State.setPos_crc (p : Pos) : (s.setPos p).crc = s.crc := rfl
@[simp] theorem State.setPos_seq0 (p : Pos) : (s.setPos p).seq0 = s.seq0 := rfl
@[simp] theorem State.setPos_seq1 (p : Pos) : (s.setPos p).seq1 = s.seq1 := rfl
@[simp] theorem State.setPos_retry (p : Pos) : (s.setPos p).retry = s.retry := rfl
@[simp] theorem State.setPos_marker (p : Pos) : (s.setPos p).marker = s.marker := rfl
@[simp] theorem State.setPos_n (p : Pos) : (s.setPos p).n = s.n := rfl
@[simp] theorem State.setPos_fileIdx (p : Pos) : (s.setPos p).fileIdx = s.fileIdx := rfl
@[simp] theorem State.setPos_size (p : Pos) : (s.setPos p).size = s.size := rfl
@[simp] theorem State.setPos_offset (p : Pos) : (s.setPos p).offset = s.offset := rfl
@[simp] theorem State.setPos_written (p : Pos) : (s.setPos p).written = s.written := rfl
@[simp] theorem State.setPos_rxS0 (p : Pos) : (s.setPos p).rxS0 = s.rxS0 := rfl
@[simp] theorem State.setPos_rxS1 (p : Pos) : (s.setPos p).rxS1 = s.rxS1 := rfl
@[simp] theorem State.setPos_rxCrc (p : Pos) : (s.setPos p).rxCrc = s.rxCrc := rfl
@[simp] theorem State.setPos_resp (p : Pos) : (s.setPos p).resp = s.resp := rfl
@[simp] theorem State.setPos_bytesDone (p : Pos) : (s.setPos p).bytesDone = s.bytesDone := rfl
@[simp] theorem State.setPos_elapsed (p : Pos) : (s.setPos p).elapsed = s.elapsed := rfl
@[simp] theorem State.setPos_buf (p : Pos) : (s.setPos p).buf = s.buf := rfl
@[simp] theorem State.setPos_frame (p : Pos) : (s.setPos p).frame = s.frame := rfl
@[simp] theorem State.setPos_rd (p : Pos) : (s.setPos p).rd = s.rd := rfl
@[simp] theorem State.setPos_txState (p : Pos) : (s.setPos p).txState = s.txState := rfl
@[simp] theorem State.setPos_rxState (p : Pos) : (s.setPos p).rxState = s.rxState := rfl
@[simp] theorem State.setPos_fresh (p : Pos) : (s.setPos p).fresh = s.fresh := rfl
@[simp] theorem State.setPos_rehandshake (p : Pos) : (s.setPos p).rehandshake = s.rehandshake := rfl
@[simp] theorem State.setPos_pos (p : Pos) : (s.setPos p).pos = p := rfl
@[simp] theorem State.setPos_outcome (p : Pos) : (s.setPos p).outcome = s.outcome := rfl
@[simp] theorem State.setPos_hdr (p : Pos) : (s.setPos p).hdr = s.hdr := rfl
@[simp] theorem State.setPos_exitClass (p : Pos) : (s.setPos p).exitClass = s.exitClass := rfl
@[simp] theorem State.setPos_lastErr (p : Pos) : (s.setPos p).lastErr = s.lastErr := rfl
@[simp] theorem State.setPos_chan (p : Pos) : (s.setPos p).chan = s.chan := rfl
@[simp] theorem State.setPos_store (p : Pos) : (s.setPos p).store = s.store := rfl
@[simp] theorem State.setPos_trace (p : Pos) : (s.setPos p).trace = s.trace := rfl
@[simp] theorem State.setPos_draws (p : Pos) : (s.setPos p).draws = s.draws := rfl

/-! ### `chRead` -/

@[simp] theorem State.chRead_cfg (k : Nat) : (s.chRead k).cfg = s.cfg := rfl
@[simp] theorem State.chRead_files (k : Nat) : (s.chRead k).files = s.files := rfl
@[simp] theorem State.chRead_crc (k : Nat) : (s.chRead k).crc = s.crc := rfl
@[simp] theorem State.chRead_seq0 (k : Nat) : (s.chRead k).seq0 = s.seq0 := rfl
@[simp] theorem State.chRead_seq1 (k : Nat) : (s.chRead k).seq1 = s.seq1 := rfl
@[simp] theorem State.chRead_retry (k : Nat) : (s.chRead k).retry = s.retry := rfl
@[simp] theorem State.chRead_marker (k : Nat) : (s.chRead k).marker = s.marker := rfl
@[simp] theorem State.chRead_n (k : Nat) : (s.chRead k).n = s.n := rfl
@[simp] theorem State.chRead_fileIdx (k : Nat) : (s.chRead k).fileIdx = s.fileIdx := rfl
@[simp] theorem State.chRead_size (k : Nat) : (s.chRead k).size = s.size := rfl
@[simp] theorem State.chRead_offset (k : Nat) : (s.chRead k).offset = s.offset := rfl
@[simp] theorem State.chRead_written (k : Nat) : (s.chRead k).written = s.written := rfl
@[simp] theorem State.chRead_rxS0 (k : Nat) : (s.chRead k).rxS0 = s.rxS0 := rfl
@[simp] theorem State.chRead_rxS1 (k : Nat) : (s.chRead k).rxS1 = s.rxS1 := rfl
@[simp] theorem State.chRead_rxCrc (k : Nat) : (s.chRead k).rxCrc = s.rxCrc := rfl
@[simp] theorem State.chRead_resp (k : Nat) : (s.chRead k).resp = s.resp := rfl
@[simp] theorem State.chRead_bytesDone (k : Nat) : (s.chRead k).bytesDone = s.bytesDone := rfl
@[simp] theorem State.chRead_elapsed (k : Nat) : (s.chRead k).elapsed = s.elapsed := rfl
@[simp] theorem State.chRead_buf (k : Nat) : (s.chRead k).buf = s.buf := rfl
@[simp] theorem State.chRead_frame (k : Nat) : (s.chRead k).frame = s.frame := rfl
@[simp] theorem State.chRead_rd (k : Nat) : (s.chRead k).rd = s.chan.readBytes k := rfl
@[simp] theorem State.chRead_txState (k : Nat) : (s.chRead k).txState = s.txState := rfl
@[simp] theorem State.chRead_rxState (k : Nat) : (s.chRead k).rxState = s.rxState := rfl
@[simp] theorem State.chRead_fresh (k : Nat) : (s.chRead k).fresh = s.fresh := rfl
@[simp] theorem State.chRead_rehandshake (k : Nat) : (s.chRead k).rehandshake = s.rehandshake := rfl
@[simp] theorem State.chRead_pos (k : Nat) : (s.chRead k).pos = s.pos := rfl
@[simp] theorem State.chRead_outcome (k : Nat) : (s.chRead k).outcome = s.outcome := rfl
@[simp] theorem State.chRead_hdr (k : Nat) : (s.chRead k).hdr = s.hdr := rfl
@[simp] theorem State.chRead_exitClass (k : Nat) : (s.chRead k).exitClass = s.exitClass := rfl
@[simp] theorem State.chRead_lastErr (k : Nat) : (s.chRead k).lastErr = s.lastErr := rfl
@[simp] theorem State.chRead_chan (k : Nat) : (s.chRead k).chan = s.chan.afterRead k := rfl
@[simp] theorem State.chRead_store (k : Nat) : (s.chRead k).store = s.store := rfl
@[simp] theorem State.chRead_trace (k : Nat) : (s.chRead k).trace = .read k (s.chan.readBytes k) :: s.trace := rfl
@[simp] theorem State.chRead_draws (k : Nat) : (s.chRead k).draws = s.draws := rfl

/-! ### `chWrite` -/

@[simp] theorem State.chWrite_cfg (bs : List Byte) : (s.chWrite bs).cfg = s.cfg := rfl
@[simp] theorem State.chWrite_files (bs : List Byte) : (s.chWrite bs).files = s.files := rfl
@[simp] theorem State.chWrite_crc (bs : List Byte) : (s.chWrite bs).crc = s.crc := rfl
@[simp] theorem State.chWrite_seq0 (bs : List Byte) : (s.chWrite bs).seq0 = s.seq0 := rfl
@[simp] theorem State.chWrite_seq1 (bs : List Byte) : (s.chWrite bs).seq1 = s.seq1 := rfl
@[simp] theorem State.chWrite_retry (bs : List Byte) : (s.chWrite bs).retry = s.retry := rfl
@[simp] theorem State.chWrite_marker (bs : List Byte) : (s.chWrite bs).marker = s.marker := rfl
@[simp] theorem State.chWrite_n (bs : List Byte) : (s.chWrite bs).n = s.n := rfl
@[simp] theorem State.chWrite_fileIdx (bs : List Byte) : (s.chWrite bs).fileIdx = s.fileIdx := rfl
@[simp] theorem State.chWrite_size (bs : List Byte) : (s.chWrite bs).size = s.size := rfl
@[simp] theorem State.chWrite_offset (bs : List Byte) : (s.chWrite bs).offset = s.offset := rfl
@[simp] theorem State.chWrite_written (bs : List Byte) : (s.chWrite bs).written = s.written := rfl
@[simp] theorem State.chWrite_rxS0 (bs : List Byte) : (s.chWrite bs).rxS0 = s.rxS0 := rfl
@[simp] theorem State.chWrite_rxS1 (bs : List Byte) : (s.chWrite bs).rxS1 = s.rxS1 := rfl
@[simp] theorem State.chWrite_rxCrc (bs : List Byte) : (s.chWrite bs).rxCrc = s.rxCrc := rfl
@[simp] theorem State.chWrite_resp (bs : List Byte) : (s.chWrite bs).resp = s.resp := rfl
@[simp] theorem State.chWrite_bytesDone (bs : List Byte) : (s.chWrite bs).bytesDone = s.bytesDone := rfl
@[simp] theorem State.chWrite_elapsed (bs : List Byte) : (s.chWrite bs).elapsed = s.elapsed := rfl
@[simp] theorem State.chWrite_buf (bs : List Byte) : (s.chWrite bs).buf = s.buf := rfl
@[simp] theorem State.chWrite_frame (bs : List Byte) : (s.chWrite bs).frame = s.frame := rfl
@[simp] theorem State.chWrite_rd (bs : List Byte) : (s.chWrite bs).rd = s.rd := rfl
@[simp] theorem State.chWrite_txState (bs : List Byte) : (s.chWrite bs).txState = s.txState := rfl
@[simp] theorem State.chWrite_rxState (bs : List Byte) : (s.chWrite bs).rxState = s.rxState := rfl
@[simp] theorem State.chWrite_fresh (bs : List Byte) : (s.chWrite bs).fresh = s.fresh := rfl
@[simp] theorem State.chWrite_rehandshake (bs : List Byte) : (s.chWrite bs).rehandshake = s.rehandshake := rfl
@[simp] theorem State.chWrite_pos (bs : List Byte) : (s.chWrite bs).pos = s.pos := rfl
@[simp] theorem State.chWrite_outcome (bs : List Byte) : (s.chWrite bs).outcome = s.outcome := rfl
@[simp] theorem State.chWrite_hdr (bs : List Byte) : (s.chWrite bs).hdr = s.hdr := rfl
@[simp] theorem State.chWrite_exitClass (bs : List Byte) : (s.chWrite bs).exitClass = s.exitClass := rfl
@[simp] theorem State.chWrite_lastErr (bs : List Byte) : (s.chWrite bs).lastErr = s.lastErr := rfl
@[simp] theorem State.chWrite_chan (bs : List Byte) : (s.chWrite bs).chan = s.chan.afterWrite bs := rfl
@[simp] theorem State.chWrite_store (bs : List Byte) : (s.chWrite bs).store = s.store := rfl
@[simp] theorem State.chWrite_trace (bs : List Byte) : (s.chWrite bs).trace = .write bs :: s.trace := rfl
@[simp] theorem State.chWrite_draws (bs : List Byte) : (s.chWrite bs).draws = s.draws := rfl

/-! ### `chClear` -/

@[simp] theorem State.chClear_cfg : (s.chClear).cfg = s.cfg := rfl
@[simp] theorem State.chClear_files : (s.chClear).files = s.files := rfl
@[simp] theorem State.chClear_crc : (s.chClear).crc = s.crc := rfl
@[simp] theorem State.chClear_seq0 : (s.chClear).seq0 = s.seq0 := rfl
@[simp] theorem State.chClear_seq1 : (s.chClear).seq1 = s.seq1 := rfl
@[simp] theorem State.chClear_retry : (s.chClear).retry = s.retry := rfl
@[simp] theorem State.chClear_marker : (s.chClear).marker = s.marker := rfl
@[simp] theorem State.chClear_n : (s.chClear).n = s.n := rfl
@[simp] theorem State.chClear_fileIdx : (s.chClear).fileIdx = s.fileIdx := rfl
@[simp] theorem State.chClear_size : (s.chClear).size = s.size := rfl
@[simp] theorem State.chClear_offset : (s.chClear).offset = s.offset := rfl
@[simp] theorem State.chClear_written : (s.chClear).written = s.written := rfl
@[simp] theorem State.chClear_rxS0 : (s.chClear).rxS0 = s.rxS0 := rfl
@[simp] theorem State.chClear_rxS1 : (s.chClear).rxS1 = s.rxS1 := rfl
@[simp] theorem State.chClear_rxCrc : (s.chClear).rxCrc = s.rxCrc := rfl
@[simp] theorem State.chClear_resp : (s.chClear).resp = s.resp := rfl
@[simp] theorem State.chClear_bytesDone : (s.chClear).bytesDone = s.bytesDone := rfl
@[simp] theorem State.chClear_elapsed : (s.chClear).elapsed = s.elapsed := rfl
@[simp] theorem State.chClear_buf : (s.chClear).buf = s.buf := rfl
@[simp] theorem State.chClear_frame : (s.chClear).frame = s.frame := rfl
@[simp] theorem State.chClear_rd : (s.chClear).rd = s.rd := rfl
@[simp] theorem State.chClear_txState : (s.chClear).txState = s.txState := rfl
@[simp] theorem State.chClear_rxState : (s.chClear).rxState = s.rxState := rfl
@[simp] theorem State.chClear_fresh : (s.chClear).fresh = s.fresh := rfl
@[simp] theorem State.chClear_rehandshake : (s.chClear).rehandshake = s.rehandshake := rfl
@[simp] theorem State.chClear_pos : (s.chClear).pos = s.pos := rfl
@[simp] theorem State.chClear_outcome : (s.chClear).outcome = s.outcome := rfl
@[simp] theorem State.chClear_hdr : (s.chClear).hdr = s.hdr := rfl
@[simp] theorem State.chClear_exitClass : (s.chClear).exitClass = s.exitClass := rfl
@[simp] theorem State.chClear_lastErr : (s.chClear).lastErr = s.lastErr := rfl
@[simp] theorem State.chClear_chan : (s.chClear).chan = s.chan.afterClear := rfl
@[simp] theorem State.chClear_store : (s.chClear).store = s.store := rfl
@[simp] theorem State.chClear_trace : (s.chClear).trace = .clear :: s.trace := rfl
@[simp] theorem State.chClear_draws : (s.chClear).draws = s.draws := rfl

/-! ### `ackCrq` -/

@[simp] theorem State.ackCrq_cfg : (s.ackCrq).cfg = s.cfg := rfl
@[simp] theorem State.ackCrq_files : (s.ackCrq).files = s.files := rfl
@[simp] theorem State.ackCrq_crc : (s.ackCrq).crc = s.crc := rfl
@[simp] theorem State.ackCrq_seq0 : (s.ackCrq).seq0 = s.seq0 := rfl
@[simp] theorem State.ackCrq_seq1 : (s.ackCrq).seq1 = s.seq1 := rfl
@[simp] theorem State.ackCrq_retry : (s.ackCrq).retry = s.retry := rfl
@[simp] theorem State.ackCrq_marker : (s.ackCrq).marker = s.marker := rfl
@[simp] theorem State.ackCrq_n : (s.ackCrq).n = s.n := rfl
@[simp] theorem State.ackCrq_fileIdx : (s.ackCrq).fileIdx = s.fileIdx := rfl
@[simp] theorem State.ackCrq_size : (s.ackCrq).size = s.size := rfl
@[simp] theorem State.ackCrq_offset : (s.ackCrq).offset = s.offset := rfl
@[simp] theorem State.ackCrq_written : (s.ackCrq).written = s.written := rfl
@[simp] theorem State.ackCrq_rxS0 : (s.ackCrq).rxS0 = s.rxS0 := rfl
@[simp] theorem State.ackCrq_rxS1 : (s.ackCrq).rxS1 = s.rxS1 := rfl
@[simp] theorem State.ackCrq_rxCrc : (s.ackCrq).rxCrc = s.rxCrc := rfl
@[simp] theorem State.ackCrq_resp : (s.ackCrq).resp = s.resp := rfl
@[simp] theorem State.ackCrq_bytesDone : (s.ackCrq).bytesDone = s.bytesDone := rfl
@[simp] theorem State.ackCrq_elapsed : (s.ackCrq).elapsed = s.elapsed := rfl
@[simp] theorem State.ackCrq_buf : (s.ackCrq).buf = s.buf := rfl
@[simp] theorem State.ackCrq_frame : (s.ackCrq).frame = s.frame := rfl
@[simp] theorem State.ackCrq_rd : (s.ackCrq).rd = s.rd := rfl
@[simp] theorem State.ackCrq_txState : (s.ackCrq).txState = s.txState := rfl
@[simp] theorem State.ackCrq_rxState : (s.ackCrq).rxState = s.rxState := rfl
@[simp] theorem State.ackCrq_fresh : (s.ackCrq).fresh = s.fresh := rfl
@[simp] theorem State.ackCrq_rehandshake : (s.ackCrq).rehandshake = s.rehandshake := rfl
@[simp] theorem State.ackCrq_pos : (s.ackCrq).pos = s.pos := rfl
@[simp] theorem State.ackCrq_outcome : (s.ackCrq).outcome = s.outcome := rfl
@[simp] theorem State.ackCrq_hdr : (s.ackCrq).hdr = s.hdr := rfl
@[simp] theorem State.ackCrq_exitClass : (s.ackCrq).exitClass = s.exitClass := rfl
@[simp] theorem State.ackCrq_lastErr : (s.ackCrq).lastErr = s.lastErr := rfl
@[simp] theorem State.ackCrq_chan : (s.ackCrq).chan = (s.chan.afterWrite [ACK]).afterWrite [CRQ] := rfl
@[simp] theorem State.ackCrq_store : (s.ackCrq).store = s.store := rfl
@[simp] theorem State.ackCrq_trace : (s.ackCrq).trace = .write [CRQ] :: .write [ACK] :: s.trace := rfl
@[simp] theorem State.ackCrq_draws : (s.ackCrq).draws = s.draws := rfl

/-! ### `setPayload` -/

@[simp] theorem State.setPayload_cfg (bs : List Byte) : (s.setPayload bs).cfg = s.cfg := rfl
@[simp] theorem State.setPayload_files (bs : List Byte) : (s.setPayload bs).files = s.files := rfl
@[simp] theorem State.setPayload_crc (bs : List Byte) : (s.setPayload bs).crc = s.crc := rfl
@[simp] theorem State.setPayload_seq0 (bs : List Byte) : (s.setPayload bs).seq0 = s.seq0 := rfl
@[simp] theorem State.setPayload_seq1 (bs : List Byte) : (s.setPayload bs).seq1 = s.seq1 := rfl
@[simp] theorem State.setPayload_retry (bs : List Byte) : (s.setPayload bs).retry = s.retry := rfl
@[simp] theorem State.setPayload_marker (bs : List Byte) : (s.setPayload bs).marker = s.marker := rfl
@[simp] theorem State.setPayload_n (bs : List Byte) : (s.setPayload bs).n = s.n := rfl
@[simp] theorem State.setPayload_fileIdx (bs : List Byte) : (s.setPayload bs).fileIdx = s.fileIdx := rfl
@[simp] theorem State.setPayload_size (bs : List Byte) : (s.setPayload bs).size = s.size := rfl
@[simp] theorem State.setPayload_offset (bs : List Byte) : (s.setPayload bs).offset = s.offset := rfl
@[simp] theorem State.setPayload_written (bs : List Byte) : (s.setPayload bs).written = s.written := rfl
@[simp] theorem State.setPayload_rxS0 (bs : List Byte) : (s.setPayload bs).rxS0 = s.rxS0 := rfl
@[simp] theorem State.setPayload_rxS1 (bs : List Byte) : (s.setPayload bs).rxS1 = s.rxS1 := rfl
@[simp] theorem State.setPayload_rxCrc (bs : List Byte) : (s.setPayload bs).rxCrc = s.rxCrc := rfl
@[simp] theorem State.setPayload_resp (bs : List Byte) : (s.setPayload bs).resp = s.resp := rfl
@[simp] theorem State.setPayload_bytesDone (bs : List Byte) : (s.setPayload bs).bytesDone = s.bytesDone := rfl
@[simp] theorem State.setPayload_elapsed (bs : List Byte) : (s.setPayload bs).elapsed = s.elapsed := rfl
@[simp] theorem State.setPayload_buf (bs : List Byte) : (s.setPayload bs).buf = s.buf.writeBlock 0 bs := rfl
@[simp] theorem State.setPayload_frame (bs : List Byte) : (s.setPayload bs).frame = s.frame := rfl
@[simp] theorem State.setPayload_rd (bs : List Byte) : (s.setPayload bs).rd = s.rd := rfl
@[simp] theorem State.setPayload_txState (bs : List Byte) : (s.setPayload bs).txState = s.txState := rfl
@[simp] theorem State.setPayload_rxState (bs : List Byte) : (s.setPayload bs).rxState = s.rxState := rfl
@[simp] theorem State.setPayload_fresh (bs : List Byte) : (s.setPayload bs).fresh = s.fresh := rfl
@[simp] theorem State.setPayload_rehandshake (bs : List Byte) : (s.setPayload bs).rehandshake = s.rehandshake := rfl
@[simp] theorem State.setPayload_pos (bs : List Byte) : (s.setPayload bs).pos = s.pos := rfl
@[simp] theorem State.setPayload_outcome (bs : List Byte) : (s.setPayload bs).outcome = s.outcome := rfl
@[simp] theorem State.setPayload_hdr (bs : List Byte) : (s.setPayload bs).hdr = s.hdr := rfl
@[simp] theorem State.setPayload_exitClass (bs : List Byte) : (s.setPayload bs).exitClass = s.exitClass := rfl
@[simp] theorem State.setPayload_lastErr (bs : List Byte) : (s.setPayload bs).lastErr = s.lastErr := rfl
@[simp] theorem State.setPayload_chan (bs : List Byte) : (s.setPayload bs).chan = s.chan := rfl
@[simp] theorem State.setPayload_store (bs : List Byte) : (s.setPayload bs).store = s.store := rfl
@[simp] theorem State.setPayload_trace (bs : List Byte) : (s.setPayload bs).trace = s.trace := rfl
@[simp] theorem State.setPayload_draws (bs : List Byte) : (s.setPayload bs).draws = s.draws := rfl

/-! ### `fileInfo` -/

@[simp] theorem State.fileInfo_cfg (i : Nat) : (s.fileInfo i).cfg = s.cfg := rfl
@[simp] theorem State.fileInfo_files (i : Nat) : (s.fileInfo i).files = s.files := rfl
@[simp] theorem State.fileInfo_crc (i : Nat) : (s.fileInfo i).crc = s.crc := rfl
@[simp] theorem State.fileInfo_seq0 (i : Nat) : (s.fileInfo i).seq0 = s.seq0 := rfl
@[simp] theorem State.fileInfo_seq1 (i : Nat) : (s.fileInfo i).seq1 = s.seq1 := rfl
@[simp] theorem State.fileInfo_retry (i : Nat) : (s.fileInfo i).retry = s.retry := rfl
@[simp] theorem State.fileInfo_marker (i : Nat) : (s.fileInfo i).marker = s.marker := rfl
@[simp] theorem State.fileInfo_n (i : Nat) : (s.fileInfo i).n = s.n := rfl
@[simp] theorem State.fileInfo_fileIdx (i : Nat) : (s.fileInfo i).fileIdx = s.fileIdx := rfl
@[simp] theorem State.fileInfo_size (i : Nat) : (s.fileInfo i).size = s.size := rfl
@[simp] theorem State.fileInfo_offset (i : Nat) : (s.fileInfo i).offset = s.offset := rfl
@[simp] theorem State.fileInfo_written (i : Nat) : (s.fileInfo i).written = s.written := rfl
@[simp] theorem State.fileInfo_rxS0 (i : Nat) : (s.fileInfo i).rxS0 = s.rxS0 := rfl
@[simp] theorem State.fileInfo_rxS1 (i : Nat) : (s.fileInfo i).rxS1 = s.rxS1 := rfl
@[simp] theorem State.fileInfo_rxCrc (i : Nat) : (s.fileInfo i).rxCrc = s.rxCrc := rfl
@[simp] theorem State.fileInfo_resp (i : Nat) : (s.fileInfo i).resp = s.resp := rfl
@[simp] theorem State.fileInfo_bytesDone (i : Nat) : (s.fileInfo i).bytesDone = s.bytesDone := rfl
@[simp] theorem State.fileInfo_elapsed (i : Nat) : (s.fileInfo i).elapsed = s.elapsed := rfl
@[simp] theorem State.fileInfo_buf (i : Nat) : (s.fileInfo i).buf = s.buf := rfl
@[simp] theorem State.fileInfo_frame (i : Nat) : (s.fileInfo i).frame = s.frame := rfl
@[simp] theorem State.fileInfo_rd (i : Nat) : (s.fileInfo i).rd = s.rd := rfl
@[simp] theorem State.fileInfo_txState (i : Nat) : (s.fileInfo i).txState = s.txState := rfl
@[simp] theorem State.fileInfo_rxState (i : Nat) : (s.fileInfo i).rxState = s.rxState := rfl
@[simp] theorem State.fileInfo_fresh (i : Nat) : (s.fileInfo i).fresh = s.fresh := rfl
@[simp] theorem State.fileInfo_rehandshake (i : Nat) : (s.fileInfo i).rehandshake = s.rehandshake := rfl
@[simp] theorem State.fileInfo_pos (i : Nat) : (s.fileInfo i).pos = s.pos := rfl
@[simp] theorem State.fileInfo_outcome (i : Nat) : (s.fileInfo i).outcome = s.outcome := rfl
@[simp] theorem State.fileInfo_hdr (i : Nat) : (s.fileInfo i).hdr = s.hdr := rfl
@[simp] theorem State.fileInfo_exitClass (i : Nat) : (s.fileInfo i).exitClass = s.exitClass := rfl
@[simp] theorem State.fileInfo_lastErr (i : Nat) : (s.fileInfo i).lastErr = s.lastErr := rfl
@[simp] theorem State.fileInfo_chan (i : Nat) : (s.fileInfo i).chan = s.chan := rfl
@[simp] theorem State.fileInfo_store (i : Nat) : (s.fileInfo i).store = s.store.called := rfl
@[simp] theorem State.fileInfo_trace (i : Nat) : (s.fileInfo i).trace = .fileInfo i (s.fileInfoAnswer i) :: s.trace := rfl
@[simp] theorem State.fileInfo_draws (i : Nat) : (s.fileInfo i).draws = s.draws := rfl

/-! ### `fileRead` -/

@[simp] theorem State.fileRead_cfg (i o k : Nat) : (s.fileRead i o k).cfg = s.cfg := rfl
@[simp] theorem State.fileRead_files (i o k : Nat) : (s.fileRead i o k).files = s.files := rfl
@[simp] theorem State.fileRead_crc (i o k : Nat) : (s.fileRead i o k).crc = s.crc := rfl
@[simp] theorem State.fileRead_seq0 (i o k : Nat) : (s.fileRead i o k).seq0 = s.seq0 := rfl
@[simp] theorem State.fileRead_seq1 (i o k : Nat) : (s.fileRead i o k).seq1 = s.seq1 := rfl
@[simp] theorem State.fileRead_retry (i o k : Nat) : (s.fileRead i o k).retry = s.retry := rfl
@[simp] theorem State.fileRead_marker (i o k : Nat) : (s.fileRead i o k).marker = s.marker := rfl
@[simp] theorem State.fileRead_n (i o k : Nat) : (s.fileRead i o k).n = s.n := rfl
@[simp] theorem State.fileRead_fileIdx (i o k : Nat) : (s.fileRead i o k).fileIdx = s.fileIdx := rfl
@[simp] theorem State.fileRead_size (i o k : Nat) : (s.fileRead i o k).size = s.size := rfl
@[simp] theorem State.fileRead_offset (i o k : Nat) : (s.fileRead i o k).offset = s.offset := rfl
@[simp] theorem State.fileRead_written (i o k : Nat) : (s.fileRead i o k).written = s.written := rfl
@[simp] theorem State.fileRead_rxS0 (i o k : Nat) : (s.fileRead i o k).rxS0 = s.rxS0 := rfl
@[simp] theorem State.fileRead_rxS1 (i o k : Nat) : (s.fileRead i o k).rxS1 = s.rxS1 := rfl
@[simp] theorem State.fileRead_rxCrc (i o k : Nat) : (s.fileRead i o k).rxCrc = s.rxCrc := rfl
@[simp] theorem State.fileRead_resp (i o k : Nat) : (s.fileRead i o k).resp = s.resp := rfl
@[simp] theorem State.fileRead_bytesDone (i o k : Nat) : (s.fileRead i o k).bytesDone = s.bytesDone := rfl
@[simp] theorem State.fileRead_elapsed (i o k : Nat) : (s.fileRead i o k).elapsed = s.elapsed := rfl
@[simp] theorem State.fileRead_buf (i o k : Nat) : (s.fileRead i o k).buf = s.buf := rfl
@[simp] theorem State.fileRead_frame (i o k : Nat) : (s.fileRead i o k).frame = s.frame := rfl
@[simp] theorem State.fileRead_rd (i o k : Nat) : (s.fileRead i o k).rd = s.rd := rfl
@[simp] theorem State.fileRead_txState (i o k : Nat) : (s.fileRead i o k).txState = s.txState := rfl
@[simp] theorem State.fileRead_rxState (i o k : Nat) : (s.fileRead i o k).rxState = s.rxState := rfl
@[simp] theorem State.fileRead_fresh (i o k : Nat) : (s.fileRead i o k).fresh = s.fresh := rfl
@[simp] theorem State.fileRead_rehandshake (i o k : Nat) : (s.fileRead i o k).rehandshake = s.rehandshake := rfl
@[simp] theorem State.fileRead_pos (i o k : Nat) : (s.fileRead i o k).pos = s.pos := rfl
@[simp] theorem State.fileRead_outcome (i o k : Nat) : (s.fileRead i o k).outcome = s.outcome := rfl
@[simp] theorem State.fileRead_hdr (i o k : Nat) : (s.fileRead i o k).hdr = s.hdr := rfl
@[simp] theorem State.fileRead_exitClass (i o k : Nat) : (s.fileRead i o k).exitClass = s.exitClass := rfl
@[simp] theorem State.fileRead_lastErr (i o k : Nat) : (s.fileRead i o k).lastErr = s.lastErr := rfl
@[simp] theorem State.fileRead_chan (i o k : Nat) : (s.fileRead i o k).chan = s.chan := rfl
@[simp] theorem State.fileRead_store (i o k : Nat) : (s.fileRead i o k).store = s.store.called := rfl
@[simp] theorem State.fileRead_trace (i o k : Nat) : (s.fileRead i o k).trace = .fileRead i o k (s.fileReadAnswer i o k) :: s.trace := rfl
@[simp] theorem State.fileRead_draws (i o k : Nat) : (s.fileRead i o k).draws = s.draws := rfl

/-! ### `fileOpen` -/

@[simp] theorem State.fileOpen_cfg (name : List Byte) (k : Nat) : (s.fileOpen name k).cfg = s.cfg := rfl
@[simp] theorem State.fileOpen_files (name : List Byte) (k : Nat) : (s.fileOpen name k).files = s.files := rfl
@[simp] theorem State.fileOpen_crc (name : List Byte) (k : Nat) : (s.fileOpen name k).crc = s.crc := rfl
@[simp] theorem State.fileOpen_seq0 (name : List Byte) (k : Nat) : (s.fileOpen name k).seq0 = s.seq0 := rfl
@[simp] theorem State.fileOpen_seq1 (name : List Byte) (k : Nat) : (s.fileOpen name k).seq1 = s.seq1 := rfl
@[simp] theorem State.fileOpen_retry (name : List Byte) (k : Nat) : (s.fileOpen name k).retry = s.retry := rfl
@[simp] theorem State.fileOpen_marker (name : List Byte) (k : Nat) : (s.fileOpen name k).marker = s.marker := rfl
@[simp] theorem State.fileOpen_n (name : List Byte) (k : Nat) : (s.fileOpen name k).n = s.n := rfl
@[simp] theorem State.fileOpen_fileIdx (name : List Byte) (k : Nat) : (s.fileOpen name k).fileIdx = s.fileIdx := rfl
@[simp] theorem State.fileOpen_size (name : List Byte) (k : Nat) : (s.fileOpen name k).size = s.size := rfl
@[simp] theorem State.fileOpen_offset (name : List Byte) (k : Nat) : (s.fileOpen name k).offset = s.offset := rfl
@[simp] theorem State.fileOpen_written (name : List Byte) (k : Nat) : (s.fileOpen name k).written = s.written := rfl
@[simp] theorem State.fileOpen_rxS0 (name : List Byte) (k : Nat) : (s.fileOpen name k).rxS0 = s.rxS0 := rfl
@[simp] theorem State.fileOpen_rxS1 (name : List Byte) (k : Nat) : (s.fileOpen name k).rxS1 = s.rxS1 := rfl
@[simp] theorem State.fileOpen_rxCrc (name : List Byte) (k : Nat) : (s.fileOpen name k).rxCrc = s.rxCrc := rfl
@[simp] theorem State.fileOpen_resp (name : List Byte) (k : Nat) : (s.fileOpen name k).resp = s.resp := rfl
@[simp] theorem State.fileOpen_bytesDone (name : List Byte) (k : Nat) : (s.fileOpen name k).bytesDone = s.bytesDone := rfl
@[simp] theorem State.fileOpen_elapsed (name : List Byte) (k : Nat) : (s.fileOpen name k).elapsed = s.elapsed := rfl
@[simp] theorem State.fileOpen_buf (name : List Byte) (k : Nat) : (s.fileOpen name k).buf = s.buf := rfl
@[simp] theorem State.fileOpen_frame (name : List Byte) (k : Nat) : (s.fileOpen name k).frame = s.frame := rfl
@[simp] theorem State.fileOpen_rd (name : List Byte) (k : Nat) : (s.fileOpen name k).rd = s.rd := rfl
@[simp] theorem State.fileOpen_txState (name : List Byte) (k : Nat) : (s.fileOpen name k).txState = s.txState := rfl
@[simp] theorem State.fileOpen_rxState (name : List Byte) (k : Nat) : (s.fileOpen name k).rxState = s.rxState := rfl
@[simp] theorem State.fileOpen_fresh (name : List Byte) (k : Nat) : (s.fileOpen name k).fresh = s.fresh := rfl
@[simp] theorem State.fileOpen_rehandshake (name : List Byte) (k : Nat) : (s.fileOpen name k).rehandshake = s.rehandshake := rfl
@[simp] theorem State.fileOpen_pos (name : List Byte) (k : Nat) : (s.fileOpen name k).pos = s.pos := rfl
@[simp] theorem State.fileOpen_outcome (name : List Byte) (k : Nat) : (s.fileOpen name k).outcome = s.outcome := rfl
@[simp] theorem State.fileOpen_hdr (name : List Byte) (k : Nat) : (s.fileOpen name k).hdr = s.hdr := rfl
@[simp] theorem State.fileOpen_exitClass (name : List Byte) (k : Nat) : (s.fileOpen name k).exitClass = s.exitClass := rfl
@[simp] theorem State.fileOpen_lastErr (name : List Byte) (k : Nat) : (s.fileOpen name k).lastErr = s.lastErr := rfl
@[simp] theorem State.fileOpen_chan (name : List Byte) (k : Nat) : (s.fileOpen name k).chan = s.chan := rfl
@[simp] theorem State.fileOpen_trace (name : List Byte) (k : Nat) : (s.fileOpen name k).trace = .fileOpen name k s.fileOpenOk :: s.trace := rfl
@[simp] theorem State.fileOpen_draws (name : List Byte) (k : Nat) : (s.fileOpen name k).draws = s.draws := rfl

/-! ### `fileWrite` -/

@[simp] theorem State.fileWrite_cfg (bs : List Byte) : (s.fileWrite bs).cfg = s.cfg := rfl
@[simp] theorem State.fileWrite_files (bs : List Byte) : (s.fileWrite bs).files = s.files := rfl
@[simp] theorem State.fileWrite_crc (bs : List Byte) : (s.fileWrite bs).crc = s.crc := rfl
@[simp] theorem State.fileWrite_seq0 (bs : List Byte) : (s.fileWrite bs).seq0 = s.seq0 := rfl
@[simp] theorem State.fileWrite_seq1 (bs : List Byte) : (s.fileWrite bs).seq1 = s.seq1 := rfl
@[simp] theorem State.fileWrite_retry (bs : List Byte) : (s.fileWrite bs).retry = s.retry := rfl
@[simp] theorem State.fileWrite_marker (bs : List Byte) : (s.fileWrite bs).marker = s.marker := rfl
@[simp] theorem State.fileWrite_n (bs : List Byte) : (s.fileWrite bs).n = s.n := rfl
@[simp] theorem State.fileWrite_fileIdx (bs : List Byte) : (s.fileWrite bs).fileIdx = s.fileIdx := rfl
@[simp] theorem State.fileWrite_size (bs : List Byte) : (s.fileWrite bs).size = s.size := rfl
@[simp] theorem State.fileWrite_offset (bs : List Byte) : (s.fileWrite bs).offset = s.offset := rfl
@[simp] theorem State.fileWrite_written (bs : List Byte) : (s.fileWrite bs).written = s.written := rfl
@[simp] theorem State.fileWrite_rxS0 (bs : List Byte) : (s.fileWrite bs).rxS0 = s.rxS0 := rfl
@[simp] theorem State.fileWrite_rxS1 (bs : List Byte) : (s.fileWrite bs).rxS1 = s.rxS1 := rfl
@[simp] theorem State.fileWrite_rxCrc (bs : List Byte) : (s.fileWrite bs).rxCrc = s.rxCrc := rfl
@[simp] theorem State.fileWrite_resp (bs : List Byte) : (s.fileWrite bs).resp = s.resp := rfl
@[simp] theorem State.fileWrite_bytesDone (bs : List Byte) : (s.fileWrite bs).bytesDone = s.bytesDone := rfl
@[simp] theorem State.fileWrite_elapsed (bs : List Byte) : (s.fileWrite bs).elapsed = s.elapsed := rfl
@[simp] theorem State.fileWrite_buf (bs : List Byte) : (s.fileWrite bs).buf = s.buf := rfl
@[simp] theorem State.fileWrite_frame (bs : List Byte) : (s.fileWrite bs).frame = s.frame := rfl
@[simp] theorem State.fileWrite_rd (bs : List Byte) : (s.fileWrite bs).rd = s.rd := rfl
@[simp] theorem State.fileWrite_txState (bs : List Byte) : (s.fileWrite bs).txState = s.txState := rfl
@[simp] theorem State.fileWrite_rxState (bs : List Byte) : (s.fileWrite bs).rxState = s.rxState := rfl
@[simp] theorem State.fileWrite_fresh (bs : List Byte) : (s.fileWrite bs).fresh = s.fresh := rfl
@[simp] theorem State.fileWrite_rehandshake (bs : List Byte) : (s.fileWrite bs).rehandshake = s.rehandshake := rfl
@[simp] theorem State.fileWrite_pos (bs : List Byte) : (s.fileWrite bs).pos = s.pos := rfl
@[simp] theorem State.fileWrite_outcome (bs : List Byte) : (s.fileWrite bs).outcome = s.outcome := rfl
@[simp] theorem State.fileWrite_hdr (bs : List Byte) : (s.fileWrite bs).hdr = s.hdr := rfl
@[simp] theorem State.fileWrite_exitClass (bs : List Byte) : (s.fileWrite bs).exitClass = s.exitClass := rfl
@[simp] theorem State.fileWrite_lastErr (bs : List Byte) : (s.fileWrite bs).lastErr = s.lastErr := rfl
@[simp] theorem State.fileWrite_chan (bs : List Byte) : (s.fileWrite bs).chan = s.chan := rfl
@[simp] theorem State.fileWrite_trace (bs : List Byte) : (s.fileWrite bs).trace = .fileWrite bs s.fileUseOk :: s.trace := rfl
@[simp] theorem State.fileWrite_draws (bs : List Byte) : (s.fileWrite bs).draws = s.draws := rfl

/-! ### `fileClose` -/

@[simp] theorem State.fileClose_cfg : (s.fileClose).cfg = s.cfg := rfl
@[simp] theorem State.fileClose_files : (s.fileClose).files = s.files := rfl
@[simp] theorem State.fileClose_crc : (s.fileClose).crc = s.crc := rfl
@[simp] theorem State.fileClose_seq0 : (s.fileClose).seq0 = s.seq0 := rfl
@[simp] theorem State.fileClose_seq1 : (s.fileClose).seq1 = s.seq1 := rfl
@[simp] theorem State.fileClose_retry : (s.fileClose).retry = s.retry := rfl
@[simp] theorem State.fileClose_marker : (s.fileClose).marker = s.marker := rfl
@[simp] theorem State.fileClose_n : (s.fileClose).n = s.n := rfl
@[simp] theorem State.fileClose_fileIdx : (s.fileClose).fileIdx = s.fileIdx := rfl
@[simp] theorem State.fileClose_size : (s.fileClose).size = s.size := rfl
@[simp] theorem State.fileClose_offset : (s.fileClose).offset = s.offset := rfl
@[simp] theorem State.fileClose_written : (s.fileClose).written = s.written := rfl
@[simp] theorem State.fileClose_rxS0 : (s.fileClose).rxS0 = s.rxS0 := rfl
@[simp] theorem State.fileClose_rxS1 : (s.fileClose).rxS1 = s.rxS1 := rfl
@[simp] theorem State.fileClose_rxCrc : (s.fileClose).rxCrc = s.rxCrc := rfl
@[simp] theorem State.fileClose_resp : (s.fileClose).resp = s.resp := rfl
@[simp] theorem State.fileClose_bytesDone : (s.fileClose).bytesDone = s.bytesDone := rfl
@[simp] theorem State.fileClose_elapsed : (s.fileClose).elapsed = s.elapsed := rfl
@[simp] theorem State.fileClose_buf : (s.fileClose).buf = s.buf := rfl
@[simp] theorem State.fileClose_frame : (s.fileClose).frame = s.frame := rfl
@[simp] theorem State.fileClose_rd : (s.fileClose).rd = s.rd := rfl
@[simp] theorem State.fileClose_txState : (s.fileClose).txState = s.txState := rfl
@[simp] theorem State.fileClose_rxState : (s.fileClose).rxState = s.rxState := rfl
@[simp] theorem State.fileClose_fresh : (s.fileClose).fresh = s.fresh := rfl
@[simp] theorem State.fileClose_rehandshake : (s.fileClose).rehandshake = s.rehandshake := rfl
@[simp] theorem State.fileClose_pos : (s.fileClose).pos = s.pos := rfl
@[simp] theorem State.fileClose_outcome : (s.fileClose).outcome = s.outcome := rfl
@[simp] theorem State.fileClose_hdr : (s.fileClose).hdr = s.hdr := rfl
@[simp] theorem State.fileClose_exitClass : (s.fileClose).exitClass = s.exitClass := rfl
@[simp] theorem State.fileClose_lastErr : (s.fileClose).lastErr = s.lastErr := rfl
@[simp] theorem State.fileClose_chan : (s.fileClose).chan = s.chan := rfl
@[simp] theorem State.fileClose_trace : (s.fileClose).trace = .fileClose s.fileUseOk :: s.trace := rfl
@[simp] theorem State.fileClose_draws : (s.fileClose).draws = s.draws := rfl

/-! ### `seqAdvance` -/

@[simp] theorem State.seqAdvance_cfg : (s.seqAdvance).cfg = s.cfg := rfl
@[simp] theorem State.seqAdvance_files : (s.seqAdvance).files = s.files := rfl
@[simp] theorem State.seqAdvance_crc : (s.seqAdvance).crc = s.crc := rfl
@[simp] theorem State.seqAdvance_seq0 : (s.seqAdvance).seq0 = s.seq0 + 1#8 := rfl
@[simp] theorem State.seqAdvance_seq1 : (s.seqAdvance).seq1 = s.seq1 - 1#8 := rfl
@[simp] theorem State.seqAdvance_retry : (s.seqAdvance).retry = s.retry := rfl
@[simp] theorem State.seqAdvance_marker : (s.seqAdvance).marker = s.marker := rfl
@[simp] theorem State.seqAdvance_n : (s.seqAdvance).n = s.n := rfl
@[simp] theorem State.seqAdvance_fileIdx : (s.seqAdvance).fileIdx = s.fileIdx := rfl
@[simp] theorem State.seqAdvance_size : (s.seqAdvance).size = s.size := rfl
@[simp] theorem State.seqAdvance_offset : (s.seqAdvance).offset = s.offset := rfl
@[simp] theorem State.seqAdvance_written : (s.seqAdvance).written = s.written := rfl
@[simp] theorem State.seqAdvance_rxS0 : (s.seqAdvance).rxS0 = s.rxS0 := rfl
@[simp] theorem State.seqAdvance_rxS1 : (s.seqAdvance).rxS1 = s.rxS1 := rfl
@[simp] theorem State.seqAdvance_rxCrc : (s.seqAdvance).rxCrc = s.rxCrc := rfl
@[simp] theorem State.seqAdvance_resp : (s.seqAdvance).resp = s.resp := rfl
@[simp] theorem State.seqAdvance_bytesDone : (s.seqAdvance).bytesDone = s.bytesDone := rfl
@[simp] theorem State.seqAdvance_elapsed : (s.seqAdvance).elapsed = s.elapsed := rfl
@[simp] theorem State.seqAdvance_buf : (s.seqAdvance).buf = s.buf := rfl
@[simp] theorem State.seqAdvance_frame : (s.seqAdvance).frame = s.frame := rfl
@[simp] theorem State.seqAdvance_rd : (s.seqAdvance).rd = s.rd := rfl
@[simp] theorem State.seqAdvance_txState : (s.seqAdvance).txState = s.txState := rfl
@[simp] theorem State.seqAdvance_rxState : (s.seqAdvance).rxState = s.rxState := rfl
@[simp] theorem State.seqAdvance_fresh : (s.seqAdvance).fresh = s.fresh := rfl
@[simp] theorem State.seqAdvance_rehandshake : (s.seqAdvance).rehandshake = s.rehandshake := rfl
@[simp] theorem State.seqAdvance_pos : (s.seqAdvance).pos = s.pos := rfl
@[simp] theorem State.seqAdvance_outcome : (s.seqAdvance).outcome = s.outcome := rfl
@[simp] theorem State.seqAdvance_hdr : (s.seqAdvance).hdr = s.hdr := rfl
@[simp] theorem State.seqAdvance_exitClass : (s.seqAdvance).exitClass = s.exitClass := rfl
@[simp] theorem State.seqAdvance_lastErr : (s.seqAdvance).lastErr = s.lastErr := rfl
@[simp] theorem State.seqAdvance_chan : (s.seqAdvance).chan = s.chan := rfl
@[simp] theorem State.seqAdvance_store : (s.seqAdvance).store = s.store := rfl
@[simp] theorem State.seqAdvance_trace : (s.seqAdvance).trace = s.trace := rfl
@[simp] theorem State.seqAdvance_draws : (s.seqAdvance).draws = s.draws := rfl

/-! ### `seqReset` -/

@[simp] theorem State.seqReset_cfg : (s.seqReset).cfg = s.cfg := rfl
@[simp] theorem State.seqReset_files : (s.seqReset).files = s.files := rfl
@[simp] theorem State.seqReset_crc : (s.seqReset).crc = s.crc := rfl
@[simp] theorem State.seqReset_seq0 : (s.seqReset).seq0 = if s.cfg.seqResetPerFile then 0x00#8 else s.seq0 := rfl
@[simp] theorem State.seqReset_seq1 : (s.seqReset).seq1 = if s.cfg.seqResetPerFile then 0xFF#8 else s.seq1 := rfl
@[simp] theorem State.seqReset_retry : (s.seqReset).retry = s.retry := rfl
@[simp] theorem State.seqReset_marker : (s.seqReset).marker = s.marker := rfl
@[simp] theorem State.seqReset_n : (s.seqReset).n = s.n := rfl
@[simp] theorem State.seqReset_fileIdx : (s.seqReset).fileIdx = s.fileIdx := rfl
@[simp] theorem State.seqReset_size : (s.seqReset).size = s.size := rfl
@[simp] theorem State.seqReset_offset : (s.seqReset).offset = s.offset := rfl
@[simp] theorem State.seqReset_written : (s.seqReset).written = s.written := rfl
@[simp] theorem State.seqReset_rxS0 : (s.seqReset).rxS0 = s.rxS0 := rfl
@[simp] theorem State.seqReset_rxS1 : (s.seqReset).rxS1 = s.rxS1 := rfl
@[simp] theorem State.seqReset_rxCrc : (s.seqReset).rxCrc = s.rxCrc := rfl
@[simp] theorem State.seqReset_resp : (s.seqReset).resp = s.resp := rfl
@[simp] theorem State.seqReset_bytesDone : (s.seqReset).bytesDone = s.bytesDone := rfl
@[simp] theorem State.seqReset_elapsed : (s.seqReset).elapsed = s.elapsed := rfl
@[simp] theorem State.seqReset_buf : (s.seqReset).buf = s.buf := rfl
@[simp] theorem State.seqReset_frame : (s.seqReset).frame = s.frame := rfl
@[simp] theorem State.seqReset_rd : (s.seqReset).rd = s.rd := rfl
@[simp] theorem State.seqReset_txState : (s.seqReset).txState = s.txState := rfl
@[simp] theorem State.seqReset_rxState : (s.seqReset).rxState = s.rxState := rfl
@[simp] theorem State.seqReset_fresh : (s.seqReset).fresh = s.fresh := rfl
@[simp] theorem State.seqReset_rehandshake : (s.seqReset).rehandshake = s.rehandshake := rfl
@[simp] theorem State.seqReset_pos : (s.seqReset).pos = s.pos := rfl
@[simp] theorem State.seqReset_outcome : (s.seqReset).outcome = s.outcome := rfl
@[simp] theorem State.seqReset_hdr : (s.seqReset).hdr = s.hdr := rfl
@[simp] theorem State.seqReset_exitClass : (s.seqReset).exitClass = s.exitClass := rfl
@[simp] theorem State.seqReset_lastErr : (s.seqReset).lastErr = s.lastErr := rfl
@[simp] theorem State.seqReset_chan : (s.seqReset).chan = s.chan := rfl
@[simp] theorem State.seqReset_store : (s.seqReset).store = s.store := rfl
@[simp] theorem State.seqReset_trace : (s.seqReset).trace = s.trace := rfl
@[simp] theorem State.seqReset_draws : (s.seqReset).draws = s.draws := rfl

/-! ### `progress` -/

@[simp] theorem State.progress_cfg (a b : Nat) : (s.progress a b).cfg = s.cfg := rfl
@[simp] theorem State.progress_files (a b : Nat) : (s.progress a b).files = s.files := rfl
@[simp] theorem State.progress_crc (a b : Nat) : (s.progress a b).crc = s.crc := rfl
@[simp] theorem State.progress_seq0 (a b : Nat) : (s.progress a b).seq0 = s.seq0 := rfl
@[simp] theorem State.progress_seq1 (a b : Nat) : (s.progress a b).seq1 = s.seq1 := rfl
@[simp] theorem State.progress_retry (a b : Nat) : (s.progress a b).retry = s.retry := rfl
@[simp] theorem State.progress_marker (a b : Nat) : (s.progress a b).marker = s.marker := rfl
@[simp] theorem State.progress_n (a b : Nat) : (s.progress a b).n = s.n := rfl
@[simp] theorem State.progress_fileIdx (a b : Nat) : (s.progress a b).fileIdx = s.fileIdx := rfl
@[simp] theorem State.progress_size (a b : Nat) : (s.progress a b).size = s.size := rfl
@[simp] theorem State.progress_offset (a b : Nat) : (s.progress a b).offset = s.offset := rfl
@[simp] theorem State.progress_written (a b : Nat) : (s.progress a b).written = s.written := rfl
@[simp] theorem State.progress_rxS0 (a b : Nat) : (s.progress a b).rxS0 = s.rxS0 := rfl
@[simp] theorem State.progress_rxS1 (a b : Nat) : (s.progress a b).rxS1 = s.rxS1 := rfl
@[simp] theorem State.progress_rxCrc (a b : Nat) : (s.progress a b).rxCrc = s.rxCrc := rfl
@[simp] theorem State.progress_resp (a b : Nat) : (s.progress a b).resp = s.resp := rfl
@[simp] theorem State.progress_bytesDone (a b : Nat) : (s.progress a b).bytesDone = s.bytesDone := rfl
@[simp] theorem State.progress_elapsed (a b : Nat) : (s.progress a b).elapsed = Config.freeElapsed s.cfg.role s.draws := rfl
@[simp] theorem State.progress_buf (a b : Nat) : (s.progress a b).buf = s.buf := rfl
@[simp] theorem State.progress_frame (a b : Nat) : (s.progress a b).frame = s.frame := rfl
@[simp] theorem State.progress_rd (a b : Nat) : (s.progress a b).rd = s.rd := rfl
@[simp] theorem State.progress_txState (a b : Nat) : (s.progress a b).txState = s.txState := rfl
@[simp] theorem State.progress_rxState (a b : Nat) : (s.progress a b).rxState = s.rxState := rfl
@[simp] theorem State.progress_fresh (a b : Nat) : (s.progress a b).fresh = s.fresh := rfl
@[simp] theorem State.progress_rehandshake (a b : Nat) : (s.progress a b).rehandshake = s.rehandshake := rfl
@[simp] theorem State.progress_pos (a b : Nat) : (s.progress a b).pos = s.pos := rfl
@[simp] theorem State.progress_outcome (a b : Nat) : (s.progress a b).outcome = s.outcome := rfl
@[simp] theorem State.progress_hdr (a b : Nat) : (s.progress a b).hdr = s.hdr := rfl
@[simp] theorem State.progress_exitClass (a b : Nat) : (s.progress a b).exitClass = s.exitClass := rfl
@[simp] theorem State.progress_lastErr (a b : Nat) : (s.progress a b).lastErr = s.lastErr := rfl
@[simp] theorem State.progress_chan (a b : Nat) : (s.progress a b).chan = s.chan := rfl
@[simp] theorem State.progress_store (a b : Nat) : (s.progress a b).store = s.store := rfl
@[simp] theorem State.progress_trace (a b : Nat) : (s.progress a b).trace = .progress a b (Config.freeElapsed s.cfg.role s.draws) :: s.trace := rfl
@[simp] theorem State.progress_draws (a b : Nat) : (s.progress a b).draws = s.draws + 1 := rfl

/-! ### `endAttempt` -/

@[simp] theorem State.endAttempt_cfg : (s.endAttempt).cfg = s.cfg := rfl
@[simp] theorem State.endAttempt_files : (s.endAttempt).files = s.files := rfl
@[simp] theorem State.endAttempt_crc : (s.endAttempt).crc = s.crc := rfl
@[simp] theorem State.endAttempt_seq0 : (s.endAttempt).seq0 = s.seq0 := rfl
@[simp] theorem State.endAttempt_seq1 : (s.endAttempt).seq1 = s.seq1 := rfl
@[simp] theorem State.endAttempt_retry : (s.endAttempt).retry = s.retry := rfl
@[simp] theorem State.endAttempt_marker : (s.endAttempt).marker = s.marker := rfl
@[simp] theorem State.endAttempt_n : (s.endAttempt).n = s.n := rfl
@[simp] theorem State.endAttempt_fileIdx : (s.endAttempt).fileIdx = s.fileIdx := rfl
@[simp] theorem State.endAttempt_size : (s.endAttempt).size = s.size := rfl
@[simp] theorem State.endAttempt_offset : (s.endAttempt).offset = s.offset := rfl
@[simp] theorem State.endAttempt_written : (s.endAttempt).written = s.written := rfl
@[simp] theorem State.endAttempt_rxS0 : (s.endAttempt).rxS0 = s.rxS0 := rfl
@[simp] theorem State.endAttempt_rxS1 : (s.endAttempt).rxS1 = s.rxS1 := rfl
@[simp] theorem State.endAttempt_rxCrc : (s.endAttempt).rxCrc = s.rxCrc := rfl
@[simp] theorem State.endAttempt_resp : (s.endAttempt).resp = s.resp := rfl
@[simp] theorem State.endAttempt_bytesDone : (s.endAttempt).bytesDone = s.bytesDone := rfl
@[simp] theorem State.endAttempt_elapsed : (s.endAttempt).elapsed = s.elapsed := rfl
@[simp] theorem State.endAttempt_buf : (s.endAttempt).buf = s.buf := rfl
@[simp] theorem State.endAttempt_frame : (s.endAttempt).frame = s.frame := rfl
@[simp] theorem State.endAttempt_rd : (s.endAttempt).rd = s.rd := rfl
@[simp] theorem State.endAttempt_txState : (s.endAttempt).txState = s.txState := rfl
@[simp] theorem State.endAttempt_rxState : (s.endAttempt).rxState = s.rxState := rfl
@[simp] theorem State.endAttempt_fresh : (s.endAttempt).fresh = s.fresh := rfl
@[simp] theorem State.endAttempt_rehandshake : (s.endAttempt).rehandshake = s.rehandshake := rfl
@[simp] theorem State.endAttempt_pos : (s.endAttempt).pos = .none := rfl
@[simp] theorem State.endAttempt_outcome : (s.endAttempt).outcome = none := rfl
@[simp] theorem State.endAttempt_hdr : (s.endAttempt).hdr = none := rfl
@[simp] theorem State.endAttempt_exitClass : (s.endAttempt).exitClass = s.exitClass := rfl
@[simp] theorem State.endAttempt_lastErr : (s.endAttempt).lastErr = s.lastErr := rfl
@[simp] theorem State.endAttempt_chan : (s.endAttempt).chan = s.chan := rfl
@[simp] theorem State.endAttempt_store : (s.endAttempt).store = s.store := rfl
@[simp] theorem State.endAttempt_trace : (s.endAttempt).trace = s.trace := rfl
@[simp] theorem State.endAttempt_draws : (s.endAttempt).draws = s.draws := rfl

/-! ### `finish` -/

@[simp] theorem State.finish_cfg : (s.finish).cfg = s.cfg := rfl
@[simp] theorem State.finish_files : (s.finish).files = s.files := rfl
@[simp] theorem State.finish_crc : (s.finish).crc = s.crc := rfl
@[simp] theorem State.finish_seq0 : (s.finish).seq0 = s.seq0 := rfl
@[simp] theorem State.finish_seq1 : (s.finish).seq1 = s.seq1 := rfl
@[simp] theorem State.finish_retry : (s.finish).retry = 0 := rfl
@[simp] theorem State.finish_marker : (s.finish).marker = s.marker := rfl
@[simp] theorem State.finish_n : (s.finish).n = s.n := rfl
@[simp] theorem State.finish_fileIdx : (s.finish).fileIdx = s.fileIdx := rfl
@[simp] theorem State.finish_size : (s.finish).size = s.size := rfl
@[simp] theorem State.finish_offset : (s.finish).offset = s.offset := rfl
@[simp] theorem State.finish_written : (s.finish).written = s.written := rfl
@[simp] theorem State.finish_rxS0 : (s.finish).rxS0 = s.rxS0 := rfl
@[simp] theorem State.finish_rxS1 : (s.finish).rxS1 = s.rxS1 := rfl
@[simp] theorem State.finish_rxCrc : (s.finish).rxCrc = s.rxCrc := rfl
@[simp] theorem State.finish_resp : (s.finish).resp = s.resp := rfl
@[simp] theorem State.finish_bytesDone : (s.finish).bytesDone = s.bytesDone := rfl
@[simp] theorem State.finish_elapsed : (s.finish).elapsed = s.elapsed := rfl
@[simp] theorem State.finish_buf : (s.finish).buf = s.buf := rfl
@[simp] theorem State.finish_frame : (s.finish).frame = s.frame := rfl
@[simp] theorem State.finish_rd : (s.finish).rd = s.rd := rfl
@[simp] theorem State.finish_txState : (s.finish).txState = if s.cfg.role = .sender then .done else s.txState := rfl
@[simp] theorem State.finish_rxState : (s.finish).rxState = if s.cfg.role = .receiver then .done else s.rxState := rfl
@[simp] theorem State.finish_fresh : (s.finish).fresh = s.fresh := rfl
@[simp] theorem State.finish_rehandshake : (s.finish).rehandshake = s.rehandshake := rfl
@[simp] theorem State.finish_pos : (s.finish).pos = .none := rfl
@[simp] theorem State.finish_outcome : (s.finish).outcome = none := rfl
@[simp] theorem State.finish_hdr : (s.finish).hdr = none := rfl
@[simp] theorem State.finish_exitClass : (s.finish).exitClass = .success := rfl
@[simp] theorem State.finish_lastErr : (s.finish).lastErr = s.lastErr := rfl
@[simp] theorem State.finish_chan : (s.finish).chan = s.chan := rfl
@[simp] theorem State.finish_store : (s.finish).store = s.store := rfl
@[simp] theorem State.finish_trace : (s.finish).trace = .exit .success :: s.trace := rfl
@[simp] theorem State.finish_draws : (s.finish).draws = s.draws := rfl

/-! ### `abort` -/

@[simp] theorem State.abort_cfg (c : ExitClass) (e : Cause) : (s.abort c e).cfg = s.cfg := rfl
@[simp] theorem State.abort_files (c : ExitClass) (e : Cause) : (s.abort c e).files = s.files := rfl
@[simp] theorem State.abort_crc (c : ExitClass) (e : Cause) : (s.abort c e).crc = s.crc := rfl
@[simp] theorem State.abort_seq0 (c : ExitClass) (e : Cause) : (s.abort c e).seq0 = s.seq0 := rfl
@[simp] theorem State.abort_seq1 (c : ExitClass) (e : Cause) : (s.abort c e).seq1 = s.seq1 := rfl
@[simp] theorem State.abort_retry (c : ExitClass) (e : Cause) : (s.abort c e).retry = s.retry := rfl
@[simp] theorem State.abort_marker (c : ExitClass) (e : Cause) : (s.abort c e).marker = s.marker := rfl
@[simp] theorem State.abort_n (c : ExitClass) (e : Cause) : (s.abort c e).n = s.n := rfl
@[simp] theorem State.abort_fileIdx (c : ExitClass) (e : Cause) : (s.abort c e).fileIdx = s.fileIdx := rfl
@[simp] theorem State.abort_size (c : ExitClass) (e : Cause) : (s.abort c e).size = s.size := rfl
@[simp] theorem State.abort_offset (c : ExitClass) (e : Cause) : (s.abort c e).offset = s.offset := rfl
@[simp] theorem State.abort_written (c : ExitClass) (e : Cause) : (s.abort c e).written = s.written := rfl
@[simp] theorem State.abort_rxS0 (c : ExitClass) (e : Cause) : (s.abort c e).rxS0 = s.rxS0 := rfl
@[simp] theorem State.abort_rxS1 (c : ExitClass) (e : Cause) : (s.abort c e).rxS1 = s.rxS1 := rfl
@[simp] theorem State.abort_rxCrc (c : ExitClass) (e : Cause) : (s.abort c e).rxCrc = s.rxCrc := rfl
@[simp] theorem State.abort_resp (c : ExitClass) (e : Cause) : (s.abort c e).resp = s.resp := rfl
@[simp] theorem State.abort_bytesDone (c : ExitClass) (e : Cause) : (s.abort c e).bytesDone = s.bytesDone := rfl
@[simp] theorem State.abort_elapsed (c : ExitClass) (e : Cause) : (s.abort c e).elapsed = s.elapsed := rfl
@[simp] theorem State.abort_buf (c : ExitClass) (e : Cause) : (s.abort c e).buf = s.buf := rfl
@[simp] theorem State.abort_frame (c : ExitClass) (e : Cause) : (s.abort c e).frame = s.frame := rfl
@[simp] theorem State.abort_rd (c : ExitClass) (e : Cause) : (s.abort c e).rd = s.rd := rfl
@[simp] theorem State.abort_txState (c : ExitClass) (e : Cause) : (s.abort c e).txState = if s.cfg.role = .sender then .aborted else s.txState := rfl
@[simp] theorem State.abort_rxState (c : ExitClass) (e : Cause) : (s.abort c e).rxState = if s.cfg.role = .receiver then .aborted else s.rxState := rfl
@[simp] theorem State.abort_fresh (c : ExitClass) (e : Cause) : (s.abort c e).fresh = s.fresh := rfl
@[simp] theorem State.abort_rehandshake (c : ExitClass) (e : Cause) : (s.abort c e).rehandshake = s.rehandshake := rfl
@[simp] theorem State.abort_pos (c : ExitClass) (e : Cause) : (s.abort c e).pos = .none := rfl
@[simp] theorem State.abort_outcome (c : ExitClass) (e : Cause) : (s.abort c e).outcome = none := rfl
@[simp] theorem State.abort_hdr (c : ExitClass) (e : Cause) : (s.abort c e).hdr = none := rfl
@[simp] theorem State.abort_exitClass (c : ExitClass) (e : Cause) : (s.abort c e).exitClass = c := rfl
@[simp] theorem State.abort_lastErr (c : ExitClass) (e : Cause) : (s.abort c e).lastErr = e := rfl
@[simp] theorem State.abort_chan (c : ExitClass) (e : Cause) : (s.abort c e).chan = s.chan := rfl
@[simp] theorem State.abort_store (c : ExitClass) (e : Cause) : (s.abort c e).store = s.store := rfl
@[simp] theorem State.abort_trace (c : ExitClass) (e : Cause) : (s.abort c e).trace = .exit (.failure c e) :: s.trace := rfl
@[simp] theorem State.abort_draws (c : ExitClass) (e : Cause) : (s.abort c e).draws = s.draws := rfl

/-! ### `encodeFrame` -/

@[simp] theorem State.encodeFrame_cfg (m : Marker) (k : Nat) (sq : Byte) (p : List Byte) : (s.encodeFrame m k sq p).cfg = s.cfg := rfl
@[simp] theorem State.encodeFrame_files (m : Marker) (k : Nat) (sq : Byte) (p : List Byte) : (s.encodeFrame m k sq p).files = s.files := rfl
@[simp] theorem State.encodeFrame_crc (m : Marker) (k : Nat) (sq : Byte) (p : List Byte) : (s.encodeFrame m k sq p).crc = crcOf p := rfl
@[simp] theorem State.encodeFrame_seq0 (m : Marker) (k : Nat) (sq : Byte) (p : List Byte) : (s.encodeFrame m k sq p).seq0 = s.seq0 := rfl
@[simp] theorem State.encodeFrame_seq1 (m : Marker) (k : Nat) (sq : Byte) (p : List Byte) : (s.encodeFrame m k sq p).seq1 = s.seq1 := rfl
@[simp] theorem State.encodeFrame_retry (m : Marker) (k : Nat) (sq : Byte) (p : List Byte) : (s.encodeFrame m k sq p).retry = s.retry := rfl
@[simp] theorem State.encodeFrame_marker (m : Marker) (k : Nat) (sq : Byte) (p : List Byte) : (s.encodeFrame m k sq p).marker = m.byte := rfl
@[simp] theorem State.encodeFrame_n (m : Marker) (k : Nat) (sq : Byte) (p : List Byte) : (s.encodeFrame m k sq p).n = k := rfl
@[simp] theorem State.encodeFrame_fileIdx (m : Marker) (k : Nat) (sq : Byte) (p : List Byte) : (s.encodeFrame m k sq p).fileIdx = s.fileIdx := rfl
@[simp] theorem State.encodeFrame_size (m : Marker) (k : Nat) (sq : Byte) (p : List Byte) : (s.encodeFrame m k sq p).size = s.size := rfl
@[simp] theorem State.encodeFrame_offset (m : Marker) (k : Nat) (sq : Byte) (p : List Byte) : (s.encodeFrame m k sq p).offset = s.offset := rfl
@[simp] theorem State.encodeFrame_written (m : Marker) (k : Nat) (sq : Byte) (p : List Byte) : (s.encodeFrame m k sq p).written = s.written := rfl
@[simp] theorem State.encodeFrame_rxS0 (m : Marker) (k : Nat) (sq : Byte) (p : List Byte) : (s.encodeFrame m k sq p).rxS0 = s.rxS0 := rfl
@[simp] theorem State.encodeFrame_rxS1 (m : Marker) (k : Nat) (sq : Byte) (p : List Byte) : (s.encodeFrame m k sq p).rxS1 = s.rxS1 := rfl
@[simp] theorem State.encodeFrame_rxCrc (m : Marker) (k : Nat) (sq : Byte) (p : List Byte) : (s.encodeFrame m k sq p).rxCrc = s.rxCrc := rfl
@[simp] theorem State.encodeFrame_resp (m : Marker) (k : Nat) (sq : Byte) (p : List Byte) : (s.encodeFrame m k sq p).resp = s.resp := rfl
@[simp] theorem State.encodeFrame_bytesDone (m : Marker) (k : Nat) (sq : Byte) (p : List Byte) : (s.encodeFrame m k sq p).bytesDone = s.bytesDone := rfl
@[simp] theorem State.encodeFrame_elapsed (m : Marker) (k : Nat) (sq : Byte) (p : List Byte) : (s.encodeFrame m k sq p).elapsed = s.elapsed := rfl
@[simp] theorem State.encodeFrame_buf (m : Marker) (k : Nat) (sq : Byte) (p : List Byte) : (s.encodeFrame m k sq p).buf = s.buf := rfl
@[simp] theorem State.encodeFrame_frame (m : Marker) (k : Nat) (sq : Byte) (p : List Byte) : (s.encodeFrame m k sq p).frame = builtFrame m sq p := rfl
@[simp] theorem State.encodeFrame_rd (m : Marker) (k : Nat) (sq : Byte) (p : List Byte) : (s.encodeFrame m k sq p).rd = s.rd := rfl
@[simp] theorem State.encodeFrame_txState (m : Marker) (k : Nat) (sq : Byte) (p : List Byte) : (s.encodeFrame m k sq p).txState = s.txState := rfl
@[simp] theorem State.encodeFrame_rxState (m : Marker) (k : Nat) (sq : Byte) (p : List Byte) : (s.encodeFrame m k sq p).rxState = s.rxState := rfl
@[simp] theorem State.encodeFrame_fresh (m : Marker) (k : Nat) (sq : Byte) (p : List Byte) : (s.encodeFrame m k sq p).fresh = s.fresh := rfl
@[simp] theorem State.encodeFrame_rehandshake (m : Marker) (k : Nat) (sq : Byte) (p : List Byte) : (s.encodeFrame m k sq p).rehandshake = s.rehandshake := rfl
@[simp] theorem State.encodeFrame_pos (m : Marker) (k : Nat) (sq : Byte) (p : List Byte) : (s.encodeFrame m k sq p).pos = s.pos := rfl
@[simp] theorem State.encodeFrame_outcome (m : Marker) (k : Nat) (sq : Byte) (p : List Byte) : (s.encodeFrame m k sq p).outcome = s.outcome := rfl
@[simp] theorem State.encodeFrame_hdr (m : Marker) (k : Nat) (sq : Byte) (p : List Byte) : (s.encodeFrame m k sq p).hdr = s.hdr := rfl
@[simp] theorem State.encodeFrame_exitClass (m : Marker) (k : Nat) (sq : Byte) (p : List Byte) : (s.encodeFrame m k sq p).exitClass = s.exitClass := rfl
@[simp] theorem State.encodeFrame_lastErr (m : Marker) (k : Nat) (sq : Byte) (p : List Byte) : (s.encodeFrame m k sq p).lastErr = s.lastErr := rfl
@[simp] theorem State.encodeFrame_chan (m : Marker) (k : Nat) (sq : Byte) (p : List Byte) : (s.encodeFrame m k sq p).chan = s.chan := rfl
@[simp] theorem State.encodeFrame_store (m : Marker) (k : Nat) (sq : Byte) (p : List Byte) : (s.encodeFrame m k sq p).store = s.store := rfl
@[simp] theorem State.encodeFrame_trace (m : Marker) (k : Nat) (sq : Byte) (p : List Byte) : (s.encodeFrame m k sq p).trace = s.trace := rfl
@[simp] theorem State.encodeFrame_draws (m : Marker) (k : Nat) (sq : Byte) (p : List Byte) : (s.encodeFrame m k sq p).draws = s.draws := rfl

/-! ### `send` -/

@[simp] theorem State.send_cfg (bs : List Byte) : (s.send bs).cfg = s.cfg := rfl
@[simp] theorem State.send_files (bs : List Byte) : (s.send bs).files = s.files := rfl
@[simp] theorem State.send_crc (bs : List Byte) : (s.send bs).crc = s.crc := rfl
@[simp] theorem State.send_seq0 (bs : List Byte) : (s.send bs).seq0 = s.seq0 := rfl
@[simp] theorem State.send_seq1 (bs : List Byte) : (s.send bs).seq1 = s.seq1 := rfl
@[simp] theorem State.send_retry (bs : List Byte) : (s.send bs).retry = s.retry := rfl
@[simp] theorem State.send_marker (bs : List Byte) : (s.send bs).marker = s.marker := rfl
@[simp] theorem State.send_n (bs : List Byte) : (s.send bs).n = s.n := rfl
@[simp] theorem State.send_fileIdx (bs : List Byte) : (s.send bs).fileIdx = s.fileIdx := rfl
@[simp] theorem State.send_size (bs : List Byte) : (s.send bs).size = s.size := rfl
@[simp] theorem State.send_offset (bs : List Byte) : (s.send bs).offset = s.offset := rfl
@[simp] theorem State.send_written (bs : List Byte) : (s.send bs).written = s.written := rfl
@[simp] theorem State.send_rxS0 (bs : List Byte) : (s.send bs).rxS0 = s.rxS0 := rfl
@[simp] theorem State.send_rxS1 (bs : List Byte) : (s.send bs).rxS1 = s.rxS1 := rfl
@[simp] theorem State.send_rxCrc (bs : List Byte) : (s.send bs).rxCrc = s.rxCrc := rfl
@[simp] theorem State.send_resp (bs : List Byte) : (s.send bs).resp = s.resp := rfl
@[simp] theorem State.send_bytesDone (bs : List Byte) : (s.send bs).bytesDone = s.bytesDone := rfl
@[simp] theorem State.send_elapsed (bs : List Byte) : (s.send bs).elapsed = s.elapsed := rfl
@[simp] theorem State.send_buf (bs : List Byte) : (s.send bs).buf = s.buf := rfl
@[simp] theorem State.send_frame (bs : List Byte) : (s.send bs).frame = s.frame := rfl
@[simp] theorem State.send_rd (bs : List Byte) : (s.send bs).rd = s.rd := rfl
@[simp] theorem State.send_txState (bs : List Byte) : (s.send bs).txState = s.txState := rfl
@[simp] theorem State.send_rxState (bs : List Byte) : (s.send bs).rxState = s.rxState := rfl
@[simp] theorem State.send_fresh (bs : List Byte) : (s.send bs).fresh = s.fresh := rfl
@[simp] theorem State.send_rehandshake (bs : List Byte) : (s.send bs).rehandshake = s.rehandshake := rfl
@[simp] theorem State.send_pos (bs : List Byte) : (s.send bs).pos = .resp1 := rfl
@[simp] theorem State.send_outcome (bs : List Byte) : (s.send bs).outcome = s.outcome := rfl
@[simp] theorem State.send_hdr (bs : List Byte) : (s.send bs).hdr = s.hdr := rfl
@[simp] theorem State.send_exitClass (bs : List Byte) : (s.send bs).exitClass = s.exitClass := rfl
@[simp] theorem State.send_lastErr (bs : List Byte) : (s.send bs).lastErr = s.lastErr := rfl
@[simp] theorem State.send_chan (bs : List Byte) : (s.send bs).chan = s.chan.afterWrite bs := rfl
@[simp] theorem State.send_store (bs : List Byte) : (s.send bs).store = s.store := rfl
@[simp] theorem State.send_trace (bs : List Byte) : (s.send bs).trace = .write bs :: s.trace := rfl
@[simp] theorem State.send_draws (bs : List Byte) : (s.send bs).draws = s.draws := rfl

/-! ### `handshakeDone` -/

@[simp] theorem State.handshakeDone_cfg : (s.handshakeDone).cfg = s.cfg := by simp [State.handshakeDone]
@[simp] theorem State.handshakeDone_files : (s.handshakeDone).files = s.files := by simp [State.handshakeDone]
@[simp] theorem State.handshakeDone_crc : (s.handshakeDone).crc = s.crc := by simp [State.handshakeDone]
@[simp] theorem State.handshakeDone_seq0 : (s.handshakeDone).seq0 = s.seq0 := by simp [State.handshakeDone]
@[simp] theorem State.handshakeDone_seq1 : (s.handshakeDone).seq1 = s.seq1 := by simp [State.handshakeDone]
@[simp] theorem State.handshakeDone_retry : (s.handshakeDone).retry = if s.rehandshake then s.retry else 0 := by simp [State.handshakeDone]
@[simp] theorem State.handshakeDone_marker : (s.handshakeDone).marker = s.marker := by simp [State.handshakeDone]
@[simp] theorem State.handshakeDone_n : (s.handshakeDone).n = s.n := by simp [State.handshakeDone]
@[simp] theorem State.handshakeDone_fileIdx : (s.handshakeDone).fileIdx = s.fileIdx := by simp [State.handshakeDone]
@[simp] theorem State.handshakeDone_size : (s.handshakeDone).size = s.size := by simp [State.handshakeDone]
@[simp] theorem State.handshakeDone_offset : (s.handshakeDone).offset = s.offset := by simp [State.handshakeDone]
@[simp] theorem State.handshakeDone_written : (s.handshakeDone).written = s.written := by simp [State.handshakeDone]
@[simp] theorem State.handshakeDone_rxS0 : (s.handshakeDone).rxS0 = s.rxS0 := by simp [State.handshakeDone]
@[simp] theorem State.handshakeDone_rxS1 : (s.handshakeDone).rxS1 = s.rxS1 := by simp [State.handshakeDone]
@[simp] theorem State.handshakeDone_rxCrc : (s.handshakeDone).rxCrc = s.rxCrc := by simp [State.handshakeDone]
@[simp] theorem State.handshakeDone_resp : (s.handshakeDone).resp = s.resp := by simp [State.handshakeDone]
@[simp] theorem State.handshakeDone_bytesDone : (s.handshakeDone).bytesDone = s.bytesDone := by simp [State.handshakeDone]
@[simp] theorem State.handshakeDone_elapsed : (s.handshakeDone).elapsed = s.elapsed := by simp [State.handshakeDone]
@[simp] theorem State.handshakeDone_buf : (s.handshakeDone).buf = s.buf := by simp [State.handshakeDone]
@[simp] theorem State.handshakeDone_frame : (s.handshakeDone).frame = s.frame := by simp [State.handshakeDone]
@[simp] theorem State.handshakeDone_rd : (s.handshakeDone).rd = s.rd := by simp [State.handshakeDone]
@[simp] theorem State.handshakeDone_txState : (s.handshakeDone).txState = .sendingHeader := by simp [State.handshakeDone]
@[simp] theorem State.handshakeDone_rxState : (s.handshakeDone).rxState = s.rxState := by simp [State.handshakeDone]
@[simp] theorem State.handshakeDone_fresh : (s.handshakeDone).fresh = if s.rehandshake then s.fresh else true := by simp [State.handshakeDone]
@[simp] theorem State.handshakeDone_rehandshake : (s.handshakeDone).rehandshake = false := by simp [State.handshakeDone]
@[simp] theorem State.handshakeDone_pos : (s.handshakeDone).pos = .none := by simp [State.handshakeDone]
@[simp] theorem State.handshakeDone_outcome : (s.handshakeDone).outcome = none := by simp [State.handshakeDone]
@[simp] theorem State.handshakeDone_hdr : (s.handshakeDone).hdr = none := by simp [State.handshakeDone]
@[simp] theorem State.handshakeDone_exitClass : (s.handshakeDone).exitClass = s.exitClass := by simp [State.handshakeDone]
@[simp] theorem State.handshakeDone_lastErr : (s.handshakeDone).lastErr = s.lastErr := by simp [State.handshakeDone]
@[simp] theorem State.handshakeDone_chan : (s.handshakeDone).chan = s.chan := by simp [State.handshakeDone]
@[simp] theorem State.handshakeDone_store : (s.handshakeDone).store = s.store := by simp [State.handshakeDone]
@[simp] theorem State.handshakeDone_trace : (s.handshakeDone).trace = s.trace := by simp [State.handshakeDone]
@[simp] theorem State.handshakeDone_draws : (s.handshakeDone).draws = s.draws := by simp [State.handshakeDone]

/-! ### `headerDone` -/

@[simp] theorem State.headerDone_cfg : (s.headerDone).cfg = s.cfg := by simp [State.headerDone]
@[simp] theorem State.headerDone_files : (s.headerDone).files = s.files := by simp [State.headerDone]
@[simp] theorem State.headerDone_crc : (s.headerDone).crc = s.crc := by simp [State.headerDone]
@[simp] theorem State.headerDone_seq0 : (s.headerDone).seq0 = s.seq0 + 1#8 := by simp [State.headerDone]
@[simp] theorem State.headerDone_seq1 : (s.headerDone).seq1 = s.seq1 - 1#8 := by simp [State.headerDone]
@[simp] theorem State.headerDone_retry : (s.headerDone).retry = 0 := by simp [State.headerDone]
@[simp] theorem State.headerDone_marker : (s.headerDone).marker = s.marker := by simp [State.headerDone]
@[simp] theorem State.headerDone_n : (s.headerDone).n = s.n := by simp [State.headerDone]
@[simp] theorem State.headerDone_fileIdx : (s.headerDone).fileIdx = s.fileIdx := by simp [State.headerDone]
@[simp] theorem State.headerDone_size : (s.headerDone).size = s.size := by simp [State.headerDone]
@[simp] theorem State.headerDone_offset : (s.headerDone).offset = 0 := by simp [State.headerDone]
@[simp] theorem State.headerDone_written : (s.headerDone).written = s.written := by simp [State.headerDone]
@[simp] theorem State.headerDone_rxS0 : (s.headerDone).rxS0 = s.rxS0 := by simp [State.headerDone]
@[simp] theorem State.headerDone_rxS1 : (s.headerDone).rxS1 = s.rxS1 := by simp [State.headerDone]
@[simp] theorem State.headerDone_rxCrc : (s.headerDone).rxCrc = s.rxCrc := by simp [State.headerDone]
@[simp] theorem State.headerDone_resp : (s.headerDone).resp = s.resp := by simp [State.headerDone]
@[simp] theorem State.headerDone_bytesDone : (s.headerDone).bytesDone = 0 := by simp [State.headerDone]
@[simp] theorem State.headerDone_elapsed : (s.headerDone).elapsed = s.elapsed := by simp [State.headerDone]
@[simp] theorem State.headerDone_buf : (s.headerDone).buf = s.buf := by simp [State.headerDone]
@[simp] theorem State.headerDone_frame : (s.headerDone).frame = s.frame := by simp [State.headerDone]
@[simp] theorem State.headerDone_rd : (s.headerDone).rd = s.rd := by simp [State.headerDone]
@[simp] theorem State.headerDone_txState : (s.headerDone).txState = .sendingData := by simp [State.headerDone]
@[simp] theorem State.headerDone_rxState : (s.headerDone).rxState = s.rxState := by simp [State.headerDone]
@[simp] theorem State.headerDone_fresh : (s.headerDone).fresh = true := by simp [State.headerDone]
@[simp] theorem State.headerDone_rehandshake : (s.headerDone).rehandshake = s.rehandshake := by simp [State.headerDone]
@[simp] theorem State.headerDone_pos : (s.headerDone).pos = .none := by simp [State.headerDone]
@[simp] theorem State.headerDone_outcome : (s.headerDone).outcome = none := by simp [State.headerDone]
@[simp] theorem State.headerDone_hdr : (s.headerDone).hdr = none := by simp [State.headerDone]
@[simp] theorem State.headerDone_exitClass : (s.headerDone).exitClass = s.exitClass := by simp [State.headerDone]
@[simp] theorem State.headerDone_lastErr : (s.headerDone).lastErr = s.lastErr := by simp [State.headerDone]
@[simp] theorem State.headerDone_chan : (s.headerDone).chan = s.chan := by simp [State.headerDone]
@[simp] theorem State.headerDone_store : (s.headerDone).store = s.store := by simp [State.headerDone]
@[simp] theorem State.headerDone_trace : (s.headerDone).trace = s.trace := by simp [State.headerDone]
@[simp] theorem State.headerDone_draws : (s.headerDone).draws = s.draws := by simp [State.headerDone]

/-! ### `dataDone` -/

@[simp] theorem State.dataDone_cfg : (s.dataDone).cfg = s.cfg := by simp [State.dataDone]
@[simp] theorem State.dataDone_files : (s.dataDone).files = s.files := by simp [State.dataDone]
@[simp] theorem State.dataDone_crc : (s.dataDone).crc = s.crc := by simp [State.dataDone]
@[simp] theorem State.dataDone_seq0 : (s.dataDone).seq0 = s.seq0 + 1#8 := by simp [State.dataDone]
@[simp] theorem State.dataDone_seq1 : (s.dataDone).seq1 = s.seq1 - 1#8 := by simp [State.dataDone]
@[simp] theorem State.dataDone_retry : (s.dataDone).retry = 0 := by simp [State.dataDone]
@[simp] theorem State.dataDone_marker : (s.dataDone).marker = s.marker := by simp [State.dataDone]
@[simp] theorem State.dataDone_n : (s.dataDone).n = s.n := by simp [State.dataDone]
@[simp] theorem State.dataDone_fileIdx : (s.dataDone).fileIdx = s.fileIdx := by simp [State.dataDone]
@[simp] theorem State.dataDone_size : (s.dataDone).size = s.size := by simp [State.dataDone]
@[simp] theorem State.dataDone_offset : (s.dataDone).offset = s.offset + s.take := by simp [State.dataDone]
@[simp] theorem State.dataDone_written : (s.dataDone).written = s.written := by simp [State.dataDone]
@[simp] theorem State.dataDone_rxS0 : (s.dataDone).rxS0 = s.rxS0 := by simp [State.dataDone]
@[simp] theorem State.dataDone_rxS1 : (s.dataDone).rxS1 = s.rxS1 := by simp [State.dataDone]
@[simp] theorem State.dataDone_rxCrc : (s.dataDone).rxCrc = s.rxCrc := by simp [State.dataDone]
@[simp] theorem State.dataDone_resp : (s.dataDone).resp = s.resp := by simp [State.dataDone]
@[simp] theorem State.dataDone_bytesDone : (s.dataDone).bytesDone = s.offset + s.take := by simp [State.dataDone]
@[simp] theorem State.dataDone_elapsed : (s.dataDone).elapsed = Config.freeElapsed s.cfg.role s.draws := by simp [State.dataDone]
@[simp] theorem State.dataDone_buf : (s.dataDone).buf = s.buf := by simp [State.dataDone]
@[simp] theorem State.dataDone_frame : (s.dataDone).frame = s.frame := by simp [State.dataDone]
@[simp] theorem State.dataDone_rd : (s.dataDone).rd = s.rd := by simp [State.dataDone]
@[simp] theorem State.dataDone_txState : (s.dataDone).txState = if s.size ≤ s.offset + s.take then .awaitingEot else .sendingData := by simp [State.dataDone]
@[simp] theorem State.dataDone_rxState : (s.dataDone).rxState = s.rxState := by simp [State.dataDone]
@[simp] theorem State.dataDone_fresh : (s.dataDone).fresh = decide (s.offset + s.take < s.size) := by simp [State.dataDone]
@[simp] theorem State.dataDone_rehandshake : (s.dataDone).rehandshake = s.rehandshake := by simp [State.dataDone]
@[simp] theorem State.dataDone_pos : (s.dataDone).pos = .none := by simp [State.dataDone]
@[simp] theorem State.dataDone_outcome : (s.dataDone).outcome = none := by simp [State.dataDone]
@[simp] theorem State.dataDone_hdr : (s.dataDone).hdr = none := by simp [State.dataDone]
@[simp] theorem State.dataDone_exitClass : (s.dataDone).exitClass = s.exitClass := by simp [State.dataDone]
@[simp] theorem State.dataDone_lastErr : (s.dataDone).lastErr = s.lastErr := by simp [State.dataDone]
@[simp] theorem State.dataDone_chan : (s.dataDone).chan = s.chan := by simp [State.dataDone]
@[simp] theorem State.dataDone_store : (s.dataDone).store = s.store := by simp [State.dataDone]
@[simp] theorem State.dataDone_trace : (s.dataDone).trace = .progress (s.offset + s.take) s.size (Config.freeElapsed s.cfg.role s.draws) :: s.trace := by simp [State.dataDone]
@[simp] theorem State.dataDone_draws : (s.dataDone).draws = s.draws + 1 := by simp [State.dataDone]

/-! ### `eotDone` -/

@[simp] theorem State.eotDone_cfg : (s.eotDone).cfg = s.cfg := by simp [State.eotDone]
@[simp] theorem State.eotDone_files : (s.eotDone).files = s.files := by simp [State.eotDone]
@[simp] theorem State.eotDone_crc : (s.eotDone).crc = s.crc := by simp [State.eotDone]
@[simp] theorem State.eotDone_seq0 : (s.eotDone).seq0 = s.seq0 := by simp [State.eotDone]
@[simp] theorem State.eotDone_seq1 : (s.eotDone).seq1 = s.seq1 := by simp [State.eotDone]
@[simp] theorem State.eotDone_retry : (s.eotDone).retry = 0 := by simp [State.eotDone]
@[simp] theorem State.eotDone_marker : (s.eotDone).marker = s.marker := by simp [State.eotDone]
@[simp] theorem State.eotDone_n : (s.eotDone).n = s.n := by simp [State.eotDone]
@[simp] theorem State.eotDone_fileIdx : (s.eotDone).fileIdx = s.fileIdx + 1 := by simp [State.eotDone]
@[simp] theorem State.eotDone_size : (s.eotDone).size = s.size := by simp [State.eotDone]
@[simp] theorem State.eotDone_offset : (s.eotDone).offset = s.offset := by simp [State.eotDone]
@[simp] theorem State.eotDone_written : (s.eotDone).written = s.written := by simp [State.eotDone]
@[simp] theorem State.eotDone_rxS0 : (s.eotDone).rxS0 = s.rxS0 := by simp [State.eotDone]
@[simp] theorem State.eotDone_rxS1 : (s.eotDone).rxS1 = s.rxS1 := by simp [State.eotDone]
@[simp] theorem State.eotDone_rxCrc : (s.eotDone).rxCrc = s.rxCrc := by simp [State.eotDone]
@[simp] theorem State.eotDone_resp : (s.eotDone).resp = s.resp := by simp [State.eotDone]
@[simp] theorem State.eotDone_bytesDone : (s.eotDone).bytesDone = s.bytesDone := by simp [State.eotDone]
@[simp] theorem State.eotDone_elapsed : (s.eotDone).elapsed = s.elapsed := by simp [State.eotDone]
@[simp] theorem State.eotDone_buf : (s.eotDone).buf = s.buf := by simp [State.eotDone]
@[simp] theorem State.eotDone_frame : (s.eotDone).frame = s.frame := by simp [State.eotDone]
@[simp] theorem State.eotDone_rd : (s.eotDone).rd = s.rd := by simp [State.eotDone]
@[simp] theorem State.eotDone_txState : (s.eotDone).txState = if s.fileIdx + 1 < s.files.length then .sendingHeader else .sendingTerminator := by simp [State.eotDone]
@[simp] theorem State.eotDone_rxState : (s.eotDone).rxState = s.rxState := by simp [State.eotDone]
@[simp] theorem State.eotDone_fresh : (s.eotDone).fresh = true := by simp [State.eotDone]
@[simp] theorem State.eotDone_rehandshake : (s.eotDone).rehandshake = s.rehandshake := by simp [State.eotDone]
@[simp] theorem State.eotDone_pos : (s.eotDone).pos = .none := by simp [State.eotDone]
@[simp] theorem State.eotDone_outcome : (s.eotDone).outcome = none := by simp [State.eotDone]
@[simp] theorem State.eotDone_hdr : (s.eotDone).hdr = none := by simp [State.eotDone]
@[simp] theorem State.eotDone_exitClass : (s.eotDone).exitClass = s.exitClass := by simp [State.eotDone]
@[simp] theorem State.eotDone_lastErr : (s.eotDone).lastErr = s.lastErr := by simp [State.eotDone]
@[simp] theorem State.eotDone_chan : (s.eotDone).chan = s.chan := by simp [State.eotDone]
@[simp] theorem State.eotDone_store : (s.eotDone).store = s.store := by simp [State.eotDone]
@[simp] theorem State.eotDone_trace : (s.eotDone).trace = s.trace := by simp [State.eotDone]
@[simp] theorem State.eotDone_draws : (s.eotDone).draws = s.draws := by simp [State.eotDone]

/-! ### `buildHeader` -/

@[simp] theorem State.buildHeader_cfg (name : List Byte) (k : Nat) : (s.buildHeader name k).cfg = s.cfg := by simp [State.buildHeader]
@[simp] theorem State.buildHeader_files (name : List Byte) (k : Nat) : (s.buildHeader name k).files = s.files := by simp [State.buildHeader]
@[simp] theorem State.buildHeader_seq0 (name : List Byte) (k : Nat) : (s.buildHeader name k).seq0 = if s.cfg.seqResetPerFile then 0x00#8 else s.seq0 := by simp [State.buildHeader]
@[simp] theorem State.buildHeader_seq1 (name : List Byte) (k : Nat) : (s.buildHeader name k).seq1 = if s.cfg.seqResetPerFile then 0xFF#8 else s.seq1 := by simp [State.buildHeader]
@[simp] theorem State.buildHeader_retry (name : List Byte) (k : Nat) : (s.buildHeader name k).retry = s.retry := by simp [State.buildHeader]
@[simp] theorem State.buildHeader_marker (name : List Byte) (k : Nat) : (s.buildHeader name k).marker = Marker.soh.byte := by simp [State.buildHeader]
@[simp] theorem State.buildHeader_n (name : List Byte) (k : Nat) : (s.buildHeader name k).n = 128 := by simp [State.buildHeader]
@[simp] theorem State.buildHeader_fileIdx (name : List Byte) (k : Nat) : (s.buildHeader name k).fileIdx = s.fileIdx := by simp [State.buildHeader]
@[simp] theorem State.buildHeader_size (name : List Byte) (k : Nat) : (s.buildHeader name k).size = k := by simp [State.buildHeader]
@[simp] theorem State.buildHeader_offset (name : List Byte) (k : Nat) : (s.buildHeader name k).offset = s.offset := by simp [State.buildHeader]
@[simp] theorem State.buildHeader_written (name : List Byte) (k : Nat) : (s.buildHeader name k).written = s.written := by simp [State.buildHeader]
@[simp] theorem State.buildHeader_rxS0 (name : List Byte) (k : Nat) : (s.buildHeader name k).rxS0 = s.rxS0 := by simp [State.buildHeader]
@[simp] theorem State.buildHeader_rxS1 (name : List Byte) (k : Nat) : (s.buildHeader name k).rxS1 = s.rxS1 := by simp [State.buildHeader]
@[simp] theorem State.buildHeader_rxCrc (name : List Byte) (k : Nat) : (s.buildHeader name k).rxCrc = s.rxCrc := by simp [State.buildHeader]
@[simp] theorem State.buildHeader_resp (name : List Byte) (k : Nat) : (s.buildHeader name k).resp = s.resp := by simp [State.buildHeader]
@[simp] theorem State.buildHeader_bytesDone (name : List Byte) (k : Nat) : (s.buildHeader name k).bytesDone = s.bytesDone := by simp [State.buildHeader]
@[simp] theorem State.buildHeader_elapsed (name : List Byte) (k : Nat) : (s.buildHeader name k).elapsed = s.elapsed := by simp [State.buildHeader]
@[simp] theorem State.buildHeader_buf (name : List Byte) (k : Nat) : (s.buildHeader name k).buf = s.buf.writeBlock 0 (headerBytes name k) := by simp [State.buildHeader]
@[simp] theorem State.buildHeader_rd (name : List Byte) (k : Nat) : (s.buildHeader name k).rd = s.rd := by simp [State.buildHeader]
@[simp] theorem State.buildHeader_txState (name : List Byte) (k : Nat) : (s.buildHeader name k).txState = s.txState := by simp [State.buildHeader]
@[simp] theorem State.buildHeader_rxState (name : List Byte) (k : Nat) : (s.buildHeader name k).rxState = s.rxState := by simp [State.buildHeader]
@[simp] theorem State.buildHeader_fresh (name : List Byte) (k : Nat) : (s.buildHeader name k).fresh = false := by simp [State.buildHeader]
@[simp] theorem State.buildHeader_rehandshake (name : List Byte) (k : Nat) : (s.buildHeader name k).rehandshake = s.rehandshake := by simp [State.buildHeader]
@[simp] theorem State.buildHeader_pos (name : List Byte) (k : Nat) : (s.buildHeader name k).pos = s.pos := by simp [State.buildHeader]
@[simp] theorem State.buildHeader_outcome (name : List Byte) (k : Nat) : (s.buildHeader name k).outcome = s.outcome := by simp [State.buildHeader]
@[simp] theorem State.buildHeader_hdr (name : List Byte) (k : Nat) : (s.buildHeader name k).hdr = s.hdr := by simp [State.buildHeader]
@[simp] theorem State.buildHeader_exitClass (name : List Byte) (k : Nat) : (s.buildHeader name k).exitClass = s.exitClass := by simp [State.buildHeader]
@[simp] theorem State.buildHeader_lastErr (name : List Byte) (k : Nat) : (s.buildHeader name k).lastErr = s.lastErr := by simp [State.buildHeader]
@[simp] theorem State.buildHeader_chan (name : List Byte) (k : Nat) : (s.buildHeader name k).chan = s.chan := by simp [State.buildHeader]
@[simp] theorem State.buildHeader_store (name : List Byte) (k : Nat) : (s.buildHeader name k).store = s.store := by simp [State.buildHeader]
@[simp] theorem State.buildHeader_trace (name : List Byte) (k : Nat) : (s.buildHeader name k).trace = s.trace := by simp [State.buildHeader]
@[simp] theorem State.buildHeader_draws (name : List Byte) (k : Nat) : (s.buildHeader name k).draws = s.draws := by simp [State.buildHeader]

/-! ### `buildData` -/

@[simp] theorem State.buildData_cfg (chunk : List Byte) : (s.buildData chunk).cfg = s.cfg := by simp [State.buildData]
@[simp] theorem State.buildData_files (chunk : List Byte) : (s.buildData chunk).files = s.files := by simp [State.buildData]
@[simp] theorem State.buildData_seq0 (chunk : List Byte) : (s.buildData chunk).seq0 = s.seq0 := by simp [State.buildData]
@[simp] theorem State.buildData_seq1 (chunk : List Byte) : (s.buildData chunk).seq1 = s.seq1 := by simp [State.buildData]
@[simp] theorem State.buildData_retry (chunk : List Byte) : (s.buildData chunk).retry = s.retry := by simp [State.buildData]
@[simp] theorem State.buildData_marker (chunk : List Byte) : (s.buildData chunk).marker = (chunkMarker s.cfg (s.size - s.offset)).byte := by simp [State.buildData]
@[simp] theorem State.buildData_n (chunk : List Byte) : (s.buildData chunk).n = chunkSize s.cfg (s.size - s.offset) := by simp [State.buildData]
@[simp] theorem State.buildData_fileIdx (chunk : List Byte) : (s.buildData chunk).fileIdx = s.fileIdx := by simp [State.buildData]
@[simp] theorem State.buildData_size (chunk : List Byte) : (s.buildData chunk).size = s.size := by simp [State.buildData]
@[simp] theorem State.buildData_offset (chunk : List Byte) : (s.buildData chunk).offset = s.offset := by simp [State.buildData]
@[simp] theorem State.buildData_written (chunk : List Byte) : (s.buildData chunk).written = s.written := by simp [State.buildData]
@[simp] theorem State.buildData_rxS0 (chunk : List Byte) : (s.buildData chunk).rxS0 = s.rxS0 := by simp [State.buildData]
@[simp] theorem State.buildData_rxS1 (chunk : List Byte) : (s.buildData chunk).rxS1 = s.rxS1 := by simp [State.buildData]
@[simp] theorem State.buildData_rxCrc (chunk : List Byte) : (s.buildData chunk).rxCrc = s.rxCrc := by simp [State.buildData]
@[simp] theorem State.buildData_resp (chunk : List Byte) : (s.buildData chunk).resp = s.resp := by simp [State.buildData]
@[simp] theorem State.buildData_bytesDone (chunk : List Byte) : (s.buildData chunk).bytesDone = s.bytesDone := by simp [State.buildData]
@[simp] theorem State.buildData_elapsed (chunk : List Byte) : (s.buildData chunk).elapsed = s.elapsed := by simp [State.buildData]
@[simp] theorem State.buildData_buf (chunk : List Byte) : (s.buildData chunk).buf = s.buf.writeBlock 0 (padBytes chunk (chunkSize s.cfg (s.size - s.offset))) := by simp [State.buildData]
@[simp] theorem State.buildData_rd (chunk : List Byte) : (s.buildData chunk).rd = s.rd := by simp [State.buildData]
@[simp] theorem State.buildData_txState (chunk : List Byte) : (s.buildData chunk).txState = s.txState := by simp [State.buildData]
@[simp] theorem State.buildData_rxState (chunk : List Byte) : (s.buildData chunk).rxState = s.rxState := by simp [State.buildData]
@[simp] theorem State.buildData_fresh (chunk : List Byte) : (s.buildData chunk).fresh = false := by simp [State.buildData]
@[simp] theorem State.buildData_rehandshake (chunk : List Byte) : (s.buildData chunk).rehandshake = s.rehandshake := by simp [State.buildData]
@[simp] theorem State.buildData_pos (chunk : List Byte) : (s.buildData chunk).pos = s.pos := by simp [State.buildData]
@[simp] theorem State.buildData_outcome (chunk : List Byte) : (s.buildData chunk).outcome = s.outcome := by simp [State.buildData]
@[simp] theorem State.buildData_hdr (chunk : List Byte) : (s.buildData chunk).hdr = s.hdr := by simp [State.buildData]
@[simp] theorem State.buildData_exitClass (chunk : List Byte) : (s.buildData chunk).exitClass = s.exitClass := by simp [State.buildData]
@[simp] theorem State.buildData_lastErr (chunk : List Byte) : (s.buildData chunk).lastErr = s.lastErr := by simp [State.buildData]
@[simp] theorem State.buildData_chan (chunk : List Byte) : (s.buildData chunk).chan = s.chan := by simp [State.buildData]
@[simp] theorem State.buildData_store (chunk : List Byte) : (s.buildData chunk).store = s.store := by simp [State.buildData]
@[simp] theorem State.buildData_trace (chunk : List Byte) : (s.buildData chunk).trace = s.trace := by simp [State.buildData]
@[simp] theorem State.buildData_draws (chunk : List Byte) : (s.buildData chunk).draws = s.draws := by simp [State.buildData]

/-! ### `enterAwaitHeader` -/

@[simp] theorem State.enterAwaitHeader_cfg : (s.enterAwaitHeader).cfg = s.cfg := rfl
@[simp] theorem State.enterAwaitHeader_files : (s.enterAwaitHeader).files = s.files := rfl
@[simp] theorem State.enterAwaitHeader_crc : (s.enterAwaitHeader).crc = s.crc := rfl
@[simp] theorem State.enterAwaitHeader_seq0 : (s.enterAwaitHeader).seq0 = if s.cfg.seqResetPerFile then 0x00#8 else s.seq0 := rfl
@[simp] theorem State.enterAwaitHeader_seq1 : (s.enterAwaitHeader).seq1 = if s.cfg.seqResetPerFile then 0xFF#8 else s.seq1 := rfl
@[simp] theorem State.enterAwaitHeader_retry : (s.enterAwaitHeader).retry = s.retry := rfl
@[simp] theorem State.enterAwaitHeader_marker : (s.enterAwaitHeader).marker = s.marker := rfl
@[simp] theorem State.enterAwaitHeader_n : (s.enterAwaitHeader).n = s.n := rfl
@[simp] theorem State.enterAwaitHeader_fileIdx : (s.enterAwaitHeader).fileIdx = s.fileIdx := rfl
@[simp] theorem State.enterAwaitHeader_size : (s.enterAwaitHeader).size = s.size := rfl
@[simp] theorem State.enterAwaitHeader_offset : (s.enterAwaitHeader).offset = s.offset := rfl
@[simp] theorem State.enterAwaitHeader_written : (s.enterAwaitHeader).written = s.written := rfl
@[simp] theorem State.enterAwaitHeader_rxS0 : (s.enterAwaitHeader).rxS0 = s.rxS0 := rfl
@[simp] theorem State.enterAwaitHeader_rxS1 : (s.enterAwaitHeader).rxS1 = s.rxS1 := rfl
@[simp] theorem State.enterAwaitHeader_rxCrc : (s.enterAwaitHeader).rxCrc = s.rxCrc := rfl
@[simp] theorem State.enterAwaitHeader_resp : (s.enterAwaitHeader).resp = s.resp := rfl
@[simp] theorem State.enterAwaitHeader_bytesDone : (s.enterAwaitHeader).bytesDone = s.bytesDone := rfl
@[simp] theorem State.enterAwaitHeader_elapsed : (s.enterAwaitHeader).elapsed = s.elapsed := rfl
@[simp] theorem State.enterAwaitHeader_buf : (s.enterAwaitHeader).buf = s.buf := rfl
@[simp] theorem State.enterAwaitHeader_frame : (s.enterAwaitHeader).frame = s.frame := rfl
@[simp] theorem State.enterAwaitHeader_rd : (s.enterAwaitHeader).rd = s.rd := rfl
@[simp] theorem State.enterAwaitHeader_txState : (s.enterAwaitHeader).txState = s.txState := rfl
@[simp] theorem State.enterAwaitHeader_rxState : (s.enterAwaitHeader).rxState = .awaitingHeader := rfl
@[simp] theorem State.enterAwaitHeader_fresh : (s.enterAwaitHeader).fresh = s.fresh := rfl
@[simp] theorem State.enterAwaitHeader_rehandshake : (s.enterAwaitHeader).rehandshake = s.rehandshake := rfl
@[simp] theorem State.enterAwaitHeader_pos : (s.enterAwaitHeader).pos = .none := rfl
@[simp] theorem State.enterAwaitHeader_outcome : (s.enterAwaitHeader).outcome = none := rfl
@[simp] theorem State.enterAwaitHeader_hdr : (s.enterAwaitHeader).hdr = none := rfl
@[simp] theorem State.enterAwaitHeader_exitClass : (s.enterAwaitHeader).exitClass = s.exitClass := rfl
@[simp] theorem State.enterAwaitHeader_lastErr : (s.enterAwaitHeader).lastErr = s.lastErr := rfl
@[simp] theorem State.enterAwaitHeader_chan : (s.enterAwaitHeader).chan = s.chan := rfl
@[simp] theorem State.enterAwaitHeader_store : (s.enterAwaitHeader).store = s.store := rfl
@[simp] theorem State.enterAwaitHeader_trace : (s.enterAwaitHeader).trace = s.trace := rfl
@[simp] theorem State.enterAwaitHeader_draws : (s.enterAwaitHeader).draws = s.draws := rfl

/-! ### `headerAccepted` -/

@[simp] theorem State.headerAccepted_cfg (k : Nat) : (s.headerAccepted k).cfg = s.cfg := by simp [State.headerAccepted]
@[simp] theorem State.headerAccepted_files (k : Nat) : (s.headerAccepted k).files = s.files := by simp [State.headerAccepted]
@[simp] theorem State.headerAccepted_crc (k : Nat) : (s.headerAccepted k).crc = s.crc := by simp [State.headerAccepted]
@[simp] theorem State.headerAccepted_seq0 (k : Nat) : (s.headerAccepted k).seq0 = s.seq0 + 1#8 := by simp [State.headerAccepted]
@[simp] theorem State.headerAccepted_seq1 (k : Nat) : (s.headerAccepted k).seq1 = s.seq1 - 1#8 := by simp [State.headerAccepted]
@[simp] theorem State.headerAccepted_retry (k : Nat) : (s.headerAccepted k).retry = 0 := by simp [State.headerAccepted]
@[simp] theorem State.headerAccepted_marker (k : Nat) : (s.headerAccepted k).marker = s.marker := by simp [State.headerAccepted]
@[simp] theorem State.headerAccepted_n (k : Nat) : (s.headerAccepted k).n = s.n := by simp [State.headerAccepted]
@[simp] theorem State.headerAccepted_fileIdx (k : Nat) : (s.headerAccepted k).fileIdx = s.fileIdx := by simp [State.headerAccepted]
@[simp] theorem State.headerAccepted_size (k : Nat) : (s.headerAccepted k).size = k := by simp [State.headerAccepted]
@[simp] theorem State.headerAccepted_offset (k : Nat) : (s.headerAccepted k).offset = s.offset := by simp [State.headerAccepted]
@[simp] theorem State.headerAccepted_written (k : Nat) : (s.headerAccepted k).written = 0 := by simp [State.headerAccepted]
@[simp] theorem State.headerAccepted_rxS0 (k : Nat) : (s.headerAccepted k).rxS0 = s.rxS0 := by simp [State.headerAccepted]
@[simp] theorem State.headerAccepted_rxS1 (k : Nat) : (s.headerAccepted k).rxS1 = s.rxS1 := by simp [State.headerAccepted]
@[simp] theorem State.headerAccepted_rxCrc (k : Nat) : (s.headerAccepted k).rxCrc = s.rxCrc := by simp [State.headerAccepted]
@[simp] theorem State.headerAccepted_resp (k : Nat) : (s.headerAccepted k).resp = s.resp := by simp [State.headerAccepted]
@[simp] theorem State.headerAccepted_bytesDone (k : Nat) : (s.headerAccepted k).bytesDone = 0 := by simp [State.headerAccepted]
@[simp] theorem State.headerAccepted_elapsed (k : Nat) : (s.headerAccepted k).elapsed = s.elapsed := by simp [State.headerAccepted]
@[simp] theorem State.headerAccepted_buf (k : Nat) : (s.headerAccepted k).buf = s.buf := by simp [State.headerAccepted]
@[simp] theorem State.headerAccepted_frame (k : Nat) : (s.headerAccepted k).frame = s.frame := by simp [State.headerAccepted]
@[simp] theorem State.headerAccepted_rd (k : Nat) : (s.headerAccepted k).rd = s.rd := by simp [State.headerAccepted]
@[simp] theorem State.headerAccepted_txState (k : Nat) : (s.headerAccepted k).txState = s.txState := by simp [State.headerAccepted]
@[simp] theorem State.headerAccepted_rxState (k : Nat) : (s.headerAccepted k).rxState = .receivingData := by simp [State.headerAccepted]
@[simp] theorem State.headerAccepted_fresh (k : Nat) : (s.headerAccepted k).fresh = s.fresh := by simp [State.headerAccepted]
@[simp] theorem State.headerAccepted_rehandshake (k : Nat) : (s.headerAccepted k).rehandshake = s.rehandshake := by simp [State.headerAccepted]
@[simp] theorem State.headerAccepted_pos (k : Nat) : (s.headerAccepted k).pos = .none := by simp [State.headerAccepted]
@[simp] theorem State.headerAccepted_outcome (k : Nat) : (s.headerAccepted k).outcome = none := by simp [State.headerAccepted]
@[simp] theorem State.headerAccepted_hdr (k : Nat) : (s.headerAccepted k).hdr = none := by simp [State.headerAccepted]
@[simp] theorem State.headerAccepted_exitClass (k : Nat) : (s.headerAccepted k).exitClass = s.exitClass := by simp [State.headerAccepted]
@[simp] theorem State.headerAccepted_lastErr (k : Nat) : (s.headerAccepted k).lastErr = s.lastErr := by simp [State.headerAccepted]
@[simp] theorem State.headerAccepted_chan (k : Nat) : (s.headerAccepted k).chan = (s.chan.afterWrite [ACK]).afterWrite [CRQ] := by simp [State.headerAccepted]
@[simp] theorem State.headerAccepted_store (k : Nat) : (s.headerAccepted k).store = s.store := by simp [State.headerAccepted]
@[simp] theorem State.headerAccepted_trace (k : Nat) : (s.headerAccepted k).trace = .write [CRQ] :: .write [ACK] :: s.trace := by simp [State.headerAccepted]
@[simp] theorem State.headerAccepted_draws (k : Nat) : (s.headerAccepted k).draws = s.draws := by simp [State.headerAccepted]

/-! ### `count` -/

@[simp] theorem State.count_cfg (k : Nat) : (s.count k).cfg = s.cfg := rfl
@[simp] theorem State.count_files (k : Nat) : (s.count k).files = s.files := rfl
@[simp] theorem State.count_crc (k : Nat) : (s.count k).crc = s.crc := rfl
@[simp] theorem State.count_seq0 (k : Nat) : (s.count k).seq0 = s.seq0 := rfl
@[simp] theorem State.count_seq1 (k : Nat) : (s.count k).seq1 = s.seq1 := rfl
@[simp] theorem State.count_retry (k : Nat) : (s.count k).retry = s.retry := rfl
@[simp] theorem State.count_marker (k : Nat) : (s.count k).marker = s.marker := rfl
@[simp] theorem State.count_n (k : Nat) : (s.count k).n = s.n := rfl
@[simp] theorem State.count_fileIdx (k : Nat) : (s.count k).fileIdx = s.fileIdx := rfl
@[simp] theorem State.count_size (k : Nat) : (s.count k).size = s.size := rfl
@[simp] theorem State.count_offset (k : Nat) : (s.count k).offset = s.offset := rfl
@[simp] theorem State.count_written (k : Nat) : (s.count k).written = s.written + k := rfl
@[simp] theorem State.count_rxS0 (k : Nat) : (s.count k).rxS0 = s.rxS0 := rfl
@[simp] theorem State.count_rxS1 (k : Nat) : (s.count k).rxS1 = s.rxS1 := rfl
@[simp] theorem State.count_rxCrc (k : Nat) : (s.count k).rxCrc = s.rxCrc := rfl
@[simp] theorem State.count_resp (k : Nat) : (s.count k).resp = s.resp := rfl
@[simp] theorem State.count_bytesDone (k : Nat) : (s.count k).bytesDone = s.written + k := rfl
@[simp] theorem State.count_elapsed (k : Nat) : (s.count k).elapsed = s.elapsed := rfl
@[simp] theorem State.count_buf (k : Nat) : (s.count k).buf = s.buf := rfl
@[simp] theorem State.count_frame (k : Nat) : (s.count k).frame = s.frame := rfl
@[simp] theorem State.count_rd (k : Nat) : (s.count k).rd = s.rd := rfl
@[simp] theorem State.count_txState (k : Nat) : (s.count k).txState = s.txState := rfl
@[simp] theorem State.count_rxState (k : Nat) : (s.count k).rxState = s.rxState := rfl
@[simp] theorem State.count_fresh (k : Nat) : (s.count k).fresh = s.fresh := rfl
@[simp] theorem State.count_rehandshake (k : Nat) : (s.count k).rehandshake = s.rehandshake := rfl
@[simp] theorem State.count_pos (k : Nat) : (s.count k).pos = s.pos := rfl
@[simp] theorem State.count_outcome (k : Nat) : (s.count k).outcome = s.outcome := rfl
@[simp] theorem State.count_hdr (k : Nat) : (s.count k).hdr = s.hdr := rfl
@[simp] theorem State.count_exitClass (k : Nat) : (s.count k).exitClass = s.exitClass := rfl
@[simp] theorem State.count_lastErr (k : Nat) : (s.count k).lastErr = s.lastErr := rfl
@[simp] theorem State.count_chan (k : Nat) : (s.count k).chan = s.chan := rfl
@[simp] theorem State.count_store (k : Nat) : (s.count k).store = s.store := rfl
@[simp] theorem State.count_trace (k : Nat) : (s.count k).trace = s.trace := rfl
@[simp] theorem State.count_draws (k : Nat) : (s.count k).draws = s.draws := rfl

/-! ### `dataAccepted` -/

@[simp] theorem State.dataAccepted_cfg : (s.dataAccepted).cfg = s.cfg := by simp [State.dataAccepted]
@[simp] theorem State.dataAccepted_files : (s.dataAccepted).files = s.files := by simp [State.dataAccepted]
@[simp] theorem State.dataAccepted_crc : (s.dataAccepted).crc = s.crc := by simp [State.dataAccepted]
@[simp] theorem State.dataAccepted_seq0 : (s.dataAccepted).seq0 = s.seq0 + 1#8 := by simp [State.dataAccepted]
@[simp] theorem State.dataAccepted_seq1 : (s.dataAccepted).seq1 = s.seq1 - 1#8 := by simp [State.dataAccepted]
@[simp] theorem State.dataAccepted_retry : (s.dataAccepted).retry = 0 := by simp [State.dataAccepted]
@[simp] theorem State.dataAccepted_marker : (s.dataAccepted).marker = s.marker := by simp [State.dataAccepted]
@[simp] theorem State.dataAccepted_n : (s.dataAccepted).n = s.n := by simp [State.dataAccepted]
@[simp] theorem State.dataAccepted_fileIdx : (s.dataAccepted).fileIdx = s.fileIdx := by simp [State.dataAccepted]
@[simp] theorem State.dataAccepted_size : (s.dataAccepted).size = s.size := by simp [State.dataAccepted]
@[simp] theorem State.dataAccepted_offset : (s.dataAccepted).offset = s.offset := by simp [State.dataAccepted]
@[simp] theorem State.dataAccepted_written : (s.dataAccepted).written = s.written := by simp [State.dataAccepted]
@[simp] theorem State.dataAccepted_rxS0 : (s.dataAccepted).rxS0 = s.rxS0 := by simp [State.dataAccepted]
@[simp] theorem State.dataAccepted_rxS1 : (s.dataAccepted).rxS1 = s.rxS1 := by simp [State.dataAccepted]
@[simp] theorem State.dataAccepted_rxCrc : (s.dataAccepted).rxCrc = s.rxCrc := by simp [State.dataAccepted]
@[simp] theorem State.dataAccepted_resp : (s.dataAccepted).resp = s.resp := by simp [State.dataAccepted]
@[simp] theorem State.dataAccepted_bytesDone : (s.dataAccepted).bytesDone = s.bytesDone := by simp [State.dataAccepted]
@[simp] theorem State.dataAccepted_elapsed : (s.dataAccepted).elapsed = Config.freeElapsed s.cfg.role s.draws := by simp [State.dataAccepted]
@[simp] theorem State.dataAccepted_buf : (s.dataAccepted).buf = s.buf := by simp [State.dataAccepted]
@[simp] theorem State.dataAccepted_frame : (s.dataAccepted).frame = s.frame := by simp [State.dataAccepted]
@[simp] theorem State.dataAccepted_rd : (s.dataAccepted).rd = s.rd := by simp [State.dataAccepted]
@[simp] theorem State.dataAccepted_txState : (s.dataAccepted).txState = s.txState := by simp [State.dataAccepted]
@[simp] theorem State.dataAccepted_rxState : (s.dataAccepted).rxState = if s.size ≤ s.written then .awaitingNextOrEnd else .receivingData := by simp [State.dataAccepted]
@[simp] theorem State.dataAccepted_fresh : (s.dataAccepted).fresh = s.fresh := by simp [State.dataAccepted]
@[simp] theorem State.dataAccepted_rehandshake : (s.dataAccepted).rehandshake = s.rehandshake := by simp [State.dataAccepted]
@[simp] theorem State.dataAccepted_pos : (s.dataAccepted).pos = .none := by simp [State.dataAccepted]
@[simp] theorem State.dataAccepted_outcome : (s.dataAccepted).outcome = none := by simp [State.dataAccepted]
@[simp] theorem State.dataAccepted_hdr : (s.dataAccepted).hdr = none := by simp [State.dataAccepted]
@[simp] theorem State.dataAccepted_exitClass : (s.dataAccepted).exitClass = s.exitClass := by simp [State.dataAccepted]
@[simp] theorem State.dataAccepted_lastErr : (s.dataAccepted).lastErr = s.lastErr := by simp [State.dataAccepted]
@[simp] theorem State.dataAccepted_chan : (s.dataAccepted).chan = s.chan.afterWrite [ACK] := by simp [State.dataAccepted]
@[simp] theorem State.dataAccepted_store : (s.dataAccepted).store = s.store := by simp [State.dataAccepted]
@[simp] theorem State.dataAccepted_trace : (s.dataAccepted).trace = .progress s.written s.size (Config.freeElapsed s.cfg.role s.draws) :: .write [ACK] :: s.trace := by simp [State.dataAccepted]
@[simp] theorem State.dataAccepted_draws : (s.dataAccepted).draws = s.draws + 1 := by simp [State.dataAccepted]

/-! ### `arrive` -/

@[simp] theorem State.arrive_cfg (bs : List Byte) : (s.arrive bs).cfg = s.cfg := rfl
@[simp] theorem State.arrive_files (bs : List Byte) : (s.arrive bs).files = s.files := rfl
@[simp] theorem State.arrive_crc (bs : List Byte) : (s.arrive bs).crc = s.crc := rfl
@[simp] theorem State.arrive_seq0 (bs : List Byte) : (s.arrive bs).seq0 = s.seq0 := rfl
@[simp] theorem State.arrive_seq1 (bs : List Byte) : (s.arrive bs).seq1 = s.seq1 := rfl
@[simp] theorem State.arrive_retry (bs : List Byte) : (s.arrive bs).retry = s.retry := rfl
@[simp] theorem State.arrive_marker (bs : List Byte) : (s.arrive bs).marker = s.marker := rfl
@[simp] theorem State.arrive_n (bs : List Byte) : (s.arrive bs).n = s.n := rfl
@[simp] theorem State.arrive_fileIdx (bs : List Byte) : (s.arrive bs).fileIdx = s.fileIdx := rfl
@[simp] theorem State.arrive_size (bs : List Byte) : (s.arrive bs).size = s.size := rfl
@[simp] theorem State.arrive_offset (bs : List Byte) : (s.arrive bs).offset = s.offset := rfl
@[simp] theorem State.arrive_written (bs : List Byte) : (s.arrive bs).written = s.written := rfl
@[simp] theorem State.arrive_rxS0 (bs : List Byte) : (s.arrive bs).rxS0 = s.rxS0 := rfl
@[simp] theorem State.arrive_rxS1 (bs : List Byte) : (s.arrive bs).rxS1 = s.rxS1 := rfl
@[simp] theorem State.arrive_rxCrc (bs : List Byte) : (s.arrive bs).rxCrc = s.rxCrc := rfl
@[simp] theorem State.arrive_resp (bs : List Byte) : (s.arrive bs).resp = s.resp := rfl
@[simp] theorem State.arrive_bytesDone (bs : List Byte) : (s.arrive bs).bytesDone = s.bytesDone := rfl
@[simp] theorem State.arrive_elapsed (bs : List Byte) : (s.arrive bs).elapsed = s.elapsed := rfl
@[simp] theorem State.arrive_buf (bs : List Byte) : (s.arrive bs).buf = s.buf := rfl
@[simp] theorem State.arrive_frame (bs : List Byte) : (s.arrive bs).frame = s.frame := rfl
@[simp] theorem State.arrive_rd (bs : List Byte) : (s.arrive bs).rd = s.rd := rfl
@[simp] theorem State.arrive_txState (bs : List Byte) : (s.arrive bs).txState = s.txState := rfl
@[simp] theorem State.arrive_rxState (bs : List Byte) : (s.arrive bs).rxState = s.rxState := rfl
@[simp] theorem State.arrive_fresh (bs : List Byte) : (s.arrive bs).fresh = s.fresh := rfl
@[simp] theorem State.arrive_rehandshake (bs : List Byte) : (s.arrive bs).rehandshake = s.rehandshake := rfl
@[simp] theorem State.arrive_pos (bs : List Byte) : (s.arrive bs).pos = s.pos := rfl
@[simp] theorem State.arrive_outcome (bs : List Byte) : (s.arrive bs).outcome = s.outcome := rfl
@[simp] theorem State.arrive_hdr (bs : List Byte) : (s.arrive bs).hdr = s.hdr := rfl
@[simp] theorem State.arrive_exitClass (bs : List Byte) : (s.arrive bs).exitClass = s.exitClass := rfl
@[simp] theorem State.arrive_lastErr (bs : List Byte) : (s.arrive bs).lastErr = s.lastErr := rfl
@[simp] theorem State.arrive_chan (bs : List Byte) : (s.arrive bs).chan = s.chan.arrive bs := rfl
@[simp] theorem State.arrive_store (bs : List Byte) : (s.arrive bs).store = s.store := rfl
@[simp] theorem State.arrive_trace (bs : List Byte) : (s.arrive bs).trace = s.trace := rfl
@[simp] theorem State.arrive_draws (bs : List Byte) : (s.arrive bs).draws = s.draws := rfl

/-! ### `latchFrame` -/

@[simp] theorem State.latchFrame_cfg (m : Marker) (a b : Byte) (p : List Byte) (c : Half) : (s.latchFrame m a b p c).cfg = s.cfg := rfl
@[simp] theorem State.latchFrame_files (m : Marker) (a b : Byte) (p : List Byte) (c : Half) : (s.latchFrame m a b p c).files = s.files := rfl
@[simp] theorem State.latchFrame_crc (m : Marker) (a b : Byte) (p : List Byte) (c : Half) : (s.latchFrame m a b p c).crc = s.crc := rfl
@[simp] theorem State.latchFrame_seq0 (m : Marker) (a b : Byte) (p : List Byte) (c : Half) : (s.latchFrame m a b p c).seq0 = s.seq0 := rfl
@[simp] theorem State.latchFrame_seq1 (m : Marker) (a b : Byte) (p : List Byte) (c : Half) : (s.latchFrame m a b p c).seq1 = s.seq1 := rfl
@[simp] theorem State.latchFrame_retry (m : Marker) (a b : Byte) (p : List Byte) (c : Half) : (s.latchFrame m a b p c).retry = s.retry := rfl
@[simp] theorem State.latchFrame_marker (m : Marker) (a b : Byte) (p : List Byte) (c : Half) : (s.latchFrame m a b p c).marker = m.byte := rfl
@[simp] theorem State.latchFrame_n (m : Marker) (a b : Byte) (p : List Byte) (c : Half) : (s.latchFrame m a b p c).n = p.length := rfl
@[simp] theorem State.latchFrame_fileIdx (m : Marker) (a b : Byte) (p : List Byte) (c : Half) : (s.latchFrame m a b p c).fileIdx = s.fileIdx := rfl
@[simp] theorem State.latchFrame_size (m : Marker) (a b : Byte) (p : List Byte) (c : Half) : (s.latchFrame m a b p c).size = s.size := rfl
@[simp] theorem State.latchFrame_offset (m : Marker) (a b : Byte) (p : List Byte) (c : Half) : (s.latchFrame m a b p c).offset = s.offset := rfl
@[simp] theorem State.latchFrame_written (m : Marker) (a b : Byte) (p : List Byte) (c : Half) : (s.latchFrame m a b p c).written = s.written := rfl
@[simp] theorem State.latchFrame_rxS0 (m : Marker) (a b : Byte) (p : List Byte) (c : Half) : (s.latchFrame m a b p c).rxS0 = a := rfl
@[simp] theorem State.latchFrame_rxS1 (m : Marker) (a b : Byte) (p : List Byte) (c : Half) : (s.latchFrame m a b p c).rxS1 = b := rfl
@[simp] theorem State.latchFrame_rxCrc (m : Marker) (a b : Byte) (p : List Byte) (c : Half) : (s.latchFrame m a b p c).rxCrc = c := rfl
@[simp] theorem State.latchFrame_resp (m : Marker) (a b : Byte) (p : List Byte) (c : Half) : (s.latchFrame m a b p c).resp = s.resp := rfl
@[simp] theorem State.latchFrame_bytesDone (m : Marker) (a b : Byte) (p : List Byte) (c : Half) : (s.latchFrame m a b p c).bytesDone = s.bytesDone := rfl
@[simp] theorem State.latchFrame_elapsed (m : Marker) (a b : Byte) (p : List Byte) (c : Half) : (s.latchFrame m a b p c).elapsed = s.elapsed := rfl
@[simp] theorem State.latchFrame_buf (m : Marker) (a b : Byte) (p : List Byte) (c : Half) : (s.latchFrame m a b p c).buf = s.buf.writeBlock 0 p := rfl
@[simp] theorem State.latchFrame_frame (m : Marker) (a b : Byte) (p : List Byte) (c : Half) : (s.latchFrame m a b p c).frame = s.frame := rfl
@[simp] theorem State.latchFrame_rd (m : Marker) (a b : Byte) (p : List Byte) (c : Half) : (s.latchFrame m a b p c).rd = s.rd := rfl
@[simp] theorem State.latchFrame_txState (m : Marker) (a b : Byte) (p : List Byte) (c : Half) : (s.latchFrame m a b p c).txState = s.txState := rfl
@[simp] theorem State.latchFrame_rxState (m : Marker) (a b : Byte) (p : List Byte) (c : Half) : (s.latchFrame m a b p c).rxState = s.rxState := rfl
@[simp] theorem State.latchFrame_fresh (m : Marker) (a b : Byte) (p : List Byte) (c : Half) : (s.latchFrame m a b p c).fresh = s.fresh := rfl
@[simp] theorem State.latchFrame_rehandshake (m : Marker) (a b : Byte) (p : List Byte) (c : Half) : (s.latchFrame m a b p c).rehandshake = s.rehandshake := rfl
@[simp] theorem State.latchFrame_pos (m : Marker) (a b : Byte) (p : List Byte) (c : Half) : (s.latchFrame m a b p c).pos = s.pos := rfl
@[simp] theorem State.latchFrame_outcome (m : Marker) (a b : Byte) (p : List Byte) (c : Half) : (s.latchFrame m a b p c).outcome = s.outcome := rfl
@[simp] theorem State.latchFrame_hdr (m : Marker) (a b : Byte) (p : List Byte) (c : Half) : (s.latchFrame m a b p c).hdr = s.hdr := rfl
@[simp] theorem State.latchFrame_exitClass (m : Marker) (a b : Byte) (p : List Byte) (c : Half) : (s.latchFrame m a b p c).exitClass = s.exitClass := rfl
@[simp] theorem State.latchFrame_lastErr (m : Marker) (a b : Byte) (p : List Byte) (c : Half) : (s.latchFrame m a b p c).lastErr = s.lastErr := rfl
@[simp] theorem State.latchFrame_chan (m : Marker) (a b : Byte) (p : List Byte) (c : Half) : (s.latchFrame m a b p c).chan = s.chan := rfl
@[simp] theorem State.latchFrame_store (m : Marker) (a b : Byte) (p : List Byte) (c : Half) : (s.latchFrame m a b p c).store = s.store := rfl
@[simp] theorem State.latchFrame_trace (m : Marker) (a b : Byte) (p : List Byte) (c : Half) : (s.latchFrame m a b p c).trace = s.trace := rfl
@[simp] theorem State.latchFrame_draws (m : Marker) (a b : Byte) (p : List Byte) (c : Half) : (s.latchFrame m a b p c).draws = s.draws := rfl

/-! ### `afterJudge` -/

@[simp] theorem State.afterJudge_cfg (a b : Byte) : (s.afterJudge a b).cfg = s.cfg := rfl
@[simp] theorem State.afterJudge_files (a b : Byte) : (s.afterJudge a b).files = s.files := rfl
@[simp] theorem State.afterJudge_crc (a b : Byte) : (s.afterJudge a b).crc = if s.rxS0 = a ∧ s.rxS1 = b then crcOf (s.payload s.n) else s.crc := rfl
@[simp] theorem State.afterJudge_seq0 (a b : Byte) : (s.afterJudge a b).seq0 = s.seq0 := rfl
@[simp] theorem State.afterJudge_seq1 (a b : Byte) : (s.afterJudge a b).seq1 = s.seq1 := rfl
@[simp] theorem State.afterJudge_retry (a b : Byte) : (s.afterJudge a b).retry = s.retry := rfl
@[simp] theorem State.afterJudge_marker (a b : Byte) : (s.afterJudge a b).marker = s.marker := rfl
@[simp] theorem State.afterJudge_n (a b : Byte) : (s.afterJudge a b).n = s.n := rfl
@[simp] theorem State.afterJudge_fileIdx (a b : Byte) : (s.afterJudge a b).fileIdx = s.fileIdx := rfl
@[simp] theorem State.afterJudge_size (a b : Byte) : (s.afterJudge a b).size = s.size := rfl
@[simp] theorem State.afterJudge_offset (a b : Byte) : (s.afterJudge a b).offset = s.offset := rfl
@[simp] theorem State.afterJudge_written (a b : Byte) : (s.afterJudge a b).written = s.written := rfl
@[simp] theorem State.afterJudge_rxS0 (a b : Byte) : (s.afterJudge a b).rxS0 = s.rxS0 := rfl
@[simp] theorem State.afterJudge_rxS1 (a b : Byte) : (s.afterJudge a b).rxS1 = s.rxS1 := rfl
@[simp] theorem State.afterJudge_rxCrc (a b : Byte) : (s.afterJudge a b).rxCrc = s.rxCrc := rfl
@[simp] theorem State.afterJudge_resp (a b : Byte) : (s.afterJudge a b).resp = s.resp := rfl
@[simp] theorem State.afterJudge_bytesDone (a b : Byte) : (s.afterJudge a b).bytesDone = s.bytesDone := rfl
@[simp] theorem State.afterJudge_elapsed (a b : Byte) : (s.afterJudge a b).elapsed = s.elapsed := rfl
@[simp] theorem State.afterJudge_buf (a b : Byte) : (s.afterJudge a b).buf = s.buf := rfl
@[simp] theorem State.afterJudge_frame (a b : Byte) : (s.afterJudge a b).frame = s.frame := rfl
@[simp] theorem State.afterJudge_rd (a b : Byte) : (s.afterJudge a b).rd = s.rd := rfl
@[simp] theorem State.afterJudge_txState (a b : Byte) : (s.afterJudge a b).txState = s.txState := rfl
@[simp] theorem State.afterJudge_rxState (a b : Byte) : (s.afterJudge a b).rxState = s.rxState := rfl
@[simp] theorem State.afterJudge_fresh (a b : Byte) : (s.afterJudge a b).fresh = s.fresh := rfl
@[simp] theorem State.afterJudge_rehandshake (a b : Byte) : (s.afterJudge a b).rehandshake = s.rehandshake := rfl
@[simp] theorem State.afterJudge_pos (a b : Byte) : (s.afterJudge a b).pos = s.pos := rfl
@[simp] theorem State.afterJudge_outcome (a b : Byte) : (s.afterJudge a b).outcome = s.outcome := rfl
@[simp] theorem State.afterJudge_hdr (a b : Byte) : (s.afterJudge a b).hdr = s.hdr := rfl
@[simp] theorem State.afterJudge_exitClass (a b : Byte) : (s.afterJudge a b).exitClass = s.exitClass := rfl
@[simp] theorem State.afterJudge_lastErr (a b : Byte) : (s.afterJudge a b).lastErr = s.lastErr := rfl
@[simp] theorem State.afterJudge_chan (a b : Byte) : (s.afterJudge a b).chan = s.chan := rfl
@[simp] theorem State.afterJudge_store (a b : Byte) : (s.afterJudge a b).store = s.store := rfl
@[simp] theorem State.afterJudge_trace (a b : Byte) : (s.afterJudge a b).trace = s.trace := rfl
@[simp] theorem State.afterJudge_draws (a b : Byte) : (s.afterJudge a b).draws = s.draws := rfl

/-! ### `countFailure` -/

@[simp] theorem State.countFailure_cfg (e : Cause) : (s.countFailure e).cfg = s.cfg := rfl
@[simp] theorem State.countFailure_files (e : Cause) : (s.countFailure e).files = s.files := rfl
@[simp] theorem State.countFailure_crc (e : Cause) : (s.countFailure e).crc = s.crc := rfl
@[simp] theorem State.countFailure_seq0 (e : Cause) : (s.countFailure e).seq0 = s.seq0 := rfl
@[simp] theorem State.countFailure_seq1 (e : Cause) : (s.countFailure e).seq1 = s.seq1 := rfl
@[simp] theorem State.countFailure_retry (e : Cause) : (s.countFailure e).retry = s.retry + 1 := rfl
@[simp] theorem State.countFailure_marker (e : Cause) : (s.countFailure e).marker = s.marker := rfl
@[simp] theorem State.countFailure_n (e : Cause) : (s.countFailure e).n = s.n := rfl
@[simp] theorem State.countFailure_fileIdx (e : Cause) : (s.countFailure e).fileIdx = s.fileIdx := rfl
@[simp] theorem State.countFailure_size (e : Cause) : (s.countFailure e).size = s.size := rfl
@[simp] theorem State.countFailure_offset (e : Cause) : (s.countFailure e).offset = s.offset := rfl
@[simp] theorem State.countFailure_written (e : Cause) : (s.countFailure e).written = s.written := rfl
@[simp] theorem State.countFailure_rxS0 (e : Cause) : (s.countFailure e).rxS0 = s.rxS0 := rfl
@[simp] theorem State.countFailure_rxS1 (e : Cause) : (s.countFailure e).rxS1 = s.rxS1 := rfl
@[simp] theorem State.countFailure_rxCrc (e : Cause) : (s.countFailure e).rxCrc = s.rxCrc := rfl
@[simp] theorem State.countFailure_resp (e : Cause) : (s.countFailure e).resp = s.resp := rfl
@[simp] theorem State.countFailure_bytesDone (e : Cause) : (s.countFailure e).bytesDone = s.bytesDone := rfl
@[simp] theorem State.countFailure_elapsed (e : Cause) : (s.countFailure e).elapsed = s.elapsed := rfl
@[simp] theorem State.countFailure_buf (e : Cause) : (s.countFailure e).buf = s.buf := rfl
@[simp] theorem State.countFailure_frame (e : Cause) : (s.countFailure e).frame = s.frame := rfl
@[simp] theorem State.countFailure_rd (e : Cause) : (s.countFailure e).rd = s.rd := rfl
@[simp] theorem State.countFailure_txState (e : Cause) : (s.countFailure e).txState = s.txState := rfl
@[simp] theorem State.countFailure_rxState (e : Cause) : (s.countFailure e).rxState = s.rxState := rfl
@[simp] theorem State.countFailure_fresh (e : Cause) : (s.countFailure e).fresh = s.fresh := rfl
@[simp] theorem State.countFailure_rehandshake (e : Cause) : (s.countFailure e).rehandshake = s.rehandshake := rfl
@[simp] theorem State.countFailure_pos (e : Cause) : (s.countFailure e).pos = .none := rfl
@[simp] theorem State.countFailure_outcome (e : Cause) : (s.countFailure e).outcome = none := rfl
@[simp] theorem State.countFailure_hdr (e : Cause) : (s.countFailure e).hdr = none := rfl
@[simp] theorem State.countFailure_exitClass (e : Cause) : (s.countFailure e).exitClass = s.exitClass := rfl
@[simp] theorem State.countFailure_lastErr (e : Cause) : (s.countFailure e).lastErr = e := rfl
@[simp] theorem State.countFailure_chan (e : Cause) : (s.countFailure e).chan = s.chan := rfl
@[simp] theorem State.countFailure_store (e : Cause) : (s.countFailure e).store = s.store := rfl
@[simp] theorem State.countFailure_trace (e : Cause) : (s.countFailure e).trace = s.trace := rfl
@[simp] theorem State.countFailure_draws (e : Cause) : (s.countFailure e).draws = s.draws := rfl

/-! ### `backToHandshake` -/

@[simp] theorem State.backToHandshake_cfg : (s.backToHandshake).cfg = s.cfg := rfl
@[simp] theorem State.backToHandshake_files : (s.backToHandshake).files = s.files := rfl
@[simp] theorem State.backToHandshake_crc : (s.backToHandshake).crc = s.crc := rfl
@[simp] theorem State.backToHandshake_seq0 : (s.backToHandshake).seq0 = s.seq0 := rfl
@[simp] theorem State.backToHandshake_seq1 : (s.backToHandshake).seq1 = s.seq1 := rfl
@[simp] theorem State.backToHandshake_retry : (s.backToHandshake).retry = s.retry := rfl
@[simp] theorem State.backToHandshake_marker : (s.backToHandshake).marker = s.marker := rfl
@[simp] theorem State.backToHandshake_n : (s.backToHandshake).n = s.n := rfl
@[simp] theorem State.backToHandshake_fileIdx : (s.backToHandshake).fileIdx = s.fileIdx := rfl
@[simp] theorem State.backToHandshake_size : (s.backToHandshake).size = s.size := rfl
@[simp] theorem State.backToHandshake_offset : (s.backToHandshake).offset = s.offset := rfl
@[simp] theorem State.backToHandshake_written : (s.backToHandshake).written = s.written := rfl
@[simp] theorem State.backToHandshake_rxS0 : (s.backToHandshake).rxS0 = s.rxS0 := rfl
@[simp] theorem State.backToHandshake_rxS1 : (s.backToHandshake).rxS1 = s.rxS1 := rfl
@[simp] theorem State.backToHandshake_rxCrc : (s.backToHandshake).rxCrc = s.rxCrc := rfl
@[simp] theorem State.backToHandshake_resp : (s.backToHandshake).resp = s.resp := rfl
@[simp] theorem State.backToHandshake_bytesDone : (s.backToHandshake).bytesDone = s.bytesDone := rfl
@[simp] theorem State.backToHandshake_elapsed : (s.backToHandshake).elapsed = s.elapsed := rfl
@[simp] theorem State.backToHandshake_buf : (s.backToHandshake).buf = s.buf := rfl
@[simp] theorem State.backToHandshake_frame : (s.backToHandshake).frame = s.frame := rfl
@[simp] theorem State.backToHandshake_rd : (s.backToHandshake).rd = s.rd := rfl
@[simp] theorem State.backToHandshake_txState : (s.backToHandshake).txState = .handshaking := rfl
@[simp] theorem State.backToHandshake_rxState : (s.backToHandshake).rxState = s.rxState := rfl
@[simp] theorem State.backToHandshake_fresh : (s.backToHandshake).fresh = s.fresh := rfl
@[simp] theorem State.backToHandshake_rehandshake : (s.backToHandshake).rehandshake = true := rfl
@[simp] theorem State.backToHandshake_pos : (s.backToHandshake).pos = s.pos := rfl
@[simp] theorem State.backToHandshake_outcome : (s.backToHandshake).outcome = s.outcome := rfl
@[simp] theorem State.backToHandshake_hdr : (s.backToHandshake).hdr = s.hdr := rfl
@[simp] theorem State.backToHandshake_exitClass : (s.backToHandshake).exitClass = s.exitClass := rfl
@[simp] theorem State.backToHandshake_lastErr : (s.backToHandshake).lastErr = s.lastErr := rfl
@[simp] theorem State.backToHandshake_chan : (s.backToHandshake).chan = s.chan := rfl
@[simp] theorem State.backToHandshake_store : (s.backToHandshake).store = s.store := rfl
@[simp] theorem State.backToHandshake_trace : (s.backToHandshake).trace = s.trace := rfl
@[simp] theorem State.backToHandshake_draws : (s.backToHandshake).draws = s.draws := rfl

/-! ### `prepareRetry` -/

@[simp] theorem State.prepareRetry_cfg : (s.prepareRetry).cfg = s.cfg := by unfold State.prepareRetry; (repeat' split) <;> rfl
@[simp] theorem State.prepareRetry_files : (s.prepareRetry).files = s.files := by unfold State.prepareRetry; (repeat' split) <;> rfl
@[simp] theorem State.prepareRetry_crc : (s.prepareRetry).crc = s.crc := by unfold State.prepareRetry; (repeat' split) <;> rfl
@[simp] theorem State.prepareRetry_seq0 : (s.prepareRetry).seq0 = s.seq0 := by unfold State.prepareRetry; (repeat' split) <;> rfl
@[simp] theorem State.prepareRetry_seq1 : (s.prepareRetry).seq1 = s.seq1 := by unfold State.prepareRetry; (repeat' split) <;> rfl
@[simp] theorem State.prepareRetry_retry : (s.prepareRetry).retry = s.retry := by unfold State.prepareRetry; (repeat' split) <;> rfl
@[simp] theorem State.prepareRetry_marker : (s.prepareRetry).marker = s.marker := by unfold State.prepareRetry; (repeat' split) <;> rfl
@[simp] theorem State.prepareRetry_n : (s.prepareRetry).n = s.n := by unfold State.prepareRetry; (repeat' split) <;> rfl
@[simp] theorem State.prepareRetry_fileIdx : (s.prepareRetry).fileIdx = s.fileIdx := by unfold State.prepareRetry; (repeat' split) <;> rfl
@[simp] theorem State.prepareRetry_size : (s.prepareRetry).size = s.size := by unfold State.prepareRetry; (repeat' split) <;> rfl
@[simp] theorem State.prepareRetry_offset : (s.prepareRetry).offset = s.offset := by unfold State.prepareRetry; (repeat' split) <;> rfl
@[simp] theorem State.prepareRetry_written : (s.prepareRetry).written = s.written := by unfold State.prepareRetry; (repeat' split) <;> rfl
@[simp] theorem State.prepareRetry_rxS0 : (s.prepareRetry).rxS0 = s.rxS0 := by unfold State.prepareRetry; (repeat' split) <;> rfl
@[simp] theorem State.prepareRetry_rxS1 : (s.prepareRetry).rxS1 = s.rxS1 := by unfold State.prepareRetry; (repeat' split) <;> rfl
@[simp] theorem State.prepareRetry_rxCrc : (s.prepareRetry).rxCrc = s.rxCrc := by unfold State.prepareRetry; (repeat' split) <;> rfl
@[simp] theorem State.prepareRetry_resp : (s.prepareRetry).resp = s.resp := by unfold State.prepareRetry; (repeat' split) <;> rfl
@[simp] theorem State.prepareRetry_bytesDone : (s.prepareRetry).bytesDone = s.bytesDone := by unfold State.prepareRetry; (repeat' split) <;> rfl
@[simp] theorem State.prepareRetry_elapsed : (s.prepareRetry).elapsed = s.elapsed := by unfold State.prepareRetry; (repeat' split) <;> rfl
@[simp] theorem State.prepareRetry_buf : (s.prepareRetry).buf = s.buf := by unfold State.prepareRetry; (repeat' split) <;> rfl
@[simp] theorem State.prepareRetry_frame : (s.prepareRetry).frame = s.frame := by unfold State.prepareRetry; (repeat' split) <;> rfl
@[simp] theorem State.prepareRetry_rd : (s.prepareRetry).rd = s.rd := by unfold State.prepareRetry; (repeat' split) <;> rfl
@[simp] theorem State.prepareRetry_rxState : (s.prepareRetry).rxState = s.rxState := by unfold State.prepareRetry; (repeat' split) <;> rfl
@[simp] theorem State.prepareRetry_fresh : (s.prepareRetry).fresh = s.fresh := by unfold State.prepareRetry; (repeat' split) <;> rfl
@[simp] theorem State.prepareRetry_pos : (s.prepareRetry).pos = s.pos := by unfold State.prepareRetry; (repeat' split) <;> rfl
@[simp] theorem State.prepareRetry_outcome : (s.prepareRetry).outcome = s.outcome := by unfold State.prepareRetry; (repeat' split) <;> rfl
@[simp] theorem State.prepareRetry_hdr : (s.prepareRetry).hdr = s.hdr := by unfold State.prepareRetry; (repeat' split) <;> rfl
@[simp] theorem State.prepareRetry_exitClass : (s.prepareRetry).exitClass = s.exitClass := by unfold State.prepareRetry; (repeat' split) <;> rfl
@[simp] theorem State.prepareRetry_lastErr : (s.prepareRetry).lastErr = s.lastErr := by unfold State.prepareRetry; (repeat' split) <;> rfl
@[simp] theorem State.prepareRetry_store : (s.prepareRetry).store = s.store := by unfold State.prepareRetry; (repeat' split) <;> rfl
@[simp] theorem State.prepareRetry_draws : (s.prepareRetry).draws = s.draws := by unfold State.prepareRetry; (repeat' split) <;> rfl

/-! ### `fail` -/

@[simp] theorem State.fail_cfg (e : Cause) : (s.fail e).cfg = s.cfg := by simp only [State.fail]; split <;> simp
@[simp] theorem State.fail_files (e : Cause) : (s.fail e).files = s.files := by simp only [State.fail]; split <;> simp
@[simp] theorem State.fail_crc (e : Cause) : (s.fail e).crc = s.crc := by simp only [State.fail]; split <;> simp
@[simp] theorem State.fail_seq0 (e : Cause) : (s.fail e).seq0 = s.seq0 := by simp only [State.fail]; split <;> simp
@[simp] theorem State.fail_seq1 (e : Cause) : (s.fail e).seq1 = s.seq1 := by simp only [State.fail]; split <;> simp
@[simp] theorem State.fail_retry (e : Cause) : (s.fail e).retry = s.retry + 1 := by simp only [State.fail]; split <;> simp
@[simp] theorem State.fail_marker (e : Cause) : (s.fail e).marker = s.marker := by simp only [State.fail]; split <;> simp
@[simp] theorem State.fail_n (e : Cause) : (s.fail e).n = s.n := by simp only [State.fail]; split <;> simp
@[simp] theorem State.fail_fileIdx (e : Cause) : (s.fail e).fileIdx = s.fileIdx := by simp only [State.fail]; split <;> simp
@[simp] theorem State.fail_size (e : Cause) : (s.fail e).size = s.size := by simp only [State.fail]; split <;> simp
@[simp] theorem State.fail_offset (e : Cause) : (s.fail e).offset = s.offset := by simp only [State.fail]; split <;> simp
@[simp] theorem State.fail_written (e : Cause) : (s.fail e).written = s.written := by simp only [State.fail]; split <;> simp
@[simp] theorem State.fail_rxS0 (e : Cause) : (s.fail e).rxS0 = s.rxS0 := by simp only [State.fail]; split <;> simp
@[simp] theorem State.fail_rxS1 (e : Cause) : (s.fail e).rxS1 = s.rxS1 := by simp only [State.fail]; split <;> simp
@[simp] theorem State.fail_rxCrc (e : Cause) : (s.fail e).rxCrc = s.rxCrc := by simp only [State.fail]; split <;> simp
@[simp] theorem State.fail_resp (e : Cause) : (s.fail e).resp = s.resp := by simp only [State.fail]; split <;> simp
@[simp] theorem State.fail_bytesDone (e : Cause) : (s.fail e).bytesDone = s.bytesDone := by simp only [State.fail]; split <;> simp
@[simp] theorem State.fail_elapsed (e : Cause) : (s.fail e).elapsed = s.elapsed := by simp only [State.fail]; split <;> simp
@[simp] theorem State.fail_buf (e : Cause) : (s.fail e).buf = s.buf := by simp only [State.fail]; split <;> simp
@[simp] theorem State.fail_frame (e : Cause) : (s.fail e).frame = s.frame := by simp only [State.fail]; split <;> simp
@[simp] theorem State.fail_rd (e : Cause) : (s.fail e).rd = s.rd := by simp only [State.fail]; split <;> simp
@[simp] theorem State.fail_fresh (e : Cause) : (s.fail e).fresh = s.fresh := by simp only [State.fail]; split <;> simp
@[simp] theorem State.fail_pos (e : Cause) : (s.fail e).pos = .none := by simp only [State.fail]; split <;> simp
@[simp] theorem State.fail_outcome (e : Cause) : (s.fail e).outcome = none := by simp only [State.fail]; split <;> simp
@[simp] theorem State.fail_hdr (e : Cause) : (s.fail e).hdr = none := by simp only [State.fail]; split <;> simp
@[simp] theorem State.fail_lastErr (e : Cause) : (s.fail e).lastErr = e := by simp only [State.fail]; split <;> simp
@[simp] theorem State.fail_store (e : Cause) : (s.fail e).store = s.store := by simp only [State.fail]; split <;> simp
@[simp] theorem State.fail_draws (e : Cause) : (s.fail e).draws = s.draws := by simp only [State.fail]; split <;> simp

/-! ### `cancelTest` -/

@[simp] theorem State.cancelTest_cfg : (s.cancelTest).cfg = s.cfg := by simp only [State.cancelTest]; split <;> simp
@[simp] theorem State.cancelTest_files : (s.cancelTest).files = s.files := by simp only [State.cancelTest]; split <;> simp
@[simp] theorem State.cancelTest_crc : (s.cancelTest).crc = s.crc := by simp only [State.cancelTest]; split <;> simp
@[simp] theorem State.cancelTest_seq0 : (s.cancelTest).seq0 = s.seq0 := by simp only [State.cancelTest]; split <;> simp
@[simp] theorem State.cancelTest_seq1 : (s.cancelTest).seq1 = s.seq1 := by simp only [State.cancelTest]; split <;> simp
@[simp] theorem State.cancelTest_marker : (s.cancelTest).marker = s.marker := by simp only [State.cancelTest]; split <;> simp
@[simp] theorem State.cancelTest_n : (s.cancelTest).n = s.n := by simp only [State.cancelTest]; split <;> simp
@[simp] theorem State.cancelTest_fileIdx : (s.cancelTest).fileIdx = s.fileIdx := by simp only [State.cancelTest]; split <;> simp
@[simp] theorem State.cancelTest_size : (s.cancelTest).size = s.size := by simp only [State.cancelTest]; split <;> simp
@[simp] theorem State.cancelTest_offset : (s.cancelTest).offset = s.offset := by simp only [State.cancelTest]; split <;> simp
@[simp] theorem State.cancelTest_written : (s.cancelTest).written = s.written := by simp only [State.cancelTest]; split <;> simp
@[simp] theorem State.cancelTest_rxS0 : (s.cancelTest).rxS0 = s.rxS0 := by simp only [State.cancelTest]; split <;> simp
@[simp] theorem State.cancelTest_rxS1 : (s.cancelTest).rxS1 = s.rxS1 := by simp only [State.cancelTest]; split <;> simp
@[simp] theorem State.cancelTest_rxCrc : (s.cancelTest).rxCrc = s.rxCrc := by simp only [State.cancelTest]; split <;> simp
@[simp] theorem State.cancelTest_resp : (s.cancelTest).resp = s.resp := by simp only [State.cancelTest]; split <;> simp
@[simp] theorem State.cancelTest_bytesDone : (s.cancelTest).bytesDone = s.bytesDone := by simp only [State.cancelTest]; split <;> simp
@[simp] theorem State.cancelTest_elapsed : (s.cancelTest).elapsed = s.elapsed := by simp only [State.cancelTest]; split <;> simp
@[simp] theorem State.cancelTest_buf : (s.cancelTest).buf = s.buf := by simp only [State.cancelTest]; split <;> simp
@[simp] theorem State.cancelTest_frame : (s.cancelTest).frame = s.frame := by simp only [State.cancelTest]; split <;> simp
@[simp] theorem State.cancelTest_fresh : (s.cancelTest).fresh = s.fresh := by simp only [State.cancelTest]; split <;> simp
@[simp] theorem State.cancelTest_pos : (s.cancelTest).pos = .none := by simp only [State.cancelTest]; split <;> simp
@[simp] theorem State.cancelTest_outcome : (s.cancelTest).outcome = none := by simp only [State.cancelTest]; split <;> simp
@[simp] theorem State.cancelTest_hdr : (s.cancelTest).hdr = none := by simp only [State.cancelTest]; split <;> simp
@[simp] theorem State.cancelTest_store : (s.cancelTest).store = s.store := by simp only [State.cancelTest]; split <;> simp
@[simp] theorem State.cancelTest_draws : (s.cancelTest).draws = s.draws := by simp only [State.cancelTest]; split <;> simp

end Sys2Proof.Machine
end

