-- ==== Sys2Proof/Laws/Memory.lean ====
section
/-! SUPPORT. The payload buffer: every operation keeps the canonical form, a read after a write gives the byte written, and a
write leaves every other byte alone. -/

namespace Sys2Proof.Machine

/-! ### The canonical form -/

theorem Memory.wf_nil : Memory.wf [] := by decide

theorem Memory.wf_filter (m : Memory) (p : Host.Cell → Bool) (h : m.wf) : Memory.wf (m.filter p) :=
  ⟨h.1.filter p, fun c hc => h.2 c (List.mem_filter.mp hc).1⟩

/-- The cells of a string lie in its range and hold no 0x00. -/
theorem mem_cellsFrom {a : Nat} {bs : List Byte} {c : Host.Cell} (h : c ∈ cellsFrom a bs) :
    a ≤ c.1 ∧ c.1 < a + bs.length ∧ c.2 ≠ 0x00#8 := by
  induction bs generalizing a with
  | nil => simp [cellsFrom] at h
  | cons b r ih =>
    simp only [cellsFrom] at h
    split at h
    · obtain ⟨h1, h2, h3⟩ := ih h
      refine ⟨by omega, ?_, h3⟩
      simp only [List.length_cons]; omega
    · rcases List.mem_cons.mp h with rfl | h
      · refine ⟨Nat.le_refl _, ?_, ‹_›⟩; simp
      · obtain ⟨h1, h2, h3⟩ := ih h
        refine ⟨by omega, ?_, h3⟩
        simp only [List.length_cons]; omega

theorem cellsFrom_wf (a : Nat) (bs : List Byte) : Memory.wf (cellsFrom a bs) := by
  refine ⟨?_, fun c hc => (mem_cellsFrom hc).2.2⟩
  induction bs generalizing a with
  | nil => simp [cellsFrom]
  | cons b r ih =>
    simp only [cellsFrom]
    split
    · exact ih _
    · exact List.pairwise_cons.mpr ⟨fun d hd => (mem_cellsFrom hd).1, ih _⟩

/-- A write keeps the canonical form. -/
theorem Memory.wf_writeBlock (m : Memory) (a : Nat) (bs : List Byte) (h : m.wf) : (m.writeBlock a bs).wf := by
  have hl := m.wf_filter (fun c => decide (c.1 < a)) h
  have hr := m.wf_filter (fun c => decide (a + bs.length ≤ c.1)) h
  have hc := cellsFrom_wf a bs
  refine ⟨?_, ?_⟩
  · simp only [Memory.writeBlock, List.pairwise_append, List.mem_append, List.mem_filter, decide_eq_true_eq]
    refine ⟨⟨hl.1, hc.1, fun c hcl d hd => ?_⟩, hr.1, fun c hcl d hd => ?_⟩
    · have := mem_cellsFrom hd; omega
    · rcases hcl with hcl | hcl
      · omega
      · have := mem_cellsFrom hcl; omega
  · intro c
    simp only [Memory.writeBlock, List.mem_append]
    rintro ((h' | h') | h')
    · exact hl.2 c h'
    · exact hc.2 c h'
    · exact hr.2 c h'

theorem Memory.wf_write (m : Memory) (a : Nat) (b : Byte) (h : m.wf) : (m.write a b).wf :=
  m.wf_writeBlock a [b] h

theorem State.reset_buf_wf : State.reset.buf.wf := by decide

/-! ### Reading -/

@[simp] theorem Memory.read_nil (a : Nat) : Memory.read [] a = 0x00#8 := rfl

/-- Below every cell the memory reads as unlisted. -/
theorem Memory.read_below {m : Memory} {a : Nat} (h : ∀ c ∈ m, a < c.1) : m.read a = 0x00#8 := by
  cases m with
  | nil => rfl
  | cons c r =>
    have := h c (by simp)
    simp only [Memory.read]
    rw [if_neg (by omega), if_pos (by omega)]

/-- Cells below the address do not matter. -/
theorem Memory.read_append_below {l r : Memory} {a : Nat} (h : ∀ c ∈ l, c.1 < a) : Memory.read (l ++ r) a = Memory.read r a := by
  induction l with
  | nil => rfl
  | cons c l ih =>
    have := h c (by simp)
    simp only [List.cons_append, Memory.read]
    rw [if_neg (by omega), if_neg (by omega)]
    exact ih (fun d hd => h d (by simp [hd]))

/-- Cells above the address do not matter. -/
theorem Memory.read_append_above {l r : Memory} {a : Nat} (h : ∀ c ∈ r, a < c.1) : Memory.read (l ++ r) a = Memory.read l a := by
  induction l with
  | nil => simpa using Memory.read_below h
  | cons c l ih => simp only [List.cons_append, Memory.read]; split <;> [rfl; split <;> [rfl; exact ih]]

/-- The bytes of a string at its address. -/
theorem Memory.read_cellsFrom (a : Nat) (bs : List Byte) (x : Nat) :
    Memory.read (cellsFrom a bs) x = if a ≤ x then bs[x - a]?.getD 0x00#8 else 0x00#8 := by
  induction bs generalizing a with
  | nil => simp [cellsFrom]
  | cons b r ih =>
    have hcons : a < x → (b :: r)[x - a]? = r[x - (a + 1)]? := by
      intro h; rw [show x - a = (x - (a + 1)) + 1 by omega]; rfl
    simp only [cellsFrom]
    split
    · rw [ih]
      rcases Nat.lt_trichotomy a x with h | rfl | h
      · rw [if_pos (by omega), if_pos (by omega), hcons h]
      · simp [*]
      · rw [if_neg (by omega), if_neg (by omega)]
    · simp only [Memory.read]
      rcases Nat.lt_trichotomy a x with h | rfl | h
      · rw [if_neg (by omega), if_neg (by omega), ih, if_pos (by omega), if_pos (by omega), hcons h]
      · simp
      · rw [if_neg (by omega), if_pos h, if_neg (by omega)]

/-- Filtering by an address condition leaves the byte at an address that meets it. -/
theorem Memory.read_filter {m : Memory} (h : m.wf) (p : Nat → Bool) (a : Nat) :
    Memory.read (m.filter (fun c => p c.1)) a = if p a then m.read a else 0x00#8 := by
  induction m with
  | nil => simp
  | cons c r ih =>
    obtain ⟨hlt, hp⟩ := List.pairwise_cons.mp h.1
    have ih := ih ⟨hp, fun d hd => h.2 d (by simp [hd])⟩
    by_cases hc : p c.1
    · rw [List.filter_cons_of_pos (by simpa using hc)]
      simp only [Memory.read]
      by_cases h1 : c.1 = a
      · subst h1; simp [hc]
      · by_cases h2 : a < c.1
        · simp [h1, h2]
        · simp only [h1, h2, if_false]; exact ih
    · rw [List.filter_cons_of_neg (by simpa using hc), ih]
      simp only [Memory.read]
      by_cases h1 : c.1 = a
      · subst h1; simp [hc]
      · by_cases h2 : a < c.1
        · simp only [h1, h2, if_false, if_true, ite_self]
          rw [Memory.read_below (fun d hd => Nat.lt_trans h2 (hlt d hd))]; simp
        · simp only [h1, h2, if_false]

/-- The byte at an address after a write. -/
theorem Memory.read_writeBlock {m : Memory} (h : m.wf) (a : Nat) (bs : List Byte) (x : Nat) :
    (m.writeBlock a bs).read x = if h : a ≤ x ∧ x < a + bs.length then bs[x - a]'(by omega) else m.read x := by
  have hlow : ∀ c ∈ m.filter (fun c => decide (c.1 < a)), c.1 < a := by
    intro c hc; simpa using (List.mem_filter.mp hc).2
  have hhigh : ∀ c ∈ m.filter (fun c => decide (a + bs.length ≤ c.1)), a + bs.length ≤ c.1 := by
    intro c hc; simpa using (List.mem_filter.mp hc).2
  have hmid : ∀ c ∈ cellsFrom a bs, a ≤ c.1 ∧ c.1 < a + bs.length := fun c hc =>
    ⟨(mem_cellsFrom hc).1, (mem_cellsFrom hc).2.1⟩
  simp only [Memory.writeBlock]
  by_cases h1 : x < a
  · rw [Memory.read_append_above (fun c hc => by have := hhigh c hc; omega),
      Memory.read_append_above (fun c hc => by have := hmid c hc; omega),
      Memory.read_filter h (fun y => decide (y < a)), dif_neg (by omega)]
    simp [h1]
  · by_cases h2 : x < a + bs.length
    · rw [Memory.read_append_above (fun c hc => by have := hhigh c hc; omega),
        Memory.read_append_below (fun c hc => by have := hlow c hc; omega),
        Memory.read_cellsFrom, if_pos (by omega), dif_pos (by omega), List.getElem?_eq_getElem (by omega)]
      rfl
    · rw [Memory.read_append_below, Memory.read_filter h (fun y => decide (a + bs.length ≤ y)), dif_neg (by omega)]
      · simp only [decide_eq_true_eq]; rw [if_pos (by omega)]
      · intro c hc
        rcases List.mem_append.mp hc with hc | hc
        · have := hlow c hc; omega
        · have := hmid c hc; omega

/-- Read after write, one byte. -/
theorem Memory.read_write {m : Memory} (h : m.wf) (a : Nat) (b : Byte) (x : Nat) :
    (m.write a b).read x = if x = a then b else m.read x := by
  unfold Memory.write
  rw [Memory.read_writeBlock h]
  by_cases hx : x = a
  · subst hx; simp
  · rw [dif_neg (by simp only [List.length_cons, List.length_nil]; omega), if_neg hx]

/-! ### Blocks -/

/-- `Buf[a : a + k]`, byte by byte. -/
theorem Memory.readBlock_eq (m : Memory) (a k : Nat) :
    m.readBlock a k = (List.range k).map (fun i => m.read (a + i)) := by
  have hdrop : ∀ (m : Memory) (a x : Nat), a ≤ x →
      Memory.read (m.dropWhile (fun c => decide (c.1 < a))) x = m.read x := by
    intro m a x hx
    induction m with
    | nil => rfl
    | cons c r ih =>
      by_cases hc : c.1 < a
      · rw [List.dropWhile_cons_of_pos (by simpa using hc), ih]
        simp only [Memory.read]; rw [if_neg (by omega), if_neg (by omega)]
      · rw [List.dropWhile_cons_of_neg (by simpa using hc)]
  induction k generalizing m a with
  | zero => rfl
  | succ k ih =>
    simp only [Memory.readBlock, List.range_succ_eq_map, List.map_cons, List.map_map]
    rw [hdrop m a a (Nat.le_refl _), ih]
    refine congrArg₂ _ rfl (List.map_congr_left fun i _ => ?_)
    rw [hdrop m a _ (by omega)]; simp only [Function.comp]; congr 1; omega

@[simp] theorem Memory.length_readBlock (m : Memory) (a k : Nat) : (m.readBlock a k).length = k := by
  simp [Memory.readBlock_eq]

/-- A block from the start of the buffer, just written, reads back whatever was there before. -/
theorem Memory.readBlock_writeBlock (m : Memory) (bs : List Byte) : (m.writeBlock 0 bs).readBlock 0 bs.length = bs := by
  rw [Memory.readBlock_eq]
  refine List.ext_getElem (by simp) fun i h1 h2 => ?_
  simp only [List.getElem_map, List.getElem_range, Nat.zero_add]
  have hnil : m.filter (fun c => decide (c.1 < 0)) = [] := by simp
  have hhigh : ∀ c ∈ m.filter (fun c => decide (0 + bs.length ≤ c.1)), i < c.1 := by
    intro c hc
    have : 0 + bs.length ≤ c.1 := by simpa using (List.mem_filter.mp hc).2
    omega
  simp only [Memory.writeBlock]
  rw [hnil, List.nil_append, Memory.read_append_above hhigh, Memory.read_cellsFrom, if_pos (Nat.zero_le _),
    List.getElem?_eq_getElem (by simpa using h2)]
  rfl

@[simp] theorem State.payload_setPayload (s : State) (bs : List Byte) : (s.setPayload bs).payload bs.length = bs :=
  s.buf.readBlock_writeBlock bs

@[simp] theorem State.length_payload (s : State) (k : Nat) : (s.payload k).length = k := by
  simp [State.payload]

end Sys2Proof.Machine
end

