-- ==== Sys2Proof/Laws/Channel.lean ====
section
/-! SUPPORT. The three Channel primitives: what they do on any line, on a quiet line, and on a torn Channel. -/

namespace Sys2Proof.Machine

/-! ### Any line -/

theorem Channel.length_readBytes_le (n : Nat) (c : Channel) : (c.readBytes n).length ≤ n := by
  have h : c.readLimit n ≤ n := by
    unfold Channel.readLimit; split <;> omega
  unfold Channel.readBytes
  split
  · simp
  · simp only [List.length_take]; omega

theorem State.length_chRead_le (n : Nat) (s : State) : (s.chRead n).rd.length ≤ n :=
  s.chan.length_readBytes_le n

/-- A read of one byte returns one byte or none. -/
theorem State.chRead_one (s : State) : (s.chRead 1).rd = [] ∨ ∃ b, (s.chRead 1).rd = [b] := by
  have h := s.length_chRead_le 1
  rcases hr : (s.chRead 1).rd with _ | ⟨b, _ | ⟨c, r⟩⟩
  · exact .inl rfl
  · exact .inr ⟨b, rfl⟩
  · rw [hr] at h; simp at h

/-- What is returned and what stays unread are together what was there and what arrived. -/
theorem Channel.readBytes_append (n : Nat) (c : Channel) (h : (c.afterRead n).torn = false) :
    c.readBytes n ++ (c.afterRead n).inBuf = c.inBuf ++ c.upcoming.arrive := by
  have hm : c.move.torn = false := by
    unfold Channel.afterRead at h; split at h
    · exact h
    · simpa using h
  have ht : ¬ (c.torn = true ∨ c.upcoming.tearDown = true) := fun hc => by
    unfold Channel.move at hm; rw [if_pos hc] at hm; simp at hm
  have hi : c.move.inBuf = c.inBuf ++ c.upcoming.arrive := by unfold Channel.move; rw [if_neg ht]
  simp only [Channel.readBytes, Channel.afterRead, hm, Bool.false_eq_true, if_false, List.take_append_drop, hi]

/-- A read loses no output; on a torn Channel no buffer changes. -/
theorem Channel.output_afterRead (n : Nat) (c : Channel) (h : (c.afterRead n).torn = false) :
    (c.afterRead n).wire ++ (c.afterRead n).outBuf = c.wire ++ c.outBuf := by
  have hm : c.move.torn = false := by
    unfold Channel.afterRead at h; split at h
    · exact h
    · simpa using h
  have ht : ¬ (c.torn = true ∨ c.upcoming.tearDown = true) := fun hc => by
    unfold Channel.move at hm; rw [if_pos hc] at hm; simp at hm
  simp only [Channel.afterRead, hm, Bool.false_eq_true, if_false]
  simp [Channel.move, ht]

theorem Channel.move_timeout (c : Channel) : c.move.timeout = c.timeout := by
  unfold Channel.move; split <;> rfl

theorem Channel.move_torn_iff (c : Channel) : c.move.torn = true ↔ c.torn = true ∨ c.upcoming.tearDown = true := by
  unfold Channel.move
  by_cases h : c.torn = true ∨ c.upcoming.tearDown = true
  · simp [h]
  · rw [if_neg h]; simp only [not_or] at h; simp [h.1, h.2]

/-! ### The read timeout (rules R263, R277; U18) -/

/-- A write leaves the read timeout. -/
@[simp] theorem Channel.afterWrite_timeout (bs : List Byte) (c : Channel) : (c.afterWrite bs).timeout = c.timeout := by
  unfold Channel.afterWrite; split <;> simp [Channel.move_timeout]

/-- A clear leaves the read timeout. -/
@[simp] theorem Channel.afterClear_timeout (c : Channel) : c.afterClear.timeout = c.timeout := by
  unfold Channel.afterClear; split <;> simp [Channel.move_timeout]

/-- What a read does to the read timeout, said once. -/
theorem Channel.afterRead_timeout (n : Nat) (c : Channel) :
    (c.afterRead n).timeout = if c.move.torn = false then c.waited n else c.timeout := by
  unfold Channel.afterRead
  cases h : c.move.torn <;> simp [Channel.move_timeout]

/-- With a finite timeout no read is ever blocked (rule R263 (a)). -/
@[simp] theorem Channel.afterRead_finite {c : Channel} (n : Nat) (h : c.timeout = .finite) : (c.afterRead n).timeout = .finite := by
  rw [Channel.afterRead_timeout]; simp [Channel.waited, h]

/-- A blocked read stays blocked. -/
@[simp] theorem Channel.afterRead_hung {c : Channel} (n : Nat) (h : c.timeout = .hung) : (c.afterRead n).timeout = .hung := by
  rw [Channel.afterRead_timeout]; simp [Channel.waited, h]

/-- A read that returns all it was asked for is not blocked. -/
theorem Channel.afterRead_full {c : Channel} {n : Nat} (h : n ≤ (c.readBytes n).length) : (c.afterRead n).timeout = c.timeout := by
  rw [Channel.afterRead_timeout]; simp [Channel.waited, Nat.not_lt.mpr h]

/-- On a torn Channel a read returns at once. -/
theorem Channel.afterRead_torn {c : Channel} (n : Nat) (h : c.torn = true) : (c.afterRead n).timeout = c.timeout := by
  rw [Channel.afterRead_timeout, if_neg]; rw [(Channel.move_torn_iff c).mpr (.inl h)]; simp

@[simp] theorem State.live_chWrite (bs : List Byte) (s : State) : (s.chWrite bs).live ↔ s.live := by
  simp [State.live]

@[simp] theorem State.live_chClear (s : State) : s.chClear.live ↔ s.live := by
  simp [State.live]

/-- A read that is not blocked was not blocked before. -/
theorem State.live_of_chRead {n : Nat} {s : State} (h : (s.chRead n).live) : s.live :=
  fun hc => h (by simp [hc])

theorem State.live_chRead_full {n : Nat} {s : State} (h : s.live) (hn : n ≤ (s.chRead n).rd.length) : (s.chRead n).live := by
  unfold State.live; rw [State.chRead_chan, Channel.afterRead_full hn]; exact h

/-- A settled operation answers its next state exactly when none of its reads is blocked. -/
theorem settle_next {t : State} (h : t.live) : settle (.next t) = .next t := if_neg h

theorem settle_hung {t : State} (h : t.chan.timeout = .hung) : settle (.next t) = .fault .readBlocked := if_pos h

theorem of_settle {k : Step State} {t : State} (h : settle k = .next t) : k = .next t ∧ t.live := by
  cases k with
  | next u =>
    by_cases hu : u.chan.timeout = .hung
    · rw [settle_hung hu] at h; cases h
    · rw [settle_next hu] at h; cases h; exact ⟨rfl, hu⟩
  | fault f => cases h
  | refused e => cases h

/-! ### A quiet line -/

/-- Nothing scripted, not torn down, reads have a timeout. -/
abbrev Channel.quiet (c : Channel) : Prop := c.torn = false ∧ c.script = [] ∧ c.again = [] ∧ c.timeout = .finite

theorem Channel.upcoming_quiet {c : Channel} (h : c.quiet) : c.upcoming = LineStep.ideal c := by
  simp [Channel.upcoming, h.2.1, h.2.2.1]

theorem Channel.move_quiet {c : Channel} (h : c.quiet) :
    c.move = { c with wire := c.wire ++ c.outBuf, outBuf := [] } := by
  obtain ⟨ht, hs, ha, -⟩ := h
  simp [Channel.move, Channel.upcoming, Channel.rest, hs, ht, ha, LineStep.ideal]

theorem Channel.readLimit_quiet {c : Channel} (h : c.quiet) (n : Nat) : c.readLimit n = n := by
  simp [Channel.readLimit, Channel.upcoming_quiet h, LineStep.ideal]

theorem Channel.readBytes_quiet {c : Channel} (h : c.quiet) (n : Nat) : c.readBytes n = c.inBuf.take n := by
  simp [Channel.readBytes, Channel.move_quiet h, Channel.readLimit_quiet h, h.1]

theorem Channel.afterRead_quiet {c : Channel} (h : c.quiet) (n : Nat) :
    c.afterRead n = { c with inBuf := c.inBuf.drop n, wire := c.wire ++ c.outBuf, outBuf := [] } := by
  simp [Channel.afterRead, Channel.move_quiet h, Channel.readLimit_quiet h, Channel.waited, h.1, h.2.2.2]

theorem Channel.afterWrite_quiet {c : Channel} (h : c.quiet) (bs : List Byte) :
    c.afterWrite bs = { c with wire := c.wire ++ c.outBuf, outBuf := bs } := by
  simp [Channel.afterWrite, Channel.move_quiet h, h.1]

theorem Channel.afterClear_quiet {c : Channel} (h : c.quiet) :
    c.afterClear = { c with inBuf := [], wire := c.wire ++ c.outBuf, outBuf := [] } := by
  simp [Channel.afterClear, Channel.move_quiet h, h.1]

theorem State.quiet_iff (s : State) : s.quiet ↔ s.chan.quiet := Iff.rfl

@[simp] theorem Channel.quiet_afterRead {c : Channel} (h : c.quiet) (n : Nat) : (c.afterRead n).quiet := by
  rw [Channel.afterRead_quiet h]; exact h

@[simp] theorem Channel.quiet_afterWrite {c : Channel} (h : c.quiet) (bs : List Byte) : (c.afterWrite bs).quiet := by
  rw [Channel.afterWrite_quiet h]; exact h

@[simp] theorem Channel.quiet_afterClear {c : Channel} (h : c.quiet) : c.afterClear.quiet := by
  rw [Channel.afterClear_quiet h]; exact h

/-- A read on a quiet line whose unread bytes begin with what is asked for. -/
theorem State.chRead_quiet {s : State} (h : s.quiet) {n : Nat} {bs rest : List Byte} (hb : s.chan.inBuf = bs ++ rest)
    (hn : bs.length = n) :
    (s.chRead n).rd = bs ∧ (s.chRead n).chan.inBuf = rest ∧ (s.chRead n).quiet := by
  refine ⟨?_, ?_, Channel.quiet_afterRead h n⟩
  · simp only [State.chRead_rd, Channel.readBytes_quiet h, hb]; subst hn; simp
  · simp only [State.chRead_chan, Channel.afterRead_quiet h, hb]; subst hn; simp

/-! ### A torn Channel -/

theorem Channel.move_torn {c : Channel} (h : c.torn = true) : c.move = { c with script := c.rest } := by
  unfold Channel.move; rw [if_pos (.inl h)]; rw [← h]

theorem Channel.readBytes_torn {c : Channel} (h : c.torn = true) (n : Nat) : c.readBytes n = [] := by
  simp [Channel.readBytes, Channel.move_torn h, h]

@[simp] theorem Channel.torn_afterRead {c : Channel} (h : c.torn = true) (n : Nat) : (c.afterRead n).torn = true := by
  simp [Channel.afterRead, Channel.move_torn h, h]

@[simp] theorem Channel.torn_afterWrite {c : Channel} (h : c.torn = true) (bs : List Byte) :
    (c.afterWrite bs).torn = true := by
  simp [Channel.afterWrite, Channel.move_torn h, h]

@[simp] theorem Channel.torn_afterClear {c : Channel} (h : c.torn = true) : c.afterClear.torn = true := by
  simp [Channel.afterClear, Channel.move_torn h, h]

end Sys2Proof.Machine
end

