-- ==== Sys2Proof/Laws/Crc.lean ====
section
/-! SUPPORT. The checksum engine: the update as shifts and exclusive-or, strings in parts, linearity. -/

namespace Sys2Proof.Machine

@[simp] theorem crcFrom_nil (c : Half) : crcFrom c [] = c := rfl

@[simp] theorem crcFrom_cons (c : Half) (b : Byte) (bs : List Byte) : crcFrom c (b :: bs) = crcFrom (crcUpdate c b) bs := rfl

theorem crcFrom_append (c : Half) (as bs : List Byte) : crcFrom c (as ++ bs) = crcFrom (crcFrom c as) bs :=
  List.foldl_append

/-- A shift step is linear. -/
theorem crcShift_xor (c d : Half) : crcShift (c ^^^ d) = crcShift c ^^^ crcShift d := by
  have hs : (c ^^^ d) <<< 1 = c <<< 1 ^^^ d <<< 1 := BitVec.shiftLeft_xor_distrib c d 1
  simp only [crcShift, BitVec.getLsbD_xor, hs]
  cases c.getLsbD 15 <;> cases d.getLsbD 15 <;>
    simp only [Bool.xor_self, Bool.xor_false, Bool.xor_true, Bool.not_false, if_true, if_false, Bool.false_eq_true]
  · ac_rfl
  · ac_rfl
  · rw [show ∀ x y z : Half, x ^^^ z ^^^ (y ^^^ z) = x ^^^ y ^^^ (z ^^^ z) from fun x y z => by ac_rfl, BitVec.xor_self,
      BitVec.xor_zero]

theorem crcShift8_xor (c d : Half) : crcShift8 (c ^^^ d) = crcShift8 c ^^^ crcShift8 d := by
  simp only [crcShift8, crcShift_xor]

theorem crcShift_zero : crcShift 0#16 = 0#16 := by decide

theorem crcShift8_zero : crcShift8 0#16 = 0#16 := by decide

/-- Eight shift steps move a word with a zero high byte up by 8. -/
theorem crcShift8_low (b : Byte) : crcShift8 (b.setWidth 16) = b.setWidth 16 <<< 8 := by
  revert b; decide +kernel

/-- The update is eight shift steps of the register with the byte in its high half (rule R116). -/
theorem crcUpdate_eq_shift8 (c : Half) (b : Byte) : crcUpdate c b = crcShift8 (c ^^^ (b.setWidth 16 <<< 8)) := by
  have hc : c = (c.extractLsb' 8 8).setWidth 16 <<< 8 ^^^ (c.extractLsb' 0 8).setWidth 16 := by
    ext i h
    simp only [BitVec.getElem_xor, BitVec.getElem_shiftLeft, BitVec.getElem_setWidth, BitVec.getLsbD_extractLsb']
    grind
  have hs : ∀ x y : Byte, (x ^^^ y).setWidth 16 <<< 8 = x.setWidth 16 <<< 8 ^^^ y.setWidth 16 <<< (8 : Nat) := by
    intro x y; rw [BitVec.setWidth_xor, BitVec.shiftLeft_xor_distrib]
  have hl : c <<< 8 = ((c.extractLsb' 0 8).setWidth 16) <<< 8 := by
    ext i h
    simp only [BitVec.getElem_shiftLeft, BitVec.getElem_setWidth, BitVec.getLsbD_extractLsb']
    grind
  unfold crcUpdate crcIndex crcRom
  rw [hs, hl, crcShift8_xor, ← crcShift8_low]
  conv => rhs; rw [hc]
  simp only [crcShift8_xor]
  ac_rfl

theorem crcUpdate_xor (c d : Half) (a b : Byte) : crcUpdate (c ^^^ d) (a ^^^ b) = crcUpdate c a ^^^ crcUpdate d b := by
  simp only [crcUpdate_eq_shift8, BitVec.setWidth_xor, BitVec.shiftLeft_xor_distrib, crcShift8_xor]
  ac_rfl

theorem crcFrom_xor (c d : Half) (as bs : List Byte) (h : as.length = bs.length) :
    crcFrom (c ^^^ d) (List.zipWith (fun x y => x ^^^ y) as bs) = crcFrom c as ^^^ crcFrom d bs := by
  induction as generalizing c d bs with
  | nil => cases bs <;> simp_all
  | cons a as ih =>
    cases bs with
    | nil => simp at h
    | cons b bs => simp only [List.zipWith_cons_cons, crcFrom_cons, crcUpdate_xor]; exact ih _ _ _ (by simpa using h)

theorem crcUpdate_zero_zero : crcUpdate 0#16 0#8 = 0#16 := by decide

theorem crcFrom_replicate_zero (k : Nat) : crcFrom 0#16 (List.replicate k 0x00#8) = 0#16 := by
  induction k with
  | zero => rfl
  | succ k ih => rw [List.replicate_succ, crcFrom_cons, crcUpdate_zero_zero, ih]

/-- A shift step kills no bit: a register that becomes zero was zero (rule R142). -/
theorem crcShift_eq_zero {c : Half} (h : crcShift c = 0#16) : c = 0#16 := by
  have h0 : (crcShift c).getLsbD 0 = false := by rw [h]; rfl
  unfold crcShift at h h0
  split at h
  · rename_i hc
    simp only [hc, if_true, BitVec.getLsbD_xor] at h0
    simp at h0
  · rename_i hc
    apply BitVec.eq_of_toNat_eq
    have := congrArg BitVec.toNat h
    have hlt : c.toNat < 2 ^ 15 := by
      have := BitVec.msb_eq_getLsbD_last c
      have hm : c.msb = false := by rw [this]; simpa using hc
      have := BitVec.msb_eq_false_iff_two_mul_lt.mp hm
      omega
    simp only [BitVec.toNat_shiftLeft, BitVec.toNat_ofNat, Nat.shiftLeft_eq] at this ⊢
    omega

theorem crcShift8_eq_zero {c : Half} (h : crcShift8 c = 0#16) : c = 0#16 := by
  unfold crcShift8 at h
  iterate 8 replace h := crcShift_eq_zero h
  exact h

/-- Zero input keeps a non-zero register non-zero. -/
theorem crcFrom_zeros_ne {c : Half} (h : c ≠ 0#16) (k : Nat) : crcFrom c (List.replicate k 0x00#8) ≠ 0#16 := by
  induction k generalizing c with
  | zero => exact h
  | succ k ih =>
    rw [List.replicate_succ, crcFrom_cons]
    refine ih fun h0 => h ?_
    rw [crcUpdate_eq_shift8] at h0
    simpa using crcShift8_eq_zero h0

end Sys2Proof.Machine
end

