-- ==== Sys2Proof/Laws/Encoding.lean ====
section
/-! SUPPORT. The trailer's two bytes and the checksum word are the same thing, and what a data marker's byte says. -/

namespace Sys2Proof

theorem joinBytes_eq_append (hi lo : Byte) : joinBytes hi lo = hi ++ lo := by
  unfold joinBytes
  ext i h
  simp only [BitVec.getElem_or, BitVec.getElem_shiftLeft, BitVec.getElem_setWidth]
  grind

@[simp] theorem hiByte_joinBytes (hi lo : Byte) : hiByte (joinBytes hi lo) = hi := by
  rw [joinBytes_eq_append]
  ext i h
  simp only [hiByte, BitVec.getElem_extractLsb', BitVec.getLsbD_append]
  grind

@[simp] theorem loByte_joinBytes (hi lo : Byte) : loByte (joinBytes hi lo) = lo := by
  rw [joinBytes_eq_append]
  ext i h
  simp only [loByte, BitVec.getElem_extractLsb', BitVec.getLsbD_append, Nat.zero_add]
  grind

@[simp] theorem joinBytes_hiByte_loByte (c : Half) : joinBytes (hiByte c) (loByte c) = c := by
  rw [joinBytes_eq_append]
  ext i h
  simp only [hiByte, loByte, BitVec.getElem_append, BitVec.getElem_extractLsb']
  grind

/-- The first byte of a frame names its marker and its payload size. -/
theorem symbolClass_byte {k n : Nat} {m : Marker} (h : payloadSize k m = some n) : symbolClass k m.byte = .data m n := by
  cases m
  · cases h; rfl
  · cases h; rfl
  · simp only [payloadSize] at h
    split at h
    · exact absurd h (by simp)
    · cases h; simp [symbolClass, Marker.byte, SOH, STX, CUS, *]

theorem payloadSize_pos {k n : Nat} {m : Marker} (h : payloadSize k m = some n) : 0 < n := by
  cases m <;> simp only [payloadSize] at h
  · cases h; decide
  · cases h; decide
  · split at h
    · exact absurd h (by simp)
    · cases h; omega

/-- A data class is a data marker's. -/
theorem symbolClass_data {k n : Nat} {b : Byte} {m : Marker} (h : symbolClass k b = .data m n) :
    b = m.byte ∧ payloadSize k m = some n := by
  unfold symbolClass at h
  repeat' split at h
  all_goals cases h
  all_goals simp [payloadSize, Marker.byte, *]

/-- A control class is a control symbol's, and its byte encodes it. -/
theorem symbolClass_control {k : Nat} {b : Byte} {i : Instr} (h : symbolClass k b = .control i) :
    encode i = [b] ∧ (i = .eot ∨ i = .ack ∨ i = .nak ∨ i = .can ∨ i = .crq) := by
  unfold symbolClass at h
  repeat' split at h
  all_goals cases h
  all_goals simp [encode, *]

end Sys2Proof
end

