-- ==== Sys2Proof/Laws/Framer.lean ====
section
/-! SUPPORT. `DECODE` and the retry path: what each can do, said once. -/

namespace Sys2Proof.Machine

/-! ### What `DECODE` keeps -/

/-- The registers `DECODE` does not write are the same in two states. -/
structure SameBesidesDecode (s t : State) : Prop where
  cfg : t.cfg = s.cfg
  files : t.files = s.files
  seq0 : t.seq0 = s.seq0
  seq1 : t.seq1 = s.seq1
  retry : t.retry = s.retry
  fileIdx : t.fileIdx = s.fileIdx
  size : t.size = s.size
  offset : t.offset = s.offset
  written : t.written = s.written
  resp : t.resp = s.resp
  bytesDone : t.bytesDone = s.bytesDone
  elapsed : t.elapsed = s.elapsed
  frame : t.frame = s.frame
  txState : t.txState = s.txState
  rxState : t.rxState = s.rxState
  fresh : t.fresh = s.fresh
  rehandshake : t.rehandshake = s.rehandshake
  pos : t.pos = s.pos
  outcome : t.outcome = s.outcome
  hdr : t.hdr = s.hdr
  exitClass : t.exitClass = s.exitClass
  lastErr : t.lastErr = s.lastErr
  store : t.store = s.store
  draws : t.draws = s.draws

theorem SameBesidesDecode.trans {s t u : State} (h : SameBesidesDecode s t) (k : SameBesidesDecode t u) : SameBesidesDecode s u where
  cfg := k.cfg.trans h.cfg
  files := k.files.trans h.files
  seq0 := k.seq0.trans h.seq0
  seq1 := k.seq1.trans h.seq1
  retry := k.retry.trans h.retry
  fileIdx := k.fileIdx.trans h.fileIdx
  size := k.size.trans h.size
  offset := k.offset.trans h.offset
  written := k.written.trans h.written
  resp := k.resp.trans h.resp
  bytesDone := k.bytesDone.trans h.bytesDone
  elapsed := k.elapsed.trans h.elapsed
  frame := k.frame.trans h.frame
  txState := k.txState.trans h.txState
  rxState := k.rxState.trans h.rxState
  fresh := k.fresh.trans h.fresh
  rehandshake := k.rehandshake.trans h.rehandshake
  pos := k.pos.trans h.pos
  outcome := k.outcome.trans h.outcome
  hdr := k.hdr.trans h.hdr
  exitClass := k.exitClass.trans h.exitClass
  lastErr := k.lastErr.trans h.lastErr
  store := k.store.trans h.store
  draws := k.draws.trans h.draws

/-- As one equation. -/
theorem SameBesidesDecode.eq {s t : State} (h : SameBesidesDecode s t) :
    t = { s with
      marker := t.marker, n := t.n, crc := t.crc, rxS0 := t.rxS0, rxS1 := t.rxS1,
      rxCrc := t.rxCrc, buf := t.buf, rd := t.rd, chan := t.chan, trace := t.trace } := by
  cases t
  cases h
  simp_all

theorem SameBesidesDecode.refl (s : State) : SameBesidesDecode s s := by
  constructor <;> rfl

theorem sameBesidesDecode_chRead (n : Nat) (s : State) : SameBesidesDecode s (s.chRead n) := by
  constructor <;> rfl

theorem sameBesidesDecode_afterJudge (e0 e1 : Byte) (s : State) : SameBesidesDecode s (s.afterJudge e0 e1) := by
  constructor <;> simp

theorem sameBesidesDecode_readPayload (e0 e1 : Byte) (s : State) : SameBesidesDecode s (s.readPayload e0 e1).2 := by
  have h1 := sameBesidesDecode_chRead s.n s
  simp only [State.readPayload]
  split
  · exact h1
  · have h2 : SameBesidesDecode s (((s.chRead s.n).setPayload (s.chRead s.n).rd).chRead 1) := by constructor <;> simp
    split
    · exact h2
    · have h3 := h2.trans (sameBesidesDecode_chRead 1 _)
      split
      · exact h3
      · refine SameBesidesDecode.trans ?_ (sameBesidesDecode_afterJudge _ _ _)
        exact h3.trans (by constructor <;> simp)

theorem sameBesidesDecode_readFrame (e0 e1 : Byte) (s : State) : SameBesidesDecode s (s.readFrame e0 e1).2 := by
  simp only [State.readFrame]
  split
  · exact sameBesidesDecode_chRead 1 s
  · split
    · constructor <;> simp
    · refine SameBesidesDecode.trans ?_ (sameBesidesDecode_readPayload _ _ _)
      constructor <;> simp

theorem sameBesidesDecode_decodeMarker (e0 e1 : Byte) (s : State) : SameBesidesDecode s (s.decodeMarker e0 e1).2 := by
  unfold State.decodeMarker
  split
  · refine SameBesidesDecode.trans ?_ (sameBesidesDecode_readFrame _ _ _)
    constructor <;> simp
  all_goals exact SameBesidesDecode.refl s

/-- `DECODE` writes its own registers only. -/
theorem sameBesidesDecode_decodeUnit (e0 e1 : Byte) (s : State) : SameBesidesDecode s (s.decodeUnit e0 e1).2 := by
  simp only [State.decodeUnit]
  split
  · exact sameBesidesDecode_chRead 1 s
  · refine SameBesidesDecode.trans ?_ (sameBesidesDecode_decodeMarker _ _ _)
    constructor <;> simp

@[simp] theorem State.decodeUnit_cfg (e0 e1 : Byte) (s : State) : (s.decodeUnit e0 e1).2.cfg = s.cfg :=
  (sameBesidesDecode_decodeUnit e0 e1 s).cfg
@[simp] theorem State.decodeUnit_files (e0 e1 : Byte) (s : State) : (s.decodeUnit e0 e1).2.files = s.files :=
  (sameBesidesDecode_decodeUnit e0 e1 s).files
@[simp] theorem State.decodeUnit_seq0 (e0 e1 : Byte) (s : State) : (s.decodeUnit e0 e1).2.seq0 = s.seq0 :=
  (sameBesidesDecode_decodeUnit e0 e1 s).seq0
@[simp] theorem State.decodeUnit_seq1 (e0 e1 : Byte) (s : State) : (s.decodeUnit e0 e1).2.seq1 = s.seq1 :=
  (sameBesidesDecode_decodeUnit e0 e1 s).seq1
@[simp] theorem State.decodeUnit_retry (e0 e1 : Byte) (s : State) : (s.decodeUnit e0 e1).2.retry = s.retry :=
  (sameBesidesDecode_decodeUnit e0 e1 s).retry
@[simp] theorem State.decodeUnit_fileIdx (e0 e1 : Byte) (s : State) : (s.decodeUnit e0 e1).2.fileIdx = s.fileIdx :=
  (sameBesidesDecode_decodeUnit e0 e1 s).fileIdx
@[simp] theorem State.decodeUnit_size (e0 e1 : Byte) (s : State) : (s.decodeUnit e0 e1).2.size = s.size :=
  (sameBesidesDecode_decodeUnit e0 e1 s).size
@[simp] theorem State.decodeUnit_offset (e0 e1 : Byte) (s : State) : (s.decodeUnit e0 e1).2.offset = s.offset :=
  (sameBesidesDecode_decodeUnit e0 e1 s).offset
@[simp] theorem State.decodeUnit_written (e0 e1 : Byte) (s : State) : (s.decodeUnit e0 e1).2.written = s.written :=
  (sameBesidesDecode_decodeUnit e0 e1 s).written
@[simp] theorem State.decodeUnit_resp (e0 e1 : Byte) (s : State) : (s.decodeUnit e0 e1).2.resp = s.resp :=
  (sameBesidesDecode_decodeUnit e0 e1 s).resp
@[simp] theorem State.decodeUnit_bytesDone (e0 e1 : Byte) (s : State) : (s.decodeUnit e0 e1).2.bytesDone = s.bytesDone :=
  (sameBesidesDecode_decodeUnit e0 e1 s).bytesDone
@[simp] theorem State.decodeUnit_elapsed (e0 e1 : Byte) (s : State) : (s.decodeUnit e0 e1).2.elapsed = s.elapsed :=
  (sameBesidesDecode_decodeUnit e0 e1 s).elapsed
@[simp] theorem State.decodeUnit_frame (e0 e1 : Byte) (s : State) : (s.decodeUnit e0 e1).2.frame = s.frame :=
  (sameBesidesDecode_decodeUnit e0 e1 s).frame
@[simp] theorem State.decodeUnit_txState (e0 e1 : Byte) (s : State) : (s.decodeUnit e0 e1).2.txState = s.txState :=
  (sameBesidesDecode_decodeUnit e0 e1 s).txState
@[simp] theorem State.decodeUnit_rxState (e0 e1 : Byte) (s : State) : (s.decodeUnit e0 e1).2.rxState = s.rxState :=
  (sameBesidesDecode_decodeUnit e0 e1 s).rxState
@[simp] theorem State.decodeUnit_fresh (e0 e1 : Byte) (s : State) : (s.decodeUnit e0 e1).2.fresh = s.fresh :=
  (sameBesidesDecode_decodeUnit e0 e1 s).fresh
@[simp] theorem State.decodeUnit_rehandshake (e0 e1 : Byte) (s : State) : (s.decodeUnit e0 e1).2.rehandshake = s.rehandshake :=
  (sameBesidesDecode_decodeUnit e0 e1 s).rehandshake
@[simp] theorem State.decodeUnit_pos (e0 e1 : Byte) (s : State) : (s.decodeUnit e0 e1).2.pos = s.pos :=
  (sameBesidesDecode_decodeUnit e0 e1 s).pos
@[simp] theorem State.decodeUnit_outcome (e0 e1 : Byte) (s : State) : (s.decodeUnit e0 e1).2.outcome = s.outcome :=
  (sameBesidesDecode_decodeUnit e0 e1 s).outcome
@[simp] theorem State.decodeUnit_hdr (e0 e1 : Byte) (s : State) : (s.decodeUnit e0 e1).2.hdr = s.hdr :=
  (sameBesidesDecode_decodeUnit e0 e1 s).hdr
@[simp] theorem State.decodeUnit_exitClass (e0 e1 : Byte) (s : State) : (s.decodeUnit e0 e1).2.exitClass = s.exitClass :=
  (sameBesidesDecode_decodeUnit e0 e1 s).exitClass
@[simp] theorem State.decodeUnit_lastErr (e0 e1 : Byte) (s : State) : (s.decodeUnit e0 e1).2.lastErr = s.lastErr :=
  (sameBesidesDecode_decodeUnit e0 e1 s).lastErr
@[simp] theorem State.decodeUnit_store (e0 e1 : Byte) (s : State) : (s.decodeUnit e0 e1).2.store = s.store :=
  (sameBesidesDecode_decodeUnit e0 e1 s).store
@[simp] theorem State.decodeUnit_draws (e0 e1 : Byte) (s : State) : (s.decodeUnit e0 e1).2.draws = s.draws :=
  (sameBesidesDecode_decodeUnit e0 e1 s).draws

/-! ### What `DECODE` reads -/

/-- The events of a decode: whole reads, and the last read, which is short exactly when the outcome is `Timeout`. -/
def ReadsOnly (s t : State) (d : DecodeOutcome) (k : Nat) : Prop :=
  ∃ n got older, t.trace = .read n got :: (older ++ s.trace) ∧ older.length ≤ k ∧
    (∀ e ∈ older, ∃ n' got', e = Event.read n' got' ∧ got'.length = n') ∧ (d = .timeout ↔ got.length < n)

theorem judge_ne_timeout (e0 e1 : Byte) (s : State) : s.judge e0 e1 ≠ .timeout := by
  unfold State.judge; repeat' split
  all_goals simp

/-- One whole read before. -/
theorem ReadsOnly.after {s t u : State} {d : DecodeOutcome} {k n : Nat} {got : List Byte}
    (hs : t.trace = .read n got :: s.trace) (hg : got.length = n) (h : ReadsOnly t u d k) : ReadsOnly s u d (k + 1) := by
  obtain ⟨n', got', older, ht, hl, ho, hd⟩ := h
  refine ⟨n', got', older ++ [.read n got], by simp [ht, hs], by simp; omega, ?_, hd⟩
  intro e he
  rcases List.mem_append.mp he with he | he
  · exact ho e he
  · simp only [List.mem_singleton] at he; exact ⟨n, got, he, hg⟩

theorem ReadsOnly.last {s t : State} {d : DecodeOutcome} {n : Nat} {got : List Byte}
    (hs : t.trace = .read n got :: s.trace) (hd : d = .timeout ↔ got.length < n) : ReadsOnly s t d 0 :=
  ⟨n, got, [], by simpa using hs, Nat.le_refl _, by simp, hd⟩

theorem ReadsOnly.mono {s t : State} {d : DecodeOutcome} {k l : Nat} (h : ReadsOnly s t d k) (hl : k ≤ l) : ReadsOnly s t d l := by
  obtain ⟨n, got, older, ht, hk, ho, hd⟩ := h
  exact ⟨n, got, older, ht, Nat.le_trans hk hl, ho, hd⟩

theorem State.length_rd_one {s : State} {b : Byte} {r : List Byte} (h : (s.chRead 1).rd = b :: r) : (s.chRead 1).rd.length = 1 := by
  have := s.length_chRead_le 1
  rw [h] at this ⊢
  simp only [List.length_cons] at this ⊢
  omega

theorem readsOnly_readPayload (e0 e1 : Byte) (s : State) :
    ReadsOnly s (s.readPayload e0 e1).2 (s.readPayload e0 e1).1 2 := by
  simp only [State.readPayload]
  split
  · rename_i h
    exact (ReadsOnly.last (n := s.n) (got := (s.chRead s.n).rd) rfl (by simpa using h)).mono (by omega)
  · rename_i h
    have hn : (s.chRead s.n).rd.length = s.n := by
      have := s.length_chRead_le s.n; omega
    refine ReadsOnly.after (t := (s.chRead s.n).setPayload (s.chRead s.n).rd) rfl hn ?_
    split
    · rename_i h
      exact (ReadsOnly.last (n := 1) rfl (by simpa using h)).mono (by omega)
    · rename_i h
      refine ReadsOnly.after (k := 0) (t := ((s.chRead s.n).setPayload (s.chRead s.n).rd).chRead 1) rfl
        (State.length_rd_one h) ?_
      split
      · rename_i h
        exact ReadsOnly.last (n := 1) rfl (by simpa using h)
      · rename_i h
        refine ReadsOnly.last (n := 1) (got := (((s.chRead s.n).setPayload (s.chRead s.n).rd).chRead 1 |>.chRead 1).rd) ?_ ?_
        · simp only [State.afterJudge_trace]; rfl
        · have := State.length_rd_one h
          simp only [judge_ne_timeout, false_iff]
          exact Nat.not_lt.mpr (Nat.le_of_eq this.symm)

theorem readsOnly_readFrame (e0 e1 : Byte) (s : State) : ReadsOnly s (s.readFrame e0 e1).2 (s.readFrame e0 e1).1 4 := by
  simp only [State.readFrame]
  split
  · rename_i h
    exact (ReadsOnly.last (n := 1) rfl (by simpa using h)).mono (by omega)
  · rename_i a _ h
    refine ReadsOnly.after (k := 3) (t := (s.chRead 1).setRxS0 a) rfl (State.length_rd_one h) ?_
    split
    · rename_i h
      exact (ReadsOnly.last (n := 1) rfl (by simpa using h)).mono (by omega)
    · rename_i b _ h
      exact ReadsOnly.after (k := 2) (t := (((s.chRead 1).setRxS0 a).chRead 1).setRxS1 b) rfl (State.length_rd_one h)
        (readsOnly_readPayload _ _ _)

/-- `DECODE` makes reads only, at most six of them, and a short one is the last (rules R52, R55, R140). -/
theorem readsOnly_decodeUnit (e0 e1 : Byte) (s : State) : ReadsOnly s (s.decodeUnit e0 e1).2 (s.decodeUnit e0 e1).1 5 := by
  simp only [State.decodeUnit]
  split
  · rename_i h
    exact (ReadsOnly.last (n := 1) rfl (by simpa using h)).mono (by omega)
  · rename_i b _ h
    have hlast : ∀ d : DecodeOutcome, d ≠ .timeout → ReadsOnly s ((s.chRead 1).setMarker b) d 5 := fun d hd =>
      (ReadsOnly.last (n := 1) (got := (s.chRead 1).rd) rfl (by rw [State.length_rd_one h]; simp [hd])).mono (by omega)
    unfold State.decodeMarker
    split
    · exact ReadsOnly.after (k := 4) (t := ((s.chRead 1).setMarker b).setN _) rfl (State.length_rd_one h)
        (readsOnly_readFrame _ _ _)
    all_goals exact hlast _ (by simp)

/-! ### What `DECODE` leaves in the buffer -/

theorem State.readPayload_buf_wf (e0 e1 : Byte) (s : State) (h : s.buf.wf) : (s.readPayload e0 e1).2.buf.wf := by
  have hw := Memory.wf_writeBlock s.buf 0 (s.chRead s.n).rd h
  simp only [State.readPayload]
  split
  · simpa using h
  · split
    · simpa using hw
    · split <;> simpa using hw

theorem State.readFrame_buf_wf (e0 e1 : Byte) (s : State) (h : s.buf.wf) : (s.readFrame e0 e1).2.buf.wf := by
  simp only [State.readFrame]
  split
  · simpa using h
  · split
    · simpa using h
    · exact State.readPayload_buf_wf _ _ _ (by simpa using h)

theorem State.decodeUnit_buf_wf (e0 e1 : Byte) (s : State) (h : s.buf.wf) : (s.decodeUnit e0 e1).2.buf.wf := by
  simp only [State.decodeUnit]
  split
  · simpa using h
  · unfold State.decodeMarker
    split
    · exact State.readFrame_buf_wf _ _ _ (by simpa using h)
    all_goals simpa using h

/-! ### A whole frame on a quiet line -/

/-! A read and the write of another register commute. -/

theorem State.chRead_setMarker (k : Nat) (b : Byte) (s : State) : (s.setMarker b).chRead k = (s.chRead k).setMarker b := rfl
theorem State.chRead_setN (k j : Nat) (s : State) : (s.setN j).chRead k = (s.chRead k).setN j := rfl
theorem State.chRead_setRxS0 (k : Nat) (b : Byte) (s : State) : (s.setRxS0 b).chRead k = (s.chRead k).setRxS0 b := rfl
theorem State.chRead_setRxS1 (k : Nat) (b : Byte) (s : State) : (s.setRxS1 b).chRead k = (s.chRead k).setRxS1 b := rfl
theorem State.chRead_setPayload (k : Nat) (bs : List Byte) (s : State) :
    (s.setPayload bs).chRead k = (s.chRead k).setPayload bs := rfl
theorem State.latchFrame_eq (m : Marker) (s0 s1 : Byte) (p : List Byte) (c : Half) (s : State) :
    s.latchFrame m s0 s1 p c =
      (((((s.setMarker m.byte).setN p.length).setRxS0 s0).setRxS1 s1).setPayload p).setRxCrc c := rfl

theorem State.chRead_trace_rd (n : Nat) (s : State) : (s.chRead n).trace = .read n (s.chRead n).rd :: s.trace := rfl

/-- One read on a quiet line, as a state. -/
theorem State.chRead_quiet_eq {s : State} (h : s.quiet) {n : Nat} {bs rest : List Byte} (hb : s.chan.inBuf = bs ++ rest)
    (hn : bs.length = n) :
    s.chRead n = { s with
      rd := bs, chan := { s.chan with inBuf := rest, wire := s.chan.wire ++ s.chan.outBuf, outBuf := [] },
      trace := .read n bs :: s.trace } := by
  subst hn
  simp only [State.chRead, Channel.readBytes_quiet h, Channel.afterRead_quiet h, hb, List.take_left', List.drop_left']

theorem State.readPayload_quiet {s : State} (h : s.quiet) {hi lo : Byte} {p rest : List Byte} (hn : s.n = p.length)
    (hb : s.chan.inBuf = p ++ [hi, lo] ++ rest) (e0 e1 : Byte) :
    ∃ t, s.readPayload e0 e1 = (t.judge e0 e1, t.afterJudge e0 e1) ∧
      t = ((((s.chRead p.length).chRead 1).chRead 1).setPayload p).setRxCrc (joinBytes hi lo) ∧
      t.chan.inBuf = rest ∧ t.quiet ∧ t.trace = [.read 1 [lo], .read 1 [hi], .read p.length p] ++ s.trace := by
  obtain ⟨r1, b1, q1⟩ := State.chRead_quiet h (n := p.length) (bs := p) (rest := [hi, lo] ++ rest) (by simp [hb]) rfl
  have q1' : ((s.chRead p.length).setPayload p).quiet := q1
  obtain ⟨r2, b2, q2⟩ := State.chRead_quiet q1' (n := 1) (bs := [hi]) (rest := [lo] ++ rest) (by simpa using b1) rfl
  obtain ⟨r3, b3, q3⟩ := State.chRead_quiet q2 (n := 1) (bs := [lo]) (rest := rest) (by simpa using b2) rfl
  refine ⟨((((s.chRead p.length).setPayload p).chRead 1).chRead 1).setRxCrc (joinBytes hi lo), ?_, ?_, b3, q3, ?_⟩
  · simp only [State.readPayload, hn, r1, Nat.lt_irrefl, if_false, r2, r3]
  · simp only [State.chRead_setPayload]
  · rw [State.setRxCrc_trace, State.chRead_trace_rd, r3, State.chRead_trace_rd, r2, State.setPayload_trace,
      State.chRead_trace_rd, r1]
    rfl

theorem State.readFrame_quiet {s : State} (h : s.quiet) {s0 s1 hi lo : Byte} {p rest : List Byte} (hn : s.n = p.length)
    (hb : s.chan.inBuf = s0 :: s1 :: p ++ [hi, lo] ++ rest) (e0 e1 : Byte) :
    ∃ t, s.readFrame e0 e1 = (t.judge e0 e1, t.afterJudge e0 e1) ∧
      t = ((((((((s.chRead 1).chRead 1).chRead p.length).chRead 1).chRead 1).setRxS0 s0).setRxS1 s1).setPayload p).setRxCrc
        (joinBytes hi lo) ∧
      t.chan.inBuf = rest ∧ t.quiet ∧
      t.trace = [.read 1 [lo], .read 1 [hi], .read p.length p, .read 1 [s1], .read 1 [s0]] ++ s.trace := by
  obtain ⟨r1, b1, q1⟩ := State.chRead_quiet h (n := 1) (bs := [s0]) (rest := s1 :: p ++ [hi, lo] ++ rest) (by simp [hb]) rfl
  have q1' : ((s.chRead 1).setRxS0 s0).quiet := q1
  obtain ⟨r2, b2, q2⟩ := State.chRead_quiet q1' (n := 1) (bs := [s1]) (rest := p ++ [hi, lo] ++ rest) (by simpa using b1) rfl
  have q2' : ((((s.chRead 1).setRxS0 s0).chRead 1).setRxS1 s1).quiet := q2
  obtain ⟨t, ht, he, hbuf, hq, htr⟩ := State.readPayload_quiet (s := ((((s.chRead 1).setRxS0 s0).chRead 1).setRxS1 s1)) q2'
    (hi := hi) (lo := lo) (p := p) (rest := rest) hn (by simpa using b2) e0 e1
  refine ⟨t, ?_, ?_, hbuf, hq, ?_⟩
  · simp only [State.readFrame, r1, r2]; exact ht
  · simpa only [State.chRead_setRxS0, State.chRead_setRxS1] using he
  · rw [htr, State.setRxS1_trace, State.chRead_trace_rd, r2, State.setRxS0_trace, State.chRead_trace_rd, r1]
    rfl

/-- `DECODE` of a whole frame on a quiet line: six reads, the received fields in their registers, and the checks
(rules R140, R141). -/
theorem State.decodeUnit_quiet {s : State} (h : s.quiet) {m : Marker} {s0 s1 hi lo : Byte} {p rest : List Byte}
    (hm : payloadSize s.cfg.customSize m = some p.length)
    (hb : s.chan.inBuf = m.byte :: s0 :: s1 :: p ++ [hi, lo] ++ rest) (e0 e1 : Byte) :
    ∃ t, s.decodeUnit e0 e1 = (t.judge e0 e1, t.afterJudge e0 e1) ∧
      t = (s.afterReads [1, 1, 1, p.length, 1, 1]).latchFrame m s0 s1 p (joinBytes hi lo) ∧
      t.chan.inBuf = rest ∧ t.quiet ∧
      t.trace = [.read 1 [lo], .read 1 [hi], .read p.length p, .read 1 [s1], .read 1 [s0], .read 1 [m.byte]] ++ s.trace := by
  obtain ⟨r1, b1, q1⟩ := State.chRead_quiet h (n := 1) (bs := [m.byte]) (rest := s0 :: s1 :: p ++ [hi, lo] ++ rest)
    (by simp [hb]) rfl
  have q1' : (((s.chRead 1).setMarker m.byte).setN p.length).quiet := q1
  obtain ⟨t, ht, he, hbuf, hq, htr⟩ := State.readFrame_quiet q1' (s0 := s0) (s1 := s1) (hi := hi) (lo := lo) (p := p)
    (rest := rest) rfl (by simpa using b1) e0 e1
  refine ⟨t, ?_, ?_, hbuf, hq, ?_⟩
  · have hc : symbolClass ((s.chRead 1).setMarker m.byte).cfg.customSize ((s.chRead 1).setMarker m.byte).marker =
        .data m p.length := symbolClass_byte hm
    simp only [State.decodeUnit, r1, State.decodeMarker, hc]
    exact ht
  · simpa only [State.chRead_setMarker, State.chRead_setN, State.latchFrame_eq, State.afterReads, List.foldl] using he
  · rw [htr, State.setN_trace, State.setMarker_trace, State.chRead_trace_rd, r1]
    rfl

/-! ### The retry path, the abort path and the cancel test -/

/-- `fail` below the bound: the channel is cleared and the step is prepared again. -/
theorem State.fail_retries {s : State} (e : Cause) (h : s.retry + 1 < s.bound) :
    s.fail e = (s.countFailure e).chClear.prepareRetry := by
  unfold State.fail
  rw [if_neg (by omega)]

/-- `fail` at the bound: the session is aborted. -/
theorem State.fail_aborts {s : State} (e : Cause) (h : s.bound ≤ s.retry + 1) :
    s.fail e = (s.countFailure e).abort s.abortClass e := by
  unfold State.fail
  rw [if_pos h]

/-- What `fail` does, said once (rules R176, R205, R228). -/
theorem State.fail_cases (e : Cause) (s : State) :
    (s.bound ≤ s.retry + 1 ∧ s.fail e = (s.countFailure e).abort s.abortClass e) ∨
    (s.retry + 1 < s.bound ∧
      ((s.cfg.role = .receiver ∧ s.rxState = .awaitingHeader ∧ s.cfg.rxResendCrq = true ∧
          s.fail e = (s.countFailure e).chClear.chWrite [CRQ]) ∨
       (s.cfg.role = .sender ∧ s.txState = .sendingHeader ∧ s.cfg.txRehandshake = true ∧
          s.fail e = (s.countFailure e).chClear.backToHandshake) ∨
       s.fail e = (s.countFailure e).chClear)) := by
  rcases Nat.lt_or_ge (s.retry + 1) s.bound with h | h
  · refine .inr ⟨h, ?_⟩
    rw [State.fail_retries e h]
    unfold State.prepareRetry
    cases hr : s.cfg.role
    · by_cases hc : s.txState = .sendingHeader ∧ s.cfg.txRehandshake = true
      · exact .inr (.inl ⟨rfl, hc.1, hc.2, by simp [hr, hc]⟩)
      · refine .inr (.inr ?_)
        simp only [State.chClear_cfg, State.countFailure_cfg, hr, State.chClear_txState, State.countFailure_txState]
        exact if_neg hc
    · by_cases hc : s.rxState = .awaitingHeader ∧ s.cfg.rxResendCrq = true
      · exact .inl ⟨rfl, hc.1, hc.2, by simp [hr, hc]⟩
      · refine .inr (.inr ?_)
        simp only [State.chClear_cfg, State.countFailure_cfg, hr, State.chClear_rxState, State.countFailure_rxState]
        exact if_neg hc
  · exact .inl ⟨h, State.fail_aborts e h⟩

/-- The retry path reads nothing, so it leaves the read timeout. -/
@[simp] theorem State.fail_timeout (e : Cause) (s : State) : (s.fail e).chan.timeout = s.chan.timeout := by
  rcases s.fail_cases e with ⟨_, h⟩ | ⟨_, ⟨_, _, _, h⟩ | ⟨_, _, _, h⟩ | h⟩ <;> simp [h]

/-- What the cancel test does, said once (rule R94). -/
theorem State.cancelTest_cases (s : State) :
    ((s.chRead 1).rd = [CAN] ∧ s.cancelTest = (s.chRead 1).abort .protocolAbort .cancelled) ∨
    ((s.chRead 1).rd ≠ [CAN] ∧ s.cancelTest = (s.chRead 1).fail .unrecognized) := by
  unfold State.cancelTest
  by_cases h : (s.chRead 1).rd = [CAN]
  · exact .inl ⟨h, if_pos h⟩
  · exact .inr ⟨h, if_neg h⟩

/-- The cancel test reads one byte, and no more. -/
@[simp] theorem State.cancelTest_timeout (s : State) : s.cancelTest.chan.timeout = (s.chRead 1).chan.timeout := by
  rcases s.cancelTest_cases with ⟨_, h⟩ | ⟨_, h⟩ <;> simp [h]

theorem State.abortClass_ne (s : State) : s.abortClass ≠ .none ∧ s.abortClass ≠ .success := by
  unfold State.abortClass; split <;> simp

/-! ### The guards -/

/-- An operation guarded by `inTx` answers what its meaning answers once it settles, in its own state of a sender. -/
theorem inTx_eq {q : TxState} {s : State} {k : Step State} (hr : s.cfg.role = .sender) (hq : s.txState = q)
    (hl : s.cfg.legal) (h1 : q ≠ .done) (h2 : q ≠ .aborted) : inTx q s k = settle k := by
  subst hq
  simp [inTx, State.ended, hr, hl, h1, h2]

theorem inTx_next {q : TxState} {s t : State} {k : Step State} (h : inTx q s k = .next t) :
    s.cfg.role = .sender ∧ s.txState = q ∧ s.cfg.legal ∧ k = .next t ∧ t.live := by
  unfold inTx at h
  split at h
  · cases h
  · split at h
    · cases h
    · split at h
      · rename_i hl hq
        exact ⟨hq.1, hq.2, by simpa using hl, of_settle h⟩
      · cases h

/-- An operation guarded by `inRx` answers what its meaning answers once it settles, in its own state of a receiver. -/
theorem inRx_eq {q : RxState} {s : State} {k : Step State} (hr : s.cfg.role = .receiver) (hq : s.rxState = q)
    (hl : s.cfg.legal) (h1 : q ≠ .done) (h2 : q ≠ .aborted) : inRx q s k = settle k := by
  subst hq
  simp [inRx, State.ended, hr, hl, h1, h2]

theorem inRx_next {q : RxState} {s t : State} {k : Step State} (h : inRx q s k = .next t) :
    s.cfg.role = .receiver ∧ s.rxState = q ∧ s.cfg.legal ∧ k = .next t ∧ t.live := by
  unfold inRx at h
  split at h
  · cases h
  · split at h
    · cases h
    · split at h
      · rename_i hl hq
        exact ⟨hq.1, hq.2, by simpa using hl, of_settle h⟩
      · cases h

theorem whileOpen_eq {s : State} (k : Step State) (h : s.ended = false) : whileOpen s k = settle k := by
  simp [whileOpen, h]

theorem whileOpen_next {s t : State} {k : Step State} (h : whileOpen s k = .next t) : s.ended = false ∧ k = .next t ∧ t.live := by
  unfold whileOpen at h
  split at h
  · cases h
  · rename_i he; exact ⟨by simpa using he, of_settle h⟩

end Sys2Proof.Machine
end

