-- ==== Sys2Proof/Laws/PerInstr.lean ====
section
/-! SUPPORT. The family `WireForm`, one lemma for each operation: its form on the line. -/

namespace Sys2Proof.Laws.WireForm

/-- The symbol that begins an operation on the line, in the numbers of rule R81; none for an internal operation (rule R98). -/
def symbol (i : Instr) : Option Byte :=
  match i with
  | .soh _ _ _ _ => some 0x01#8
  | .stx _ _ _ _ => some 0x02#8
  | .cus _ _ _ _ => some 0x03#8
  | .eot => some 0x04#8
  | .ack => some 0x06#8
  | .nak => some 0x15#8
  | .can => some 0x18#8
  | .crq => some 0x43#8
  | .chRead _ => none
  | .chWrite _ => none
  | .chClear => none
  | .crcInit => none
  | .crcByte _ => none
  | .crc16 _ => none
  | .pad _ _ => none
  | .hdrBuild _ _ => none
  | .hdrParse _ => none
  | .encode _ _ _ => none
  | .decode _ _ => none
  | .readResp => none
  | .txStart _ _ => none
  | .txHandshake => none
  | .txHeader => none
  | .txData => none
  | .txEot => none
  | .txTerm => none
  | .rxStart _ => none
  | .rxHandshake => none
  | .rxHeader => none
  | .rxData => none
  | .rxEot => none

/-- The number of bytes of a unit after its marker: the sequence pair, the payload and the trailer of a data frame (rule R83),
nothing after a control symbol (rule R82). -/
def following (i : Instr) : Nat :=
  match i with
  | .soh _ _ p _ => p.length + 4
  | .stx _ _ p _ => p.length + 4
  | .cus _ _ p _ => p.length + 4
  | .eot => 0
  | .ack => 0
  | .nak => 0
  | .can => 0
  | .crq => 0
  | .chRead _ => 0
  | .chWrite _ => 0
  | .chClear => 0
  | .crcInit => 0
  | .crcByte _ => 0
  | .crc16 _ => 0
  | .pad _ _ => 0
  | .hdrBuild _ _ => 0
  | .hdrParse _ => 0
  | .encode _ _ _ => 0
  | .decode _ _ => 0
  | .readResp => 0
  | .txStart _ _ => 0
  | .txHandshake => 0
  | .txHeader => 0
  | .txData => 0
  | .txEot => 0
  | .txTerm => 0
  | .rxStart _ => 0
  | .rxHandshake => 0
  | .rxHeader => 0
  | .rxData => 0
  | .rxEot => 0

/-- The operation's bytes begin with its symbol and have the length of its form; an internal operation has no bytes. -/
def Statement (i : Instr) : Prop :=
  (encode i).head? = symbol i ∧ i.onWire = (symbol i).isSome ∧
    (i.onWire = true → (encode i).length = following i + 1)

theorem soh (s0 s1 : Byte) (p : List Byte) (c : Half) : Statement (.soh s0 s1 p c) :=
  ⟨rfl, rfl, fun _ => by simp [Sys2Proof.encode, frameBytes, following]⟩
theorem stx (s0 s1 : Byte) (p : List Byte) (c : Half) : Statement (.stx s0 s1 p c) :=
  ⟨rfl, rfl, fun _ => by simp [Sys2Proof.encode, frameBytes, following]⟩
theorem cus (s0 s1 : Byte) (p : List Byte) (c : Half) : Statement (.cus s0 s1 p c) :=
  ⟨rfl, rfl, fun _ => by simp [Sys2Proof.encode, frameBytes, following]⟩
theorem eot : Statement .eot := ⟨rfl, rfl, fun _ => rfl⟩
theorem ack : Statement .ack := ⟨rfl, rfl, fun _ => rfl⟩
theorem nak : Statement .nak := ⟨rfl, rfl, fun _ => rfl⟩
theorem can : Statement .can := ⟨rfl, rfl, fun _ => rfl⟩
theorem crq : Statement .crq := ⟨rfl, rfl, fun _ => rfl⟩
theorem chRead (n : Nat) : Statement (.chRead n) := ⟨rfl, rfl, fun h => by cases h⟩
theorem chWrite (bs : List Byte) : Statement (.chWrite bs) := ⟨rfl, rfl, fun h => by cases h⟩
theorem chClear : Statement .chClear := ⟨rfl, rfl, fun h => by cases h⟩
theorem crcInit : Statement .crcInit := ⟨rfl, rfl, fun h => by cases h⟩
theorem crcByte (b : Byte) : Statement (.crcByte b) := ⟨rfl, rfl, fun h => by cases h⟩
theorem crc16 (bs : List Byte) : Statement (.crc16 bs) := ⟨rfl, rfl, fun h => by cases h⟩
theorem pad (chunk : List Byte) (n : Nat) : Statement (.pad chunk n) := ⟨rfl, rfl, fun h => by cases h⟩
theorem hdrBuild (name : List Byte) (size : Nat) : Statement (.hdrBuild name size) := ⟨rfl, rfl, fun h => by cases h⟩
theorem hdrParse (p : List Byte) : Statement (.hdrParse p) := ⟨rfl, rfl, fun h => by cases h⟩
theorem encode (m : Marker) (sq : Byte) (p : List Byte) : Statement (.encode m sq p) := ⟨rfl, rfl, fun h => by cases h⟩
theorem decode (e0 e1 : Byte) : Statement (.decode e0 e1) := ⟨rfl, rfl, fun h => by cases h⟩
theorem readResp : Statement .readResp := ⟨rfl, rfl, fun h => by cases h⟩
theorem txStart (files : List SrcFile) (cfg : Cfg) : Statement (.txStart files cfg) := ⟨rfl, rfl, fun h => by cases h⟩
theorem txHandshake : Statement .txHandshake := ⟨rfl, rfl, fun h => by cases h⟩
theorem txHeader : Statement .txHeader := ⟨rfl, rfl, fun h => by cases h⟩
theorem txData : Statement .txData := ⟨rfl, rfl, fun h => by cases h⟩
theorem txEot : Statement .txEot := ⟨rfl, rfl, fun h => by cases h⟩
theorem txTerm : Statement .txTerm := ⟨rfl, rfl, fun h => by cases h⟩
theorem rxStart (cfg : Cfg) : Statement (.rxStart cfg) := ⟨rfl, rfl, fun h => by cases h⟩
theorem rxHandshake : Statement .rxHandshake := ⟨rfl, rfl, fun h => by cases h⟩
theorem rxHeader : Statement .rxHeader := ⟨rfl, rfl, fun h => by cases h⟩
theorem rxData : Statement .rxData := ⟨rfl, rfl, fun h => by cases h⟩
theorem rxEot : Statement .rxEot := ⟨rfl, rfl, fun h => by cases h⟩

end Sys2Proof.Laws.WireForm
end

