-- ==== Sys2Proof/Laws/Sender.lean ====
section
/-! SUPPORT. What a response byte, a wait for one and an attempt of the sender can do, each said once. -/

namespace Sys2Proof.Machine

theorem State.onResponse_cases (b : Byte) (s : State) :
    (b = CAN ∧ s.onResponse b = (s.setResp b).cancelTest) ∨
    (b ≠ CAN ∧ b = s.expected ∧ s.onResponse b = (s.setResp b).accepted) ∨
    (b ≠ CAN ∧ b ≠ s.expected ∧ s.onResponse b = (s.setResp b).fail (respCause b)) := by
  unfold State.onResponse
  by_cases h : b = CAN
  · exact .inl ⟨h, if_pos h⟩
  · by_cases h' : b = s.expected
    · exact .inr (.inl ⟨h, h', by rw [if_neg h, if_pos h']⟩)
    · exact .inr (.inr ⟨h, h', by rw [if_neg h, if_neg h']⟩)

theorem State.awaitOne_cases (s : State) :
    ((s.chRead 1).rd = [] ∧ s.awaitOne = (s.chRead 1).fail .timeout) ∨
    ∃ b, (s.chRead 1).rd = [b] ∧ s.awaitOne = (s.chRead 1).onResponse b := by
  unfold State.awaitOne
  rcases s.chRead_one with h | ⟨b, h⟩
  · exact .inl ⟨h, by rw [h]⟩
  · exact .inr ⟨b, h, by rw [h]⟩

theorem State.txAttempt_cases (bs : List Byte) (s : State) :
    ((s.send bs).awaitOne.pos = .resp2 ∧ s.txAttempt bs = (s.send bs).awaitOne.awaitOne) ∨
    ((s.send bs).awaitOne.pos ≠ .resp2 ∧ s.txAttempt bs = (s.send bs).awaitOne) := by
  unfold State.txAttempt
  by_cases h : (s.send bs).awaitOne.pos = .resp2
  · exact .inl ⟨h, if_pos h⟩
  · exact .inr ⟨h, if_neg h⟩

/-- The response awaited, by state and position (rules R162, R164, R166, R168, R170). -/
theorem State.expected_eq (s : State) :
    s.expected = if s.txState = .handshaking ∨ (s.txState = .sendingHeader ∨ s.txState = .awaitingEot) ∧ s.pos = .resp2
      then CRQ else ACK := by
  unfold State.expected
  cases s.txState <;> cases s.pos <;> simp

/-- What an accepted response does, by state and position. -/
theorem State.accepted_cases (s : State) :
    (s.txState = .handshaking ∧ s.accepted = s.handshakeDone) ∨
    ((s.txState = .sendingHeader ∨ s.txState = .awaitingEot) ∧ s.pos ≠ .resp2 ∧ s.accepted = s.setPos .resp2) ∨
    (s.txState = .sendingHeader ∧ s.pos = .resp2 ∧ s.accepted = s.headerDone) ∨
    (s.txState = .sendingData ∧ s.accepted = s.dataDone) ∨
    (s.txState = .awaitingEot ∧ s.pos = .resp2 ∧ s.accepted = s.eotDone) ∨
    (s.txState = .sendingTerminator ∧ s.accepted = s.finish) ∨
    ((s.txState = .idle ∨ s.txState = .done ∨ s.txState = .aborted) ∧ s.accepted = s) := by
  unfold State.accepted
  by_cases hp : s.pos = .resp2 <;> cases hs : s.txState <;> simp [hp]

@[simp] theorem State.accepted_timeout (s : State) : s.accepted.chan.timeout = s.chan.timeout := by
  rcases s.accepted_cases with ⟨_, h⟩ | ⟨_, _, h⟩ | ⟨_, _, h⟩ | ⟨_, h⟩ | ⟨_, _, h⟩ | ⟨_, h⟩ | ⟨_, h⟩ <;> simp [h]

/-- Acting on a response reads nothing more, but for the cancel test. -/
theorem State.onResponse_timeout (b : Byte) (s : State) :
    (s.onResponse b).chan.timeout = if b = CAN then (s.chRead 1).chan.timeout else s.chan.timeout := by
  rcases s.onResponse_cases b with ⟨hb, h⟩ | ⟨hb, _, h⟩ | ⟨hb, _, h⟩ <;> rw [h]
  · simp [hb]
  · simp [hb]
  · simp [hb]

/-- The first response leaves the sender waiting for a second one only in the two steps that have one, everything else as the
read left it. -/
theorem State.awaitOne_resp2 {s : State} (h : s.awaitOne.pos = .resp2) :
    ((s.txState = .sendingHeader ∨ s.txState = .awaitingEot) ∧ s.pos ≠ .resp2 ∧
      s.awaitOne = ((s.chRead 1).setResp ACK).setPos .resp2) ∨
    (s.txState = .idle ∨ s.txState = .done ∨ s.txState = .aborted) := by
  rcases s.awaitOne_cases with ⟨_, he⟩ | ⟨b, _, he⟩
  · rw [he] at h; simp at h
  · rcases (s.chRead 1).onResponse_cases b with ⟨_, hr⟩ | ⟨_, hb, hr⟩ | ⟨_, _, hr⟩ <;> rw [he, hr] at h
    · simp at h
    · rcases ((s.chRead 1).setResp b).accepted_cases with ⟨_, ha⟩ | ⟨h1, h2, ha⟩ | ⟨_, _, ha⟩ | ⟨_, ha⟩ | ⟨_, _, ha⟩ | ⟨_, ha⟩ | ⟨h1, _⟩
      · rw [ha] at h; simp at h
      · refine .inl ⟨h1, h2, ?_⟩
        have hb' : b = ACK := by
          rw [hb, State.expected_eq]
          simp only [State.setResp_txState, State.setResp_pos, State.chRead_txState, State.chRead_pos] at h1 h2 ⊢
          exact if_neg (by rcases h1 with h1 | h1 <;> simp [h1, h2])
        rw [he, hr, ha, hb']
      · rw [ha] at h; simp at h
      · rw [ha] at h; simp at h
      · rw [ha] at h; simp at h
      · rw [ha] at h; simp at h
      · exact .inr h1
    · simp at h

/-! ### Entry parts -/

/-- Entry to `SendingHeader`, said once (rule R163). -/
theorem State.enterHeader_cases (s : State) :
    (s.fresh = false ∧ s.enterHeader = .ready s) ∨
    (s.fresh = true ∧ s.fileInfoAnswer s.fileIdx = none ∧
      s.enterHeader = .ended ((s.fileInfo s.fileIdx).abort .localIoError .ioError)) ∨
    (∃ name size, s.fresh = true ∧ s.fileInfoAnswer s.fileIdx = some (name, size) ∧ headerFits name size ∧
      size < 2 ^ s.cfg.sizeW ∧ s.enterHeader = .ready ((s.fileInfo s.fileIdx).buildHeader name size)) ∨
    (∃ name size, s.fresh = true ∧ s.fileInfoAnswer s.fileIdx = some (name, size) ∧
      ¬ (headerFits name size ∧ size < 2 ^ s.cfg.sizeW) ∧ s.enterHeader = .unfit) := by
  unfold State.enterHeader
  cases hf : s.fresh
  · exact .inl ⟨rfl, if_pos rfl⟩
  · rw [if_neg (by simp)]
    cases hi : s.fileInfoAnswer s.fileIdx with
    | none => exact .inr (.inl ⟨rfl, rfl, rfl⟩)
    | some x =>
      obtain ⟨name, size⟩ := x
      by_cases hx : headerFits name size ∧ size < 2 ^ s.cfg.sizeW
      · exact .inr (.inr (.inl ⟨name, size, rfl, rfl, hx.1, hx.2, if_pos hx⟩))
      · exact .inr (.inr (.inr ⟨name, size, rfl, rfl, hx, if_neg hx⟩))

/-- Entry to `SendingData`, said once (rule R166). -/
theorem State.enterData_cases (s : State) :
    (s.fresh = false ∧ s.enterData = .ready s) ∨
    (s.fresh = true ∧ s.fileReadAnswer s.fileIdx s.offset s.take = none ∧
      s.enterData = .ended ((s.fileRead s.fileIdx s.offset s.take).abort .localIoError .ioError)) ∨
    (∃ chunk, s.fresh = true ∧ s.fileReadAnswer s.fileIdx s.offset s.take = some chunk ∧
      s.enterData = .ready ((s.fileRead s.fileIdx s.offset s.take).buildData chunk)) := by
  unfold State.enterData
  cases hf : s.fresh
  · exact .inl ⟨rfl, if_pos rfl⟩
  · rw [if_neg (by simp)]
    cases hi : s.fileReadAnswer s.fileIdx s.offset s.take with
    | none => exact .inr (.inl ⟨rfl, rfl, rfl⟩)
    | some chunk => exact .inr (.inr ⟨chunk, rfl, rfl, rfl⟩)

/-- `FileRead` returns exactly what was asked for or an error (rule R13, U19). -/
theorem State.length_fileReadAnswer {s : State} {i o n : Nat} {chunk : List Byte} (h : s.fileReadAnswer i o n = some chunk) :
    chunk.length = n := by
  unfold State.fileReadAnswer at h
  split at h
  · cases h
  · split at h
    · cases h
    · split at h
      · cases h; simp; omega
      · cases h

/-- The marker chosen for a data packet has the size chosen with it (rules R16, R165). -/
theorem payloadSize_chunkMarker (c : Cfg) (r : Nat) :
    payloadSize c.customSize (chunkMarker c r) = some (chunkSize c r) := by
  unfold chunkMarker chunkSize largeMarker largeSize
  by_cases h : c.customSize = 0
  · by_cases h2 : 1024 ≤ r <;> simp [h, h2, payloadSize]
  · by_cases h2 : c.customSize ≤ r <;> simp [h, h2, payloadSize]

theorem length_headerBytes {name : List Byte} {size : Nat} (h : headerFits name size) : (headerBytes name size).length = 128 := by
  simp only [headerFits, decide_eq_true_eq] at h
  simp [headerBytes, padBytes, zeros]
  omega

/-- The payload read back is the header payload just written. -/
theorem State.payload_header (s : State) {name : List Byte} {size : Nat} (h : headerFits name size) :
    (s.setPayload (headerBytes name size)).payload 128 = headerBytes name size := by
  have := s.payload_setPayload (headerBytes name size)
  rwa [length_headerBytes h] at this

/-- The frame of a header packet (rule R163). -/
theorem State.buildHeader_frame (s : State) {name : List Byte} {size : Nat} (h : headerFits name size) :
    (s.buildHeader name size).frame =
      builtFrame .soh (if s.cfg.seqResetPerFile then 0x00#8 else s.seq0) (headerBytes name size) := by
  simp only [State.buildHeader, State.encodeFrame_frame, State.payload_header _ h]
  rfl

/-- The frame of a data packet (rule R166). -/
theorem State.buildData_frame (s : State) {chunk : List Byte} (h : chunk.length = s.take) :
    (s.buildData chunk).frame =
      builtFrame (chunkMarker s.cfg (s.size - s.offset)) s.seq0 (padBytes chunk (chunkSize s.cfg (s.size - s.offset))) := by
  have hl : (padBytes chunk (chunkSize s.cfg (s.size - s.offset))).length = chunkSize s.cfg (s.size - s.offset) := by
    simp [padBytes, zeros, h, State.take, chunkTake]
  have hp := fun t : State => t.payload_setPayload (padBytes chunk (chunkSize s.cfg (s.size - s.offset)))
  simp only [hl] at hp
  simp only [State.buildData, State.encodeFrame_frame, hp]
  rfl

end Sys2Proof.Machine
end

