-- ==== Sys2Proof/Laws/Receiver.lean ====
section
/-! SUPPORT. What the receiver can do with a decode outcome in each state, said once, and what one step of the machine can be. -/

namespace Sys2Proof.Machine

/-! ### The outcomes of a receiver state -/

/-- The outcomes on which every receiver state fails the attempt with the cause the outcome stands for. -/
abbrev DecodeOutcome.failing (d : DecodeOutcome) : Prop := d ≠ .packet ∧ d ≠ .ctrlEot ∧ d ≠ .ctrlCan

/-- `AwaitingHeader`, by outcome (rules R194, R195). -/
theorem State.headerOutcome_cases (d : DecodeOutcome) (s : State) :
    (d = .packet ∧ s.headerOutcome d = s.onHeader) ∨
    (d = .ctrlEot ∧ s.headerOutcome d = s.ackCrq.enterAwaitHeader) ∨
    (d = .ctrlCan ∧ s.headerOutcome d = s.cancelTest) ∨
    (d.failing ∧ s.headerOutcome d = s.fail d.cause) := by
  cases d <;> simp [State.headerOutcome, DecodeOutcome.failing, DecodeOutcome.cause]

/-- `ReceivingData`, by outcome (rules R197, R199). -/
theorem State.dataOutcome_cases (d : DecodeOutcome) (s : State) :
    (d = .packet ∧ s.dataOutcome d = s.onData) ∨
    (d = .ctrlCan ∧ s.dataOutcome d = s.cancelTest) ∨
    (d ≠ .packet ∧ d ≠ .ctrlCan ∧ s.dataOutcome d = s.fail d.cause) := by
  cases d <;> simp [State.dataOutcome, DecodeOutcome.cause]

/-- `AwaitingNextOrEnd`, by outcome (rules R198, R199). -/
theorem State.eotOutcome_cases (d : DecodeOutcome) (s : State) :
    (d = .ctrlEot ∧ s.eotOutcome d = { s.ackCrq with retry := 0 }.enterAwaitHeader) ∨
    (d = .ctrlCan ∧ s.eotOutcome d = s.cancelTest) ∨
    (d ≠ .ctrlEot ∧ d ≠ .ctrlCan ∧ s.eotOutcome d = s.fail d.cause) := by
  cases d <;> simp [State.eotOutcome, DecodeOutcome.cause]

/-- A decoded header packet (rules R194, R196). -/
theorem State.onHeader_cases (s : State) :
    (parseHeader s.cfg.sizeW (s.payload s.n) = .null ∧ s.onHeader = (s.chWrite [ACK]).finish) ∨
    (parseHeader s.cfg.sizeW (s.payload s.n) = .bad ∧ s.onHeader = s.fail .unrecognized) ∨
    ∃ name size, parseHeader s.cfg.sizeW (s.payload s.n) = .file name size ∧
      ((s.fileOpenOk = true ∧ s.onHeader = (s.fileOpen name size).headerAccepted size) ∨
       (s.fileOpenOk = false ∧ s.onHeader = (s.fileOpen name size).abort .localIoError .ioError)) := by
  unfold State.onHeader
  cases h : parseHeader s.cfg.sizeW (s.payload s.n) with
  | null => exact .inl ⟨rfl, rfl⟩
  | bad => exact .inr (.inl ⟨rfl, rfl⟩)
  | file name size =>
    refine .inr (.inr ⟨name, size, rfl, ?_⟩)
    cases hk : s.fileOpenOk
    · exact .inr ⟨rfl, rfl⟩
    · exact .inl ⟨rfl, rfl⟩

/-- A decoded data packet (rule R197): the write fails, the packet is not the last, it is the last and the close fails or succeeds. -/
theorem State.onData_cases (s : State) :
    let w := s.fileWrite ((s.payload s.n).take s.rxTake)
    (s.fileUseOk = false ∧ s.onData = w.abort .localIoError .ioError) ∨
    (s.fileUseOk = true ∧ s.written + s.rxTake < s.size ∧ s.onData = (w.count s.rxTake).dataAccepted) ∨
    (s.fileUseOk = true ∧ s.size ≤ s.written + s.rxTake ∧ w.fileUseOk = false ∧
      s.onData = (w.count s.rxTake).fileClose.abort .localIoError .ioError) ∨
    (s.fileUseOk = true ∧ s.size ≤ s.written + s.rxTake ∧ w.fileUseOk = true ∧
      s.onData = (w.count s.rxTake).fileClose.dataAccepted) := by
  intro w
  unfold State.onData
  cases hk : s.fileUseOk
  · exact .inl ⟨rfl, rfl⟩
  · refine .inr ?_
    rw [if_pos rfl]
    unfold State.dataWritten
    by_cases hw : s.size ≤ s.written + s.rxTake
    · refine .inr ?_
      cases hc : w.fileUseOk
      · exact .inl ⟨rfl, hw, rfl, (if_pos hw).trans rfl⟩
      · exact .inr ⟨rfl, hw, rfl, (if_pos hw).trans rfl⟩
    · exact .inl ⟨rfl, by omega, if_neg hw⟩

/-! ### The read timeout -/

@[simp] theorem State.onHeader_timeout (s : State) : s.onHeader.chan.timeout = s.chan.timeout := by
  rcases s.onHeader_cases with ⟨_, h⟩ | ⟨_, h⟩ | ⟨_, _, _, ⟨_, h⟩ | ⟨_, h⟩⟩ <;> simp [h]

@[simp] theorem State.onData_timeout (s : State) : s.onData.chan.timeout = s.chan.timeout := by
  rcases s.onData_cases with ⟨_, h⟩ | ⟨_, _, h⟩ | ⟨_, _, _, h⟩ | ⟨_, _, _, h⟩ <;> simp [h]

/-- Acting on a decode outcome reads nothing more, but for the cancel test. -/
theorem State.receive_timeout {d : DecodeOutcome} (s : State) (h : d ≠ .ctrlCan) : (s.receive d).chan.timeout = s.chan.timeout := by
  unfold State.receive
  cases s.rxState
  · rfl
  · rfl
  · rcases s.headerOutcome_cases d with ⟨_, e⟩ | ⟨_, e⟩ | ⟨hd, _⟩ | ⟨_, e⟩
    · simp [e]
    · simp [e]
    · exact absurd hd h
    · simp [e]
  · rcases s.dataOutcome_cases d with ⟨_, e⟩ | ⟨hd, _⟩ | ⟨_, _, e⟩
    · simp [e]
    · exact absurd hd h
    · simp [e]
  · rcases s.eotOutcome_cases d with ⟨_, e⟩ | ⟨hd, _⟩ | ⟨_, _, e⟩
    · simp [e]
    · exact absurd hd h
    · simp [e]
  · rfl
  · rfl

/-- A receiver that acts on an outcome with a read blocked stays blocked. -/
theorem State.receive_hung (d : DecodeOutcome) {s : State} (hs : s.chan.timeout = .hung) : (s.receive d).chan.timeout = .hung := by
  by_cases h : d = .ctrlCan
  · subst h
    unfold State.receive
    cases s.rxState <;> simp [State.headerOutcome, State.dataOutcome, State.eotOutcome, hs]
  · rw [s.receive_timeout h, hs]

/-! ### The file in progress -/

/-- `FileOpen` that succeeds leaves a new, empty file in progress (rule R42). -/
theorem FileStore.inProgress_open {s : State} {name : List Byte} {size : Nat} (h : s.fileOpenOk = true) :
    (s.fileOpen name size).store.inProgress size 0 := by
  refine ⟨{ name := name, declared := size, data := [], closed := false }, s.store.stored, ?_, rfl, rfl, rfl⟩
  simp [State.fileOpen, h]

/-- `FileWrite` that succeeds appends to the file in progress (rule R59). -/
theorem FileStore.inProgress_write {s : State} {size w : Nat} {bs : List Byte} (hk : s.fileUseOk = true)
    (h : s.store.inProgress size w) : (s.fileWrite bs).store.inProgress size (w + bs.length) := by
  obtain ⟨x, r, hs, hc, hd, hl⟩ := h
  refine ⟨{ x with data := x.data ++ bs }, r, ?_, hc, hd, by simp [hl]⟩
  simp [State.fileWrite, hk, FileStore.called, FileStore.updateLast, hs]

/-- `FileClose` that succeeds completes a file that holds its declared size. -/
theorem FileStore.complete_close {s : State} {size : Nat} (hk : s.fileUseOk = true) (h : s.store.inProgress size size) :
    s.fileClose.store.complete size := by
  obtain ⟨x, r, hs, hc, hd, hl⟩ := h
  refine ⟨{ x with closed := true }, r, ?_, rfl, hd, hl⟩
  simp [State.fileClose, hk, FileStore.called, FileStore.updateLast, hs]

/-- Counting the bytes and closing the file commute. -/
theorem State.fileClose_count (k : Nat) (s : State) : (s.count k).fileClose = s.fileClose.count k := rfl

/-! ### One step -/

theorem State.standing_response {s : State} (h : s.standing = .response) : s.txBounded = true ∧ s.pos ≠ .none := by
  unfold State.standing at h
  by_cases h1 : s.rxDecoding = true
  · rw [if_pos h1] at h; cases h
  · rw [if_neg h1] at h
    by_cases h2 : s.txBounded = true ∧ s.pos ≠ .none
    · exact h2
    · rw [if_neg h2] at h; cases h

theorem State.txBounded_iff (s : State) :
    s.txBounded = true ↔ s.cfg.role = .sender ∧ s.txState ≠ .idle ∧ s.txState ≠ .done ∧ s.txState ≠ .aborted := by
  unfold State.txBounded
  cases s.txState <;> simp

theorem State.rxDecoding_iff (s : State) :
    s.rxDecoding = true ↔ s.cfg.role = .receiver ∧
      (s.rxState = .awaitingHeader ∨ s.rxState = .receivingData ∨ s.rxState = .awaitingNextOrEnd) := by
  unfold State.rxDecoding
  cases s.rxState <;> simp

/-- What `TX.START` does when it runs (rule R161). -/
theorem execTxStart_next {files : List SrcFile} {cfg : Cfg} {s t : State} (h : execTxStart files cfg s = .next t) :
    s.ended = false ∧ s.unstarted = true ∧ cfg.role = .sender ∧ files ≠ [] ∧ cfg.legal = true ∧
      t = { s.construct cfg files with txState := .handshaking } := by
  unfold execTxStart at h
  obtain ⟨he, h, -⟩ := whileOpen_next h
  split at h; · cases h
  split at h; · cases h
  split at h; · cases h
  split at h; · cases h
  rename_i h1 h2 h3 h4
  cases h
  exact ⟨he, by simpa using h1, by simpa using h2, h3, by simpa using h4, rfl⟩

/-- What `RX.START` does when it runs (rule R191). -/
theorem execRxStart_next {cfg : Cfg} {s t : State} (h : execRxStart cfg s = .next t) :
    s.ended = false ∧ s.unstarted = true ∧ cfg.role = .receiver ∧ cfg.legal = true ∧
      t = { s.construct cfg s.files with rxState := .handshaking } := by
  unfold execRxStart at h
  obtain ⟨he, h, -⟩ := whileOpen_next h
  split at h; · cases h
  split at h; · cases h
  split at h; · cases h
  rename_i h1 h2 h3
  cases h
  exact ⟨he, by simpa using h1, by simpa using h2, by simpa using h3, rfl⟩

/-- What an entry part and its attempt can answer. -/
theorem attemptAfter_next {e : Entry} {t : State} (h : attemptAfter e = .next t) :
    (∃ u, e = .ready u ∧ t = u.txAttempt u.frame) ∨ e = .ended t := by
  cases e with
  | ready u => cases h; exact .inl ⟨u, rfl, rfl⟩
  | ended u => cases h; exact .inr rfl
  | unfit => cases h

/-- What a step of a sender can be, said once. -/
theorem step_tx {s t : State} (hr : s.cfg.role = .sender) (h : step s = .next t) :
    (s.txBounded = true ∧ s.pos ≠ .none ∧ t = s.awaitOne) ∨
    (s.txState = .idle ∧ s.unstarted = true ∧ s.files ≠ [] ∧ s.cfg.legal = true ∧
      t = { s.construct s.cfg s.files with txState := .handshaking }) ∨
    (s.txState = .handshaking ∧ s.cfg.legal = true ∧ t = s.txAttempt [CRQ]) ∨
    (s.txState = .sendingHeader ∧ s.cfg.legal = true ∧ attemptAfter s.enterHeader = .next t) ∨
    (s.txState = .sendingData ∧ s.cfg.legal = true ∧ attemptAfter s.enterData = .next t) ∨
    (s.txState = .awaitingEot ∧ s.cfg.legal = true ∧ t = s.txAttempt [EOT]) ∨
    (s.txState = .sendingTerminator ∧ s.cfg.legal = true ∧ t = s.enterTerm.txAttempt s.enterTerm.frame) := by
  unfold step at h
  by_cases hst : s.standing = .response
  · rw [if_pos hst] at h; cases (of_settle h).1
    exact .inl ⟨(State.standing_response hst).1, (State.standing_response hst).2, rfl⟩
  · refine .inr ?_
    rw [if_neg hst] at h
    simp only [State.nextOp, hr, State.txOp] at h
    cases hx : s.txState <;> simp only [hx, exec] at h
    · obtain ⟨_, hu, _, hf, hl, ht⟩ := execTxStart_next h
      exact .inl ⟨rfl, hu, hf, hl, ht⟩
    · obtain ⟨_, _, hl, h, _⟩ := inTx_next h; cases h; simp [hl]
    · obtain ⟨_, _, hl, h, _⟩ := inTx_next h; simp [hl, h]
    · obtain ⟨_, _, hl, h, _⟩ := inTx_next h; simp [hl, h]
    · obtain ⟨_, _, hl, h, _⟩ := inTx_next h; cases h; simp [hl]
    · obtain ⟨_, _, hl, h, _⟩ := inTx_next h; cases h; simp [hl]
    all_goals cases h

/-- What a step of a receiver can be, said once. -/
theorem step_rx {s t : State} (hr : s.cfg.role = .receiver) (h : step s = .next t) :
    (s.rxState = .idle ∧ s.unstarted = true ∧ s.cfg.legal = true ∧
      t = { s.construct s.cfg s.files with rxState := .handshaking }) ∨
    (s.rxState = .handshaking ∧ s.cfg.legal = true ∧ t = (s.chWrite [CRQ]).enterAwaitHeader) ∨
    (s.rxState = .awaitingHeader ∧ s.cfg.legal = true ∧ t = s.rxDecode.2.headerOutcome s.rxDecode.1) ∨
    (s.rxState = .receivingData ∧ s.cfg.legal = true ∧ t = s.rxDecode.2.dataOutcome s.rxDecode.1) ∨
    (s.rxState = .awaitingNextOrEnd ∧ s.cfg.legal = true ∧ t = s.rxDecode.2.eotOutcome s.rxDecode.1) := by
  unfold step at h
  have hst : ¬ s.standing = .response := fun hc => by
    have := ((State.txBounded_iff s).mp (State.standing_response hc).1).1
    rw [hr] at this; cases this
  rw [if_neg hst] at h
  simp only [State.nextOp, hr, State.rxOp] at h
  cases hx : s.rxState <;> simp only [hx, exec] at h
  · obtain ⟨_, hu, _, hl, ht⟩ := execRxStart_next h
    exact .inl ⟨rfl, hu, hl, ht⟩
  · obtain ⟨_, _, hl, h, _⟩ := inRx_next h; cases h; simp [hl]
  · obtain ⟨_, _, hl, h, _⟩ := inRx_next h; cases h; simp [hl]
  · obtain ⟨_, _, hl, h, _⟩ := inRx_next h; cases h; simp [hl]
  · obtain ⟨_, _, hl, h, _⟩ := inRx_next h; cases h; simp [hl]
  all_goals cases h

end Sys2Proof.Machine
end

