-- ==== Sys2Proof/Tests/Slice0.lean ====
section
/-! SUPPORT. The model's own tests. Expected values come from the rules and from the vectors of 95_test_vectors.md, named at each test. -/

namespace Sys2Proof.Tests

set_option Elab.async false

open Sys2Proof.Machine

/-! ### Helpers -/

/-- The answer is a next state with a property. -/
def runs (r : Step State) (p : State → Bool) : Bool :=
  match r with
  | .next t => p t
  | .fault _ => false
  | .refused _ => false

/-- The answer is a given refusal. -/
def refuses (r : Step State) (e : Refusal) : Bool :=
  match r with
  | .next _ => false
  | .fault _ => false
  | .refused e' => decide (e' = e)

/-- The answer is a given fault. -/
def faults (r : Step State) (e : Fault) : Bool :=
  match r with
  | .next _ => false
  | .fault e' => decide (e' = e)
  | .refused _ => false

/-- `00 01 02 ..`, `k` bytes from a start. -/
def rising (start k : Nat) : List Byte := (List.range k).map (fun i => BitVec.ofNat 8 (start + i))

/-- "a.txt". -/
def aTxt : List Byte := [0x61#8, 0x2E#8, 0x74#8, 0x78#8, 0x74#8]

/-- The file of vector V5: 300 bytes, byte `i` = `i mod 256`. -/
def file300 : SrcFile := { name := aTxt, size := 300, data := rising 0 300 }

/-- `<H1>` of 95_test_vectors.md. -/
def h1 : List Byte := aTxt ++ [0x00#8, 0x33#8, 0x30#8, 0x30#8, 0x00#8] ++ List.replicate 118 0x00#8

/-- The frame of `<H1>`, as P1 prints it. -/
def h1Frame : List Byte := [0x01#8, 0x00#8, 0xFF#8] ++ h1 ++ [0xF4#8, 0x5F#8]

/-- A sender in a state, with the configuration and file of vector V5. -/
def tx (q : TxState) : State :=
  { State.reset with cfg := { role := .sender, txMaxRetries := 3 }, files := [file300], txState := q }

/-- A receiver in a state. -/
def rx (q : RxState) : State := { State.reset with cfg := { role := .receiver, rxMaxRetries := 3 }, rxState := q }

/-- Unread input. -/
def withIn (bs : List Byte) (s : State) : State := { s with chan := { s.chan with inBuf := bs } }

/-- The sequence pair. -/
def withSeq (a b : Byte) (s : State) : State := { s with seq0 := a, seq1 := b }

/-- A receiver of a file of a size, `done` bytes of it written. -/
def rxFile (size done : Nat) : State :=
  { withSeq 0x01#8 0xFE#8 (rx .receivingData) with
    size := size, written := done, bytesDone := done,
    store := { stored := [{ name := aTxt, declared := size, data := rising 0 done, closed := false }], ioErrors := [] } }

/-- A sender of the file of 300 bytes at an offset, entry part still to be done. -/
def txFile (offset : Nat) : State :=
  { withSeq 0x01#8 0xFE#8 (tx .sendingData) with size := 300, offset := offset, bytesDone := offset, fresh := true }

/-- The transport's reads have no timeout (U18). -/
def noTimeout (s : State) : State := { s with chan := { s.chan with timeout := .infinite } }

/-- A line that delivers 0x04 before every call, for ever (rule R277). -/
def endlessEot (s : State) : State :=
  { s with chan := { s.chan with again := [{ arrive := [0x04#8], flush := 1, cut := none, tearDown := false }] } }

/-- All bytes an engine has written to its line. -/
def sent (s : State) : List Byte := s.chan.wire ++ s.chan.outBuf

/-! ### Well-formedness: one ill-formed term for each check -/

theorem test_wf_soh : Instr.wf {} (.soh 0#8 0xFF#8 (zeros 127) 0#16) = false := by decide +kernel
theorem test_wf_stx : Instr.wf {} (.stx 0#8 0xFF#8 (zeros 128) 0#16) = false := by decide +kernel
theorem test_wf_cus_disabled : Instr.wf {} (.cus 0#8 0xFF#8 (zeros 64) 0#16) = false := by decide +kernel
theorem test_wf_cus_length : Instr.wf { customSize := 64 } (.cus 0#8 0xFF#8 (zeros 65) 0#16) = false := by decide +kernel
theorem test_wf_chRead : Instr.wf {} (.chRead 0) = false := by decide
theorem test_wf_chWrite : Instr.wf {} (.chWrite []) = false := by decide
theorem test_wf_pad_chunk : Instr.wf {} (.pad (zeros 129) 128) = false := by decide +kernel
theorem test_wf_pad_range : Instr.wf {} (.pad [] 1025) = false := by decide
theorem test_wf_hdrBuild_empty : Instr.wf {} (.hdrBuild [] 1) = false := by decide
theorem test_wf_hdrBuild_zero : Instr.wf {} (.hdrBuild [0x61#8, 0x00#8] 1) = false := by decide
theorem test_wf_hdrParse : Instr.wf {} (.hdrParse []) = false := by decide
theorem test_wf_encode : Instr.wf {} (.encode .soh 0#8 (zeros 127)) = false := by decide +kernel
theorem test_wf_txStart_files : Instr.wf {} (.txStart [] { role := .sender }) = false := by decide
theorem test_wf_txStart_role : Instr.wf {} (.txStart [file300] { role := .receiver }) = false := by decide +kernel
theorem test_wf_txStart_cfg : Instr.wf {} (.txStart [file300] { role := .sender, txEotRetries := 0 }) = false := by decide +kernel
theorem test_wf_rxStart_role : Instr.wf {} (.rxStart { role := .sender }) = false := by decide
theorem test_wf_rxStart_cfg : Instr.wf {} (.rxStart { customSize := 1025 }) = false := by decide
theorem test_wf_accepts : Instr.wf { customSize := 64 } (.cus 0x05#8 0xFA#8 (rising 0 64) 0x2BF5#16) = true := by decide +kernel

/-! ### Decoding: words written out from rules R81 and R83 -/

theorem test_decode_soh : decode 0 h1Frame = .ok (.soh 0x00#8 0xFF#8 h1 0xF45F#16, []) := by decide +kernel
theorem test_decode_stx :
    decode 0 ([0x02#8, 0x01#8, 0xFE#8] ++ List.replicate 1024 0xFF#8 ++ [0xC0#8, 0x84#8, 0x18#8]) =
      .ok (.stx 0x01#8 0xFE#8 (List.replicate 1024 0xFF#8) 0xC084#16, [0x18#8]) := by decide +kernel
theorem test_decode_cus :
    decode 64 ([0x03#8, 0x05#8, 0xFA#8] ++ rising 0 64 ++ [0x2B#8, 0xF5#8]) =
      .ok (.cus 0x05#8 0xFA#8 (rising 0 64) 0x2BF5#16, []) := by decide +kernel
theorem test_decode_eot : decode 0 [0b00000100#8] = .ok (.eot, []) := by decide
theorem test_decode_ack : decode 0 [0b00000110#8] = .ok (.ack, []) := by decide
theorem test_decode_nak : decode 0 [0b00010101#8] = .ok (.nak, []) := by decide
theorem test_decode_can : decode 0 [0b00011000#8] = .ok (.can, []) := by decide
theorem test_decode_crq : decode 0 [0b01000011#8] = .ok (.crq, []) := by decide
theorem test_decode_undefined : decode 0 [0x05#8] = .error (.unrecognized 0x05#8) := by decide
theorem test_decode_short : decode 0 (h1Frame.take 132) = .error (.short .soh) := by decide +kernel
theorem test_encode_soh : encode (.soh 0x00#8 0xFF#8 h1 0xF45F#16) = h1Frame := by decide +kernel

/-- Every word of the table decodes to its row's symbol, and the next step runs it. -/
theorem test_table_words :
    [0x01, 0x02, 0x03, 0x04, 0x06, 0x15, 0x18, 0x43].map (fun w => (decodeTableWord 8 w).map Laws.WireForm.symbol) =
      [some (some 0x01#8), some (some 0x02#8), some (some 0x03#8), some (some 0x04#8), some (some 0x06#8),
        some (some 0x15#8), some (some 0x18#8), some (some 0x43#8)] := by decide +kernel
theorem test_fetch_eot :
    runs (step (State.reset.withFetchWord 8 0x04)) (fun t => decide (sent t = [0x06#8, 0x43#8])) = true := by decide +kernel
theorem test_fetch_ack :
    runs (step (State.reset.withFetchWord 8 0x06)) (fun t => decide (t.resp = 0x06#8 ∧ t.pos = .resp2)) = true := by
  decide +kernel
theorem test_fetch_crq :
    runs (step (State.reset.withFetchWord 8 0x43)) (fun t => decide (t.txState = .sendingHeader)) = true := by decide +kernel
theorem test_fetch_cus :
    runs (step (State.reset.withFetchWord 8 0x03)) (fun t => decide (t.marker = 0x03#8 ∧ t.n = 64)) = true := by
  decide +kernel
theorem test_fetch_undefined :
    runs (step (State.reset.withFetchWord 8 0x05)) (fun t => decide (t.marker = 0x05#8 ∧ t.lastErr = .unrecognized)) =
      true := by decide +kernel

/-! ### The wire symbols -/

-- P1, data 1.
theorem test_soh_accepted :
    runs (exec (.soh 0x01#8 0xFE#8 (rising 0 128) 0xE80A#16) (rxFile 300 0))
      (fun t => decide (t.written = 128 ∧ t.seq0 = 0x02#8 ∧ t.seq1 = 0xFD#8 ∧ sent t = [0x06#8] ∧ t.rxState = .receivingData)) =
      true := by decide +kernel
-- P5: the retransmission of an accepted packet is refused without an answer.
theorem test_soh_repeated :
    runs (exec (.soh 0x01#8 0xFE#8 (rising 0 128) 0xE80A#16) (withSeq 0x02#8 0xFD#8 (rxFile 300 128)))
      (fun t => decide (t.retry = 1 ∧ t.lastErr = .badSeqLow ∧ sent t = [] ∧ t.written = 128)) = true := by decide +kernel
-- V2.4d.
theorem test_stx_last :
    runs (exec (.stx 0x01#8 0xFE#8 (List.replicate 1024 0xFF#8) 0xC084#16) (rxFile 1024 0))
      (fun t => decide (t.written = 1024 ∧ t.rxState = .awaitingNextOrEnd ∧ t.store.stored.map (fun f => f.closed) = [true])) =
      true := by decide +kernel
-- V2.13 with a wrong trailer.
theorem test_cus_checksum :
    runs (exec (.cus 0x01#8 0xFE#8 (rising 0 64) 0x2BF4#16) { rxFile 300 0 with cfg := { customSize := 64 } })
      (fun t => decide (t.lastErr = .badChecksum ∧ t.retry = 1 ∧ t.written = 0 ∧ t.n = 64)) = true := by decide +kernel
-- V2.7c.
theorem test_cus_disabled :
    runs (exec (.cus 0x01#8 0xFE#8 (rising 0 64) 0x2BF5#16) (rxFile 300 0))
      (fun t => decide (t.lastErr = .unrecognized ∧ t.marker = 0x03#8)) = true := by decide +kernel
-- Rule R198; P1.
theorem test_eot :
    runs (exec .eot (withSeq 0x04#8 0xFB#8 { rx .awaitingNextOrEnd with retry := 2 }))
      (fun t => decide (sent t = [0x06#8, 0x43#8] ∧ t.retry = 0 ∧ t.seq0 = 0x00#8 ∧ t.seq1 = 0xFF#8 ∧
        t.rxState = .awaitingHeader)) = true := by decide +kernel
-- Rule R199.
theorem test_eot_early :
    runs (exec .eot (rxFile 300 128)) (fun t => decide (t.lastErr = .unexpected ∧ t.retry = 1 ∧ sent t = [])) = true := by
  decide +kernel
-- V2.7a; V2.17a.
theorem test_ack_marker :
    runs (exec .ack (rx .awaitingHeader)) (fun t => decide (t.lastErr = .unrecognized ∧ t.marker = 0x06#8)) = true := by
  decide +kernel
theorem test_ack_response :
    runs (exec .ack ((txFile 256).setPos .resp1))
      (fun t => decide (t.offset = 300 ∧ t.txState = .awaitingEot ∧ t.seq0 = 0x02#8)) = true := by decide +kernel
-- V2.17c; V2.6a.
theorem test_nak_response :
    runs (exec .nak ((tx .handshaking).setPos .resp1)) (fun t => decide (t.retry = 1 ∧ t.lastErr = .nak ∧ t.pos = .none)) =
      true := by decide +kernel
theorem test_nak_last_attempt :
    runs (exec .nak ({ tx .awaitingEot with retry := 1 }.setPos .resp1))
      (fun t => decide (t.txState = .aborted ∧ t.exitClass = .protocolAbort ∧ t.lastErr = .nak)) = true := by decide +kernel
-- V2.17e; V2.17f.
theorem test_can_twice :
    runs (exec .can (withIn [0x18#8] (rx .awaitingHeader)))
      (fun t => decide (t.rxState = .aborted ∧ t.exitClass = .protocolAbort ∧ t.lastErr = .cancelled)) = true := by decide +kernel
theorem test_can_once :
    runs (exec .can (withIn [0x06#8] ((tx .sendingData).setPos .resp1)))
      (fun t => decide (t.retry = 1 ∧ t.lastErr = .unrecognized ∧ t.chan.inBuf = [])) = true := by decide +kernel
-- V2.17a; V2.7b.
theorem test_crq_header :
    runs (exec .crq (withSeq 0x00#8 0xFF#8 ((tx .sendingHeader).setPos .resp2)))
      (fun t => decide (t.txState = .sendingData ∧ t.seq0 = 0x01#8 ∧ t.seq1 = 0xFE#8 ∧ t.fresh = true)) = true := by
  decide +kernel
theorem test_crq_marker :
    runs (exec .crq (rx .awaitingHeader)) (fun t => decide (t.lastErr = .unrecognized ∧ t.retry = 1)) = true := by
  decide +kernel

-- Rule R275: a peer with another custom size. Too few bytes; too many, and the receiver's own 64 are read.
theorem test_cus_shorter :
    runs (exec (.cus 0x01#8 0xFE#8 (rising 0 32) 0x2BF5#16) { rxFile 300 0 with cfg := { customSize := 64 } })
      (fun t => decide (t.lastErr = .timeout ∧ t.retry = 1 ∧ t.written = 0 ∧ t.n = 64)) = true := by decide +kernel
theorem test_cus_longer :
    runs (exec (.cus 0x01#8 0xFE#8 (rising 0 128) 0xE80A#16) { rxFile 300 0 with cfg := { customSize := 64 } })
      (fun t => decide (t.lastErr = .badChecksum ∧ t.rxCrc = 0x4041#16 ∧ t.written = 0 ∧ t.n = 64)) = true := by decide +kernel

-- Rule R140 over the sentence of R275 (log entry 28): 64 zeros and a zero checksum are read, and accepted.
theorem test_cus_longer_zeros :
    runs (exec (.cus 0x01#8 0xFE#8 (zeros 128) 0x0000#16) { rxFile 300 0 with cfg := { customSize := 64 } })
      (fun t => decide (t.written = 64 ∧ t.retry = 0 ∧ t.chan.inBuf = zeros 64)) = true := by decide +kernel

/-! ### Channel -/

-- Rules R51, R52: two bytes are there, three are asked for.
theorem test_chRead_short :
    runs (exec (.chRead 3) (withIn [0x01#8, 0x00#8] (rx .awaitingHeader)))
      (fun t => decide (t.rd = [0x01#8, 0x00#8] ∧ t.chan.inBuf = [])) = true := by decide +kernel
-- Rule R57: a timeout may come although bytes are there; they stay.
theorem test_chRead_timeout :
    runs (exec (.chRead 1) (let s := withIn [0x01#8] (rx .awaitingHeader)
        { s with chan := { s.chan with script := [{ arrive := [], flush := 0, cut := some 0, tearDown := false }] } }))
      (fun t => decide (t.rd = [] ∧ t.chan.inBuf = [0x01#8])) = true := by decide +kernel
-- U18: without a timeout the third byte is waited for for ever, also by the receiver's own operation.
theorem test_read_blocked :
    faults (exec (.chRead 3) (withIn [0x01#8, 0x00#8] (noTimeout (rx .awaitingHeader)))) .readBlocked = true ∧
      faults (step (noTimeout (rx .awaitingHeader))) .readBlocked = true ∧
      runs (exec (.chRead 2) (withIn [0x01#8, 0x00#8] (noTimeout (rx .awaitingHeader)))) (fun _ => true) = true := by
  decide +kernel
-- Rule R277: four stray `EOT` on a line that repeats 0x04 for ever.
theorem test_endless_eot :
    runs (core.run 4 (endlessEot (rx .awaitingHeader)))
      (fun t => decide (sent t = (List.replicate 4 [0x06#8, 0x43#8]).flatten ∧ t.rxState = .awaitingHeader ∧ t.retry = 0)) =
      true := by decide +kernel
-- Log entry 27: on a torn Channel unflushed output stays.
theorem test_flushed_torn :
    let c : Channel := { State.reset.chan with outBuf := [0x06#8] }
    c.flushed.wire = [0x06#8] ∧ { c with torn := true }.flushed.wire = [] := by decide
theorem test_chWrite :
    runs (exec (.chWrite [0x06#8]) (rx .awaitingHeader)) (fun t => decide (t.trace = [.write [0x06#8]] ∧ sent t = [0x06#8])) =
      true := by decide +kernel
theorem test_chClear :
    runs (exec .chClear (withIn [0x01#8] (rx .awaitingHeader))) (fun t => decide (t.chan.inBuf = [])) = true := by decide +kernel

/-! ### Checksum -/

theorem test_crcInit : runs (exec .crcInit { rx .idle with crc := 0x1234#16 }) (fun t => decide (t.crc = 0x0000#16)) = true := by
  decide +kernel
-- V1.20, the first and the second step.
theorem test_crcByte_first : runs (exec (.crcByte 0x31#8) State.reset) (fun t => decide (t.crc = 0x2672#16)) = true := by
  decide +kernel
theorem test_crcByte_second :
    runs (exec (.crcByte 0x32#8) { State.reset with crc := 0x2672#16 }) (fun t => decide (t.crc = 0x20B5#16)) = true := by
  decide +kernel
-- V1.7; V1.19.
theorem test_crc16_check : runs (exec (.crc16 (rising 0x31 9)) State.reset) (fun t => decide (t.crc = 0x31C3#16)) = true := by
  decide +kernel
theorem test_crc16_rising : runs (exec (.crc16 (rising 0 64)) State.reset) (fun t => decide (t.crc = 0x2BF5#16)) = true := by
  decide +kernel
-- V1.17.
theorem test_rom :
    [0x02#8, 0x03#8, 0x10#8, 0x7F#8, 0x80#8, 0xFE#8, 0xFF#8].map crcRom =
      [0x2042#16, 0x3063#16, 0x1231#16, 0x8F78#16, 0x9188#16, 0x0ED1#16, 0x1EF0#16] := by decide +kernel

/-! ### Framer -/

-- V2.1.
theorem test_pad :
    runs (exec (.pad [0x68#8, 0x65#8, 0x6C#8, 0x6C#8, 0x6F#8] 128) State.reset)
      (fun t => decide (crcOf (t.payload 128) = 0xA546#16 ∧ t.buf.length = 5)) = true := by decide +kernel
theorem test_pad_fault : faults (exec (.pad [] 1025) State.reset) .bufferRange = true := by decide +kernel
-- V2.2.
theorem test_hdrBuild :
    runs (exec (.hdrBuild aTxt 300) State.reset) (fun t => decide (t.payload 128 = h1)) = true := by decide +kernel
theorem test_hdrBuild_long :
    runs (exec (.hdrBuild (List.replicate 123 0x79#8) 300) State.reset) (fun _ => true) = true ∧
      refuses (exec (.hdrBuild (List.replicate 124 0x79#8) 300) State.reset) .unfitFile = true := by decide +kernel
-- V2.3c, V2.3i, V2.3k, and the rows that are `Bad` or `Null`.
theorem test_hdrParse_files :
    ([[0x78#8, 0#8, 0x30#8, 0x30#8, 0x37#8, 0#8], [0x78#8, 0#8, 0x34#8, 0x32#8, 0#8, 0x6A#8, 0x75#8, 0#8],
        [0x64#8, 0x69#8, 0x72#8, 0x2F#8, 0x78#8, 0#8, 0x31#8, 0#8]].map (parseHeader 64)) =
      [.file [0x78#8] 7, .file [0x78#8] 42, .file [0x64#8, 0x69#8, 0x72#8, 0x2F#8, 0x78#8] 1] := by decide +kernel
theorem test_hdrParse_others :
    ([[0x78#8, 0#8, 0#8], [0x78#8, 0#8, 0x31#8, 0x32#8, 0x20#8, 0#8], List.replicate 128 0x79#8,
        List.replicate 120 0x79#8 ++ [0#8] ++ rising 0x31 7, [0#8, 0x61#8, 0#8, 0x35#8, 0#8]].map (parseHeader 64)) =
      [.bad, .bad, .bad, .bad, .null] := by decide +kernel
-- V2.4a; V2.4b.
theorem test_encode_h1 :
    runs (exec (.encode .soh 0x00#8 h1) State.reset) (fun t => decide (t.frame = h1Frame ∧ t.n = 128 ∧ sent t = [])) = true := by
  decide +kernel
theorem test_encode_wrap :
    runs (exec (.encode .soh 0xFF#8 (zeros 128)) State.reset)
      (fun t => decide (t.frame = [0x01#8, 0xFF#8, 0x00#8] ++ zeros 130)) = true := by decide +kernel
-- V2.5a; V2.5e; V2.11 and V2.12 show the order of the checks.
theorem test_decode_packet :
    runs (exec (.decode 0x00#8 0xFF#8) (withIn h1Frame (rx .awaitingHeader)))
      (fun t => decide (t.outcome = some .packet ∧ t.rxCrc = 0xF45F#16 ∧ t.payload 128 = h1 ∧ t.chan.inBuf = [])) = true := by
  decide +kernel
theorem test_decode_partial :
    runs (exec (.decode 0x00#8 0xFF#8) (withIn (h1Frame.take 103) (rx .awaitingHeader)))
      (fun t => decide (t.outcome = some .timeout ∧ t.trace.length = 4 ∧ t.chan.inBuf = [])) = true := by decide +kernel
theorem test_judge_order :
    [(0x07#8, 0xF0#8), (0x00#8, 0x00#8)].map (fun x =>
        (((rx .awaitingHeader).latchFrame .soh x.1 x.2 h1 0x0000#16).judge 0x00#8 0xFF#8)) =
      [.badSeqLow, .badSeqHigh] := by decide +kernel
-- V2.17b; V2.17d.
theorem test_readResp_timeout :
    runs (exec .readResp (tx .handshaking)) (fun t => decide (t.retry = 1 ∧ t.lastErr = .timeout)) = true := by decide +kernel
theorem test_readResp_byte :
    runs (exec .readResp (withIn [0x01#8] (tx .sendingData))) (fun t => decide (t.resp = 0x01#8 ∧ t.retry = 0)) = true := by
  decide +kernel

/-! ### Sender -/

theorem test_txStart :
    runs (exec (.txStart [file300] { role := .sender }) { State.reset with retry := 7, seq0 := 0x11#8 })
      (fun t => decide (t.txState = .handshaking ∧ t.retry = 0 ∧ t.seq0 = 0x00#8 ∧ t.seq1 = 0xFF#8 ∧ t.files = [file300])) =
      true := by decide +kernel
theorem test_txStart_refused :
    refuses (exec (.txStart [] { role := .sender }) State.reset) .emptyFileList = true ∧
      refuses (exec (.txStart [file300] { role := .sender, txMaxRetries := 0 }) State.reset) .badConfig = true := by
  decide +kernel
-- V5.3: with the bound 1 there is one attempt and no clear.
theorem test_txHandshake_fails :
    runs (exec .txHandshake { tx .handshaking with cfg := { role := .sender, txMaxRetries := 1 } })
      (fun t => decide (t.trace = [.exit (.failure .handshakeFailed .timeout), .read 1 [], .write [0x43#8]] ∧ t.retry = 1)) =
      true := by decide +kernel
theorem test_txHandshake :
    runs (exec .txHandshake (withIn [0x43#8] { tx .handshaking with retry := 2 }))
      (fun t => decide (t.txState = .sendingHeader ∧ t.retry = 0 ∧ t.fresh = true)) = true := by decide +kernel
-- P1; V5.4: `ACK` without 0x43.
theorem test_txHeader :
    runs (exec .txHeader (withIn [0x06#8, 0x43#8] { tx .sendingHeader with fresh := true }))
      (fun t => decide (sent t = h1Frame ∧ t.txState = .sendingData ∧ t.size = 300 ∧ t.seq0 = 0x01#8)) = true := by
  decide +kernel
theorem test_txHeader_half :
    runs (exec .txHeader (withIn [0x06#8] { tx .sendingHeader with fresh := true }))
      (fun t => decide (t.retry = 1 ∧ t.lastErr = .timeout ∧ t.txState = .sendingHeader ∧ t.seq0 = 0x00#8 ∧ t.fresh = false)) =
      true := by decide +kernel
-- P1, data 1 and data 3.
theorem test_txData :
    runs (exec .txData (withIn [0x06#8] (txFile 0)))
      (fun t => decide (sent t = [0x01#8, 0x01#8, 0xFE#8] ++ rising 0 128 ++ [0xE8#8, 0x0A#8] ∧ t.offset = 128 ∧
        t.txState = .sendingData)) = true := by decide +kernel
theorem test_txData_last :
    runs (exec .txData (withIn [0x06#8] (withSeq 0x03#8 0xFC#8 (txFile 256))))
      (fun t => decide (sent t = [0x01#8, 0x03#8, 0xFC#8] ++ rising 0 44 ++ zeros 84 ++ [0x8F#8, 0x5D#8] ∧ t.offset = 300 ∧
        t.txState = .awaitingEot)) = true := by decide +kernel
theorem test_txEot :
    runs (exec .txEot (withIn [0x06#8, 0x43#8] (tx .awaitingEot)))
      (fun t => decide (sent t = [0x04#8] ∧ t.fileIdx = 1 ∧ t.txState = .sendingTerminator)) = true := by decide +kernel
-- V5.6: the second failure of the end-of-transmission step is the last.
theorem test_txEot_aborts :
    runs (exec .txEot (withIn [0x15#8] { tx .awaitingEot with retry := 1 }))
      (fun t => decide (t.txState = .aborted ∧ t.exitClass = .protocolAbort ∧ t.lastErr = .nak)) = true := by decide +kernel
-- P1, terminator; V3.5 with `SEQ_RESET_PER_FILE = false`.
theorem test_txTerm :
    runs (exec .txTerm (withIn [0x06#8] (withSeq 0x04#8 0xFB#8 { tx .sendingTerminator with fresh := true })))
      (fun t => decide (sent t = [0x01#8, 0x00#8, 0xFF#8] ++ zeros 130 ∧ t.txState = .done ∧ t.exitClass = .success)) = true := by
  decide +kernel
theorem test_txTerm_no_reset :
    runs (exec .txTerm (withIn [0x06#8] { withSeq 0x04#8 0xFB#8 { tx .sendingTerminator with fresh := true } with
        cfg := { role := .sender, seqResetPerFile := false } }))
      (fun t => decide (sent t = [0x01#8, 0x04#8, 0xFB#8] ++ zeros 130)) = true := by decide +kernel
-- V4: marker, payload size and file bytes of a packet.
theorem test_marker_choice :
    [(0, 1023), (0, 1024), (64, 63), (64, 100), (2048, 2047)].map (fun x =>
        let c : Cfg := { customSize := x.1 }
        (chunkMarker c x.2, chunkSize c x.2, chunkTake c x.2)) =
      [(.soh, 128, 128), (.stx, 1024, 1024), (.soh, 128, 63), (.cus, 64, 64), (.soh, 128, 128)] := by decide +kernel

/-! ### Receiver -/

theorem test_rxStart :
    runs (exec (.rxStart {}) { State.reset with lastErr := .nak, marker := 0x55#8 })
      (fun t => decide (t.rxState = .handshaking ∧ t.lastErr = .noError ∧ t.marker = 0x01#8)) = true := by decide +kernel
theorem test_rxHandshake :
    runs (exec .rxHandshake (rx .handshaking)) (fun t => decide (sent t = [0x43#8] ∧ t.rxState = .awaitingHeader)) = true := by
  decide +kernel
-- P1, header and terminator.
theorem test_rxHeader :
    runs (exec .rxHeader (withIn h1Frame (rx .awaitingHeader)))
      (fun t => decide (sent t = [0x06#8, 0x43#8] ∧ t.size = 300 ∧ t.rxState = .receivingData ∧ t.seq0 = 0x01#8 ∧
        t.store.stored = [{ name := aTxt, declared := 300, data := [], closed := false }])) = true := by decide +kernel
theorem test_rxHeader_null :
    runs (exec .rxHeader (withIn ([0x01#8, 0x00#8, 0xFF#8] ++ zeros 130) (rx .awaitingHeader)))
      (fun t => decide (sent t = [0x06#8] ∧ t.rxState = .done ∧ t.exitClass = .success ∧ t.store.stored = [])) = true := by
  decide +kernel
-- P1, data 3: the padding does not come into the file.
theorem test_rxData_last :
    runs (exec .rxData (withIn ([0x01#8, 0x03#8, 0xFC#8] ++ rising 0 44 ++ zeros 84 ++ [0x8F#8, 0x5D#8])
        (withSeq 0x03#8 0xFC#8 (rxFile 300 256))))
      (fun t => decide (t.store.stored = [{ name := aTxt, declared := 300, data := rising 0 300, closed := true }] ∧
        t.rxState = .awaitingNextOrEnd ∧ sent t = [0x06#8])) = true := by decide +kernel
-- Rule R197, U25: a file error aborts without an acknowledgement.
theorem test_rxData_ioError :
    runs (exec .rxData (let s := withIn ([0x01#8, 0x01#8, 0xFE#8] ++ rising 0 128 ++ [0xE8#8, 0x0A#8]) (rxFile 300 0)
        { s with store := { s.store with ioErrors := [true] } }))
      (fun t => decide (t.rxState = .aborted ∧ t.exitClass = .localIoError ∧ t.lastErr = .ioError ∧ sent t = [])) = true := by
  decide +kernel
theorem test_rxEot :
    runs (exec .rxEot (withIn [0x04#8] (rx .awaitingNextOrEnd)))
      (fun t => decide (sent t = [0x06#8, 0x43#8] ∧ t.rxState = .awaitingHeader)) = true := by decide +kernel
theorem test_rxEot_packet :
    runs (exec .rxEot (withIn h1Frame (rx .awaitingNextOrEnd))) (fun t => decide (t.lastErr = .unexpected ∧ t.retry = 1)) =
      true := by decide +kernel

-- The codes of rule R233.
theorem test_codes :
    [ExitClass.none, .success, .handshakeFailed, .protocolAbort, .localIoError].map ExitClass.code = [0, 1, 2, 3, 4] ∧
      [Cause.noError, .timeout, .badSeqLow, .badSeqHigh, .badChecksum, .unrecognized, .nak, .unexpected, .cancelled,
        .ioError].map Cause.code = [0, 1, 2, 3, 4, 5, 6, 7, 8, 9] := by decide

/-! ### Witnesses: states and operands that meet the hypotheses of the statements, clause by clause -/

theorem test_witness_DecodeEncode :
    ∀ i ∈ [Instr.soh 0#8 0xFF#8 h1 0xF45F#16, .cus 0x05#8 0xFA#8 (rising 0 64) 0x2BF5#16, .crq],
      i.wf { customSize := 64 } = true ∧ i.onWire = true := by decide +kernel
theorem test_witness_DecodeUnambiguous :
    decode 0 [0x06#8, 0x18#8] = .ok (.ack, [0x18#8]) ∧
      0x00#8 ∉ [0x01#8, 0x02#8, 0x03#8, 0x04#8, 0x06#8, 0x15#8, 0x18#8, 0x43#8] ∧
      0x44#8 ∉ [0x01#8, 0x02#8, 0x03#8, 0x04#8, 0x06#8, 0x15#8, 0x18#8, 0x43#8] := by decide
theorem test_witness_CrcLaws : [0x12#8, 0x34#8].length = [0xAB#8, 0xCD#8].length := by decide
theorem test_witness_CrcOrder : (0x01#8 : Byte) ≠ 0x02#8 := by decide
theorem test_witness_PadWrites :
    State.reset.buf.wf ∧ [0x01#8].length ≤ 1024 ∧ 1024 ≤ State.reset.cfg.payloadMax ∧ State.reset.cfg.payloadMax < 1025 := by
  decide
theorem test_witness_HdrBuild :
    let n := List.replicate 123 0x79#8
    let m := List.replicate 124 0x79#8
    State.reset.buf.wf ∧ (n ≠ [] ∧ 0x00#8 ∉ n ∧ n.length + 1 + (decBytes 300).length + 1 ≤ 128) ∧
      128 ≤ State.reset.cfg.payloadMax ∧
      ¬ (m ≠ [] ∧ 0x00#8 ∉ m ∧ m.length + 1 + (decBytes 300).length + 1 ≤ 128) := by decide +kernel
theorem test_witness_HdrParse : aTxt ≠ [] ∧ 0x00#8 ∉ aTxt ∧ 0x00#8 ∉ [0x33#8, 0x30#8, 0x30#8] := by decide
theorem test_witness_HeaderRoundTrip :
    (aTxt ≠ [] ∧ 0x00#8 ∉ aTxt ∧ aTxt.length + 1 + (decBytes 300).length + 1 ≤ 128) ∧ 300 < 2 ^ State.reset.cfg.sizeW ∧
      runs (exec (.hdrBuild aTxt 300) State.reset) (fun _ => true) = true := by decide +kernel
theorem test_witness_EncodeFrame :
    payloadSize State.reset.cfg.customSize .stx = some (List.replicate 1024 0xFF#8).length ∧
      State.reset.cfg.customSize = 0 := by decide +kernel
theorem test_witness_DecodeWholeFrame :
    let s := withIn (h1Frame ++ [0x04#8]) (rx .awaitingHeader)
    s.ended = false ∧ s.cfg.legal ∧ s.quiet ∧ payloadSize s.cfg.customSize .soh = some h1.length ∧
      s.chan.inBuf = Marker.soh.byte :: 0x00#8 :: 0xFF#8 :: h1 ++ [0xF4#8, 0x5F#8] ++ [0x04#8] := by decide +kernel
theorem test_witness_FrameRoundTrip :
    let s := withIn (builtFrame .soh 0x00#8 h1) (rx .awaitingHeader)
    let u := withIn ((builtFrame .soh 0x00#8 h1).modify 132 (fun b => b ^^^ (1#8 <<< 7))) (rx .awaitingHeader)
    s.ended = false ∧ s.cfg.legal ∧ s.quiet ∧ payloadSize s.cfg.customSize .soh = some h1.length ∧
      s.chan.inBuf = builtFrame .soh 0x00#8 h1 ++ [] ∧
      u.ended = false ∧ u.cfg.legal ∧ u.quiet ∧ payloadSize u.cfg.customSize .soh = some h1.length ∧ 132 < h1.length + 5 ∧
      u.chan.inBuf = (builtFrame .soh 0x00#8 h1).modify 132 (fun b => b ^^^ (1#8 <<< 7)) ++ [] := by decide +kernel
theorem test_witness_DecodeMarkerPosition :
    ∀ b ∈ [0x15#8, 0x04#8, 0x18#8, 0x03#8, 0x43#8],
      let s := withIn [b, 0x01#8] (rx .awaitingHeader)
      s.ended = false ∧ s.cfg.legal ∧ s.quiet ∧ s.chan.inBuf = b :: [0x01#8] ∧ b ≠ 0x01#8 ∧ b ≠ 0x02#8 ∧
        (b = 0x03#8 → s.cfg.customSize = 0) := by decide +kernel
theorem test_witness_DecodeFrameCondition :
    runs (exec (.decode 0x00#8 0xFF#8) (withIn h1Frame (rx .awaitingHeader))) (fun t => decide (t.buf.wf)) = true := by
  decide +kernel
theorem test_witness_ReadResponse :
    (tx .awaitingEot).cfg.role = .sender ∧ (tx .awaitingEot).txState = .awaitingEot ∧
      ((withIn [0x06#8] (tx .awaitingEot)).chRead 1).rd = [0x06#8] ∧
      ((withIn [0x18#8] (tx .awaitingEot)).chRead 1).rd = [0x18#8] ∧ ((tx .awaitingEot).chRead 1).rd = [] ∧
      (tx .awaitingEot).live ∧ ((tx .awaitingEot).chRead 1).live ∧ (((withIn [0x18#8] (tx .awaitingEot)).chRead 1).chRead 1).live := by
  decide +kernel
theorem test_witness_Channel :
    (rx .awaitingHeader).ended = false ∧ (rx .awaitingHeader).quiet ∧
      ((rx .awaitingHeader).chRead 1).chan.torn = false ∧
      ({ rx .awaitingHeader with chan := { State.reset.chan with torn := true } }.chRead 1).chan.torn = true ∧
      (rx .awaitingHeader).live ∧
      (let s := withIn [0x01#8] (noTimeout (rx .awaitingHeader))
       s.chan.timeout = .infinite ∧ s.live ∧ s.chan.torn = false ∧ s.chan.upcoming.tearDown = false ∧
        (s.chan.inBuf ++ s.chan.upcoming.arrive).length < 2 ∧ ¬ (s.chan.inBuf ++ s.chan.upcoming.arrive).length < 1 ∧
        (s.chRead 1).chan.torn = false) := by
  decide +kernel
theorem test_witness_RetryPath :
    (rx .awaitingHeader).bound = 3 ∧ (rx .awaitingHeader).retry + 1 < 3 ∧ 3 ≤ { rx .awaitingHeader with retry := 2 }.retry + 1 := by
  decide +kernel
theorem test_witness_RetryPath_variants :
    let r : State := { rx .awaitingHeader with cfg := { rxMaxRetries := 3, rxResendCrq := true } }
    let h : State := { tx .sendingHeader with cfg := { role := .sender, txMaxRetries := 3, txRehandshake := true } }
    let b : State := { h with txState := .handshaking, rehandshake := true, retry := 2 }
    (r.cfg.role = .receiver ∧ r.rxState = .awaitingHeader ∧ r.cfg.rxResendCrq = true ∧ r.retry + 1 < r.cfg.rxMaxRetries) ∧
      (h.cfg.role = .sender ∧ h.txState = .sendingHeader ∧ h.cfg.txRehandshake = true ∧ h.retry + 1 < h.cfg.txMaxRetries) ∧
      (b.cfg.role = .sender ∧ b.txState = .handshaking ∧ b.rehandshake = true ∧ b.cfg.txMaxRetries ≤ b.retry + 1) ∧
      (r.fail .timeout).trace = [.write [0x43#8], .clear] ∧ (h.fail .timeout).txState = .handshaking ∧
      (b.fail .timeout).exitClass = .protocolAbort := by decide +kernel
theorem test_witness_NakAndCan :
    (rx .awaitingHeader).rxDecoding = true ∧ (rx .awaitingHeader).live ∧ ((tx .handshaking).setPos .resp1).live ∧
      (((rx .awaitingHeader).setMarker 0x18#8).chRead 1).live ∧ ((tx .handshaking).setPos .resp1).txBounded = true ∧
      ((tx .handshaking).setPos .resp1).pos ≠ .none ∧
      (((withIn [0x18#8] (rx .awaitingHeader)).setMarker 0x18#8).chRead 1).rd = [0x18#8] ∧
      (((rx .awaitingHeader).setMarker 0x18#8).chRead 1).rd ≠ [0x18#8] := by decide +kernel
theorem test_witness_FileErrorAborts_rx :
    let s := withIn ([0x01#8, 0x01#8, 0xFE#8] ++ rising 0 128 ++ [0xE8#8, 0x0A#8])
      { rxFile 300 0 with store := { (rxFile 300 0).store with ioErrors := [true] } }
    let d := (s.decodeUnit s.seq0 s.seq1).2
    s.cfg.role = .receiver ∧ s.cfg.legal ∧ s.rxState = .receivingData ∧ (s.decodeUnit s.seq0 s.seq1).1 = .packet ∧
      d.live ∧ d.store.ioErrors.head? = some true := by decide +kernel
theorem test_witness_FileErrorAborts_close :
    let s := withIn ([0x01#8, 0x01#8, 0xFE#8] ++ rising 0 128 ++ [0xE8#8, 0x0A#8])
      { rxFile 128 0 with store := { (rxFile 128 0).store with ioErrors := [false, true] } }
    let d := (s.decodeUnit s.seq0 s.seq1).2
    s.cfg.role = .receiver ∧ s.cfg.legal ∧ s.rxState = .receivingData ∧ (s.decodeUnit s.seq0 s.seq1).1 = .packet ∧
      d.live ∧ d.store.stored = [{ name := aTxt, declared := 128, data := [], closed := false }] ∧
      d.store.ioErrors.head? ≠ some true ∧ s.size ≤ s.written + min d.n (s.size - s.written) ∧
      d.store.ioErrors.tail.head? = some true := by decide +kernel
theorem test_witness_FileErrorAborts_header :
    let s : State := { tx .sendingHeader with fresh := true, store := { State.reset.store with ioErrors := [true] } }
    s.cfg.role = .sender ∧ s.cfg.legal ∧ s.live ∧ s.fresh = true ∧ s.txState = .sendingHeader ∧
      s.store.ioErrors.head? = some true := by decide +kernel
theorem test_witness_FileErrorAborts_tx :
    let s : State := { txFile 0 with store := { State.reset.store with ioErrors := [true] } }
    let u : State := { txFile 300 with size := 301 }
    s.cfg.role = .sender ∧ s.cfg.legal ∧ s.live ∧ u.live ∧ u.txState = .sendingData ∧ s.fresh = true ∧ s.txState = .sendingData ∧ s.store.ioErrors.head? = some true ∧
      u.cfg.role = .sender ∧ u.cfg.legal ∧ u.fresh = true ∧ u.files[u.fileIdx]? = some file300 ∧
      file300.data.length < u.offset + u.take := by decide +kernel
theorem test_witness_TxStart :
    State.reset.txState = .idle ∧ State.reset.rxState = .idle ∧ (tx .idle).cfg.role = .sender ∧ [file300] ≠ [] ∧
      (tx .idle).cfg.legal ∧ (rx .idle).cfg.role ≠ .sender ∧ State.reset.live ∧
      (∀ c ∈ [({ role := .sender, payloadMax := 1023 } : Cfg), { role := .sender, customSize := 1025 },
          { role := .sender, rxMaxRetries := 0 }, { role := .sender, txMaxRetries := 0 }, { role := .sender, txEotRetries := 0 },
          { role := .sender, sizeW := 0 }],
        c.role = .sender ∧ (c.payloadMax < 1024 ∨ c.payloadMax < c.customSize ∨ c.rxMaxRetries = 0 ∨ c.txMaxRetries = 0 ∨
          c.txEotRetries = 0 ∨ c.sizeW = 0)) := by decide +kernel
theorem test_witness_TxHandshake :
    let s := withIn [0x43#8] (tx .handshaking)
    s.cfg.role = .sender ∧ s.txState = .handshaking ∧ s.cfg.legal ∧ s.live ∧ ((s.chWrite [0x43#8]).chRead 1).rd = [0x43#8] := by
  decide +kernel
theorem test_witness_TxHeaderEntry :
    let s := { tx .sendingHeader with fresh := true }
    s.cfg.role = .sender ∧ s.txState = .sendingHeader ∧ s.cfg.legal ∧ s.fresh = true ∧
      s.store.ioErrors.head? ≠ some true ∧ s.files[s.fileIdx]? = some file300 ∧ headerFits file300.name file300.size ∧
      file300.size < 2 ^ s.cfg.sizeW ∧ ¬ headerFits [] 0 := by decide +kernel
theorem test_witness_TxHeader :
    let s := withIn [0x06#8, 0x43#8] { tx .sendingHeader with frame := h1Frame }
    s.cfg.role = .sender ∧ s.txState = .sendingHeader ∧ s.cfg.legal ∧ s.live ∧ s.fresh = false ∧
      ((s.chWrite s.frame).chRead 1).rd = [0x06#8] ∧ (((s.chWrite s.frame).chRead 1).chRead 1).rd = [0x43#8] := by
  decide +kernel
theorem test_witness_MarkerChoice : (1024 : Nat) ≤ 1024 ∧ (1023 : Nat) < 1024 := by decide
theorem test_witness_TxDataEntry :
    let s := txFile 256
    s.cfg.role = .sender ∧ s.txState = .sendingData ∧ s.cfg.legal ∧ s.fresh = true ∧ s.store.ioErrors.head? ≠ some true ∧
      s.files[s.fileIdx]? = some file300 ∧
      s.offset + min (chunkSize s.cfg (s.size - s.offset)) (s.size - s.offset) ≤ file300.data.length := by decide +kernel
theorem test_witness_TxData :
    let s := withIn [0x06#8] { txFile 256 with fresh := false, frame := [0x01#8] }
    s.cfg.role = .sender ∧ s.txState = .sendingData ∧ s.cfg.legal ∧ s.live ∧ s.fresh = false ∧
      ((s.chWrite s.frame).chRead 1).rd = [0x06#8] := by decide +kernel
theorem test_witness_TxEot :
    let s := withIn [0x06#8, 0x43#8] (tx .awaitingEot)
    s.cfg.role = .sender ∧ s.txState = .awaitingEot ∧ s.cfg.legal ∧ s.live ∧ ((s.chWrite [0x04#8]).chRead 1).rd = [0x06#8] ∧
      (((s.chWrite [0x04#8]).chRead 1).chRead 1).rd = [0x43#8] := by decide +kernel
theorem test_witness_TxTerm :
    let s := withIn [0x06#8] (tx .sendingTerminator)
    s.cfg.role = .sender ∧ s.txState = .sendingTerminator ∧ s.cfg.legal ∧ s.live ∧ s.fresh = false ∧
      ((s.chWrite s.frame).chRead 1).rd = [0x06#8] := by decide +kernel
theorem test_witness_TxTerm_entry :
    let s := withIn [0x06#8] { tx .sendingTerminator with fresh := true }
    let e := { s with
      fresh := false, seq0 := 0x00#8, seq1 := 0xFF#8, buf := s.buf.writeBlock 0 (List.replicate 128 0x00#8),
      marker := 0x01#8, n := 128, crc := 0x0000#16,
      frame := [0x01#8, 0x00#8, 0xFF#8] ++ List.replicate 128 0x00#8 ++ [0x00#8, 0x00#8] }
    s.cfg.role = .sender ∧ s.txState = .sendingTerminator ∧ s.cfg.legal ∧ s.live ∧ s.fresh = true ∧
      ((e.chWrite e.frame).chRead 1).rd = [0x06#8] := by decide +kernel
theorem test_witness_TxUnanswered_first :
    ∀ b ∈ [0x15#8, 0x18#8, 0x01#8],
      let s := withIn [b] (tx .handshaking)
      s.cfg.role = .sender ∧ s.cfg.legal ∧ s.txState = .handshaking ∧ ((s.chWrite [0x43#8]).chRead 1).rd = [b] ∧
        (((s.chWrite [0x43#8]).chRead 1).chRead 1).live ∧ ((tx .handshaking).chWrite [0x43#8] |>.chRead 1).live ∧
        ((tx .handshaking).chWrite [0x43#8] |>.chRead 1).rd = [] := by decide +kernel
theorem test_witness_TxUnanswered_second :
    ∀ b ∈ [0x15#8, 0x18#8, 0x06#8],
      let s := withIn [0x06#8, b] (tx .awaitingEot)
      s.cfg.role = .sender ∧ s.cfg.legal ∧ s.txState = .awaitingEot ∧ ((s.chWrite [0x04#8]).chRead 1).rd = [0x06#8] ∧
        (((s.chWrite [0x04#8]).chRead 1).chRead 1).rd = [b] ∧
        ((((s.chWrite [0x04#8]).chRead 1).chRead 1).chRead 1).live ∧
        (((withIn [0x06#8] (tx .awaitingEot)).chWrite [0x04#8] |>.chRead 1).chRead 1).live ∧
        (((withIn [0x06#8] (tx .awaitingEot)).chWrite [0x04#8] |>.chRead 1).chRead 1).rd = [] := by decide +kernel
theorem test_witness_TxUnanswered_frames :
    ∀ q ∈ [TxState.sendingHeader, .sendingData, .sendingTerminator],
      let s := withIn [0x15#8] (tx q)
      s.cfg.role = .sender ∧ s.cfg.legal ∧ s.fresh = false ∧ ((s.chWrite s.frame).chRead 1).rd = [0x15#8] ∧
        ((s.chWrite s.frame).chRead 1).live := by decide +kernel
theorem test_witness_TxUnanswered_terminator :
    let s := withIn [0x15#8] { tx .sendingTerminator with fresh := true }
    let e := { s with
      fresh := false, seq0 := 0x00#8, seq1 := 0xFF#8, buf := s.buf.writeBlock 0 (List.replicate 128 0x00#8),
      marker := 0x01#8, n := 128, crc := 0x0000#16,
      frame := [0x01#8, 0x00#8, 0xFF#8] ++ List.replicate 128 0x00#8 ++ [0x00#8, 0x00#8] }
    s.cfg.role = .sender ∧ s.cfg.legal ∧ s.txState = .sendingTerminator ∧ s.fresh ≠ false ∧ s.cfg.seqResetPerFile = true ∧
      ((e.chWrite e.frame).chRead 1).rd = [0x15#8] ∧ ((e.chWrite e.frame).chRead 1).live := by decide +kernel
theorem test_witness_TxUnanswered_blocked :
    let s := noTimeout (tx .handshaking)
    let u := withIn [0x06#8] (noTimeout (tx .awaitingEot))
    s.cfg.role = .sender ∧ s.cfg.legal ∧ s.txState = .handshaking ∧
      ((s.chWrite [0x43#8]).chRead 1).chan.timeout = .hung ∧
      u.cfg.role = .sender ∧ u.cfg.legal ∧ u.txState = .awaitingEot ∧ ((u.chWrite [0x04#8]).chRead 1).rd = [0x06#8] ∧
      (((u.chWrite [0x04#8]).chRead 1).chRead 1).chan.timeout = .hung := by decide +kernel
theorem test_witness_AcceptedResponses :
    (∀ q ∈ [TxState.sendingHeader, .awaitingEot, .sendingData, .sendingTerminator, .handshaking],
      let s := (tx q).setPos .resp1
      s.cfg.role = .sender ∧ s.live ∧ s.pos = .resp1 ∧ s.txState = q ∧ s.rehandshake = false) ∧
      ∀ q ∈ [TxState.sendingHeader, .awaitingEot], ((tx q).setPos .resp2).pos = .resp2 ∧ (tx q).txState = q := by
  decide +kernel
theorem test_witness_AcceptedResponses_rehandshake :
    let s : State := { tx .handshaking with pos := .resp1, rehandshake := true, retry := 2 }
    s.cfg.role = .sender ∧ s.live ∧ s.pos ≠ .none ∧ s.txState = .handshaking ∧
      runs (exec .crq s) (fun t => decide (t.retry = 2 ∧ t.fresh = false ∧ t.txState = .sendingHeader)) = true := by decide +kernel
theorem test_witness_RxStart :
    State.reset.txState = .idle ∧ State.reset.rxState = .idle ∧ (rx .idle).cfg.role = .receiver ∧ (rx .idle).cfg.legal ∧
      (tx .idle).cfg.role ≠ .receiver ∧ State.reset.live ∧
      ∀ c ∈ [({ payloadMax := 1023 } : Cfg), { customSize := 1025 }, { rxMaxRetries := 0 }, { txMaxRetries := 0 },
          { txEotRetries := 0 }, { sizeW := 0 }],
        c.role = .receiver ∧ (c.payloadMax < 1024 ∨ c.payloadMax < c.customSize ∨ c.rxMaxRetries = 0 ∨ c.txMaxRetries = 0 ∨
          c.txEotRetries = 0 ∨ c.sizeW = 0) := by decide +kernel
theorem test_witness_RxHandshake :
    (rx .handshaking).cfg.role = .receiver ∧ (rx .handshaking).rxState = .handshaking ∧ (rx .handshaking).cfg.legal ∧ (rx .handshaking).live := by
  decide +kernel
theorem test_witness_RxHeader :
    let s := withIn h1Frame (rx .awaitingHeader)
    let u := { s with store := { s.store with ioErrors := [true] } }
    (s.decodeUnit s.seq0 s.seq1).2.live ∧ (u.decodeUnit u.seq0 u.seq1).2.live ∧ s.cfg.role = .receiver ∧ s.rxState = .awaitingHeader ∧ s.cfg.legal ∧ (s.decodeUnit s.seq0 s.seq1).1 = .packet ∧
      parseHeader s.cfg.sizeW ((s.decodeUnit s.seq0 s.seq1).2.buf.readBlock 0 (s.decodeUnit s.seq0 s.seq1).2.n) =
        .file aTxt 300 ∧
      (s.decodeUnit s.seq0 s.seq1).2.store.ioErrors.head? ≠ some true ∧
      (u.decodeUnit u.seq0 u.seq1).1 = .packet ∧ (u.decodeUnit u.seq0 u.seq1).2.store.ioErrors.head? = some true := by
  decide +kernel
theorem test_witness_RxHeader_null :
    let s := withIn ([0x01#8, 0x00#8, 0xFF#8] ++ zeros 130) (rx .awaitingHeader)
    (s.decodeUnit s.seq0 s.seq1).2.live ∧ s.cfg.role = .receiver ∧ s.rxState = .awaitingHeader ∧ s.cfg.legal ∧ (s.decodeUnit s.seq0 s.seq1).1 = .packet ∧
      0 < (s.decodeUnit s.seq0 s.seq1).2.n ∧ (s.decodeUnit s.seq0 s.seq1).2.buf.read 0 = 0x00#8 := by decide +kernel
theorem test_witness_StrayEot :
    let s := withIn [0x04#8, 0x01#8] (rx .awaitingHeader)
    s.cfg.role = .receiver ∧ s.rxState = .awaitingHeader ∧ s.cfg.legal ∧ s.quiet ∧ s.chan.inBuf = 0x04#8 :: [0x01#8] ∧ s.live ∧
      (let u := endlessEot (rx .awaitingHeader)
       u.cfg.role = .receiver ∧ u.rxState = .awaitingHeader ∧ u.live ∧ u.cfg.legal ∧ u.chan.torn = false ∧ u.chan.script = [] ∧
        u.chan.again = [{ arrive := [0x04#8], flush := 1, cut := none, tearDown := false }] ∧
        ∀ b ∈ u.chan.inBuf, b = 0x04#8) := by
  decide +kernel
theorem test_witness_RxData :
    let s := withIn ([0x01#8, 0x01#8, 0xFE#8] ++ rising 0 128 ++ [0xE8#8, 0x0A#8]) (rxFile 129 0)
    let u := withIn ([0x01#8, 0x01#8, 0xFE#8] ++ rising 0 128 ++ [0xE8#8, 0x0A#8]) (rxFile 128 0)
    let d := (s.decodeUnit s.seq0 s.seq1).2
    let e := (u.decodeUnit u.seq0 u.seq1).2
    d.live ∧ e.live ∧ s.cfg.role = .receiver ∧ s.rxState = .receivingData ∧ s.cfg.legal ∧ (s.decodeUnit s.seq0 s.seq1).1 = .packet ∧
      (∃ x ∈ d.store.stored, x.closed = false) ∧ d.store.ioErrors.head? ≠ some true ∧
      s.written + min d.n (s.size - s.written) < s.size ∧
      (u.decodeUnit u.seq0 u.seq1).1 = .packet ∧ (∃ x ∈ e.store.stored, x.closed = false) ∧
      e.store.ioErrors.head? ≠ some true ∧ u.size ≤ u.written + min e.n (u.size - u.written) ∧
      e.store.ioErrors.tail.head? ≠ some true := by decide +kernel
theorem test_witness_RxEot :
    let s := withIn [0x04#8] (rx .awaitingNextOrEnd)
    s.live ∧ (s.decodeUnit s.seq0 s.seq1).2.live ∧ s.cfg.role = .receiver ∧ s.rxState = .awaitingNextOrEnd ∧ s.cfg.legal ∧ (s.decodeUnit s.seq0 s.seq1).1 = .ctrlEot := by
  decide +kernel
theorem test_witness_RxFailedAttempt :
    ((rx .awaitingHeader).cfg.role = .receiver ∧ (rx .awaitingHeader).cfg.legal ∧ (rx .awaitingHeader).rxState = .awaitingHeader) ∧
    ([[0x15#8], [], [0x01#8, 0x01#8] ++ h1Frame.drop 2, [0x01#8, 0x00#8, 0x00#8] ++ h1Frame.drop 3, h1Frame.take 132 ++ [0x5E#8],
        [0x43#8], [0x18#8], [0x04#8], h1Frame].map (fun bs => ((withIn bs (rx .awaitingHeader)).decodeUnit 0x00#8 0xFF#8).1)) =
      [.ctrlNak, .timeout, .badSeqLow, .badSeqHigh, .badChecksum, .unrecognized, .ctrlCan, .ctrlEot, .packet] ∧
    parseHeader 64 (List.replicate 128 0x79#8) = .bad ∧
    (∀ bs ∈ [[0x15#8], [], h1Frame, [0x18#8]], (((withIn bs (rx .awaitingHeader)).decodeUnit 0x00#8 0xFF#8).2.chRead 1).live) ∧
    ((noTimeout (rx .awaitingHeader)).decodeUnit 0x00#8 0xFF#8).2.chan.timeout = .hung := by decide +kernel
theorem test_witness_FrameSymbolAccepted :
    let s := rxFile 300 0
    s.cfg.role = .receiver ∧ s.rxState = .receivingData ∧ s.cfg.legal ∧
      payloadSize s.cfg.customSize .soh = some (rising 0 128).length ∧
      s.store.stored = { name := aTxt, declared := 300, data := [], closed := false } :: [] ∧ s.store.ioErrors = [] ∧
      s.buf.wf ∧ s.live := by decide +kernel
theorem test_witness_FrameSymbolAccepted_other_size :
    let s : State := { rxFile 300 0 with cfg := { customSize := 64 } }
    s.rxDecoding = true ∧ s.cfg.legal ∧ s.quiet ∧ payloadSize s.cfg.customSize .cus = some 64 ∧
      (rising 0 128).length ≠ 64 ∧ (rising 0 32).length ≠ 64 ∧ ([0x01#8, 0xFE#8] ++ rising 0 32 ++ [0x00#8, 0x00#8]).length < 64 + 4 ∧
      decode 64 (0x03#8 :: ([0x01#8, 0xFE#8] ++ rising 0 128 ++ [0xE8#8, 0x0A#8] ++ s.chan.inBuf)) =
        .ok (.cus 0x01#8 0xFE#8 (rising 0 64) 0x4041#16, (rising 66 62) ++ [0xE8#8, 0x0A#8]) := by decide +kernel
theorem test_witness_MisplacedSymbols :
    (rx .awaitingHeader).live ∧ ((tx .sendingData).setPos .resp1).live ∧ (rx .handshaking).live ∧
      (rx .awaitingHeader).rxDecoding = true ∧
      (((tx .sendingData).setPos .resp1).txBounded = true ∧ ((tx .sendingData).setPos .resp1).pos ≠ .none) ∧
      (rx .handshaking).rxDecoding = false ∧ (rx .handshaking).txBounded = false ∧ (rx .handshaking).chan.torn = false := by
  decide +kernel
theorem test_witness_StepRunsOperation :
    (∀ q ∈ [TxState.idle, .handshaking, .sendingHeader, .sendingData, .awaitingEot, .sendingTerminator],
      (tx q).cfg.role = .sender ∧ (tx q).pos = .none ∧ (tx q).txState = q) ∧
      ∀ q ∈ [RxState.idle, .handshaking, .awaitingHeader, .receivingData, .awaitingNextOrEnd],
        (rx q).cfg.role = .receiver ∧ (rx q).rxState = q := by decide +kernel
theorem test_witness_StepRunsUnit :
    let s := withIn h1Frame (rx .awaitingHeader)
    let u := withIn [0x06#8] ((tx .sendingData).setPos .resp1)
    s.rxDecoding = true ∧ s.cfg.legal ∧ s.quiet ∧
      decode s.cfg.customSize s.chan.inBuf = .ok (.soh 0x00#8 0xFF#8 h1 0xF45F#16, []) ∧
      u.txBounded = true ∧ u.pos ≠ .none ∧ (u.chRead 1).rd = [0x06#8] ∧ decode u.cfg.customSize [0x06#8] = .ok (.ack, []) := by
  decide +kernel
theorem test_witness_TerminalStates :
    (tx .aborted).ended = true ∧ (rx .done).ended = true ∧ runs (exec .crcInit (rx .done)) (fun _ => true) = true := by
  decide +kernel
theorem test_witness_SeqInvariant :
    (tx .idle).seq1 = 0xFF#8 - (tx .idle).seq0 ∧ runs (exec .ack ((txFile 0).setPos .resp1)) (fun _ => true) = true ∧
      ((txFile 0).setPos .resp1).seq1 = 0xFF#8 - ((txFile 0).setPos .resp1).seq0 := by decide +kernel
theorem test_witness_BufferCanonical :
    State.reset.buf.wf ∧ runs (exec (.pad [0x01#8] 128) State.reset) (fun _ => true) = true := by decide +kernel
theorem test_witness_ConfigReadOnly :
    runs (exec (.rxStart {}) State.reset) (fun _ => true) = true ∧ runs (exec .crcInit State.reset) (fun _ => true) = true := by
  decide +kernel

/-! The invariant of a session, in a sender that shakes hands and in a receiver. -/

theorem tx_handshaking_inv (k : Nat) (h : k < 3) : { tx .handshaking with retry := k }.Inv := by
  constructor <;>
    simp [tx, State.reset, State.seqInv, State.unstarted, State.running, State.ended, State.inFile, State.holdsFrame, State.bound,
      Cfg.legal, h, Memory.wf]

theorem rx_receiving_inv : (rxFile 300 0).Inv := by
  constructor <;>
    simp [rxFile, withSeq, rx, State.reset, State.seqInv, State.unstarted, State.running, State.ended, State.inFile,
      State.holdsFrame, State.bound, Cfg.legal, Memory.wf, rising, FileStore.inProgress]

theorem test_witness_InvariantKept :
    ∃ s t : State, s.Inv ∧ step s = .next t := ⟨_, _, tx_handshaking_inv 0 (by decide), rfl⟩
theorem test_witness_WritesOfRoles :
    ∃ s t : State, s.Inv ∧ step s = .next t ∧ Event.write [0x43#8] ∈ t.trace ∧ s.cfg.role = .sender :=
  ⟨_, _, tx_handshaking_inv 0 (by decide), rfl, by decide +kernel, rfl⟩
theorem test_witness_SilenceOnAbort :
    ∃ s t : State, s.Inv ∧ step s = .next t ∧ t.exitClass ≠ .none ∧ t.exitClass ≠ .success :=
  ⟨_, _, tx_handshaking_inv 2 (by decide), rfl, by decide +kernel, by decide +kernel⟩
theorem test_witness_FailedAttemptPrecise :
    ∃ s t : State, s.Inv ∧ step s = .next t ∧ t.retry = s.retry + 1 ∧ s.fresh = false :=
  ⟨_, _, rx_receiving_inv, rfl, by decide +kernel, rfl⟩
theorem test_witness_ProgressReports : ∃ s t : State, s.Inv ∧ step s = .next t := ⟨_, _, rx_receiving_inv, rfl⟩
theorem test_witness_TornReceiverEnds :
    let s : State := { rxFile 300 0 with chan := { State.reset.chan with torn := true }, retry := 2 }
    s.rxDecoding = true ∧ s.cfg.legal ∧ s.chan.torn = true ∧ s.live ∧ s.retry < s.cfg.rxMaxRetries := by decide +kernel
theorem test_witness_TornHandshakeFails :
    let s : State := { tx .handshaking with chan := { State.reset.chan with torn := true } }
    s.cfg.role = .sender ∧ s.txState = .handshaking ∧ s.rehandshake = false ∧ s.pos = .none ∧ s.cfg.legal ∧
      s.chan.torn = true ∧ s.live ∧ s.retry < s.cfg.txMaxRetries := by decide +kernel
theorem test_witness_LinkDataPacket :
    let l : Link := { tx := txFile 128, rx := withSeq 0x01#8 0xFE#8 (rxFile 300 128), txSent := 0, rxSent := 0 }
    let x : StoredFile := { name := aTxt, declared := 300, data := rising 0 128, closed := false }
    l.tx.cfg.role = .sender ∧ l.tx.txState = .sendingData ∧ l.tx.pos = .none ∧ l.tx.fresh = true ∧ l.tx.cfg.legal ∧
      l.rx.cfg.role = .receiver ∧ l.rx.rxState = .receivingData ∧ l.rx.cfg.legal ∧
      l.rx.cfg.customSize = l.tx.cfg.customSize ∧ l.tx.quiet ∧ l.rx.quiet ∧ l.tx.chan.inBuf = [] ∧ l.rx.chan.inBuf = [] ∧
      inFlight l.tx l.txSent = [] ∧ inFlight l.rx l.rxSent = [] ∧ l.txSent = l.tx.flushed.chan.wire.length ∧
      l.rxSent = l.rx.flushed.chan.wire.length ∧ l.tx.store.ioErrors = [] ∧ l.tx.files[l.tx.fileIdx]? = some file300 ∧
      file300.data.length = l.tx.size ∧ l.rx.store.ioErrors = [] ∧ l.rx.store.stored = [x] ∧ x.closed = false ∧
      l.rx.seq0 = l.tx.seq0 ∧ l.rx.seq1 = 0xFF#8 - l.rx.seq0 ∧ l.rx.size = l.tx.size ∧ l.rx.written = l.tx.offset ∧
      l.tx.offset ≤ l.tx.size ∧ x.data = file300.data.take l.tx.offset := by decide +kernel

end Sys2Proof.Tests
end

section
/-! Proofs: the state before construction, and the construction of a session (rules R46, R161, R191; U6, U7). -/

namespace Sys2Proof.Machine

/-! ### The state before construction -/

/-- The invariant of a session holds before construction: no register of it is in use yet. -/
theorem State.reset_inv : State.reset.Inv where
  seq := by decide
  buf := State.reset_buf_wf
  legal h := absurd h (by decide)
  senderOnly _ := rfl
  receiverOnly _ := rfl
  retry h := absurd h.1 (by decide)
  exitNone := by decide
  exitDone := by decide
  doneTx _ := rfl
  doneRx _ := rfl
  fileIdx h := absurd h (by decide)
  firstFile h := absurd h (by decide)
  offset h := absurd h (by decide)
  allSent h := absurd h (by decide)
  frame h := absurd h (by decide)
  rehandshake h := absurd h (by decide)
  built h := absurd rfl h
  receiving h := absurd h (by decide)
  received h := absurd h (by decide)

/-- Settles O46: the values of rule R46 are those `State.reset` is written with, and the invariant is `State.reset_inv`. -/
theorem resetValues : Obligations.ResetValues := by
  unfold Obligations.ResetValues
  exact ⟨rfl, rfl, rfl, rfl, rfl, rfl, rfl, rfl, rfl, rfl, rfl, rfl, rfl, rfl, rfl, rfl, rfl, rfl, rfl, rfl, State.reset_inv⟩

/-! ### Construction -/

/-- A configuration is illegal exactly when one of its registers is outside the values of rule R8. -/
theorem not_legal_iff {c : Cfg} :
    ¬ c.legal ↔ c.payloadMax < 1024 ∨ c.payloadMax < c.customSize ∨ c.rxMaxRetries = 0 ∨ c.txMaxRetries = 0 ∨
      c.txEotRetries = 0 ∨ c.sizeW = 0 := by
  simp only [Cfg.legal, decide_eq_true_eq]
  omega

/-- Before construction the session has not ended, whatever the role register holds. -/
theorem State.ended_of_idle {s : State} (htx : s.txState = .idle) (hrx : s.rxState = .idle) : s.ended = false := by
  cases hr : s.cfg.role <;> simp [State.ended, hr, htx, hrx]

theorem State.unstarted_of_idle {s : State} (htx : s.txState = .idle) (hrx : s.rxState = .idle) : s.unstarted = true := by
  simp [State.unstarted, htx, hrx]

section
variable {s : State} (htx : s.txState = .idle) (hrx : s.rxState = .idle)
include htx hrx

/-- Before construction `TX.START` is its checks of the role, the file list and the configuration, in this order. -/
theorem execTxStart_of_idle (files : List SrcFile) (cfg : Cfg) :
    execTxStart files cfg s = settle
      (if cfg.role ≠ .sender then .refused .wrongRole
       else if files = [] then .refused .emptyFileList
       else if ¬ cfg.legal then .refused .badConfig
       else .next { s.construct cfg files with txState := .handshaking }) := by
  unfold execTxStart
  rw [whileOpen_eq _ (State.ended_of_idle htx hrx), if_neg (by simp [State.unstarted_of_idle htx hrx])]

/-- Before construction `RX.START` is its checks of the role and the configuration. -/
theorem execRxStart_of_idle (cfg : Cfg) :
    execRxStart cfg s = settle
      (if cfg.role ≠ .receiver then .refused .wrongRole
       else if ¬ cfg.legal then .refused .badConfig
       else .next { s.construct cfg s.files with rxState := .handshaking }) := by
  unfold execRxStart
  rw [whileOpen_eq _ (State.ended_of_idle htx hrx), if_neg (by simp [State.unstarted_of_idle htx hrx])]

end

/-- Settles O25: each clause is one branch of `execTxStart_of_idle`. -/
theorem txStart : Obligations.TxStart := by
  unfold Obligations.TxStart
  intro files cfg s htx hrx
  have hstart : exec (.txStart files cfg) s = _ := execTxStart_of_idle htx hrx files cfg
  refine ⟨fun hr hf hl hlive => ?_, fun hr => ?_, fun hr hf => ?_, fun hr hf hbad => ?_⟩
  · rw [hstart, if_neg (not_not.mpr hr), if_neg hf, if_neg (not_not.mpr hl)]
    exact settle_next hlive
  · rw [hstart, if_pos hr]; rfl
  · rw [hstart, if_neg (not_not.mpr hr), if_pos hf]; rfl
  · rw [hstart, if_neg (not_not.mpr hr), if_neg hf, if_pos (not_legal_iff.mpr hbad)]; rfl

/-- Settles O37: each clause is one branch of `execRxStart_of_idle`. -/
theorem rxStart : Obligations.RxStart := by
  unfold Obligations.RxStart
  intro cfg s htx hrx
  have hstart : exec (.rxStart cfg) s = _ := execRxStart_of_idle htx hrx cfg
  refine ⟨fun hr hl hlive => ?_, fun hr => ?_, fun hr hbad => ?_⟩
  · rw [hstart, if_neg (not_not.mpr hr), if_neg (not_not.mpr hl)]
    exact settle_next hlive
  · rw [hstart, if_pos hr]; rfl
  · rw [hstart, if_neg (not_not.mpr hr), if_pos (not_legal_iff.mpr hbad)]; rfl

end Sys2Proof.Machine
end

section
/-! Proofs: a file error is fatal at once (rules R163, R166, R197, R222). -/

namespace Sys2Proof.Machine

/-! ### When a file primitive fails -/

theorem FileStore.ioError_iff (f : FileStore) : f.ioError = true ↔ f.ioErrors.head? = some true := by
  rcases hf : f.ioErrors with _ | ⟨e, r⟩ <;> simp [FileStore.ioError, hf]

/-- `FileInfo` fails when the interface gives an error. -/
theorem State.fileInfoAnswer_ioError {s : State} (h : s.store.ioError = true) (i : Nat) : s.fileInfoAnswer i = none :=
  if_pos h

/-- `FileRead` fails when the interface gives an error, and when the file ends before the bytes asked for (U19). -/
theorem State.fileReadAnswer_none {s : State} {i o n : Nat}
    (h : s.store.ioError = true ∨ ∃ f, s.files[i]? = some f ∧ f.data.length < o + n) : s.fileReadAnswer i o n = none := by
  unfold State.fileReadAnswer
  rcases h with he | ⟨f, hf, hshort⟩
  · exact if_pos he
  · simp [hf, Nat.not_le.mpr hshort]

/-- `FileWrite` and `FileClose` fail when the interface gives an error. -/
theorem State.fileUseOk_ioError {s : State} (h : s.store.ioError = true) : s.fileUseOk = false := by
  simp [State.fileUseOk, h]

/-- `FileWrite` and `FileClose` succeed on an open file when the interface gives no error. -/
theorem State.fileUseOk_open {s : State} {x : StoredFile} {older : List StoredFile} (hs : s.store.stored = x :: older)
    (hc : x.closed = false) (h : ¬ s.store.ioError = true) : s.fileUseOk = true := by
  simp [State.fileUseOk, FileStore.hasOpen, hs, hc, h]

/-! ### What a failed or a successful file primitive leaves -/

/-- A failed `FileInfo` leaves the file list and counts as one call. -/
theorem State.fileInfo_failed {s : State} {i : Nat} (h : s.fileInfoAnswer i = none) :
    s.fileInfo i = { s with store := s.store.called, trace := .fileInfo i none :: s.trace } := by
  simp [State.fileInfo, h]

/-- A failed `FileRead` gives no byte and counts as one call. -/
theorem State.fileRead_failed {s : State} {i o n : Nat} (h : s.fileReadAnswer i o n = none) :
    s.fileRead i o n = { s with store := s.store.called, trace := .fileRead i o n none :: s.trace } := by
  simp [State.fileRead, h]

/-- A failed `FileWrite` appends nothing. -/
theorem State.fileWrite_failed {s : State} (h : s.fileUseOk = false) (bs : List Byte) :
    s.fileWrite bs = { s with store := s.store.called, trace := .fileWrite bs false :: s.trace } := by
  simp [State.fileWrite, h]

/-- A successful `FileWrite` appends to the file opened last. -/
theorem State.fileWrite_open {s : State} {x : StoredFile} {older : List StoredFile} (hs : s.store.stored = x :: older)
    (h : s.fileUseOk = true) (bs : List Byte) :
    s.fileWrite bs = { s with
      store := { ioErrors := s.store.ioErrors.tail, stored := { x with data := x.data ++ bs } :: older },
      trace := .fileWrite bs true :: s.trace } := by
  simp [State.fileWrite, h, FileStore.updateLast, FileStore.called, hs]

/-- A failed `FileClose` leaves the file open. -/
theorem State.fileClose_failed {s : State} (h : s.fileUseOk = false) :
    s.fileClose = { s with store := s.store.called, trace := .fileClose false :: s.trace } := by
  simp [State.fileClose, h]

/-! ### The abort path, by role -/

/-- `abort` in a sender: its own state register becomes `Aborted`, the receiver's is left. -/
theorem State.abort_sender {s : State} (hr : s.cfg.role = .sender) (c : ExitClass) (e : Cause) :
    s.abort c e = { s with
      exitClass := c, lastErr := e, txState := .aborted, outcome := none, hdr := none, pos := .none,
      trace := .exit (.failure c e) :: s.trace } := by
  simp [State.abort, State.endAttempt, hr]

/-- `abort` in a receiver: its own state register becomes `Aborted`, the sender's is left. -/
theorem State.abort_receiver {s : State} (hr : s.cfg.role = .receiver) (c : ExitClass) (e : Cause) :
    s.abort c e = { s with
      exitClass := c, lastErr := e, rxState := .aborted, outcome := none, hdr := none, pos := .none,
      trace := .exit (.failure c e) :: s.trace } := by
  simp [State.abort, State.endAttempt, hr]

/-! ### The operations that use a file -/

/-- `TX.HEADER` ends in the abort path when the `FileInfo` of its entry part fails (rule R163). -/
theorem execTxHeader_ioError {s : State} (hr : s.cfg.role = .sender) (hq : s.txState = .sendingHeader) (hl : s.cfg.legal)
    (hlive : s.live) (hf : s.fresh = true) (h : s.fileInfoAnswer s.fileIdx = none) :
    execTxHeader s = .next ((s.fileInfo s.fileIdx).abort .localIoError .ioError) := by
  have he : s.enterHeader = .ended ((s.fileInfo s.fileIdx).abort .localIoError .ioError) := by
    simp [State.enterHeader, hf, h]
  unfold execTxHeader
  rw [inTx_eq hr hq hl (by decide) (by decide), he]
  exact settle_next hlive

/-- `TX.DATA` ends in the abort path when the `FileRead` of its entry part fails (rule R166). -/
theorem execTxData_ioError {s : State} (hr : s.cfg.role = .sender) (hq : s.txState = .sendingData) (hl : s.cfg.legal)
    (hlive : s.live) (hf : s.fresh = true) (h : s.fileReadAnswer s.fileIdx s.offset s.take = none) :
    execTxData s = .next ((s.fileRead s.fileIdx s.offset s.take).abort .localIoError .ioError) := by
  have he : s.enterData = .ended ((s.fileRead s.fileIdx s.offset s.take).abort .localIoError .ioError) := by
    simp [State.enterData, hf, h]
  unfold execTxData
  rw [inTx_eq hr hq hl (by decide) (by decide), he]
  exact settle_next hlive

/-- `RX.DATA` on a decoded packet is what the receiver does with its bytes (rule R197). -/
theorem execRxData_packet {s d : State} (hr : s.cfg.role = .receiver) (hq : s.rxState = .receivingData) (hl : s.cfg.legal)
    (hd : s.decodeUnit s.seq0 s.seq1 = (.packet, d)) (hlive : d.live) : execRxData s = .next d.onData := by
  have ho : s.rxDecode.2.dataOutcome s.rxDecode.1 = d.onData := by
    rw [State.rxDecode, hd]; rfl
  unfold execRxData
  rw [inRx_eq hr hq hl (by decide) (by decide), ho]
  exact settle_next (by simpa [State.live] using hlive)

/-- A failed `FileWrite` of a decoded packet: the abort path, and nothing else. -/
theorem State.onData_writeFails {d : State} (hr : d.cfg.role = .receiver) (hio : d.store.ioError = true) :
    d.onData = { d with
      store := { d.store with ioErrors := d.store.ioErrors.tail },
      exitClass := .localIoError, lastErr := .ioError, rxState := .aborted, outcome := none, hdr := none, pos := .none,
      trace := .exit (.failure .localIoError .ioError) :: .fileWrite ((d.payload d.n).take d.rxTake) false :: d.trace } := by
  have hk := State.fileUseOk_ioError hio
  have ha : d.onData = (d.fileWrite ((d.payload d.n).take d.rxTake)).abort .localIoError .ioError := by
    simp [State.onData, hk]
  rw [ha, State.abort_receiver (s := d.fileWrite _) hr, State.fileWrite_failed hk]
  rfl

/-- A failed `FileClose` after the last byte: the bytes are in the file and counted, then the abort path. -/
theorem State.onData_closeFails {d : State} {x : StoredFile} {older : List StoredFile} (hr : d.cfg.role = .receiver)
    (hs : d.store.stored = x :: older) (hc : x.closed = false) (hw : ¬ d.store.ioError = true)
    (hlast : d.size ≤ d.written + d.rxTake) (hio : d.store.called.ioError = true) :
    d.onData = { d with
      store := { ioErrors := d.store.ioErrors.tail.tail,
                 stored := { x with data := x.data ++ (d.payload d.n).take d.rxTake } :: older },
      written := d.written + d.rxTake, bytesDone := d.written + d.rxTake,
      exitClass := .localIoError, lastErr := .ioError, rxState := .aborted, outcome := none, hdr := none, pos := .none,
      trace := .exit (.failure .localIoError .ioError) :: .fileClose false ::
        .fileWrite ((d.payload d.n).take d.rxTake) true :: d.trace } := by
  have hk := State.fileUseOk_open hs hc hw
  have hwrite := State.fileWrite_open hs hk ((d.payload d.n).take d.rxTake)
  have hclose : (d.fileWrite ((d.payload d.n).take d.rxTake)).fileUseOk = false :=
    State.fileUseOk_ioError (by rw [hwrite]; exact hio)
  have ha : d.onData =
      ((d.fileWrite ((d.payload d.n).take d.rxTake)).count d.rxTake).fileClose.abort .localIoError .ioError := by
    rcases d.onData_cases with ⟨h, _⟩ | ⟨_, h, _⟩ | ⟨_, _, _, h⟩ | ⟨_, _, h, _⟩
    · rw [hk] at h; cases h
    · omega
    · exact h
    · rw [hclose] at h; cases h
  rw [ha, State.abort_receiver (s := ((d.fileWrite _).count _).fileClose) hr, State.fileClose_count,
    State.fileClose_failed hclose, hwrite]
  rfl

/-- Settles O24: each clause is the abort path after the failing file primitive of its operation. -/
theorem fileErrorAborts : Obligations.FileErrorAborts := by
  unfold Obligations.FileErrorAborts
  refine ⟨fun s d hr hl hq hd hlive => ?_, fun s hr hl hlive hf => ⟨fun hq hio => ?_, fun hq hio => ?_⟩⟩
  · have hsame : SameBesidesDecode s d := by
      have := sameBesidesDecode_decodeUnit s.seq0 s.seq1 s; rwa [hd] at this
    have hdr : d.cfg.role = .receiver := by rw [hsame.cfg]; exact hr
    have hrun : exec .rxData s = .next d.onData := execRxData_packet hr hq hl hd hlive
    rw [← hsame.size, ← hsame.written]
    refine ⟨fun hio => ?_, fun x older hs hc hw hlast hio => ?_⟩
    · rw [hrun, State.onData_writeFails hdr ((FileStore.ioError_iff _).mpr hio)]
      rfl
    · rw [hrun, State.onData_closeFails hdr hs hc (mt (FileStore.ioError_iff _).mp hw) hlast
        ((FileStore.ioError_iff _).mpr hio)]
      rfl
  · have hnone := State.fileInfoAnswer_ioError ((FileStore.ioError_iff _).mpr hio) s.fileIdx
    have hrun : exec .txHeader s = _ := execTxHeader_ioError hr hq hl hlive hf hnone
    rw [hrun, State.abort_sender (s := s.fileInfo _) hr, State.fileInfo_failed hnone]
    rfl
  · have hnone : s.fileReadAnswer s.fileIdx s.offset s.take = none :=
      State.fileReadAnswer_none (hio.imp_left (FileStore.ioError_iff _).mpr)
    have hrun : exec .txData s = _ := execTxData_ioError hr hq hl hlive hf hnone
    rw [hrun, State.abort_sender (s := s.fileRead _ _ _) hr, State.fileRead_failed hnone]
    rfl

end Sys2Proof.Machine
end

section
/-! Proofs: building a frame and building a header (rules R10, R83, R89, R135 to R139). -/

namespace Sys2Proof.Machine

/-! ### The frame -/

theorem hiByte_eq (c : Half) : hiByte c = BitVec.ofNat 8 (c.toNat / 256) := by
  apply BitVec.eq_of_toNat_eq
  simp [hiByte, BitVec.extractLsb'_toNat, Nat.shiftRight_eq_div_pow]

theorem loByte_eq (c : Half) : loByte c = BitVec.ofNat 8 (c.toNat % 256) := by
  apply BitVec.eq_of_toNat_eq
  simp [loByte, BitVec.extractLsb'_toNat]

theorem seqComplement_eq (sq : Byte) : seqComplement sq = BitVec.ofNat 8 (0xFF - sq.toNat) := by
  apply BitVec.eq_of_toNat_eq
  simp only [seqComplement, BitVec.toNat_sub, BitVec.toNat_ofNat]
  omega

/-- The frame `ENCODE` builds, with its bytes as numbers (rules R83, R139). -/
theorem builtFrame_eq (m : Marker) (sq : Byte) (p : List Byte) :
    builtFrame m sq p = [m.byte] ++ [sq] ++ [BitVec.ofNat 8 (0xFF - sq.toNat)] ++ p ++
      [BitVec.ofNat 8 ((crcOf p).toNat / 256)] ++ [BitVec.ofNat 8 ((crcOf p).toNat % 256)] := by
  simp [builtFrame, frameBytes, hiByte_eq, loByte_eq, seqComplement_eq]

/-- `ENCODE` of a payload of the marker's size. -/
theorem execEncode_of_size {m : Marker} {k : Nat} {s : State} (h : payloadSize s.cfg.customSize m = some k) (sq : Byte)
    (p : List Byte) : execEncode m sq p s = .next (s.encodeFrame m k sq p) := by
  simp [execEncode, h]

/-- `ENCODE` of `CUS` with the custom size disabled (rule R16; log entry 23). -/
theorem execEncode_cus_undefined {s : State} (h : s.cfg.customSize = 0) (sq : Byte) (p : List Byte) :
    execEncode .cus sq p s = .refused .sizeUndefined := by
  simp [execEncode, payloadSize, h]

/-- Settles O13: `ENCODE` writes the marker, the size, the checksum and the frame of `builtFrame_eq`. -/
theorem encodeFrame : Obligations.EncodeFrame := by
  unfold Obligations.EncodeFrame
  intro m sq p s
  refine ⟨fun h => ?_, fun h => ?_⟩
  · refine (execEncode_of_size h sq p).trans ?_
    rw [State.encodeFrame, builtFrame_eq]
    cases m <;> rfl
  · exact execEncode_cus_undefined h sq p

/-! ### The decimal size -/

theorem digitByte_toNat {d : Nat} (h : d < 10) : (digitByte d).toNat = 0x30 + d := by
  simp only [digitByte, BitVec.toNat_ofNat]
  omega

/-- The digits collected so far stay behind those that are still to come. -/
theorem decFuel_append (f n : Nat) (acc : List Byte) : decFuel f n acc = decFuel f n [] ++ acc := by
  induction f generalizing n acc with
  | zero => rfl
  | succ f ih =>
    unfold decFuel
    split
    · rfl
    · rw [ih, ih (n / 10) [digitByte (n % 10)]]; simp

/-- Fuel above the number spelled is enough, and more changes nothing. -/
theorem decFuel_fuel {f g n : Nat} (hf : n < f) (hg : n < g) (acc : List Byte) : decFuel f n acc = decFuel g n acc := by
  induction f generalizing g n acc with
  | zero => omega
  | succ f ih =>
    cases g with
    | zero => omega
    | succ g =>
      unfold decFuel
      split
      · rfl
      · exact ih (by omega) (by omega) _

theorem decBytes_digit {n : Nat} (h : n < 10) : decBytes n = [digitByte n] := by
  simp [decBytes, decFuel, h]

/-- The spelling of a number of several digits: that of its tenth part, and the last digit. -/
theorem decBytes_tens {n : Nat} (h : 10 ≤ n) : decBytes n = decBytes (n / 10) ++ [digitByte (n % 10)] := by
  unfold decBytes
  rw [decFuel, if_neg (by omega), decFuel_append, decFuel_fuel (g := n / 10 + 1) (by omega) (by omega)]

/-- Induction over the digits of a number, as `dec(n)` spells it. -/
theorem decBytes_induction {P : Nat → List Byte → Prop} (digit : ∀ n, n < 10 → P n [digitByte n])
    (tens : ∀ n, 10 ≤ n → P (n / 10) (decBytes (n / 10)) → P n (decBytes (n / 10) ++ [digitByte (n % 10)])) (n : Nat) :
    P n (decBytes n) := by
  induction n using Nat.strong_induction_on with
  | _ n ih =>
    rcases Nat.lt_or_ge n 10 with h | h
    · rw [decBytes_digit h]; exact digit n h
    · rw [decBytes_tens h]; exact tens n h (ih (n / 10) (by omega))

theorem decBytes_ne_nil (n : Nat) : decBytes n ≠ [] :=
  decBytes_induction (P := fun _ ds => ds ≠ []) (fun _ _ => by simp) (fun _ _ _ => by simp) n

theorem digitsValue_append_singleton (ds : List Byte) (b : Byte) :
    digitsValue (ds ++ [b]) = 10 * digitsValue ds + (b.toNat - 0x30) := by
  simp [digitsValue]

/-- The spelling has the value it spells (rule R89). -/
theorem digitsValue_decBytes (n : Nat) : digitsValue (decBytes n) = n := by
  refine decBytes_induction (P := fun n ds => digitsValue ds = n) (fun n h => ?_) (fun n _ ih => ?_) n
  · simp [digitsValue, digitByte_toNat h]
  · rw [digitsValue_append_singleton, ih, digitByte_toNat (Nat.mod_lt n (by decide))]
    omega

/-- The spelling is a string of ASCII digits (rule R10). -/
theorem decBytes_isDigit (n : Nat) : ∀ b ∈ decBytes n, 0x30 ≤ b.toNat ∧ b.toNat ≤ 0x39 := by
  have hdigit : ∀ d < 10, 0x30 ≤ (digitByte d).toNat ∧ (digitByte d).toNat ≤ 0x39 := fun d h => by
    rw [digitByte_toNat h]; omega
  refine decBytes_induction (P := fun _ ds => ∀ b ∈ ds, 0x30 ≤ b.toNat ∧ b.toNat ≤ 0x39)
    (fun n h b hb => ?_) (fun n _ ih b hb => ?_) n
  · rw [List.mem_singleton.mp hb]; exact hdigit n h
  · rcases List.mem_append.mp hb with hb | hb
    · exact ih b hb
    · rw [List.mem_singleton.mp hb]; exact hdigit _ (Nat.mod_lt n (by decide))

/-- The spelling of a number other than 0 has no leading zero (rule R10). -/
theorem decBytes_head (n : Nat) : n ≠ 0 → (decBytes n).head? ≠ some 0x30#8 := by
  refine decBytes_induction (P := fun n ds => n ≠ 0 → ds.head? ≠ some 0x30#8) (fun n h hn => ?_) (fun n h ih _ => ?_) n
  · intro hc
    have hb : digitByte n = 0x30#8 := by simpa using hc
    have := digitByte_toNat h
    rw [hb] at this
    simp only [BitVec.toNat_ofNat] at this
    omega
  · rw [List.head?_append_of_ne_nil _ (decBytes_ne_nil _)]
    exact ih (by omega)

theorem zero_notMem_decBytes (n : Nat) : 0x00#8 ∉ decBytes n := fun h =>
  absurd (decBytes_isDigit n _ h).1 (by decide)

/-! ### The header payload -/

/-- A string is split at its first 0x00. -/
theorem splitZero_append {x : List Byte} (h : 0x00#8 ∉ x) (r : List Byte) : splitZero (x ++ 0x00#8 :: r) = some (x, r) := by
  induction x with
  | nil => rfl
  | cons b x ih =>
    have hb : b ≠ 0x00#8 := fun hc => h (by simp [hc])
    simp [splitZero, hb, ih (fun hc => h (by simp [hc]))]

/-- The digits of a size that is in range are read back as the size (rule R137). -/
theorem parseSize_decBytes {sizeW size : Nat} (h : size < 2 ^ sizeW) (name rest : List Byte) :
    parseSize sizeW name (decBytes size ++ 0x00#8 :: rest) = .file name size := by
  have hall : (decBytes size).all isDigit = true := by
    simpa [isDigit] using decBytes_isDigit size
  simp [parseSize, splitZero_append (zero_notMem_decBytes size), decBytes_ne_nil, hall, digitsValue_decBytes, h]

/-- Parsing a built header payload gives the file back (rule R138). -/
theorem parseHeader_headerBytes {sizeW size : Nat} {name : List Byte} (hne : name ≠ []) (hz : 0x00#8 ∉ name)
    (h : size < 2 ^ sizeW) : parseHeader sizeW (headerBytes name size) = .file name size := by
  obtain ⟨rest, hsplit⟩ : ∃ rest, headerBytes name size = name ++ 0x00#8 :: (decBytes size ++ 0x00#8 :: rest) :=
    ⟨_, by simp only [headerBytes, padBytes, List.append_assoc, List.cons_append, List.nil_append]; rfl⟩
  have hhead : (name ++ 0x00#8 :: (decBytes size ++ 0x00#8 :: rest)).head? ≠ some 0x00#8 := by
    rw [List.head?_append_of_ne_nil _ hne]
    exact fun hc => hz (List.mem_of_head? hc)
  rw [hsplit, parseHeader, if_neg hhead, splitZero_append hz]
  exact parseSize_decBytes h name rest

/-- What `HDR.BUILD` does when it runs (rules R134, R135). -/
theorem execHdrBuild_next {name : List Byte} {size : Nat} {s t : State} (h : execHdrBuild name size s = .next t) :
    headerFits name size ∧ t = s.setPayload (headerBytes name size) := by
  unfold execHdrBuild at h
  split at h
  · cases h
  · rename_i hfits
    split at h
    · cases h; exact ⟨not_not.mp hfits, rfl⟩
    · cases h

/-- `HDR.PARSE` of a payload that is not `Bad` writes its result and nothing else (rule R137). -/
theorem execHdrParse_of_ne_bad {p : List Byte} {s : State} {r : HdrResult} (hp : parseHeader s.cfg.sizeW p = r) (hr : r ≠ .bad) :
    execHdrParse p s = .next { s with hdr := some r } := by
  simp [execHdrParse, hp, hr]

/-- Settles O12: the digits by induction over the number, the round trip by splitting the built payload at its two 0x00. -/
theorem headerRoundTrip : Obligations.HeaderRoundTrip := by
  unfold Obligations.HeaderRoundTrip
  refine ⟨fun n => ⟨digitsValue_decBytes n, decBytes_ne_nil n, decBytes_isDigit n, decBytes_head n, rfl⟩, ?_, fun s => ?_⟩
  · rintro name size s t ⟨hne, hz, _⟩ hsize hbuild
    obtain ⟨hfits, rfl⟩ := execHdrBuild_next hbuild
    refine execHdrParse_of_ne_bad ?_ (by simp)
    rw [← State.payload, State.payload_header s hfits]
    exact parseHeader_headerBytes hne hz hsize
  · exact execHdrParse_of_ne_bad rfl (by simp)

end Sys2Proof.Machine
end

section
/-! Proofs: every operation keeps the payload buffer in its canonical form (rules R11, R40). An operation of the machine
leaves the buffer, or writes one block to it, or decodes into it. -/

namespace Sys2Proof.Machine

theorem State.setPayload_buf_wf {s : State} (h : s.buf.wf) (bs : List Byte) : (s.setPayload bs).buf.wf :=
  s.buf.wf_writeBlock 0 bs h

/-! ### The sender -/

@[simp] theorem State.accepted_buf (s : State) : s.accepted.buf = s.buf := by
  rcases s.accepted_cases with ⟨_, h⟩ | ⟨_, _, h⟩ | ⟨_, _, h⟩ | ⟨_, h⟩ | ⟨_, _, h⟩ | ⟨_, h⟩ | ⟨_, h⟩ <;> simp [h]

@[simp] theorem State.onResponse_buf (b : Byte) (s : State) : (s.onResponse b).buf = s.buf := by
  rcases s.onResponse_cases b with ⟨_, h⟩ | ⟨_, _, h⟩ | ⟨_, _, h⟩ <;> simp [h]

@[simp] theorem State.awaitOne_buf (s : State) : s.awaitOne.buf = s.buf := by
  rcases s.awaitOne_cases with ⟨_, h⟩ | ⟨b, _, h⟩ <;> simp [h]

/-- An attempt of the sender leaves the buffer as it is. -/
@[simp] theorem State.txAttempt_buf (bs : List Byte) (s : State) : (s.txAttempt bs).buf = s.buf := by
  rcases s.txAttempt_cases bs with ⟨_, h⟩ | ⟨_, h⟩ <;> simp [h]

theorem State.readResponse_buf (s : State) : s.readResponse.buf = s.buf := by
  unfold State.readResponse
  split
  · simp
  · split <;> simp

/-- An entry part that is followed by an attempt has a canonical buffer, and so has one that has ended the session. -/
def Entry.bufWf (e : Entry) : Prop :=
  match e with
  | .ready s => s.buf.wf
  | .ended s => s.buf.wf
  | .unfit => True

theorem attemptAfter_buf_wf {e : Entry} {t : State} (he : e.bufWf) (h : attemptAfter e = .next t) : t.buf.wf := by
  rcases attemptAfter_next h with ⟨u, rfl, rfl⟩ | rfl
  · rw [State.txAttempt_buf]; exact he
  · exact he

theorem State.enterHeader_buf_wf {s : State} (h : s.buf.wf) : s.enterHeader.bufWf := by
  rcases s.enterHeader_cases with ⟨_, he⟩ | ⟨_, _, he⟩ | ⟨name, size, _, _, _, _, he⟩ | ⟨_, _, _, _, _, he⟩ <;> rw [he]
  · exact h
  · exact h
  · exact State.setPayload_buf_wf (s := { s.fileInfo s.fileIdx with size := size, fresh := false }.seqReset) h _
  · trivial

theorem State.enterData_buf_wf {s : State} (h : s.buf.wf) : s.enterData.bufWf := by
  rcases s.enterData_cases with ⟨_, he⟩ | ⟨_, _, he⟩ | ⟨chunk, _, _, he⟩ <;> rw [he]
  · exact h
  · exact h
  · exact State.setPayload_buf_wf (s := { s.fileRead s.fileIdx s.offset s.take with fresh := false }) h _

theorem State.enterTerm_buf_wf {s : State} (h : s.buf.wf) : s.enterTerm.buf.wf := by
  unfold State.enterTerm
  split
  · exact h
  · exact State.setPayload_buf_wf (s := { s with fresh := false }.seqReset) h _

/-! ### The receiver -/

@[simp] theorem State.onHeader_buf (s : State) : s.onHeader.buf = s.buf := by
  rcases s.onHeader_cases with ⟨_, h⟩ | ⟨_, h⟩ | ⟨_, _, _, ⟨_, h⟩ | ⟨_, h⟩⟩ <;> simp [h]

@[simp] theorem State.onData_buf (s : State) : s.onData.buf = s.buf := by
  rcases s.onData_cases with ⟨_, h⟩ | ⟨_, _, h⟩ | ⟨_, _, _, h⟩ | ⟨_, _, _, h⟩ <;> simp [h]

@[simp] theorem State.headerOutcome_buf (d : DecodeOutcome) (s : State) : (s.headerOutcome d).buf = s.buf := by
  rcases s.headerOutcome_cases d with ⟨_, h⟩ | ⟨_, h⟩ | ⟨_, h⟩ | ⟨_, h⟩ <;> simp [h]

@[simp] theorem State.dataOutcome_buf (d : DecodeOutcome) (s : State) : (s.dataOutcome d).buf = s.buf := by
  rcases s.dataOutcome_cases d with ⟨_, h⟩ | ⟨_, h⟩ | ⟨_, _, h⟩ <;> simp [h]

@[simp] theorem State.eotOutcome_buf (d : DecodeOutcome) (s : State) : (s.eotOutcome d).buf = s.buf := by
  rcases s.eotOutcome_cases d with ⟨_, h⟩ | ⟨_, h⟩ | ⟨_, _, h⟩ <;> simp [h]

/-- Acting on a decode outcome leaves the buffer as `DECODE` left it. -/
@[simp] theorem State.receive_buf (d : DecodeOutcome) (s : State) : (s.receive d).buf = s.buf := by
  unfold State.receive
  cases s.rxState <;> simp

theorem State.rxDecode_buf_wf {s : State} (h : s.buf.wf) : s.rxDecode.2.buf.wf :=
  s.decodeUnit_buf_wf _ _ h

/-! ### The wire symbols -/

theorem State.onControl_buf (b : Byte) (d : DecodeOutcome) (s : State) : (s.onControl b d).buf = s.buf := by
  unfold State.onControl
  cases s.standing <;> simp

theorem State.receiveFrame_buf_wf {s : State} (h : s.buf.wf) (m : Marker) (s0 s1 : Byte) (p : List Byte) (c : Half) :
    (s.receiveFrame m s0 s1 p c).buf.wf := by
  simp only [State.receiveFrame, State.receive_buf, State.afterJudge_buf]
  exact State.setPayload_buf_wf h p

theorem State.receiveResized_buf_wf {s : State} (h : s.buf.wf) (m : Marker) (k : Nat) (s0 s1 : Byte) (p : List Byte) (c : Half) :
    (s.receiveResized m k s0 s1 p c).buf.wf := by
  simp only [State.receiveResized, State.receive_buf]
  exact State.readFrame_buf_wf _ _ _ h

/-- A data frame at an engine, wherever it stands. -/
theorem State.onFrame_buf_wf {s t : State} {m : Marker} {s0 s1 : Byte} {p : List Byte} {c : Half} (h : s.buf.wf)
    (ht : s.onFrame m s0 s1 p c = .next t) : t.buf.wf := by
  unfold State.onFrame at ht
  cases hst : s.standing <;> simp only [hst] at ht
  case marker =>
    split at ht
    · cases ht
    · split at ht
      · cases ht; rw [State.receive_buf]; exact h
      · cases ht
        split
        · exact State.receiveFrame_buf_wf h m s0 s1 p c
        · exact State.receiveResized_buf_wf h m _ s0 s1 p c
  case response => cases ht; rw [State.onResponse_buf]; exact h
  case deaf => cases ht; exact h

theorem settle_onFrame_buf_wf {s t : State} {m : Marker} {s0 s1 : Byte} {p : List Byte} {c : Half} (h : s.buf.wf)
    (ht : settle (s.onFrame m s0 s1 p c) = .next t) : t.buf.wf :=
  State.onFrame_buf_wf h (of_settle ht).1

theorem settle_onControl_buf_wf {s t : State} {b : Byte} {d : DecodeOutcome} (h : s.buf.wf)
    (ht : settle (.next (s.onControl b d)) = .next t) : t.buf.wf := by
  cases (of_settle ht).1
  rw [State.onControl_buf]; exact h

/-! ### The framer's operations -/

theorem execPad_buf_wf {chunk : List Byte} {n : Nat} {s t : State} (h : s.buf.wf) (ht : execPad chunk n s = .next t) :
    t.buf.wf := by
  unfold execPad at ht
  split at ht
  · cases ht; exact State.setPayload_buf_wf h _
  · cases ht

theorem execEncode_buf {m : Marker} {sq : Byte} {p : List Byte} {s t : State} (ht : execEncode m sq p s = .next t) :
    t.buf = s.buf := by
  unfold execEncode at ht
  split at ht
  · cases ht
  · cases ht; rfl

theorem execDecode_buf_wf {e0 e1 : Byte} {s t : State} (h : s.buf.wf) (ht : execDecode e0 e1 s = .next t) : t.buf.wf := by
  obtain ⟨_, hk, _⟩ := whileOpen_next ht
  split at hk
  · cases hk
  · cases hk; exact s.decodeUnit_buf_wf e0 e1 h

theorem execReadResp_buf {s t : State} (ht : execReadResp s = .next t) : t.buf = s.buf := by
  obtain ⟨_, hk, _⟩ := whileOpen_next ht
  split at hk
  · cases hk; exact s.readResponse_buf
  · cases hk

/-- Settles O51, operation by operation: the meaning that answers the next state leaves the buffer, writes a block to it, or decodes
into it. -/
theorem bufferCanonical : Obligations.BufferCanonical := by
  unfold Obligations.BufferCanonical
  intro i s t h ht
  cases i <;> simp only [exec] at ht
  case soh | stx | cus => exact settle_onFrame_buf_wf h ht
  case eot | ack | nak | can | crq => exact settle_onControl_buf_wf h ht
  case chRead | chWrite | chClear => obtain ⟨_, hk, _⟩ := whileOpen_next ht; cases hk; exact h
  case crcInit | crcByte | crc16 | hdrParse => cases ht; exact h
  case pad => exact execPad_buf_wf h ht
  case hdrBuild => obtain ⟨_, rfl⟩ := execHdrBuild_next ht; exact State.setPayload_buf_wf h _
  case encode => rw [execEncode_buf ht]; exact h
  case decode => exact execDecode_buf_wf h ht
  case readResp => rw [execReadResp_buf ht]; exact h
  case txStart => obtain ⟨_, _, _, _, _, rfl⟩ := execTxStart_next ht; exact h
  case rxStart => obtain ⟨_, _, _, _, rfl⟩ := execRxStart_next ht; exact h
  case txHandshake | txEot => obtain ⟨_, _, _, hk, _⟩ := inTx_next ht; cases hk; rw [State.txAttempt_buf]; exact h
  case txHeader => obtain ⟨_, _, _, hk, _⟩ := inTx_next ht; exact attemptAfter_buf_wf (State.enterHeader_buf_wf h) hk
  case txData => obtain ⟨_, _, _, hk, _⟩ := inTx_next ht; exact attemptAfter_buf_wf (State.enterData_buf_wf h) hk
  case txTerm =>
    obtain ⟨_, _, _, hk, _⟩ := inTx_next ht
    cases hk; rw [State.txAttempt_buf]; exact State.enterTerm_buf_wf h
  case rxHandshake => obtain ⟨_, _, _, hk, _⟩ := inRx_next ht; cases hk; exact h
  case rxHeader =>
    obtain ⟨_, _, _, hk, _⟩ := inRx_next ht
    cases hk; rw [State.headerOutcome_buf]; exact State.rxDecode_buf_wf h
  case rxData =>
    obtain ⟨_, _, _, hk, _⟩ := inRx_next ht
    cases hk; rw [State.dataOutcome_buf]; exact State.rxDecode_buf_wf h
  case rxEot =>
    obtain ⟨_, _, _, hk, _⟩ := inRx_next ht
    cases hk; rw [State.eotOutcome_buf]; exact State.rxDecode_buf_wf h

end Sys2Proof.Machine
end

section
/-! Proofs: every step keeps the invariant of a session (rules R26, R34, R131, R204, R228, R232). The invariant is split by what the
engine is: constructed at all, a sender that runs, a receiver that runs. Each operation of a running engine keeps its part, or
ends the session in `Done` or `Aborted`. -/

namespace Sys2Proof.Machine

/-! ### The sequence pair (rule R26) -/

theorem seq_advance {a b : Byte} (h : b = 0xFF#8 - a) : b - 1#8 = 0xFF#8 - (a + 1#8) := by
  rw [h]; bv_omega

theorem State.seqInv_reset {s : State} (h : s.seqInv) : s.seqReset.seqInv := by
  simp only [State.seqInv, State.seqReset_seq0, State.seqReset_seq1] at h ⊢
  split
  · decide
  · exact h

/-! ### The retry bound (rules R8, R227) -/

theorem State.bound_sender {s : State} (hr : s.cfg.role = .sender) :
    s.bound = if s.txState = .awaitingEot then s.cfg.txEotRetries else s.cfg.txMaxRetries := by
  simp [State.bound, hr]

theorem State.bound_receiver {s : State} (hr : s.cfg.role = .receiver) : s.bound = s.cfg.rxMaxRetries := by
  simp [State.bound, hr]

/-- Every bound of a legal configuration is at least 1. -/
theorem State.bound_pos {s : State} (h : s.cfg.legal) : 0 < s.bound := by
  simp only [Cfg.legal, decide_eq_true_eq] at h
  unfold State.bound
  split
  · split <;> omega
  · omega

/-! ### The parts of the invariant -/

/-- What the invariant says of every constructed session, running or ended. -/
structure Constructed (s : State) : Prop where
  seq : s.seqInv
  buf : s.buf.wf
  legal : s.cfg.legal
  tx : s.cfg.role = .sender → s.rxState = .idle ∧ s.bytesDone = s.offset
  rx : s.cfg.role = .receiver → s.txState = .idle ∧ s.bytesDone = s.written

/-- What the invariant says of a sender that runs. -/
structure TxRunning (s : State) : Prop extends Constructed s where
  bounded : s.txBounded = true
  retry : s.retry < s.bound
  exit : s.exitClass = .none
  fileIdx : s.txState ≠ .sendingTerminator → s.fileIdx < s.files.length
  offset : s.txState = .sendingData → s.offset ≤ s.size
  allSent : s.txState = .awaitingEot → s.offset = s.size
  frame : s.holdsFrame → s.frameOk
  rehandshake : s.txState = .handshaking → s.rehandshake = true → s.fresh = false
  built : s.pos ≠ .none →
    s.txState = .sendingHeader ∨ s.txState = .sendingData ∨ s.txState = .sendingTerminator → s.fresh = false

/-- What the invariant says of a receiver that runs. -/
structure RxRunning (s : State) : Prop extends Constructed s where
  role : s.cfg.role = .receiver
  opened : s.rxState ≠ .idle ∧ s.rxState ≠ .done ∧ s.rxState ≠ .aborted
  retry : s.retry < s.cfg.rxMaxRetries
  exit : s.exitClass = .none
  pos : s.pos = .none
  receiving : s.rxState = .receivingData → s.written ≤ s.size ∧ s.store.inProgress s.size s.written
  received : s.rxState = .awaitingNextOrEnd → s.written = s.size ∧ s.store.complete s.size

theorem TxRunning.role {s : State} (h : TxRunning s) : s.cfg.role = .sender := ((State.txBounded_iff s).mp h.bounded).1

/-- A sender that runs meets the invariant. -/
theorem TxRunning.inv {s : State} (h : TxRunning s) : s.Inv := by
  obtain ⟨hr, hi, hd, ha⟩ := (State.txBounded_iff s).mp h.bounded
  have he : s.ended = false := by simp [State.ended, hr, hd, ha]
  have hx := (h.tx hr).1
  exact {
    seq := h.seq
    buf := h.buf
    legal := fun _ => h.legal
    senderOnly := fun _ => hx
    receiverOnly := fun hc => by rw [hr] at hc; cases hc
    retry := fun _ => h.retry
    exitNone := by simp [h.exit, he]
    exitDone := by simp [h.exit, hr, hd]
    doneTx := fun _ => (h.tx hr).2
    doneRx := fun hc => by rw [hr] at hc; cases hc
    fileIdx := fun hc => h.fileIdx (by rcases hc with hc | hc | hc <;> simp [hc])
    firstFile := fun hc => h.fileIdx (by simp [hc])
    offset := h.offset
    allSent := h.allSent
    frame := h.frame
    rehandshake := h.rehandshake
    built := fun hp => ⟨hr, h.built hp⟩
    receiving := fun hc => by rw [hx] at hc; cases hc
    received := fun hc => by rw [hx] at hc; cases hc }

/-- A receiver that runs meets the invariant. -/
theorem RxRunning.inv {s : State} (h : RxRunning s) : s.Inv := by
  obtain ⟨hi, hd, ha⟩ := h.opened
  have hr := h.role
  have he : s.ended = false := by simp [State.ended, hr, hd, ha]
  have ht := (h.rx hr).1
  exact {
    seq := h.seq
    buf := h.buf
    legal := fun _ => h.legal
    senderOnly := fun hc => by rw [hr] at hc; cases hc
    receiverOnly := fun _ => ht
    retry := fun _ => by rw [State.bound_receiver hr]; exact h.retry
    exitNone := by simp [h.exit, he]
    exitDone := by simp [h.exit, hr, hd]
    doneTx := fun hc => by rw [hr] at hc; cases hc
    doneRx := fun _ => (h.rx hr).2
    fileIdx := fun hc => by simp [State.inFile, ht] at hc
    firstFile := fun hc => by rw [ht] at hc; cases hc
    offset := fun hc => by rw [ht] at hc; cases hc
    allSent := fun hc => by rw [ht] at hc; cases hc
    frame := fun hc => by simp [State.holdsFrame, ht] at hc
    rehandshake := fun hc => by rw [ht] at hc; cases hc
    built := fun hc => absurd h.pos hc
    receiving := h.receiving
    received := h.received }

/-- A session that has ended meets the invariant when its exit class says how. -/
theorem Constructed.ended_inv {s : State} (h : Constructed s) (he : s.ended = true) (hp : s.pos = .none) (hx : s.exitClass ≠ .none)
    (hd : s.exitClass = .success ↔
      (s.cfg.role = .sender ∧ s.txState = .done) ∨ (s.cfg.role = .receiver ∧ s.rxState = .done)) : s.Inv := by
  have htx : ∀ q, s.txState = q → q = .idle ∨ q = .done ∨ q = .aborted := by
    rintro q rfl
    cases hr : s.cfg.role
    · simp only [State.ended, hr, decide_eq_true_eq] at he; exact .inr he
    · exact .inl (h.rx hr).1
  have hrx : ∀ q, s.rxState = q → q = .idle ∨ q = .done ∨ q = .aborted := by
    rintro q rfl
    cases hr : s.cfg.role
    · exact .inl (h.tx hr).1
    · simp only [State.ended, hr, decide_eq_true_eq] at he; exact .inr he
  exact {
    seq := h.seq
    buf := h.buf
    legal := fun _ => h.legal
    senderOnly := fun hr => (h.tx hr).1
    receiverOnly := fun hr => (h.rx hr).1
    retry := fun ⟨_, hc⟩ => by rw [he] at hc; cases hc
    exitNone := by simp [hx, he]
    exitDone := hd
    doneTx := fun hr => (h.tx hr).2
    doneRx := fun hr => (h.rx hr).2
    fileIdx := fun hc => by rcases hc with hc | hc | hc <;> simpa using htx _ hc
    firstFile := fun hc => by simpa using htx _ hc
    offset := fun hc => by simpa using htx _ hc
    allSent := fun hc => by simpa using htx _ hc
    frame := fun hc => by rcases hc with ⟨_, hc | hc | hc⟩ | ⟨hc, _⟩ <;> simpa using htx _ hc
    rehandshake := fun hc => by simpa using htx _ hc
    built := fun hc => absurd hp hc
    receiving := fun hc => by simpa using hrx _ hc
    received := fun hc => by simpa using hrx _ hc }

/-! ### The ends of a session (rules R231, R232) -/

/-- `abort` ends a constructed session as the invariant says, whatever it was doing. -/
theorem Constructed.abort_inv {s : State} (h : Constructed s) {c : ExitClass} (hc : c ≠ .none ∧ c ≠ .success) (e : Cause) :
    (s.abort c e).Inv := by
  have hk : Constructed (s.abort c e) := { h with
    tx := fun hr : s.cfg.role = .sender => by simpa [hr] using h.tx hr
    rx := fun hr : s.cfg.role = .receiver => by simpa [hr] using h.rx hr }
  refine hk.ended_inv ?_ rfl hc.1 ?_
  · cases hr : s.cfg.role <;> simp [State.ended, hr]
  · cases hr : s.cfg.role <;> simp [hr, hc.2]

/-- `finish` ends a constructed session in `Done`. -/
theorem Constructed.finish_inv {s : State} (h : Constructed s) : s.finish.Inv := by
  have hk : Constructed s.finish := { h with
    tx := fun hr : s.cfg.role = .sender => by simpa [hr] using h.tx hr
    rx := fun hr : s.cfg.role = .receiver => by simpa [hr] using h.rx hr }
  refine hk.ended_inv ?_ rfl (by simp) ?_
  · cases hr : s.cfg.role <;> simp [State.ended, hr]
  · cases hr : s.cfg.role <;> simp [hr]

/-! ### The retry path and the cancel test (rules R94, R228) -/

/-- A failed attempt of a sender that has written its request: the step goes on below the bound, a re-handshake included (rule R176). -/
theorem TxRunning.fail_inv {s : State} (h : TxRunning s) (hp : s.pos ≠ .none) (e : Cause) : (s.fail e).Inv := by
  rcases s.fail_cases e with ⟨_, he⟩ | ⟨hb, ⟨hr, _⟩ | ⟨_, hq, _, he⟩ | he⟩
  · rw [he]
    exact Constructed.abort_inv (s := s.countFailure e) { h with } s.abortClass_ne e
  · rw [h.role] at hr; cases hr
  · have hf := h.built hp (.inl hq)
    have hok : s.frameOk := h.frame (.inl ⟨hf, .inl hq⟩)
    rw [he]
    refine TxRunning.inv { h with
      rx := fun hr : s.cfg.role = .receiver => by rw [h.role] at hr; cases hr
      bounded := (State.txBounded_iff _).mpr ⟨h.role, nofun, nofun, nofun⟩
      retry := ?_
      fileIdx := fun _ => h.fileIdx (by simp [hq])
      offset := nofun
      allSent := nofun
      frame := fun _ => hok
      rehandshake := fun _ _ => hf
      built := fun hc => absurd rfl hc }
    rw [State.bound_sender h.role, hq] at hb
    rw [State.bound_sender (s := (s.countFailure e).chClear.backToHandshake) h.role]
    exact hb
  · rw [he]
    exact TxRunning.inv { h with retry := hb, built := fun hc => absurd rfl hc }

theorem RxRunning.fail_inv {s : State} (h : RxRunning s) (e : Cause) : (s.fail e).Inv := by
  rcases s.fail_cases e with ⟨_, he⟩ | ⟨hb, ⟨_, _, _, he⟩ | ⟨hr, _⟩ | he⟩
  · rw [he]
    exact Constructed.abort_inv (s := s.countFailure e) { h with } s.abortClass_ne e
  · rw [State.bound_receiver h.role] at hb
    rw [he]
    exact RxRunning.inv { h with retry := hb, pos := rfl }
  · rw [h.role] at hr; cases hr
  · rw [State.bound_receiver h.role] at hb
    rw [he]
    exact RxRunning.inv { h with retry := hb, pos := rfl }

theorem TxRunning.cancelTest_inv {s : State} (h : TxRunning s) (hp : s.pos ≠ .none) : s.cancelTest.Inv := by
  rcases s.cancelTest_cases with ⟨_, he⟩ | ⟨_, he⟩ <;> rw [he]
  · exact Constructed.abort_inv (s := s.chRead 1) { h with } (by simp) _
  · exact TxRunning.fail_inv (s := s.chRead 1) { h with } hp _

theorem RxRunning.cancelTest_inv {s : State} (h : RxRunning s) : s.cancelTest.Inv := by
  rcases s.cancelTest_cases with ⟨_, he⟩ | ⟨_, he⟩ <;> rw [he]
  · exact Constructed.abort_inv (s := s.chRead 1) { h with } (by simp) _
  · exact RxRunning.fail_inv (s := s.chRead 1) { h with } _

/-! ### Accepted responses (rules R162, R164, R166, R168, R170) -/

/-- The handshake is confirmed; only a re-handshake comes back to a header frame that is built. -/
theorem TxRunning.handshakeDone {s : State} (h : TxRunning s) (hq : s.txState = .handshaking) : TxRunning s.handshakeDone where
  toConstructed := { h with rx := fun hr : s.cfg.role = .receiver => by rw [h.role] at hr; cases hr }
  bounded := (State.txBounded_iff _).mpr ⟨h.role, nofun, nofun, nofun⟩
  retry := by
    have hb := h.retry
    have hpos := State.bound_pos h.legal
    simp only [State.bound_sender h.role, hq, State.bound_sender (s := s.handshakeDone) h.role, State.handshakeDone_retry,
      State.handshakeDone_txState, State.handshakeDone_cfg, reduceCtorEq, if_false] at hb hpos ⊢
    split
    · exact hb
    · exact hpos
  exit := h.exit
  fileIdx := fun _ => h.fileIdx (by simp [hq])
  offset := nofun
  allSent := nofun
  frame := fun hc => by
    have hre : s.rehandshake = true := by
      cases hn : s.rehandshake
      · simp [State.holdsFrame, hn] at hc
      · rfl
    exact h.frame (.inr ⟨hq, hre⟩)
  rehandshake := nofun
  built := fun hc => absurd rfl hc

/-- The header is acknowledged: the data of the file is next, none of it sent. -/
theorem TxRunning.headerDone {s : State} (h : TxRunning s) (hq : s.txState = .sendingHeader) : TxRunning s.headerDone where
  seq := seq_advance h.seq
  buf := h.buf
  legal := h.legal
  tx := fun hr => ⟨(h.tx hr).1, rfl⟩
  rx := fun hr : s.cfg.role = .receiver => by rw [h.role] at hr; cases hr
  bounded := (State.txBounded_iff _).mpr ⟨h.role, nofun, nofun, nofun⟩
  retry := State.bound_pos (s := s.headerDone) h.legal
  exit := h.exit
  fileIdx := fun _ => h.fileIdx (by simp [hq])
  offset := fun _ => Nat.zero_le _
  allSent := nofun
  frame := by simp [State.holdsFrame]
  rehandshake := nofun
  built := fun hc => absurd rfl hc

/-- The data packet is acknowledged: no more of the file is sent than there is, and all of it when the end of transmission is next. -/
theorem TxRunning.dataDone {s : State} (h : TxRunning s) (hq : s.txState = .sendingData) : TxRunning s.dataDone := by
  have htake : s.take ≤ s.size - s.offset := Nat.min_le_right _ _
  have hoff := h.offset hq
  exact {
    seq := seq_advance h.seq
    buf := h.buf
    legal := h.legal
    tx := fun hr => ⟨(h.tx hr).1, rfl⟩
    rx := fun hr : s.cfg.role = .receiver => by rw [h.role] at hr; cases hr
    bounded := by
      rw [State.txBounded_iff, State.dataDone_txState]
      split <;> simp [h.role]
    retry := State.bound_pos (s := s.dataDone) h.legal
    exit := h.exit
    fileIdx := fun _ => h.fileIdx (by simp [hq])
    offset := fun _ => by simp only [State.dataDone_offset, State.dataDone_size]; omega
    allSent := fun hc => by
      simp only [State.dataDone_txState] at hc
      split at hc
      · simp only [State.dataDone_offset, State.dataDone_size]; omega
      · cases hc
    frame := fun hc => by
      simp only [State.holdsFrame, State.dataDone_txState, State.dataDone_fresh] at hc
      split at hc
      · simp at hc
      · rename_i hmore; simp [Nat.lt_of_not_le hmore] at hc
    rehandshake := fun hc => by
      rw [State.dataDone_txState] at hc
      split at hc <;> cases hc
    built := fun hc => absurd rfl hc }

/-- The end of transmission is acknowledged: the next file of the list is there, or the terminator is next. -/
theorem TxRunning.eotDone {s : State} (h : TxRunning s) : TxRunning s.eotDone where
  toConstructed := { h with rx := fun hr : s.cfg.role = .receiver => by rw [h.role] at hr; cases hr }
  bounded := by
    rw [State.txBounded_iff, State.eotDone_txState]
    split <;> simp [h.role]
  retry := State.bound_pos (s := s.eotDone) h.legal
  exit := h.exit
  fileIdx := fun hc => by
    rw [State.eotDone_txState] at hc
    split at hc
    · assumption
    · exact absurd rfl hc
  offset := fun hc => by rw [State.eotDone_txState] at hc; split at hc <;> cases hc
  allSent := fun hc => by rw [State.eotDone_txState] at hc; split at hc <;> cases hc
  frame := fun hc => by
    simp only [State.holdsFrame, State.eotDone_txState] at hc
    split at hc <;> simp at hc
  rehandshake := fun hc => by rw [State.eotDone_txState] at hc; split at hc <;> cases hc
  built := fun hc => absurd rfl hc

/-- The expected response byte keeps the invariant, whatever the step is. -/
theorem TxRunning.accepted_inv {s : State} (h : TxRunning s) (hp : s.pos ≠ .none) : s.accepted.Inv := by
  rcases s.accepted_cases with ⟨hq, he⟩ | ⟨_, _, he⟩ | ⟨hq, _, he⟩ | ⟨hq, he⟩ | ⟨_, _, he⟩ | ⟨_, he⟩ | ⟨_, he⟩ <;> rw [he]
  · exact (h.handshakeDone hq).inv
  · exact TxRunning.inv { h with built := fun _ => h.built hp }
  · exact (h.headerDone hq).inv
  · exact (h.dataDone hq).inv
  · exact h.eotDone.inv
  · exact h.finish_inv
  · exact h.inv

/-! ### A wait for a response, and an attempt of the sender -/

theorem TxRunning.onResponse_inv {s : State} (h : TxRunning s) (hp : s.pos ≠ .none) (b : Byte) : (s.onResponse b).Inv := by
  have hs : TxRunning (s.setResp b) := { h with }
  rcases s.onResponse_cases b with ⟨_, he⟩ | ⟨_, _, he⟩ | ⟨_, _, he⟩ <;> rw [he]
  · exact hs.cancelTest_inv hp
  · exact hs.accepted_inv hp
  · exact hs.fail_inv hp _

theorem TxRunning.awaitOne_inv {s : State} (h : TxRunning s) (hp : s.pos ≠ .none) : s.awaitOne.Inv := by
  have hs : TxRunning (s.chRead 1) := { h with }
  rcases s.awaitOne_cases with ⟨_, he⟩ | ⟨b, _, he⟩ <;> rw [he]
  · exact hs.fail_inv hp _
  · exact hs.onResponse_inv hp b

/-- A sender that runs, from the invariant. -/
theorem State.Inv.txRunning {s : State} (h : s.Inv) (hb : s.txBounded = true) : TxRunning s := by
  obtain ⟨hr, hi, hd, ha⟩ := (State.txBounded_iff s).mp hb
  have hu : s.unstarted = false := by simp [State.unstarted, hi]
  have he : s.ended = false := by simp [State.ended, hr, hd, ha]
  exact {
    seq := h.seq
    buf := h.buf
    legal := h.legal hu
    tx := fun hr => ⟨h.senderOnly hr, h.doneTx hr⟩
    rx := fun hc => by rw [hr] at hc; cases hc
    bounded := hb
    retry := h.retry ⟨hu, he⟩
    exit := h.exitNone.mpr he
    fileIdx := fun ht => by
      rcases hq : s.txState
      · exact absurd hq hi
      · exact h.firstFile hq
      · exact h.fileIdx (.inl hq)
      · exact h.fileIdx (.inr (.inl hq))
      · exact h.fileIdx (.inr (.inr hq))
      · exact absurd hq ht
      · exact absurd hq hd
      · exact absurd hq ha
    offset := h.offset
    allSent := h.allSent
    frame := h.frame
    rehandshake := h.rehandshake
    built := fun hp => (h.built hp).2 }

/-- A first response after which the sender waits for a second one leaves it running. -/
theorem TxRunning.awaitOne_resp2 {s : State} (h : TxRunning s) (hp : s.pos ≠ .none) (h2 : s.awaitOne.pos = .resp2) :
    TxRunning s.awaitOne := by
  refine (h.awaitOne_inv hp).txRunning ?_
  obtain ⟨_, hi, hd, ha⟩ := (State.txBounded_iff s).mp h.bounded
  rcases State.awaitOne_resp2 h2 with ⟨_, _, he⟩ | hq | hq | hq
  · rw [he]; exact h.bounded
  · exact absurd hq hi
  · exact absurd hq hd
  · exact absurd hq ha

/-- An attempt of a sender whose frame is built, if its step has one. -/
theorem TxRunning.txAttempt_inv {s : State} (h : TxRunning s)
    (hf : s.txState = .sendingHeader ∨ s.txState = .sendingData ∨ s.txState = .sendingTerminator → s.fresh = false) (bs : List Byte) :
    (s.txAttempt bs).Inv := by
  have hs : TxRunning (s.send bs) := { h with built := fun _ => hf }
  rcases s.txAttempt_cases bs with ⟨h2, he⟩ | ⟨_, he⟩ <;> rw [he]
  · exact (hs.awaitOne_resp2 (by simp) h2).awaitOne_inv (by simp [h2])
  · exact hs.awaitOne_inv (by simp)

/-! ### Entry parts (rules R163, R166, R169) -/

/-- The header frame is built from the pair as the entry part leaves it. -/
theorem TxRunning.buildHeader {s : State} (h : TxRunning s) (hq : s.txState = .sendingHeader) {name : List Byte} {size : Nat}
    (hfits : headerFits name size) : TxRunning (s.buildHeader name size) where
  seq := State.seqInv_reset (s := s) h.seq
  buf := s.buf.wf_writeBlock 0 _ h.buf
  legal := h.legal
  tx := h.tx
  rx := h.rx
  bounded := h.bounded
  retry := h.retry
  exit := h.exit
  fileIdx := h.fileIdx
  offset := fun hc : s.txState = .sendingData => by rw [hq] at hc; cases hc
  allSent := fun hc : s.txState = .awaitingEot => by rw [hq] at hc; cases hc
  frame := fun _ => ⟨.soh, headerBytes name size, by rw [length_headerBytes hfits]; rfl, s.buildHeader_frame hfits⟩
  rehandshake := fun _ _ => rfl
  built := fun _ _ => rfl

theorem length_padBytes {chunk : List Byte} {n : Nat} (h : chunk.length ≤ n) : (padBytes chunk n).length = n := by
  simp only [padBytes, zeros, List.length_append, List.length_replicate]; omega

/-- The data frame is built with the marker chosen for what is left of the file. -/
theorem TxRunning.buildData {s : State} (h : TxRunning s) {chunk : List Byte} (hc : chunk.length = s.take) :
    TxRunning (s.buildData chunk) := by
  have hlen : chunk.length ≤ chunkSize s.cfg (s.size - s.offset) := by rw [hc]; exact Nat.min_le_left _ _
  exact { h with
    buf := s.buf.wf_writeBlock 0 _ h.buf
    frame := fun _ => ⟨_, _, by rw [length_padBytes hlen]; exact payloadSize_chunkMarker _ _, s.buildData_frame hc⟩
    rehandshake := fun _ _ => rfl
    built := fun _ _ => rfl }

/-- Entry to `SendingTerminator`: the frame is built now, or it was built before. -/
theorem TxRunning.enterTerm {s : State} (h : TxRunning s) (hq : s.txState = .sendingTerminator) :
    TxRunning s.enterTerm ∧ s.enterTerm.fresh = false := by
  unfold State.enterTerm
  split
  · exact ⟨h, ‹_›⟩
  · exact ⟨{ h with
      seq := State.seqInv_reset (s := s) h.seq
      buf := s.buf.wf_writeBlock 0 _ h.buf
      offset := fun hc : s.txState = .sendingData => by rw [hq] at hc; cases hc
      allSent := fun hc : s.txState = .awaitingEot => by rw [hq] at hc; cases hc
      frame := fun _ => ⟨.soh, zeros 128, by simp [zeros, payloadSize], rfl⟩
      rehandshake := fun _ _ => rfl
      built := fun _ _ => rfl }, rfl⟩

/-- The header's attempt, its entry part included. -/
theorem TxRunning.header_inv {s t : State} (h : TxRunning s) (hq : s.txState = .sendingHeader)
    (ht : attemptAfter s.enterHeader = .next t) : t.Inv := by
  rcases s.enterHeader_cases with ⟨hf, he⟩ | ⟨_, _, he⟩ | ⟨name, size, _, _, hfits, _, he⟩ | ⟨_, _, _, _, _, he⟩ <;>
    rw [he] at ht <;> cases ht
  · exact h.txAttempt_inv (fun _ => hf) _
  · exact Constructed.abort_inv (s := s.fileInfo s.fileIdx) { h with } (by simp) _
  · have hs : TxRunning (s.fileInfo s.fileIdx) := { h with }
    exact (hs.buildHeader hq hfits).txAttempt_inv (fun _ => rfl) _

/-- The data packet's attempt, its entry part included. -/
theorem TxRunning.data_inv {s t : State} (h : TxRunning s) (ht : attemptAfter s.enterData = .next t) : t.Inv := by
  rcases s.enterData_cases with ⟨hf, he⟩ | ⟨_, _, he⟩ | ⟨chunk, _, hc, he⟩ <;> rw [he] at ht <;> cases ht
  · exact h.txAttempt_inv (fun _ => hf) _
  · exact Constructed.abort_inv (s := s.fileRead _ _ _) { h with } (by simp) _
  · have hs : TxRunning (s.fileRead s.fileIdx s.offset s.take) := { h with }
    exact (hs.buildData (State.length_fileReadAnswer hc)).txAttempt_inv (fun _ => rfl) _

/-! ### Construction (rules R46, R161, R191) -/

/-- A sender's session that has just been constructed. -/
theorem TxRunning.construct {s : State} (h : s.Inv) (hr : s.cfg.role = .sender) (hf : s.files ≠ []) (hl : s.cfg.legal) :
    TxRunning { s.construct s.cfg s.files with txState := .handshaking } where
  seq := show (0xFF#8 : Byte) = 0xFF#8 - 0x00#8 by decide
  buf := h.buf
  legal := hl
  tx := fun _ => ⟨h.senderOnly hr, rfl⟩
  rx := fun hc : s.cfg.role = .receiver => by rw [hr] at hc; cases hc
  bounded := (State.txBounded_iff _).mpr ⟨hr, nofun, nofun, nofun⟩
  retry := State.bound_pos (s := { s.construct s.cfg s.files with txState := .handshaking }) hl
  exit := rfl
  fileIdx := fun _ => List.length_pos_iff.mpr hf
  offset := nofun
  allSent := nofun
  frame := by simp [State.holdsFrame, State.construct]
  rehandshake := fun _ _ => rfl
  built := fun hc => absurd rfl hc

/-- A receiver's session that has just been constructed. -/
theorem RxRunning.construct {s : State} (h : s.Inv) (hr : s.cfg.role = .receiver) (hl : s.cfg.legal) :
    RxRunning { s.construct s.cfg s.files with rxState := .handshaking } where
  seq := show (0xFF#8 : Byte) = 0xFF#8 - 0x00#8 by decide
  buf := h.buf
  legal := hl
  tx := fun hc : s.cfg.role = .sender => by rw [hr] at hc; cases hc
  rx := fun _ => ⟨h.receiverOnly hr, rfl⟩
  role := hr
  opened := by simp
  retry := by have := State.bound_pos (s := s) hl; rwa [State.bound_receiver hr] at this
  exit := rfl
  pos := rfl
  receiving := nofun
  received := nofun

/-! ### The receiver (rules R192 to R199) -/

/-- A receiver that runs, from the invariant. -/
theorem State.Inv.rxRunning {s : State} (h : s.Inv) (hr : s.cfg.role = .receiver)
    (ho : s.rxState ≠ .idle ∧ s.rxState ≠ .done ∧ s.rxState ≠ .aborted) : RxRunning s := by
  have hu : s.unstarted = false := by simp [State.unstarted, ho.1]
  have he : s.ended = false := by simp [State.ended, hr, ho]
  exact {
    seq := h.seq
    buf := h.buf
    legal := h.legal hu
    tx := fun hc => by rw [hr] at hc; cases hc
    rx := fun hr => ⟨h.receiverOnly hr, h.doneRx hr⟩
    role := hr
    opened := ho
    retry := by rw [← State.bound_receiver hr]; exact h.retry ⟨hu, he⟩
    exit := h.exitNone.mpr he
    pos := by_contra fun hp => by have := (h.built hp).1; rw [hr] at this; cases this
    receiving := h.receiving
    received := h.received }

/-- `DECODE` leaves a running receiver as it was. -/
theorem RxRunning.rxDecode {s : State} (h : RxRunning s) : RxRunning s.rxDecode.2 := by
  have hsame : SameBesidesDecode s s.rxDecode.2 := sameBesidesDecode_decodeUnit s.seq0 s.seq1 s
  rw [hsame.eq]
  exact { h with buf := s.rxDecode_buf_wf h.buf }

theorem RxRunning.enterAwaitHeader {s : State} (h : RxRunning s) : RxRunning s.enterAwaitHeader := { h with
  seq := State.seqInv_reset (s := s) h.seq
  tx := fun hc : s.cfg.role = .sender => by rw [h.role] at hc; cases hc
  opened := by simp
  pos := rfl
  receiving := nofun
  received := nofun }

/-- The header is accepted: a new, empty file is in progress. -/
theorem RxRunning.headerAccepted {s : State} (h : RxRunning s) {name : List Byte} {size : Nat} (hk : s.fileOpenOk = true) :
    RxRunning ((s.fileOpen name size).headerAccepted size) where
  seq := by simpa [State.seqInv] using seq_advance h.seq
  buf := by simpa using h.buf
  legal := by simpa using h.legal
  tx := by simp [h.role]
  rx := fun _ => by simpa using (h.rx h.role).1
  role := by simpa using h.role
  opened := by simp
  retry := by simpa [State.bound_receiver h.role] using State.bound_pos h.legal
  exit := by simpa using h.exit
  pos := by simp
  receiving := fun _ => by simpa using FileStore.inProgress_open hk
  received := by simp

theorem RxRunning.onHeader_inv {s : State} (h : RxRunning s) : s.onHeader.Inv := by
  rcases s.onHeader_cases with ⟨_, he⟩ | ⟨_, he⟩ | ⟨name, size, _, ⟨hk, he⟩ | ⟨_, he⟩⟩ <;> rw [he]
  · exact Constructed.finish_inv (s := s.chWrite [ACK]) { h with }
  · exact h.fail_inv _
  · exact (h.headerAccepted hk).inv
  · exact Constructed.abort_inv (s := s.fileOpen name size) { h with } (by simp) _

theorem RxRunning.headerOutcome_inv {s : State} (h : RxRunning s) (d : DecodeOutcome) : (s.headerOutcome d).Inv := by
  rcases s.headerOutcome_cases d with ⟨_, he⟩ | ⟨_, he⟩ | ⟨_, he⟩ | ⟨_, he⟩ <;> rw [he]
  · exact h.onHeader_inv
  · have hs : RxRunning s.ackCrq := { h with }
    exact hs.enterAwaitHeader.inv
  · exact h.cancelTest_inv
  · exact h.fail_inv _

/-- A data packet is accepted: the file is in progress, or complete with its declared size (rules R197, R204). -/
theorem Constructed.dataAccepted {s : State} (h : Constructed s) (hr : s.cfg.role = .receiver) (hx : s.exitClass = .none)
    (hw : s.written < s.size ∧ s.store.inProgress s.size s.written ∨ s.written = s.size ∧ s.store.complete s.size) :
    RxRunning s.dataAccepted where
  seq := by simpa [State.seqInv] using seq_advance h.seq
  buf := by simpa using h.buf
  legal := by simpa using h.legal
  tx := by simp [hr]
  rx := fun _ => by simpa using h.rx hr
  role := by simpa using hr
  opened := by rw [State.dataAccepted_rxState]; split <;> simp
  retry := by simpa [State.bound_receiver hr] using State.bound_pos h.legal
  exit := by simpa using hx
  pos := by simp
  receiving := fun hc => by
    rcases hw with ⟨hlt, hp⟩ | ⟨heq, _⟩
    · simpa [Nat.le_of_lt hlt] using hp
    · simp [heq] at hc
  received := fun hc => by
    rcases hw with ⟨hlt, _⟩ | hd
    · simp [Nat.not_le.mpr hlt] at hc
    · simpa using hd

/-- The bytes passed to `FileWrite` are as many as are counted. -/
theorem State.length_take_payload (s : State) : ((s.payload s.n).take s.rxTake).length = s.rxTake := by
  rw [List.length_take, State.length_payload]
  exact Nat.min_eq_left (Nat.min_le_left _ _)

/-- A decoded data packet in `ReceivingData`: the file grows by the bytes counted, and is closed when it has its declared size. -/
theorem RxRunning.onData_inv {s : State} (h : RxRunning s) (hq : s.rxState = .receivingData) : s.onData.Inv := by
  obtain ⟨hle, hp⟩ := h.receiving hq
  have htake : s.rxTake ≤ s.size - s.written := Nat.min_le_right _ _
  have hwrite (hk : s.fileUseOk = true) :
      (s.fileWrite ((s.payload s.n).take s.rxTake)).store.inProgress s.size (s.written + s.rxTake) := by
    have := FileStore.inProgress_write (bs := (s.payload s.n).take s.rxTake) hk hp
    rwa [s.length_take_payload] at this
  have hcount : Constructed ((s.fileWrite ((s.payload s.n).take s.rxTake)).count s.rxTake) := { h with
    tx := fun hc : s.cfg.role = .sender => by rw [h.role] at hc; cases hc
    rx := fun hr => ⟨(h.rx hr).1, rfl⟩ }
  have hclose : Constructed ((s.fileWrite ((s.payload s.n).take s.rxTake)).count s.rxTake).fileClose := { hcount with }
  rcases s.onData_cases with ⟨_, he⟩ | ⟨hk, hlt, he⟩ | ⟨_, _, _, he⟩ | ⟨hk, hlast, hc, he⟩ <;> rw [he]
  · exact Constructed.abort_inv (s := s.fileWrite _) { h with } (by simp) _
  · exact (hcount.dataAccepted h.role h.exit (.inl ⟨hlt, hwrite hk⟩)).inv
  · exact hclose.abort_inv (by simp) _
  · have heq : s.written + s.rxTake = s.size := by omega
    exact (hclose.dataAccepted h.role h.exit (.inr ⟨heq, FileStore.complete_close hc (heq ▸ hwrite hk)⟩)).inv

theorem RxRunning.dataOutcome_inv {s : State} (h : RxRunning s) (hq : s.rxState = .receivingData) (d : DecodeOutcome) :
    (s.dataOutcome d).Inv := by
  rcases s.dataOutcome_cases d with ⟨_, he⟩ | ⟨_, he⟩ | ⟨_, _, he⟩ <;> rw [he]
  · exact h.onData_inv hq
  · exact h.cancelTest_inv
  · exact h.fail_inv _

theorem RxRunning.eotOutcome_inv {s : State} (h : RxRunning s) (d : DecodeOutcome) : (s.eotOutcome d).Inv := by
  rcases s.eotOutcome_cases d with ⟨_, he⟩ | ⟨_, he⟩ | ⟨_, _, he⟩ <;> rw [he]
  · have hs : RxRunning { s.ackCrq with retry := 0 } := { h with retry := Nat.zero_lt_of_lt h.retry }
    exact hs.enterAwaitHeader.inv
  · exact h.cancelTest_inv
  · exact h.fail_inv _

/-! ### A step of each role -/

theorem State.Inv.step_sender {s t : State} (h : s.Inv) (hr : s.cfg.role = .sender) (ht : step s = .next t) : t.Inv := by
  have hrun (h1 : s.txState ≠ .idle) (h2 : s.txState ≠ .done) (h3 : s.txState ≠ .aborted) : TxRunning s :=
    h.txRunning ((State.txBounded_iff s).mpr ⟨hr, h1, h2, h3⟩)
  rcases step_tx hr ht with ⟨hb, hp, rfl⟩ | ⟨_, _, hf, hl, rfl⟩ | ⟨hq, _, rfl⟩ | ⟨hq, _, ha⟩ | ⟨hq, _, ha⟩ | ⟨hq, _, rfl⟩ |
    ⟨hq, _, rfl⟩
  · exact (h.txRunning hb).awaitOne_inv hp
  · exact (TxRunning.construct h hr hf hl).inv
  all_goals have hs : TxRunning s := hrun (by simp [hq]) (by simp [hq]) (by simp [hq])
  · exact hs.txAttempt_inv (by simp [hq]) _
  · exact hs.header_inv hq ha
  · exact hs.data_inv ha
  · exact hs.txAttempt_inv (by simp [hq]) _
  · obtain ⟨hterm, hbuilt⟩ := hs.enterTerm hq
    exact hterm.txAttempt_inv (fun _ => hbuilt) _

theorem State.Inv.step_receiver {s t : State} (h : s.Inv) (hr : s.cfg.role = .receiver) (ht : step s = .next t) : t.Inv := by
  rcases step_rx hr ht with ⟨_, _, hl, rfl⟩ | ⟨hq, _, rfl⟩ | ⟨hq, _, rfl⟩ | ⟨hq, _, rfl⟩ | ⟨hq, _, rfl⟩
  · exact (RxRunning.construct h hr hl).inv
  · have hs : RxRunning (s.chWrite [CRQ]) := { h.rxRunning hr (by simp [hq]) with }
    exact hs.enterAwaitHeader.inv
  · exact (h.rxRunning hr (by simp [hq])).rxDecode.headerOutcome_inv _
  · exact (h.rxRunning hr (by simp [hq])).rxDecode.dataOutcome_inv (by rw [State.rxDecode, State.decodeUnit_rxState, hq]) _
  · exact (h.rxRunning hr (by simp [hq])).rxDecode.eotOutcome_inv _

/-- Settles O53, by role: a step of a running engine is one of those of `step_tx` or `step_rx`, and each keeps the part of the invariant
that speaks of it. -/
theorem invariantKept : Obligations.InvariantKept := by
  unfold Obligations.InvariantKept
  intro s t h ht
  cases hr : s.cfg.role
  · exact h.step_sender hr ht
  · exact h.step_receiver hr ht

end Sys2Proof.Machine
end

section
/-! Proofs: what an operation does to the session's fixed registers and to the sequence pair (rules R26, R37, R238). Every
operation but `TX.START` and `RX.START` leaves the configuration and the file list, and leaves the pair, advances it or resets it. -/

namespace Sys2Proof.Machine

/-! ### The same session -/

/-- The configuration and the file list are the same, and a complementary sequence pair has stayed so. -/
structure SameSession (s t : State) : Prop where
  cfg : t.cfg = s.cfg
  files : t.files = s.files
  seq : s.seqInv → t.seqInv

theorem SameSession.refl (s : State) : SameSession s s := ⟨rfl, rfl, id⟩

theorem SameSession.trans {s t u : State} (h : SameSession s t) (k : SameSession t u) : SameSession s u :=
  ⟨k.cfg.trans h.cfg, k.files.trans h.files, k.seq ∘ h.seq⟩

/-- The pair is left alone. -/
theorem SameSession.of_eq {s t : State} (hc : t.cfg = s.cfg) (hf : t.files = s.files) (h0 : t.seq0 = s.seq0) (h1 : t.seq1 = s.seq1) :
    SameSession s t :=
  ⟨hc, hf, fun h => by rw [State.seqInv, h0, h1]; exact h⟩

/-- The pair is advanced (rule R24). -/
theorem SameSession.of_advance {s t : State} (hc : t.cfg = s.cfg) (hf : t.files = s.files) (h0 : t.seq0 = s.seq0 + 1#8)
    (h1 : t.seq1 = s.seq1 - 1#8) : SameSession s t :=
  ⟨hc, hf, fun h => by rw [State.seqInv, h0, h1]; exact seq_advance h⟩

/-- The pair is reset, or left where it is not reset for each file (rule R25). -/
theorem SameSession.of_reset {s t : State} (hc : t.cfg = s.cfg) (hf : t.files = s.files) (h0 : t.seq0 = s.seqReset.seq0)
    (h1 : t.seq1 = s.seqReset.seq1) : SameSession s t :=
  ⟨hc, hf, fun h => by rw [State.seqInv, h0, h1]; exact State.seqInv_reset h⟩

theorem SameBesidesDecode.sameSession {s t : State} (h : SameBesidesDecode s t) : SameSession s t :=
  .of_eq h.cfg h.files h.seq0 h.seq1

theorem sameSession_fail (e : Cause) (s : State) : SameSession s (s.fail e) := .of_eq (by simp) (by simp) (by simp) (by simp)

theorem sameSession_abort (c : ExitClass) (e : Cause) (s : State) : SameSession s (s.abort c e) := .of_eq rfl rfl rfl rfl

theorem sameSession_cancelTest (s : State) : SameSession s s.cancelTest := .of_eq (by simp) (by simp) (by simp) (by simp)

/-! ### The sender -/

theorem sameSession_accepted (s : State) : SameSession s s.accepted := by
  rcases s.accepted_cases with ⟨_, h⟩ | ⟨_, _, h⟩ | ⟨_, _, h⟩ | ⟨_, h⟩ | ⟨_, _, h⟩ | ⟨_, h⟩ | ⟨_, h⟩ <;> rw [h]
  · exact .of_eq (by simp) (by simp) (by simp) (by simp)
  · exact .of_eq rfl rfl rfl rfl
  · exact .of_advance (by simp) (by simp) (by simp) (by simp)
  · exact .of_advance (by simp) (by simp) (by simp) (by simp)
  · exact .of_eq (by simp) (by simp) (by simp) (by simp)
  · exact .of_eq rfl rfl rfl rfl
  · exact .refl s

theorem sameSession_onResponse (b : Byte) (s : State) : SameSession s (s.onResponse b) := by
  have hs : SameSession s (s.setResp b) := .of_eq rfl rfl rfl rfl
  rcases s.onResponse_cases b with ⟨_, h⟩ | ⟨_, _, h⟩ | ⟨_, _, h⟩ <;> rw [h]
  · exact hs.trans (sameSession_cancelTest _)
  · exact hs.trans (sameSession_accepted _)
  · exact hs.trans (sameSession_fail _ _)

theorem sameSession_awaitOne (s : State) : SameSession s s.awaitOne := by
  have hs : SameSession s (s.chRead 1) := .of_eq rfl rfl rfl rfl
  rcases s.awaitOne_cases with ⟨_, h⟩ | ⟨b, _, h⟩ <;> rw [h]
  · exact hs.trans (sameSession_fail _ _)
  · exact hs.trans (sameSession_onResponse b _)

theorem sameSession_txAttempt (bs : List Byte) (s : State) : SameSession s (s.txAttempt bs) := by
  have hs : SameSession s (s.send bs) := .of_eq rfl rfl rfl rfl
  rcases s.txAttempt_cases bs with ⟨_, h⟩ | ⟨_, h⟩ <;> rw [h]
  · exact (hs.trans (sameSession_awaitOne _)).trans (sameSession_awaitOne _)
  · exact hs.trans (sameSession_awaitOne _)

theorem sameSession_readResponse (s : State) : SameSession s s.readResponse := by
  have hs : SameSession s (s.chRead 1) := .of_eq rfl rfl rfl rfl
  unfold State.readResponse
  split
  · exact hs.trans (sameSession_fail _ _)
  · rename_i b _ _
    have hr : SameSession s ((s.chRead 1).setResp b) := .of_eq rfl rfl rfl rfl
    split
    · exact hr.trans (sameSession_cancelTest _)
    · exact hr

/-- The header's attempt, its entry part included. -/
theorem sameSession_header {s t : State} (h : attemptAfter s.enterHeader = .next t) : SameSession s t := by
  rcases s.enterHeader_cases with ⟨_, he⟩ | ⟨_, _, he⟩ | ⟨name, size, _, _, _, _, he⟩ | ⟨_, _, _, _, _, he⟩ <;>
    rw [he] at h <;> cases h
  · exact sameSession_txAttempt _ s
  · exact .of_eq (by simp) (by simp) (by simp) (by simp)
  · have hs : SameSession s ((s.fileInfo s.fileIdx).buildHeader name size) := .of_reset (by simp) (by simp) rfl rfl
    exact hs.trans (sameSession_txAttempt _ _)

/-- The data packet's attempt, its entry part included. -/
theorem sameSession_data {s t : State} (h : attemptAfter s.enterData = .next t) : SameSession s t := by
  rcases s.enterData_cases with ⟨_, he⟩ | ⟨_, _, he⟩ | ⟨chunk, _, _, he⟩ <;> rw [he] at h <;> cases h
  · exact sameSession_txAttempt _ s
  · exact .of_eq (by simp) (by simp) (by simp) (by simp)
  · have hs : SameSession s ((s.fileRead s.fileIdx s.offset s.take).buildData chunk) := .of_eq (by simp) (by simp) (by simp) (by simp)
    exact hs.trans (sameSession_txAttempt _ _)

theorem sameSession_enterTerm (s : State) : SameSession s s.enterTerm := by
  unfold State.enterTerm
  split
  · exact .refl s
  · exact .of_reset rfl rfl rfl rfl

/-! ### The receiver -/

theorem sameSession_enterAwaitHeader (s : State) : SameSession s s.enterAwaitHeader := .of_reset rfl rfl rfl rfl

theorem sameSession_dataAccepted (s : State) : SameSession s s.dataAccepted := .of_advance (by simp) (by simp) (by simp) (by simp)

theorem sameSession_onHeader (s : State) : SameSession s s.onHeader := by
  rcases s.onHeader_cases with ⟨_, h⟩ | ⟨_, h⟩ | ⟨name, size, _, ⟨_, h⟩ | ⟨_, h⟩⟩ <;> rw [h]
  · exact .of_eq (by simp) (by simp) (by simp) (by simp)
  · exact sameSession_fail _ s
  · exact .of_advance (by simp) (by simp) (by simp) (by simp)
  · exact .of_eq (by simp) (by simp) (by simp) (by simp)

theorem sameSession_onData (s : State) : SameSession s s.onData := by
  have hs : ∀ k bs, SameSession s ((s.fileWrite bs).count k) := fun _ _ => .of_eq (by simp) (by simp) (by simp) (by simp)
  have hc : ∀ k bs, SameSession s ((s.fileWrite bs).count k).fileClose := fun _ _ => .of_eq (by simp) (by simp) (by simp) (by simp)
  rcases s.onData_cases with ⟨_, h⟩ | ⟨_, _, h⟩ | ⟨_, _, _, h⟩ | ⟨_, _, _, h⟩ <;> rw [h]
  · exact .of_eq (by simp) (by simp) (by simp) (by simp)
  · exact (hs _ _).trans (sameSession_dataAccepted _)
  · exact (hc _ _).trans (sameSession_abort _ _ _)
  · exact (hc _ _).trans (sameSession_dataAccepted _)

theorem sameSession_headerOutcome (d : DecodeOutcome) (s : State) : SameSession s (s.headerOutcome d) := by
  rcases s.headerOutcome_cases d with ⟨_, h⟩ | ⟨_, h⟩ | ⟨_, h⟩ | ⟨_, h⟩ <;> rw [h]
  · exact sameSession_onHeader s
  · have hs : SameSession s s.ackCrq := .of_eq rfl rfl rfl rfl
    exact hs.trans (sameSession_enterAwaitHeader _)
  · exact sameSession_cancelTest s
  · exact sameSession_fail _ s

theorem sameSession_dataOutcome (d : DecodeOutcome) (s : State) : SameSession s (s.dataOutcome d) := by
  rcases s.dataOutcome_cases d with ⟨_, h⟩ | ⟨_, h⟩ | ⟨_, _, h⟩ <;> rw [h]
  · exact sameSession_onData s
  · exact sameSession_cancelTest s
  · exact sameSession_fail _ s

theorem sameSession_eotOutcome (d : DecodeOutcome) (s : State) : SameSession s (s.eotOutcome d) := by
  rcases s.eotOutcome_cases d with ⟨_, h⟩ | ⟨_, h⟩ | ⟨_, _, h⟩ <;> rw [h]
  · have hs : SameSession s { s.ackCrq with retry := 0 } := .of_eq rfl rfl rfl rfl
    exact hs.trans (sameSession_enterAwaitHeader _)
  · exact sameSession_cancelTest s
  · exact sameSession_fail _ s

theorem sameSession_rxDecode (s : State) : SameSession s s.rxDecode.2 := (sameBesidesDecode_decodeUnit _ _ s).sameSession

/-! ### The wire symbols -/

theorem sameSession_receive (d : DecodeOutcome) (s : State) : SameSession s (s.receive d) := by
  unfold State.receive
  cases s.rxState
  case awaitingHeader => exact sameSession_headerOutcome d s
  case receivingData => exact sameSession_dataOutcome d s
  case awaitingNextOrEnd => exact sameSession_eotOutcome d s
  case idle | handshaking | done | aborted => exact .refl s

theorem sameSession_onControl (b : Byte) (d : DecodeOutcome) (s : State) : SameSession s (s.onControl b d) := by
  unfold State.onControl
  cases s.standing
  case marker =>
    have hs : SameSession s (s.setMarker b) := .of_eq rfl rfl rfl rfl
    exact hs.trans (sameSession_receive d _)
  case response => exact sameSession_onResponse b s
  case deaf => exact .of_eq rfl rfl rfl rfl

theorem sameSession_receiveFrame (m : Marker) (s0 s1 : Byte) (p : List Byte) (c : Half) (s : State) :
    SameSession s (s.receiveFrame m s0 s1 p c) := by
  refine SameSession.trans (t := (s.latchFrame m s0 s1 p c).afterJudge s.seq0 s.seq1) ?_ (sameSession_receive _ _)
  exact .of_eq rfl rfl rfl rfl

theorem sameSession_receiveResized (m : Marker) (k : Nat) (s0 s1 : Byte) (p : List Byte) (c : Half) (s : State) :
    SameSession s (s.receiveResized m k s0 s1 p c) := by
  have hs : SameSession s (((s.leaveBody m s0 s1 p c).setMarker m.byte).setN k) := .of_eq rfl rfl rfl rfl
  exact (hs.trans (sameBesidesDecode_readFrame _ _ _).sameSession).trans (sameSession_receive _ _)

/-- A data frame at an engine, wherever it stands. -/
theorem sameSession_onFrame {m : Marker} {s0 s1 : Byte} {p : List Byte} {c : Half} {s t : State}
    (h : s.onFrame m s0 s1 p c = .next t) : SameSession s t := by
  unfold State.onFrame at h
  cases hst : s.standing <;> simp only [hst] at h
  case marker =>
    split at h
    · cases h
    · split at h <;> cases h
      · have hs : SameSession s ((s.leaveBody m s0 s1 p c).setMarker m.byte) := .of_eq rfl rfl rfl rfl
        exact hs.trans (sameSession_receive _ _)
      · split
        · exact sameSession_receiveFrame m s0 s1 p c s
        · exact sameSession_receiveResized m _ s0 s1 p c s
  case response =>
    cases h
    have hs : SameSession s (s.leaveBody m s0 s1 p c) := .of_eq rfl rfl rfl rfl
    exact hs.trans (sameSession_onResponse _ _)
  case deaf => cases h; exact .of_eq rfl rfl rfl rfl

/-! ### The framer's operations -/

theorem sameSession_pad {chunk : List Byte} {n : Nat} {s t : State} (h : execPad chunk n s = .next t) : SameSession s t := by
  unfold execPad at h
  split at h <;> cases h
  exact .of_eq rfl rfl rfl rfl

theorem sameSession_encode {m : Marker} {sq : Byte} {p : List Byte} {s t : State} (h : execEncode m sq p s = .next t) :
    SameSession s t := by
  unfold execEncode at h
  split at h <;> cases h
  exact .of_eq rfl rfl rfl rfl

theorem sameSession_decode {e0 e1 : Byte} {s t : State} (h : execDecode e0 e1 s = .next t) : SameSession s t := by
  obtain ⟨_, hk, _⟩ := whileOpen_next h
  split at hk <;> cases hk
  exact (sameBesidesDecode_decodeUnit e0 e1 s).sameSession.trans (.of_eq rfl rfl rfl rfl)

theorem sameSession_readResp {s t : State} (h : execReadResp s = .next t) : SameSession s t := by
  obtain ⟨_, hk, _⟩ := whileOpen_next h
  split at hk <;> cases hk
  exact sameSession_readResponse s

/-! ### Every operation -/

/-- An operation stays in the session, or is the construction of one before there is one. -/
theorem exec_sameSession_or_construct {i : Instr} {s t : State} (h : exec i s = .next t) :
    SameSession s t ∨
      ((∃ files cfg, i = .txStart files cfg ∨ i = .rxStart cfg) ∧ s.txState = .idle ∧ s.rxState = .idle ∧ t.seqInv) := by
  have hidle (hu : s.unstarted = true) : s.txState = .idle ∧ s.rxState = .idle := by simpa [State.unstarted] using hu
  cases i <;> simp only [exec] at h
  case txStart files cfg =>
    obtain ⟨_, hu, _, _, _, rfl⟩ := execTxStart_next h
    exact .inr ⟨⟨files, cfg, .inl rfl⟩, (hidle hu).1, (hidle hu).2, show (0xFF#8 : Byte) = 0xFF#8 - 0x00#8 by decide⟩
  case rxStart cfg =>
    obtain ⟨_, hu, _, _, rfl⟩ := execRxStart_next h
    exact .inr ⟨⟨[], cfg, .inr rfl⟩, (hidle hu).1, (hidle hu).2, show (0xFF#8 : Byte) = 0xFF#8 - 0x00#8 by decide⟩
  all_goals refine .inl ?_
  case soh | stx | cus => exact sameSession_onFrame (of_settle h).1
  case eot | ack | nak | can | crq => cases (of_settle h).1; exact sameSession_onControl _ _ s
  case chRead | chWrite | chClear => obtain ⟨_, hk, _⟩ := whileOpen_next h; cases hk; exact .of_eq rfl rfl rfl rfl
  case crcInit | crcByte | crc16 | hdrParse => cases h; exact .of_eq rfl rfl rfl rfl
  case pad => exact sameSession_pad h
  case hdrBuild => obtain ⟨_, rfl⟩ := execHdrBuild_next h; exact .of_eq rfl rfl rfl rfl
  case encode => exact sameSession_encode h
  case decode => exact sameSession_decode h
  case readResp => exact sameSession_readResp h
  case txHandshake | txEot => obtain ⟨_, _, _, hk, _⟩ := inTx_next h; cases hk; exact sameSession_txAttempt _ s
  case txHeader => obtain ⟨_, _, _, hk, _⟩ := inTx_next h; exact sameSession_header hk
  case txData => obtain ⟨_, _, _, hk, _⟩ := inTx_next h; exact sameSession_data hk
  case txTerm =>
    obtain ⟨_, _, _, hk, _⟩ := inTx_next h
    cases hk
    exact (sameSession_enterTerm s).trans (sameSession_txAttempt _ _)
  case rxHandshake =>
    obtain ⟨_, _, _, hk, _⟩ := inRx_next h
    cases hk
    have hs : SameSession s (s.chWrite [CRQ]) := .of_eq rfl rfl rfl rfl
    exact hs.trans (sameSession_enterAwaitHeader _)
  case rxHeader =>
    obtain ⟨_, _, _, hk, _⟩ := inRx_next h
    cases hk
    exact (sameSession_rxDecode s).trans (sameSession_headerOutcome _ _)
  case rxData =>
    obtain ⟨_, _, _, hk, _⟩ := inRx_next h
    cases hk
    exact (sameSession_rxDecode s).trans (sameSession_dataOutcome _ _)
  case rxEot =>
    obtain ⟨_, _, _, hk, _⟩ := inRx_next h
    cases hk
    exact (sameSession_rxDecode s).trans (sameSession_eotOutcome _ _)

/-- Settles O50: within a session by `SameSession.seq`; construction sets the pair to 0x00 and 0xFF. -/
theorem seqInvariant : Obligations.SeqInvariant := by
  unfold Obligations.SeqInvariant
  intro i s t hseq h
  rcases exec_sameSession_or_construct h with hs | ⟨_, _, _, ht⟩
  · exact hs.seq hseq
  · exact ht

/-- Settles O52: within a session by `SameSession.cfg` and `SameSession.files`. -/
theorem configReadOnly : Obligations.ConfigReadOnly := by
  unfold Obligations.ConfigReadOnly
  intro i s t h
  rcases exec_sameSession_or_construct h with hs | ⟨hi, htx, hrx, _⟩
  · exact .inl ⟨hs.cfg, hs.files⟩
  · exact .inr ⟨hi, htx, hrx⟩

end Sys2Proof.Machine
end

section
/-! Proofs: the progress report of a step (rules R34, R244). Nothing but an accepted data packet reports; whatever comes before it in
the step makes other events only. -/

namespace Sys2Proof.Machine

/-! ### Whether a part of a step reports -/

/-- The events between two states, none of which is a progress report, and no free value is drawn. -/
def NoReport (s t : State) : Prop :=
  (∃ new, t.trace = new ++ s.trace ∧ ∀ a b c, Event.progress a b c ∉ new) ∧ t.draws = s.draws

/-- Between two states there is one progress report, the newest event, of the bytes done and the size, and the pair has advanced. -/
def OneReport (s t : State) : Prop :=
  (∃ older, t.trace = .progress t.bytesDone t.size (Config.freeElapsed s.cfg.role s.draws) :: (older ++ s.trace) ∧
    ∀ a b c, Event.progress a b c ∉ older) ∧ t.draws = s.draws + 1 ∧ t.seq0 = s.seq0 + 1#8 ∧ t.retry = 0

theorem NoReport.same {s t : State} (ht : t.trace = s.trace) (hd : t.draws = s.draws) : NoReport s t :=
  ⟨⟨[], by simpa using ht, by simp⟩, hd⟩

/-- One event that is not a report. -/
theorem NoReport.event {s t : State} {e : Event} (ht : t.trace = e :: s.trace) (he : ∀ a b c, e ≠ .progress a b c)
    (hd : t.draws = s.draws) : NoReport s t :=
  ⟨⟨[e], ht, fun a b c h => he a b c (List.mem_singleton.mp h).symm⟩, hd⟩

theorem NoReport.trans {s t u : State} (h : NoReport s t) (k : NoReport t u) : NoReport s u := by
  obtain ⟨⟨n1, e1, h1⟩, d1⟩ := h
  obtain ⟨⟨n2, e2, h2⟩, d2⟩ := k
  exact ⟨⟨n2 ++ n1, by rw [e2, e1, List.append_assoc], fun a b c hm => (List.mem_append.mp hm).elim (h2 a b c) (h1 a b c)⟩,
    d2.trans d1⟩

/-- What comes before the report leaves the role and the pair. -/
theorem NoReport.oneReport {s t u : State} (h : NoReport s t) (hc : t.cfg = s.cfg) (h0 : t.seq0 = s.seq0) (k : OneReport t u) :
    OneReport s u := by
  obtain ⟨⟨n1, e1, h1⟩, d1⟩ := h
  obtain ⟨⟨n2, e2, h2⟩, d2, hseq, hretry⟩ := k
  rw [hc, d1, e1, ← List.append_assoc] at e2
  exact ⟨⟨n2 ++ n1, e2, fun a b c hm => (List.mem_append.mp hm).elim (h2 a b c) (h1 a b c)⟩, by rw [d2, d1],
    by rw [hseq, h0], hretry⟩

theorem noReport_chRead (n : Nat) (s : State) : NoReport s (s.chRead n) := .event rfl nofun rfl

theorem noReport_chWrite (bs : List Byte) (s : State) : NoReport s (s.chWrite bs) := .event rfl nofun rfl

theorem noReport_abort (c : ExitClass) (e : Cause) (s : State) : NoReport s (s.abort c e) := .event rfl nofun rfl

theorem noReport_finish (s : State) : NoReport s s.finish := .event rfl nofun rfl

/-- The retry path clears the Channel, and may write `CRQ` or go back to the handshake; at the bound it aborts. -/
theorem noReport_fail (e : Cause) (s : State) : NoReport s (s.fail e) := by
  have hc : NoReport s (s.countFailure e) := .same rfl rfl
  have hclear : NoReport s (s.countFailure e).chClear := hc.trans (.event rfl nofun rfl)
  rcases s.fail_cases e with ⟨_, h⟩ | ⟨_, ⟨_, _, _, h⟩ | ⟨_, _, _, h⟩ | h⟩ <;> rw [h]
  · exact hc.trans (noReport_abort _ _ _)
  · exact hclear.trans (noReport_chWrite _ _)
  · exact hclear.trans (.same rfl rfl)
  · exact hclear

theorem noReport_cancelTest (s : State) : NoReport s s.cancelTest := by
  rcases s.cancelTest_cases with ⟨_, h⟩ | ⟨_, h⟩ <;> rw [h]
  · exact (noReport_chRead 1 s).trans (noReport_abort _ _ _)
  · exact (noReport_chRead 1 s).trans (noReport_fail _ _)

/-- `DECODE` makes reads only. -/
theorem noReport_rxDecode (s : State) : NoReport s s.rxDecode.2 := by
  obtain ⟨n, got, older, ht, _, ho, _⟩ := readsOnly_decodeUnit s.seq0 s.seq1 s
  refine ⟨⟨.read n got :: older, ht, fun a b c hm => ?_⟩, State.decodeUnit_draws _ _ s⟩
  rcases List.mem_cons.mp hm with hm | hm
  · cases hm
  · obtain ⟨_, _, he, _⟩ := ho _ hm
    cases he

/-! ### The sender -/

theorem oneReport_dataDone (s : State) : OneReport s s.dataDone :=
  ⟨⟨[], by simp, by simp⟩, by simp, by simp, by simp⟩

/-- An accepted response reports exactly in `SendingData`. -/
theorem accepted_report (s : State) : NoReport s s.accepted ∨ s.txState = .sendingData ∧ OneReport s s.accepted := by
  rcases s.accepted_cases with ⟨_, h⟩ | ⟨_, _, h⟩ | ⟨_, _, h⟩ | ⟨hq, h⟩ | ⟨_, _, h⟩ | ⟨_, h⟩ | ⟨_, h⟩ <;> rw [h]
  · exact .inl (.same (by simp) (by simp))
  · exact .inl (.same rfl rfl)
  · exact .inl (.same (by simp) (by simp))
  · exact .inr ⟨hq, oneReport_dataDone s⟩
  · exact .inl (.same (by simp) (by simp))
  · exact .inl (noReport_finish s)
  · exact .inl (.same rfl rfl)

theorem awaitOne_report (s : State) : NoReport s s.awaitOne ∨ s.txState = .sendingData ∧ OneReport s s.awaitOne := by
  rcases s.awaitOne_cases with ⟨_, h⟩ | ⟨b, _, h⟩ <;> rw [h]
  · exact .inl ((noReport_chRead 1 s).trans (noReport_fail _ _))
  · have hr : NoReport s ((s.chRead 1).setResp b) := (noReport_chRead 1 s).trans (.same rfl rfl)
    rcases (s.chRead 1).onResponse_cases b with ⟨_, h⟩ | ⟨_, _, h⟩ | ⟨_, _, h⟩ <;> rw [h]
    · exact .inl (hr.trans (noReport_cancelTest _))
    · exact (accepted_report _).imp hr.trans fun ⟨hq, ho⟩ => ⟨hq, hr.oneReport rfl rfl ho⟩
    · exact .inl (hr.trans (noReport_fail _ _))

/-- An attempt of a sender that runs reports at most once: a step with a second response sends no data. -/
theorem txAttempt_report {s : State} (hb : s.txBounded = true) (bs : List Byte) :
    NoReport s (s.txAttempt bs) ∨ s.txState = .sendingData ∧ OneReport s (s.txAttempt bs) := by
  have hs : NoReport s (s.send bs) := .event rfl nofun rfl
  rcases s.txAttempt_cases bs with ⟨h2, h⟩ | ⟨_, h⟩ <;> rw [h]
  · obtain ⟨_, hi, hd, ha⟩ := (State.txBounded_iff s).mp hb
    rcases State.awaitOne_resp2 h2 with ⟨hq, _, he⟩ | hq | hq | hq
    · have hnot : s.txState ≠ .sendingData := by
        have hq : s.txState = .sendingHeader ∨ s.txState = .awaitingEot := hq
        rcases hq with hq | hq <;> simp [hq]
      have hfirst : NoReport (s.send bs) (s.send bs).awaitOne := (awaitOne_report _).resolve_right fun ⟨hq, _⟩ => hnot hq
      have hsame : (s.send bs).awaitOne.txState = s.txState := by rw [he]; simp
      have hsecond := (awaitOne_report (s.send bs).awaitOne).resolve_right fun ⟨hq, _⟩ => hnot (hsame ▸ hq)
      exact .inl ((hs.trans hfirst).trans hsecond)
    · exact absurd hq hi
    · exact absurd hq hd
    · exact absurd hq ha
  · exact (awaitOne_report _).imp hs.trans fun ⟨hq, ho⟩ => ⟨hq, hs.oneReport rfl rfl ho⟩

theorem txAttempt_noReport {s : State} (hb : s.txBounded = true) (hq : s.txState ≠ .sendingData) (bs : List Byte) :
    NoReport s (s.txAttempt bs) :=
  (txAttempt_report hb bs).resolve_right fun h => hq h.1

theorem header_noReport {s t : State} (hb : s.txBounded = true) (hq : s.txState = .sendingHeader)
    (h : attemptAfter s.enterHeader = .next t) : NoReport s t := by
  have hf : NoReport s (s.fileInfo s.fileIdx) := .event rfl nofun rfl
  rcases s.enterHeader_cases with ⟨_, he⟩ | ⟨_, _, he⟩ | ⟨name, size, _, _, _, _, he⟩ | ⟨_, _, _, _, _, he⟩ <;>
    rw [he] at h <;> cases h
  · exact txAttempt_noReport hb (by simp [hq]) _
  · exact hf.trans (noReport_abort _ _ _)
  · have hbuild : NoReport s ((s.fileInfo s.fileIdx).buildHeader name size) := hf.trans (.same (by simp) (by simp))
    exact hbuild.trans (txAttempt_noReport (by simpa [State.txBounded_iff] using hb) (by simp [hq]) _)

theorem data_report {s t : State} (hb : s.txBounded = true) (h : attemptAfter s.enterData = .next t) :
    NoReport s t ∨ s.txState = .sendingData ∧ OneReport s t := by
  have hf : NoReport s (s.fileRead s.fileIdx s.offset s.take) := .event rfl nofun rfl
  rcases s.enterData_cases with ⟨_, he⟩ | ⟨_, _, he⟩ | ⟨chunk, _, _, he⟩ <;> rw [he] at h <;> cases h
  · exact txAttempt_report hb _
  · exact .inl (hf.trans (noReport_abort _ _ _))
  · have hbuild : NoReport s ((s.fileRead s.fileIdx s.offset s.take).buildData chunk) := hf.trans (.same (by simp) (by simp))
    refine (txAttempt_report (by simpa [State.txBounded_iff] using hb) _).imp hbuild.trans fun ⟨hq, ho⟩ =>
      ⟨?_, hbuild.oneReport ?_ ?_ ho⟩
    · simpa using hq
    · simp
    · simp

/-- The entry part of the terminator makes no event. -/
theorem noReport_enterTerm (s : State) : NoReport s s.enterTerm := by
  unfold State.enterTerm
  split
  · exact .same rfl rfl
  · exact .same (by simp) (by simp)

theorem State.enterTerm_txState (s : State) : s.enterTerm.txState = s.txState := by
  unfold State.enterTerm
  split <;> simp

theorem term_noReport {s : State} (hb : s.txBounded = true) (hq : s.txState = .sendingTerminator) (bs : List Byte) :
    NoReport s (s.enterTerm.txAttempt bs) := by
  have hb' : s.enterTerm.txBounded = true := by
    rw [State.txBounded_iff, (sameSession_enterTerm s).cfg, State.enterTerm_txState]
    exact (State.txBounded_iff s).mp hb
  exact (noReport_enterTerm s).trans (txAttempt_noReport hb' (by simp [State.enterTerm_txState, hq]) bs)

/-! ### The receiver -/

theorem noReport_enterAwaitHeader (s : State) : NoReport s s.enterAwaitHeader := .same rfl rfl

theorem noReport_ackCrq (s : State) : NoReport s s.ackCrq := (noReport_chWrite [ACK] s).trans (noReport_chWrite [CRQ] _)

theorem noReport_onHeader (s : State) : NoReport s s.onHeader := by
  rcases s.onHeader_cases with ⟨_, h⟩ | ⟨_, h⟩ | ⟨name, size, _, ⟨_, h⟩ | ⟨_, h⟩⟩ <;> rw [h]
  · exact (noReport_chWrite [ACK] s).trans (noReport_finish _)
  · exact noReport_fail _ s
  all_goals have hopen : NoReport s (s.fileOpen name size) := .event rfl nofun rfl
  · exact (hopen.trans (noReport_ackCrq _)).trans (.same (by simp) (by simp))
  · exact hopen.trans (noReport_abort _ _ _)

theorem noReport_headerOutcome (d : DecodeOutcome) (s : State) : NoReport s (s.headerOutcome d) := by
  rcases s.headerOutcome_cases d with ⟨_, h⟩ | ⟨_, h⟩ | ⟨_, h⟩ | ⟨_, h⟩ <;> rw [h]
  · exact noReport_onHeader s
  · exact (noReport_ackCrq s).trans (noReport_enterAwaitHeader _)
  · exact noReport_cancelTest s
  · exact noReport_fail _ s

theorem noReport_eotOutcome (d : DecodeOutcome) (s : State) : NoReport s (s.eotOutcome d) := by
  rcases s.eotOutcome_cases d with ⟨_, h⟩ | ⟨_, h⟩ | ⟨_, _, h⟩ <;> rw [h]
  · have hr : NoReport s { s.ackCrq with retry := 0 } := (noReport_ackCrq s).trans (.same rfl rfl)
    exact hr.trans (noReport_enterAwaitHeader _)
  · exact noReport_cancelTest s
  · exact noReport_fail _ s

/-- The report of an accepted packet says the bytes counted (rule R34). -/
theorem oneReport_dataAccepted {s : State} (h : s.bytesDone = s.written) : OneReport s s.dataAccepted :=
  ⟨⟨[.write [ACK]], by simp [h], by simp⟩, by simp, by simp, by simp⟩

/-- A decoded data packet reports exactly when its bytes are in the file. -/
theorem onData_report (s : State) : NoReport s s.onData ∨ OneReport s s.onData := by
  have hwrite (bs : List Byte) : NoReport s (s.fileWrite bs) := .event rfl nofun rfl
  have hcount (bs : List Byte) (k : Nat) : NoReport s ((s.fileWrite bs).count k) := .event rfl nofun rfl
  have hclose (bs : List Byte) (k : Nat) : NoReport s ((s.fileWrite bs).count k).fileClose :=
    (hcount bs k).trans (.event rfl nofun rfl)
  rcases s.onData_cases with ⟨_, h⟩ | ⟨_, _, h⟩ | ⟨_, _, _, h⟩ | ⟨_, _, _, h⟩ <;> rw [h]
  · exact .inl ((hwrite _).trans (noReport_abort _ _ _))
  · exact .inr ((hcount _ _).oneReport rfl rfl (oneReport_dataAccepted rfl))
  · exact .inl ((hclose _ _).trans (noReport_abort _ _ _))
  · exact .inr ((hclose _ _).oneReport rfl rfl (oneReport_dataAccepted rfl))

theorem dataOutcome_report (d : DecodeOutcome) (s : State) : NoReport s (s.dataOutcome d) ∨ OneReport s (s.dataOutcome d) := by
  rcases s.dataOutcome_cases d with ⟨_, h⟩ | ⟨_, h⟩ | ⟨_, _, h⟩ <;> rw [h]
  · exact onData_report s
  · exact .inl (noReport_cancelTest s)
  · exact .inl (noReport_fail _ s)

/-! ### A step of each role -/

theorem step_sender_report {s t : State} (hr : s.cfg.role = .sender) (h : step s = .next t) :
    NoReport s t ∨ s.txState = .sendingData ∧ OneReport s t := by
  have hrun (h1 : s.txState ≠ .idle) (h2 : s.txState ≠ .done) (h3 : s.txState ≠ .aborted) : s.txBounded = true :=
    (State.txBounded_iff s).mpr ⟨hr, h1, h2, h3⟩
  rcases step_tx hr h with ⟨_, _, rfl⟩ | ⟨_, _, _, _, rfl⟩ | ⟨hq, _, rfl⟩ | ⟨hq, _, ha⟩ | ⟨hq, _, ha⟩ | ⟨hq, _, rfl⟩ |
    ⟨hq, _, rfl⟩
  · exact awaitOne_report s
  · exact .inl (.same rfl rfl)
  all_goals have hb : s.txBounded = true := hrun (by simp [hq]) (by simp [hq]) (by simp [hq])
  · exact txAttempt_report hb _
  · exact .inl (header_noReport hb hq ha)
  · exact data_report hb ha
  · exact txAttempt_report hb _
  · exact .inl (term_noReport hb hq _)

theorem step_receiver_report {s t : State} (hr : s.cfg.role = .receiver) (h : step s = .next t) :
    NoReport s t ∨ s.rxState = .receivingData ∧ OneReport s t := by
  have hdecode := noReport_rxDecode s
  rcases step_rx hr h with ⟨_, _, _, rfl⟩ | ⟨_, _, rfl⟩ | ⟨_, _, rfl⟩ | ⟨hq, _, rfl⟩ | ⟨_, _, rfl⟩
  · exact .inl (.same rfl rfl)
  · exact .inl ((noReport_chWrite [CRQ] s).trans (noReport_enterAwaitHeader _))
  · exact .inl (hdecode.trans (noReport_headerOutcome _ _))
  · exact (dataOutcome_report _ _).imp hdecode.trans fun ho =>
      ⟨hq, hdecode.oneReport (State.decodeUnit_cfg _ _ s) (State.decodeUnit_seq0 _ _ s) ho⟩
  · exact .inl (hdecode.trans (noReport_eotOutcome _ _))

/-- Settles O57, by role: a step makes no report, or one as its last event, of an accepted data packet. -/
theorem progressReports : Obligations.ProgressReports := by
  unfold Obligations.ProgressReports
  intro s t _ h
  have hstep : NoReport s t ∨ (s.txState = .sendingData ∨ s.rxState = .receivingData) ∧ OneReport s t := by
    cases hr : s.cfg.role
    · exact (step_sender_report hr h).imp_right (And.imp_left .inl)
    · exact (step_receiver_report hr h).imp_right (And.imp_left .inr)
  rcases hstep with ⟨⟨new, ht, hn⟩, hd⟩ | ⟨hq, ⟨older, ht, ho⟩, hd, hseq, hretry⟩
  · exact ⟨new, ht, .inl ⟨hn, hd⟩⟩
  · exact ⟨_ :: older, ht, .inr ⟨older, rfl, ho, hd, hseq, hretry, hq⟩⟩

end Sys2Proof.Machine
end

section
/-! Proofs: the table ROM (rules R39, R114), padding (rule R133), and what a step performs (rules R35, R160, R190). -/

namespace Sys2Proof.Machine

/-- Settles O5: the listing is finite, and each entry is computed from its index. -/
theorem romListing : Obligations.RomListing := by
  unfold Obligations.RomListing
  exact ⟨by decide +kernel, by decide +kernel, by decide, by decide⟩

/-! ### Padding -/

/-- A byte of the padded chunk: the chunk, then 0x00. -/
theorem getElem_padBytes {chunk : List Byte} {n a : Nat} (h : a < (padBytes chunk n).length) :
    (padBytes chunk n)[a] = if hc : a < chunk.length then chunk[a] else 0x00#8 := by
  simp [padBytes, zeros, List.getElem_append]

/-- Settles O9: a byte after the write of the padded chunk is the chunk's, a zero, or the byte there before. -/
theorem padWrites : Obligations.PadWrites := by
  unfold Obligations.PadWrites
  intro chunk n s hwf hle
  have hlen := length_padBytes hle
  have hexec : exec (.pad chunk n) s =
      if n ≤ s.cfg.payloadMax then .next (s.setPayload (padBytes chunk n)) else .fault .bufferRange := by
    show (if (padBytes chunk n).length ≤ s.cfg.payloadMax then _ else _) = _
    rw [hlen]
  refine ⟨fun hn => ⟨s.setPayload (padBytes chunk n), by rw [hexec, if_pos hn], rfl, fun a => ?_⟩, fun hn => by
    rw [hexec, if_neg (by omega)]⟩
  rw [State.setPayload_buf, Memory.read_writeBlock hwf]
  simp only [hlen, Nat.zero_le, Nat.zero_add, true_and, Nat.sub_zero, getElem_padBytes]
  by_cases hc : a < chunk.length
  · simp [hc, Nat.lt_of_lt_of_le hc hle]
  · simp [hc]

/-! ### One step -/

/-- Outside response position a step is the operation the state register names. -/
theorem step_of_nextOp {s : State} {i : Instr} (hst : s.standing ≠ .response) (hi : s.nextOp = some i) : step s = exec i s := by
  unfold step
  rw [if_neg hst, hi]

theorem State.standing_ne_response_of_pos {s : State} (h : s.pos = .none) : s.standing ≠ .response :=
  fun hc => (State.standing_response hc).2 h

theorem State.standing_ne_response_of_receiver {s : State} (h : s.cfg.role = .receiver) : s.standing ≠ .response := fun hc => by
  have := ((State.txBounded_iff s).mp (State.standing_response hc).1).1
  rw [h] at this; cases this

theorem State.nextOp_sender {s : State} (h : s.cfg.role = .sender) : s.nextOp = s.txOp := by simp [State.nextOp, h]

theorem State.nextOp_receiver {s : State} (h : s.cfg.role = .receiver) : s.nextOp = s.rxOp := by simp [State.nextOp, h]

/-- Settles O47: by `step_of_nextOp`, with the operation read off the state register. -/
theorem stepRunsOperation : Obligations.StepRunsOperation := by
  unfold Obligations.StepRunsOperation
  intro s
  refine ⟨fun hr hp => ?_, fun hr => ?_⟩
  · have hop {i : Instr} (hi : s.txOp = some i) : step s = exec i s :=
      step_of_nextOp (State.standing_ne_response_of_pos hp) ((State.nextOp_sender hr).trans hi)
    refine ⟨?_, ?_, ?_, ?_, ?_, ?_⟩ <;> exact fun hq => hop (by rw [State.txOp, hq])
  · have hop {i : Instr} (hi : s.rxOp = some i) : step s = exec i s :=
      step_of_nextOp (State.standing_ne_response_of_receiver hr) ((State.nextOp_receiver hr).trans hi)
    refine ⟨?_, ?_, ?_, ?_, ?_⟩ <;> exact fun hq => hop (by rw [State.rxOp, hq])

end Sys2Proof.Machine
end

section
/-! Proofs: the operations of the sender that send a header and data, answered as they should be (rules R163, R164, R166). -/

namespace Sys2Proof.Machine

/-- The awaited response byte is accepted. -/
theorem State.awaitOne_accepts {s : State} {b : Byte} (hrd : (s.chRead 1).rd = [b]) (hcan : b ≠ CAN)
    (he : b = (s.chRead 1).expected) : s.awaitOne = ((s.chRead 1).setResp b).accepted := by
  have hone : s.awaitOne = (s.chRead 1).onResponse b := by rw [State.awaitOne, hrd]
  rw [hone, State.onResponse, if_neg hcan, if_pos he]

/-! ### The entry part of `TX.HEADER` -/

theorem State.fileInfoAnswer_some {s : State} {i : Nat} {f : SrcFile} (hio : s.store.ioErrors.head? ≠ some true)
    (hf : s.files[i]? = some f) : s.fileInfoAnswer i = some (f.name, f.size) := by
  rw [State.fileInfoAnswer, if_neg (mt (FileStore.ioError_iff _).mp hio), hf]

/-- The registers a header frame is built into (rule R163). -/
theorem State.buildHeader_eq (s : State) {name : List Byte} {size : Nat} (h : headerFits name size) :
    s.buildHeader name size = { s with
      size := size, fresh := false,
      seq0 := if s.cfg.seqResetPerFile then 0x00#8 else s.seq0, seq1 := if s.cfg.seqResetPerFile then 0xFF#8 else s.seq1,
      buf := s.buf.writeBlock 0 (headerBytes name size), marker := 0x01#8, n := 128, crc := crcOf (headerBytes name size),
      frame := builtFrame .soh (if s.cfg.seqResetPerFile then 0x00#8 else s.seq0) (headerBytes name size) } := by
  simp only [State.buildHeader, State.payload_header _ h]
  rfl

section
variable {s : State} (hr : s.cfg.role = .sender) (hl : s.cfg.legal)
include hr hl

/-- `TX.HEADER` in its state is its entry part and the attempt after it. -/
theorem exec_txHeader (hq : s.txState = .sendingHeader) : exec .txHeader s = settle (attemptAfter s.enterHeader) :=
  inTx_eq hr hq hl (by decide) (by decide)

/-- `TX.HEADER` with its frame built is the attempt alone. -/
theorem exec_txHeader_built (hq : s.txState = .sendingHeader) (hf : s.fresh = false) :
    exec .txHeader s = settle (.next (s.txAttempt s.frame)) := by
  rw [exec_txHeader hr hl hq, State.enterHeader, if_pos hf]; rfl

/-- `TX.DATA` with its frame built is the attempt alone. -/
theorem exec_txData_built (hq : s.txState = .sendingData) (hf : s.fresh = false) :
    exec .txData s = settle (.next (s.txAttempt s.frame)) := by
  refine (inTx_eq hr hq hl (by decide) (by decide)).trans ?_
  rw [State.enterData, if_pos hf]; rfl

end

/-- Settles O27: both sides are the attempt with the frame that the entry part builds. -/
theorem txHeaderEntry : Obligations.TxHeaderEntry := by
  unfold Obligations.TxHeaderEntry
  intro s f hr hq hl hfresh hio hf q0 q1 p
  have hinfo := State.fileInfoAnswer_some hio hf
  rw [exec_txHeader hr hl hq]
  rcases s.enterHeader_cases with ⟨hc, _⟩ | ⟨_, hc, _⟩ | ⟨name, size, _, hi, hfits, hsize, he⟩ |
    ⟨name, size, _, hi, hunfit, he⟩
  · rw [hfresh] at hc; cases hc
  · rw [hinfo] at hc; cases hc
  · obtain ⟨rfl, rfl⟩ : f.name = name ∧ f.size = size := by simpa [hinfo] using hi
    refine ⟨fun _ _ => ?_, fun hc => absurd ⟨hfits, hsize⟩ hc⟩
    rw [he, State.buildHeader_eq _ hfits, State.fileInfo, hinfo]
    refine Eq.symm ((exec_txHeader_built ?_ ?_ ?_ ?_).trans ?_)
    exacts [hr, hl, hq, rfl, rfl]
  · obtain ⟨rfl, rfl⟩ : f.name = name ∧ f.size = size := by simpa [hinfo] using hi
    refine ⟨fun h1 h2 => absurd ⟨h1, h2⟩ hunfit, fun _ => ?_⟩
    rw [he]; rfl

/-! ### An attempt that is answered -/

/-- A read that returned a byte has not blocked. -/
theorem State.live_chRead_byte {s : State} (h : s.live) {b : Byte} (hrd : (s.chRead 1).rd = [b]) : (s.chRead 1).live :=
  State.live_chRead_full h (by rw [hrd]; simp)

/-- The first of two responses is accepted: the sender waits for the second. -/
theorem State.txAttempt_second {s : State} (hq : s.txState = .sendingHeader ∨ s.txState = .awaitingEot) {bs : List Byte}
    (hack : ((s.chWrite bs).chRead 1).rd = [ACK]) :
    s.txAttempt bs = ((((s.send bs).chRead 1).setResp ACK).setPos .resp2).awaitOne := by
  have h1 : (s.send bs).awaitOne = (((s.send bs).chRead 1).setResp ACK).setPos .resp2 := by
    rw [State.awaitOne_accepts (s := s.send bs) hack (by decide) (by rcases hq with hq | hq <;> simp [State.expected_eq, hq])]
    rcases hq with hq | hq <;> simp [State.accepted, hq]
  rw [State.txAttempt, h1]
  exact if_pos rfl

/-! A read and the write of another register commute. -/

theorem State.chRead_setResp (k : Nat) (b : Byte) (s : State) : (s.setResp b).chRead k = (s.chRead k).setResp b := rfl
theorem State.chRead_setPos (k : Nat) (p : Pos) (s : State) : (s.setPos p).chRead k = (s.chRead k).setPos p := rfl
/-- The registers an acknowledged header writes (rule R164). -/
theorem State.headerDone_eq (s : State) : s.headerDone = { s with
    seq0 := s.seq0 + 1#8, seq1 := s.seq1 - 1#8, retry := 0, offset := 0, bytesDone := 0, txState := .sendingData, fresh := true,
    pos := .none, outcome := none, hdr := none } := rfl

/-- The registers an acknowledged data packet writes (rule R166), from the values they had in an earlier state of the attempt. -/
theorem State.dataDone_eq {s u : State} (hc : u.cfg = s.cfg) (h0 : u.seq0 = s.seq0) (h1 : u.seq1 = s.seq1)
    (ho : u.offset = s.offset) (hz : u.size = s.size) (hd : u.draws = s.draws) : u.dataDone = { u with
      seq0 := s.seq0 + 1#8, seq1 := s.seq1 - 1#8, offset := s.offset + s.take, bytesDone := s.offset + s.take, retry := 0,
      elapsed := Config.freeElapsed s.cfg.role s.draws, draws := s.draws + 1,
      trace := .progress (s.offset + s.take) s.size (Config.freeElapsed s.cfg.role s.draws) :: u.trace,
      txState := if s.size ≤ s.offset + s.take then .awaitingEot else .sendingData, fresh := decide (s.offset + s.take < s.size),
      pos := .none, outcome := none, hdr := none } := by
  rw [State.take, ← hc, ← h0, ← h1, ← ho, ← hz, ← hd]
  rfl

/-- Settles O28: two waits, the first for `ACK`, the second for 0x43, each accepted. -/
theorem txHeader : Obligations.TxHeader := by
  unfold Obligations.TxHeader
  intro s hr hq hl hfresh hlive hack hcrq
  have h2 : s.txAttempt s.frame =
      (((((s.send s.frame).chRead 1).setResp ACK).setPos .resp2).chRead 1 |>.setResp CRQ).headerDone := by
    rw [State.txAttempt_second (.inl hq) hack,
      State.awaitOne_accepts (b := CRQ) (s := (((s.send s.frame).chRead 1).setResp ACK).setPos .resp2)
        (by simpa [CRQ] using hcrq) (by decide) (by simp [State.expected_eq, hq])]
    simp [State.accepted, hq]
  rw [exec_txHeader_built hr hl hq hfresh, h2, settle_next]
  · simp [State.send, State.chRead_setPos, State.chRead_setResp, State.headerDone_eq, CRQ]
  · have h1 := State.live_chRead_byte ((s.live_chWrite s.frame).mpr hlive) hack
    simpa [State.live] using State.live_chRead_byte h1 hcrq

/-- Settles O32: one wait for `ACK`, accepted. -/
theorem txData : Obligations.TxData := by
  unfold Obligations.TxData
  intro s hr hq hl hfresh hlive hack o
  have h1 : (s.send s.frame).awaitOne = (((s.send s.frame).chRead 1).setResp ACK).dataDone := by
    rw [State.awaitOne_accepts (b := ACK) (s := s.send s.frame) hack (by decide) (by simp [State.expected_eq, hq])]
    simp [State.accepted, hq]
  rw [exec_txData_built hr hl hq hfresh, State.txAttempt, h1, if_neg (by simp), settle_next]
  · have ho : s.offset + s.take = o := rfl
    rw [State.dataDone_eq (s := s) (u := ((s.send s.frame).chRead 1).setResp ACK) (by simp) (by simp) (by simp) (by simp) (by simp)
      (by simp), ho]
    simp [State.send, State.chRead_setPos, hr, ACK]
  · simpa [State.live] using State.live_chRead_byte ((s.live_chWrite s.frame).mpr hlive) hack

end Sys2Proof.Machine
end

section
/-! Proofs: the operations of the receiver that answer (rules R192, R193, R197), and the symbols where they are not expected (rules R91,
R92, R143). -/

namespace Sys2Proof.Machine

/-! ### The answers of the receiver -/

/-- Settles O38: the operation is one write and the entry to `AwaitingHeader`. -/
theorem rxHandshake : Obligations.RxHandshake := by
  unfold Obligations.RxHandshake
  intro s hr hq hl hlive
  have hexec : exec .rxHandshake s = settle (.next (s.chWrite [CRQ]).enterAwaitHeader) := inRx_eq hr hq hl (by decide) (by decide)
  rw [hexec, settle_next]
  · rfl
  · simpa [State.live] using hlive

/-- The registers an accepted data packet of `k` file bytes writes (rule R197), from the values they had before `DECODE`. -/
theorem State.dataAccepted_count {s u : State} (k : Nat) (hc : u.cfg = s.cfg) (h0 : u.seq0 = s.seq0) (h1 : u.seq1 = s.seq1)
    (hz : u.size = s.size) (hw : u.written = s.written) (hd : u.draws = s.draws) :
    (u.count k).dataAccepted = { u.chWrite [ACK] with
      written := s.written + k, bytesDone := s.written + k, seq0 := s.seq0 + 1#8, seq1 := s.seq1 - 1#8, retry := 0,
      elapsed := Config.freeElapsed s.cfg.role s.draws, draws := s.draws + 1,
      trace := .progress (s.written + k) s.size (Config.freeElapsed s.cfg.role s.draws) :: (u.chWrite [ACK]).trace,
      rxState := if s.size ≤ s.written + k then .awaitingNextOrEnd else .receivingData,
      pos := .none, outcome := none, hdr := none } := by
  rw [← hc, ← h0, ← h1, ← hz, ← hw, ← hd]
  rfl

/-- A successful `FileClose` closes the file opened last. -/
theorem State.fileClose_open {s : State} {x : StoredFile} {older : List StoredFile} (hs : s.store.stored = x :: older)
    (h : s.fileUseOk = true) :
    s.fileClose = { s with
      store := { ioErrors := s.store.ioErrors.tail, stored := { x with closed := true } :: older },
      trace := .fileClose true :: s.trace } := by
  simp [State.fileClose, h, FileStore.updateLast, FileStore.called, hs]

/-- Settles O41: the successful branches of `State.onData`, the registers `DECODE` leaves read in the state before it. -/
theorem rxData : Obligations.RxData := by
  unfold Obligations.RxData
  intro s d x older hr hq hl hlive hd hs hc hio take bytes w answer
  have hsame : SameBesidesDecode s d := by
    have := sameBesidesDecode_decodeUnit s.seq0 s.seq1 s; rwa [hd] at this
  have hexec : exec .rxData s = .next d.onData := execRxData_packet hr hq hl hd hlive
  have htake : d.rxTake = take := by rw [State.rxTake, hsame.size, hsame.written]
  have hbytes : (d.payload d.n).take take = bytes := rfl
  have hk := State.fileUseOk_open hs hc (mt (FileStore.ioError_iff _).mp hio)
  have hwrite := State.fileWrite_open hs hk bytes
  have hstored : (d.fileWrite bytes).store.stored = { x with data := x.data ++ bytes } :: older := by rw [hwrite]
  have haccept (u : State) (hc : u.cfg = s.cfg) (h0 : u.seq0 = s.seq0) (h1 : u.seq1 = s.seq1) (hz : u.size = s.size)
      (hw : u.written = s.written) (hd : u.draws = s.draws) :
      (u.count take).dataAccepted = answer u (if s.size ≤ w then .awaitingNextOrEnd else .receivingData) := by
    rw [State.dataAccepted_count take hc h0 h1 hz hw hd, hr]
    rfl
  have hcases := d.onData_cases
  simp only [htake, hbytes, hsame.written, hsame.size, hk] at hcases
  rcases hcases with ⟨h, _⟩ | ⟨_, hlt, he⟩ | ⟨_, hle, hclose, _⟩ | ⟨_, hle, hclose, he⟩
  · cases h
  · refine ⟨fun _ => ?_, fun hle => absurd hle (Nat.not_le.mpr hlt)⟩
    rw [hexec, he, haccept (d.fileWrite bytes) hsame.cfg hsame.seq0 hsame.seq1 hsame.size hsame.written hsame.draws,
      if_neg (Nat.not_le.mpr hlt), hwrite]
  · refine ⟨fun hlt => absurd hle (Nat.not_le.mpr hlt), fun _ hio2 => ?_⟩
    have hok := State.fileUseOk_open hstored hc (mt (FileStore.ioError_iff _).mp (by rw [hwrite]; exact hio2))
    rw [hclose] at hok; cases hok
  · refine ⟨fun hlt => absurd hle (Nat.not_le.mpr hlt), fun _ _ => ?_⟩
    rw [hexec, he, State.fileClose_count,
      haccept (d.fileWrite bytes).fileClose hsame.cfg hsame.seq0 hsame.seq1 hsame.size hsame.written hsame.draws, if_pos hle,
      State.fileClose_open hstored hclose, hwrite]

/-! ### Misplaced symbols -/

/-- A receiver that decodes stands in marker position. -/
theorem State.standing_marker {s : State} (h : s.rxDecoding = true) : s.standing = .marker := if_pos h

/-- A sender that waits for a response stands in response position. -/
theorem State.standing_of_response {s : State} (h : s.txBounded = true) (hp : s.pos ≠ .none) : s.standing = .response := by
  have hd : s.rxDecoding = false := by
    rw [Bool.eq_false_iff]
    intro hc
    have hr := ((State.rxDecoding_iff s).mp hc).1
    rw [((State.txBounded_iff s).mp h).1] at hr
    cases hr
  simp [State.standing, hd, h, hp]

/-- Any other engine is not reading. -/
theorem State.standing_deaf {s : State} (hd : s.rxDecoding = false) (h : s.txBounded = false ∨ s.pos = .none) : s.standing = .deaf := by
  rcases h with h | h <;> simp [State.standing, hd, h]

/-- A failed attempt reads nothing, so it settles. -/
theorem settle_fail {s : State} (h : s.live) (e : Cause) : settle (.next (s.fail e)) = .next (s.fail e) :=
  settle_next (by simpa [State.live] using h)

/-- An unrecognised marker is a failed attempt in every state that decodes. -/
theorem State.receive_unrecognized {s : State} (h : s.rxDecoding = true) : s.receive .unrecognized = s.fail .unrecognized := by
  rcases ((State.rxDecoding_iff s).mp h).2 with hq | hq | hq <;> rw [State.receive, hq] <;> rfl

/-- A byte that no sender waits for is a failed attempt, `Unexpected` (rule R143). -/
theorem State.onResponse_unexpected {s : State} {b : Byte} (hcan : b ≠ CAN) (hnak : b ≠ NAK) (hack : b ≠ ACK) (hcrq : b ≠ CRQ) :
    s.onResponse b = (s.setResp b).fail .unexpected := by
  have he : b ≠ s.expected := by rw [State.expected_eq]; split <;> assumption
  rw [State.onResponse, if_neg hcan, if_neg he, respCause, if_neg hnak]

theorem exec_frame (m : Marker) (s0 s1 : Byte) (p : List Byte) (c : Half) (s : State) :
    exec (m.frame s0 s1 p c) s = settle (s.onFrame m s0 s1 p c) := by
  cases m <;> rfl

/-- Bytes that reach an engine that is not reading, on a Channel that is not torn down. -/
theorem State.arrive_eq {s : State} (h : s.chan.torn = false) (bs : List Byte) :
    s.arrive bs = { s with chan := { s.chan with inBuf := s.chan.inBuf ++ bs } } := by
  simp [State.arrive, Channel.arrive, h]

/-- Settles O45, by the position the engine stands in. -/
theorem misplacedSymbols : Obligations.MisplacedSymbols := by
  unfold Obligations.MisplacedSymbols
  intro s m s0 s1 p c hlive
  refine ⟨fun hd => ?_, fun hb hp => ?_, fun hd hn ht => ?_⟩
  · have hcontrol (b : Byte) : settle (.next (s.onControl b .unrecognized)) = .next ((s.setMarker b).fail .unrecognized) := by
      rw [State.onControl, State.standing_marker hd]
      exact (congrArg (fun t => settle (.next t)) (State.receive_unrecognized (s := s.setMarker b) hd)).trans
        (settle_fail (s := s.setMarker b) hlive _)
    exact ⟨hcontrol ACK, hcontrol CRQ⟩
  · have hst := State.standing_of_response hb hp
    have hunexpected (u : State) (hu : u.live) {b : Byte} (hcan : b ≠ CAN) (hnak : b ≠ NAK) (hack : b ≠ ACK) (hcrq : b ≠ CRQ) :
        settle (.next (u.onResponse b)) = .next ((u.setResp b).fail .unexpected) := by
      rw [State.onResponse_unexpected hcan hnak hack hcrq]
      exact settle_fail (s := u.setResp b) hu _
    refine ⟨?_, ?_⟩
    · show settle (.next (s.onControl EOT .ctrlEot)) = _
      rw [State.onControl, hst]
      exact hunexpected s hlive (by decide) (by decide) (by decide) (by decide)
    · rw [exec_frame, State.onFrame, hst]
      exact hunexpected (s.leaveBody m s0 s1 p c) hlive (by cases m <;> decide) (by cases m <;> decide) (by cases m <;> decide)
        (by cases m <;> decide)
  · have hst := State.standing_deaf hd hn
    have harrive (bs : List Byte) : settle (.next (s.arrive bs)) =
        .next { s with chan := { s.chan with inBuf := s.chan.inBuf ++ bs } } := by
      rw [State.arrive_eq ht]; exact settle_next hlive
    have hcontrol (b : Byte) (d : DecodeOutcome) : settle (.next (s.onControl b d)) =
        .next { s with chan := { s.chan with inBuf := s.chan.inBuf ++ [b] } } := by
      rw [State.onControl, hst]; exact harrive [b]
    refine ⟨?_, hcontrol ACK _, hcontrol CRQ _, hcontrol EOT _, hcontrol NAK _, hcontrol CAN _⟩
    rw [exec_frame, State.onFrame, hst]
    exact harrive _

end Sys2Proof.Machine
end

section
/-! Proofs: one data packet from end to end over a line that delivers every byte (rules R24, R57, R166, R197, R204, R241). -/

namespace Sys2Proof.Machine

/-! ### Bytes on their way -/

/-- A read on a quiet line leaves what has been written. -/
theorem Channel.flushed_afterRead {c : Channel} (h : c.quiet) (n : Nat) : (c.afterRead n).flushed.wire = c.flushed.wire := by
  rw [Channel.afterRead_quiet h]
  simp [Channel.flushed, h.1]

/-- A write on a quiet line puts its bytes behind what has been written. -/
theorem Channel.flushed_afterWrite {c : Channel} (h : c.quiet) (bs : List Byte) :
    (c.afterWrite bs).flushed.wire = c.flushed.wire ++ bs := by
  rw [Channel.afterWrite_quiet h]
  simp [Channel.flushed, h.1]

theorem Channel.flushed_quiet {c : Channel} (h : c.quiet) : c.flushed.quiet := by
  rw [Channel.flushed, if_neg (by simp [h.1])]
  exact h

theorem Channel.flushed_inBuf (c : Channel) : c.flushed.inBuf = c.inBuf := by
  unfold Channel.flushed; split <;> rfl

/-- Flushing twice is flushing once. -/
theorem Channel.flushed_flushed (c : Channel) : c.flushed.flushed = c.flushed := by
  cases h : c.torn <;> simp [Channel.flushed, h]

theorem Channel.arrive_quiet {c : Channel} (h : c.quiet) (bs : List Byte) : c.arrive bs = { c with inBuf := c.inBuf ++ bs } := by
  simp [Channel.arrive, h.1]

theorem Channel.flushed_arrive {c : Channel} (h : c.quiet) (bs : List Byte) : (c.arrive bs).flushed.wire = c.flushed.wire := by
  simp [Channel.arrive_quiet h, Channel.flushed, h.1]

/-- The bytes of one write are in flight when all that was written before has been delivered. -/
theorem inFlight_of_write {c : Channel} {t : State} (h : c.quiet) {bs : List Byte} (ht : t.chan = c.afterWrite bs) {k : Nat}
    (hk : k = c.flushed.wire.length) : inFlight t k = bs := by
  rw [inFlight, State.flushed, ht, Channel.flushed_afterWrite h, hk, List.drop_left]

/-- Reads of any sizes on a quiet line leave it quiet and leave what has been written. -/
theorem State.afterReads_quiet {s : State} (h : s.quiet) (ns : List Nat) :
    (s.afterReads ns).quiet ∧ (s.afterReads ns).chan.flushed.wire = s.chan.flushed.wire := by
  induction ns generalizing s with
  | nil => exact ⟨h, rfl⟩
  | cons n ns ih =>
    obtain ⟨hq, hw⟩ := ih (s := s.chRead n) (Channel.quiet_afterRead h n)
    exact ⟨hq, hw.trans (Channel.flushed_afterRead h n)⟩

@[simp] theorem State.flushed_cfg (s : State) : s.flushed.cfg = s.cfg := rfl
@[simp] theorem State.flushed_seq0 (s : State) : s.flushed.seq0 = s.seq0 := rfl
@[simp] theorem State.flushed_seq1 (s : State) : s.flushed.seq1 = s.seq1 := rfl
@[simp] theorem State.flushed_size (s : State) : s.flushed.size = s.size := rfl
@[simp] theorem State.flushed_offset (s : State) : s.flushed.offset = s.offset := rfl
@[simp] theorem State.flushed_written (s : State) : s.flushed.written = s.written := rfl
@[simp] theorem State.flushed_txState (s : State) : s.flushed.txState = s.txState := rfl
@[simp] theorem State.flushed_rxState (s : State) : s.flushed.rxState = s.rxState := rfl
@[simp] theorem State.flushed_pos (s : State) : s.flushed.pos = s.pos := rfl
@[simp] theorem State.flushed_store (s : State) : s.flushed.store = s.store := rfl
@[simp] theorem State.flushed_chan (s : State) : s.flushed.chan = s.chan.flushed := rfl

/-! ### The moves of a link -/

theorem Link.run_cons {m : LinkMove} {ms : List LinkMove} {l l' : Link} (h : l.step m = .next l') : l.run (m :: ms) = l'.run ms := by
  simp [Link.run, h]

/-- The sender moves on a line that delivers what is in flight to it. -/
theorem Link.step_tx {l : Link} {t : State} (h : (l.tx.arrive (inFlight l.rx l.rxSent)).txMove = .next t) :
    l.step (.tx none) = .next { l with tx := t, rx := l.rx.flushed, rxSent := l.rx.flushed.chan.wire.length } := by
  simp [Link.step, Link.moveTx, h]

/-- The receiver moves on a line that delivers what is in flight to it. -/
theorem Link.step_rx {l : Link} {r : State} (h : Machine.step (l.rx.arrive (inFlight l.tx l.txSent)) = .next r) :
    l.step (.rx none) = .next { l with rx := r, tx := l.tx.flushed, txSent := l.tx.flushed.chan.wire.length } := by
  simp [Link.step, Link.moveRx, h]

/-! ### The request -/

/-- A sender at the start of a data packet, on a quiet line. -/
structure AtDataPacket (s : State) (f : SrcFile) : Prop where
  role : s.cfg.role = .sender
  state : s.txState = .sendingData
  pos : s.pos = .none
  fresh : s.fresh = true
  legal : s.cfg.legal
  quiet : s.quiet
  noError : s.store.ioErrors = []
  file : s.files[s.fileIdx]? = some f
  length : f.data.length = s.size
  le : s.offset ≤ s.size

/-- The file bytes of the next packet (rule R166). -/
def State.nextChunk (s : State) (f : SrcFile) : List Byte := (f.data.drop s.offset).take s.take

/-- Its payload. -/
def State.nextPayload (s : State) (f : SrcFile) : List Byte := padBytes (s.nextChunk f) (chunkSize s.cfg (s.size - s.offset))

/-- The sender that has written its packet. -/
def State.packetSent (s : State) (f : SrcFile) : State :=
  ((s.fileRead s.fileIdx s.offset s.take).buildData (s.nextChunk f)).send
    (builtFrame (chunkMarker s.cfg (s.size - s.offset)) s.seq0 (s.nextPayload f))

section
variable {s : State} {f : SrcFile} (h : AtDataPacket s f)
include h

theorem AtDataPacket.length_nextChunk : (s.nextChunk f).length = s.take := by
  have htake : s.take ≤ s.size - s.offset := Nat.min_le_right _ _
  have := h.length
  simp only [State.nextChunk, List.length_take, List.length_drop]
  omega

theorem AtDataPacket.length_nextPayload : (s.nextPayload f).length = chunkSize s.cfg (s.size - s.offset) :=
  length_padBytes (by rw [h.length_nextChunk]; exact Nat.min_le_left _ _)

/-- The chunk is what `FileRead` returns. -/
theorem AtDataPacket.fileReadAnswer : s.fileReadAnswer s.fileIdx s.offset s.take = some (s.nextChunk f) := by
  have htake : s.take ≤ s.size - s.offset := Nat.min_le_right _ _
  have hlen := h.length
  have hle := h.le
  have hio : ¬ s.store.ioError = true := by rw [FileStore.ioError_iff, h.noError]; simp
  rw [State.fileReadAnswer, if_neg hio, h.file]
  exact if_pos (by omega)

/-- The sender's move: the packet is built and written. -/
theorem AtDataPacket.txMove : s.txMove = .next (s.packetSent f) := by
  have henter : s.enterData = .ready ((s.fileRead s.fileIdx s.offset s.take).buildData (s.nextChunk f)) := by
    rw [State.enterData, if_neg (by simp [h.fresh]), h.fileReadAnswer]
  have hframe : ((s.fileRead s.fileIdx s.offset s.take).buildData (s.nextChunk f)).frame =
      builtFrame (chunkMarker s.cfg (s.size - s.offset)) s.seq0 (s.nextPayload f) :=
    State.buildData_frame (s.fileRead s.fileIdx s.offset s.take) h.length_nextChunk
  rw [State.txMove, if_neg (State.standing_ne_response_of_pos h.pos), State.txBegin, h.state]
  refine (inTx_eq h.role h.state h.legal (by decide) (by decide)).trans ?_
  rw [henter, State.txBegin.beginAfter, hframe]
  exact settle_next (by simp [State.live, h.quiet])

end

theorem State.packetSent_chan (s : State) (f : SrcFile) : (s.packetSent f).chan =
    s.chan.afterWrite (builtFrame (chunkMarker s.cfg (s.size - s.offset)) s.seq0 (s.nextPayload f)) := by
  simp [State.packetSent]

/-! ### The packet at the receiver -/

/-- A built frame on a quiet line is decoded as a packet with its payload (rules R140, R141). -/
theorem State.decodeUnit_builtFrame {s : State} (h : s.quiet) {m : Marker} {p : List Byte}
    (hm : payloadSize s.cfg.customSize m = some p.length) (hb : s.chan.inBuf = builtFrame m s.seq0 p)
    (hseq : s.seq1 = 0xFF#8 - s.seq0) :
    ∃ d, s.decodeUnit s.seq0 s.seq1 = (.packet, d) ∧ d.n = p.length ∧ d.payload d.n = p ∧ d.quiet ∧
      d.chan.flushed.wire = s.chan.flushed.wire := by
  obtain ⟨t, hd, ht, _, hq, _⟩ := State.decodeUnit_quiet h (s0 := s.seq0) (s1 := seqComplement s.seq0) (hi := hiByte (crcOf p))
    (lo := loByte (crcOf p)) (rest := []) hm (by rw [hb, List.append_nil]; rfl) s.seq0 s.seq1
  have hpayload : t.payload t.n = p := by
    rw [ht]
    exact Memory.readBlock_writeBlock _ p
  have hjudge : t.judge s.seq0 s.seq1 = .packet := by
    rw [State.judge, hpayload, if_neg (by simp [ht]), if_neg (by simp [ht, hseq, seqComplement]), if_neg (by simp [ht])]
  refine ⟨t.afterJudge s.seq0 s.seq1, by rw [hd, hjudge], by simp [ht], hpayload, hq, ?_⟩
  rw [State.afterJudge_chan, ht]
  exact (State.afterReads_quiet h _).2

/-- A receiver that waits for a data packet, on a quiet line. -/
structure AwaitsDataPacket (s : State) (x : StoredFile) (older : List StoredFile) : Prop where
  role : s.cfg.role = .receiver
  state : s.rxState = .receivingData
  legal : s.cfg.legal
  quiet : s.quiet
  noError : s.store.ioErrors = []
  stored : s.store.stored = x :: older
  opened : x.closed = false
  seq : s.seq1 = 0xFF#8 - s.seq0

/-- What a step of a receiver from `s` to `r` has done with a packet of payload `p` (rule R197). -/
structure PacketReceived (s r : State) (x : StoredFile) (older : List StoredFile) (p : List Byte) : Prop where
  written : r.written = s.written + min p.length (s.size - s.written)
  seq0 : r.seq0 = s.seq0 + 1#8
  stored : r.store.stored =
    { x with data := x.data ++ p.take (min p.length (s.size - s.written)), closed := decide (s.size ≤ r.written) } :: older
  state : r.rxState = if s.size ≤ r.written then .awaitingNextOrEnd else .receivingData
  reply : ∃ c : Channel, c.quiet ∧ c.flushed.wire = s.chan.flushed.wire ∧ r.chan = c.afterWrite [ACK]

/-- The receiver's move: the packet is accepted and acknowledged. -/
theorem AwaitsDataPacket.step {s : State} {x : StoredFile} {older : List StoredFile} (h : AwaitsDataPacket s x older) {m : Marker}
    {p : List Byte} (hm : payloadSize s.cfg.customSize m = some p.length) (hb : s.chan.inBuf = builtFrame m s.seq0 p) :
    ∃ r, step s = .next r ∧ PacketReceived s r x older p := by
  obtain ⟨d, hd, hn, hp, hq, hw⟩ := State.decodeUnit_builtFrame h.quiet hm hb h.seq
  have hstore : d.store = s.store := by
    have := State.decodeUnit_store s.seq0 s.seq1 s; rwa [hd] at this
  have hstep : Machine.step s = exec .rxData s := 
    step_of_nextOp (State.standing_ne_response_of_receiver h.role) (by rw [State.nextOp_receiver h.role, State.rxOp, h.state])
  have hdata := rxData s d x older h.role h.state h.legal (by simp [State.live, hq]) hd (by rw [hstore, h.stored]) h.opened
    (by rw [hstore, h.noError]; simp)
  rw [hn] at hp
  simp only [hn, show d.buf.readBlock 0 p.length = p from hp] at hdata
  obtain ⟨hmore, hlast⟩ := hdata
  rcases Nat.lt_or_ge (s.written + min p.length (s.size - s.written)) s.size with hlt | hle
  · refine ⟨_, hstep.trans (hmore hlt), rfl, rfl, ?_, ?_, d.chan, hq, hw, rfl⟩
    · simp [Nat.not_le.mpr hlt, h.opened]
    · exact (if_neg (Nat.not_le.mpr hlt)).symm
  · refine ⟨_, hstep.trans (hlast hle (by rw [hstore, h.noError]; simp)), rfl, rfl, ?_, ?_, d.chan, hq, hw, rfl⟩
    · simp [hle]
    · exact (if_pos hle).symm

/-! ### The acknowledgement -/

/-- The sender's move on an acknowledgement: the packet is done. -/
theorem State.txMove_ack {s : State} (hr : s.cfg.role = .sender) (hq : s.txState = .sendingData) (hp : s.pos = .resp1) (h : s.quiet)
    (hb : s.chan.inBuf = [ACK]) : s.txMove = .next ((s.chRead 1).setResp ACK).dataDone := by
  have hbounded : s.txBounded = true := (State.txBounded_iff s).mpr ⟨hr, by simp [hq], by simp [hq], by simp [hq]⟩
  obtain ⟨hrd, _, hquiet⟩ := State.chRead_quiet h (n := 1) (bs := [ACK]) (rest := []) hb rfl
  have hdone : s.awaitOne = ((s.chRead 1).setResp ACK).dataDone := by
    rw [State.awaitOne_accepts hrd (by decide) (by simp [State.expected_eq, hq])]
    simp [State.accepted, hq]
  rw [State.txMove, if_pos (State.standing_of_response hbounded (by simp [hp])), hdone]
  exact settle_next (by simp [State.live, h])

/-! ### The exchange -/

theorem State.arrive_nil {s : State} (h : s.quiet) : s.arrive [] = s := by
  rw [State.arrive_eq h.1, List.append_nil]

/-- An engine on a quiet line that has read all its input, when bytes arrive after its output has left. -/
theorem State.flushed_arrive {s : State} (h : s.quiet) (hin : s.chan.inBuf = []) (bs : List Byte) :
    (s.flushed.arrive bs).quiet ∧ (s.flushed.arrive bs).chan.inBuf = bs ∧
      (s.flushed.arrive bs).chan.flushed.wire = s.chan.flushed.wire := by
  have hq : s.chan.flushed.quiet := Channel.flushed_quiet h
  have hc : (s.flushed.arrive bs).chan = { s.chan.flushed with inBuf := bs } := by
    rw [State.arrive_chan, State.flushed_chan, Channel.arrive_quiet hq, Channel.flushed_inBuf, hin]
    rfl
  refine ⟨by rw [State.quiet_iff, hc]; exact hq, by rw [hc], ?_⟩
  rw [State.arrive_chan, State.flushed_chan, Channel.flushed_arrive hq, Channel.flushed_flushed]

/-- The payload begins with the file's bytes. -/
theorem AtDataPacket.take_nextPayload {s : State} {f : SrcFile} (h : AtDataPacket s f) :
    (s.nextPayload f).take s.take = s.nextChunk f :=
  List.take_left' h.length_nextChunk

/-- The bytes sent before and those of the packet are together the bytes sent after it. -/
theorem State.take_append_nextChunk (s : State) (f : SrcFile) :
    f.data.take s.offset ++ s.nextChunk f = f.data.take (s.offset + s.take) :=
  List.take_add.symm

/-- A packet carries at least one byte of what is left. -/
theorem State.take_pos {s : State} (h : s.offset < s.size) : 0 < s.take := by
  have := payloadSize_pos (payloadSize_chunkMarker s.cfg (s.size - s.offset))
  simp only [State.take, chunkTake]
  omega

/-- The sender whose packet has been acknowledged. -/
def State.packetAcked (s : State) (f : SrcFile) : State :=
  ((((s.packetSent f).flushed.arrive [ACK]).chRead 1).setResp ACK).dataDone

section
variable (s : State) (f : SrcFile)

theorem State.packetAcked_offset : (s.packetAcked f).offset = s.offset + s.take := by
  simp [State.packetAcked, State.packetSent, State.take]

theorem State.packetAcked_seq0 : (s.packetAcked f).seq0 = s.seq0 + 1#8 := by
  simp [State.packetAcked, State.packetSent]

theorem State.packetAcked_txState :
    (s.packetAcked f).txState = if s.size ≤ s.offset + s.take then .awaitingEot else .sendingData := by
  let u := ((((s.packetSent f).flushed.arrive [ACK]).chRead 1).setResp ACK)
  have hz : u.size = s.size := by simp [u, State.packetSent]
  have ho : u.offset + u.take = s.offset + s.take := by simp [u, State.packetSent, State.take]
  exact u.dataDone_txState.trans (by rw [hz, ho])

end

/-- The sender's second move. -/
theorem AtDataPacket.txMove_acked {s : State} {f : SrcFile} (h : AtDataPacket s f) (hin : s.chan.inBuf = []) :
    ((s.packetSent f).flushed.arrive [ACK]).txMove = .next (s.packetAcked f) := by
  have hquiet : (s.packetSent f).quiet := by
    rw [State.quiet_iff, State.packetSent_chan]; exact Channel.quiet_afterWrite h.quiet _
  have hempty : (s.packetSent f).chan.inBuf = [] := by
    rw [State.packetSent_chan, Channel.afterWrite_quiet h.quiet]; exact hin
  obtain ⟨hq, hb, _⟩ := State.flushed_arrive hquiet hempty [ACK]
  exact State.txMove_ack (by simp [State.packetSent, h.role]) (by simp [State.packetSent, h.state]) (by simp [State.packetSent]) hq hb

/-- Settles O60: the three moves one after another, each engine receiving what the other has written. -/
theorem linkDataPacket : Obligations.LinkDataPacket := by
  unfold Obligations.LinkDataPacket
  intro l f x older hr hq hp hfresh hl hr' hq' hl' hcustom hquiet hquiet' hin hin' hfly hfly' hsent hsent' hio hf hlen hio' hs hc
    hseq0 hseq1 hsize hwritten hle hdata
  have htx : AtDataPacket l.tx f := ⟨hr, hq, hp, hfresh, hl, hquiet, hio, hf, hlen, hle⟩
  have hrequest := Link.step_tx (l := l) (t := l.tx.packetSent f) (by rw [hfly', State.arrive_nil hquiet]; exact htx.txMove)
  have hframe : inFlight (l.tx.packetSent f) l.txSent =
      builtFrame (chunkMarker l.tx.cfg (l.tx.size - l.tx.offset)) l.tx.seq0 (l.tx.nextPayload f) :=
    inFlight_of_write hquiet (State.packetSent_chan l.tx f) hsent
  obtain ⟨hq1, hb1, hw1⟩ := State.flushed_arrive hquiet' hin' (inFlight (l.tx.packetSent f) l.txSent)
  have hrx : AwaitsDataPacket (l.rx.flushed.arrive (inFlight (l.tx.packetSent f) l.txSent)) x older :=
    ⟨hr', hq', hl', hq1, hio', hs, hc, hseq1⟩
  obtain ⟨r, hstep, hrec⟩ := hrx.step (m := chunkMarker l.tx.cfg (l.tx.size - l.tx.offset)) (p := l.tx.nextPayload f)
    (by simpa [hcustom, htx.length_nextPayload] using payloadSize_chunkMarker _ _) (by rw [hb1, hframe]; simp [hseq0])
  have hreceipt := Link.step_rx (r := r) (l := { l with
    tx := l.tx.packetSent f, rx := l.rx.flushed, rxSent := l.rx.flushed.chan.wire.length }) hstep
  obtain ⟨c, hcq, hcw, hrchan⟩ := hrec.reply
  have hack : inFlight r l.rx.flushed.chan.wire.length = [ACK] := inFlight_of_write hcq hrchan (by rw [hcw, hw1, State.flushed_chan])
  have hdone := Link.step_tx (t := l.tx.packetAcked f) (l := {
    tx := (l.tx.packetSent f).flushed, rx := r, txSent := (l.tx.packetSent f).flushed.chan.wire.length,
    rxSent := l.rx.flushed.chan.wire.length }) (by rw [hack]; exact htx.txMove_acked hin)
  have htake : min (l.tx.nextPayload f).length (l.tx.size - l.tx.offset) = l.tx.take := by rw [htx.length_nextPayload]; rfl
  have hrw : r.written = l.tx.offset + l.tx.take := by
    rw [hrec.written]; simp [hwritten, hsize, htake]
  refine ⟨_, (Link.run_cons hrequest).trans ((Link.run_cons hreceipt).trans (Link.run_cons hdone)), ?_, ?_, ?_, fun hlt => ?_, ?_, ?_⟩
  · simp [hrw, State.packetAcked_offset]
  · simp [hrec.seq0, hseq0, State.packetAcked_seq0]
  · simp [State.packetAcked_seq0]
  · have := State.take_pos hlt
    simp [State.packetAcked_offset, this]
  · refine ⟨_, hrec.stored, rfl, ?_, ?_⟩
    · simp [hdata, hwritten, hsize, htake, htx.take_nextPayload, State.take_append_nextChunk, State.packetAcked_offset]
    · simp [hrw, hsize, State.packetAcked_offset]
  · by_cases hlast : l.tx.size ≤ l.tx.offset + l.tx.take <;> simp [hrec.state, hrw, hsize, State.packetAcked_txState, hlast]

end Sys2Proof.Machine
end

section
/-! Proofs: the three Channel primitives on any line (rules R51, R53, R54, R57, R58; U18). -/

namespace Sys2Proof.Machine

/-! ### What the environment's move leaves -/

/-- On a torn Channel the move leaves every buffer. -/
theorem Channel.move_of_torn {c : Channel} (h : c.move.torn = true) :
    c.move = { c with torn := true, script := c.rest } :=
  if_pos ((Channel.move_torn_iff c).mp h)

/-- On a Channel that is up the move brings input and takes output away. -/
theorem Channel.move_of_up {c : Channel} (h : c.move.torn = false) :
    c.move = { c with
      inBuf := c.inBuf ++ c.upcoming.arrive, wire := c.wire ++ c.outBuf.take c.upcoming.flush,
      outBuf := c.outBuf.drop c.upcoming.flush, script := c.rest } :=
  if_neg (mt (Channel.move_torn_iff c).mpr (by simp [h]))

/-- No call tears the Channel down: only the move before it does. -/
@[simp] theorem Channel.torn_afterRead_eq (n : Nat) (c : Channel) : (c.afterRead n).torn = c.move.torn := by
  unfold Channel.afterRead; split <;> rfl

@[simp] theorem Channel.torn_afterWrite_eq (bs : List Byte) (c : Channel) : (c.afterWrite bs).torn = c.move.torn := by
  unfold Channel.afterWrite; split <;> rfl

@[simp] theorem Channel.torn_afterClear_eq (c : Channel) : c.afterClear.torn = c.move.torn := by
  unfold Channel.afterClear; split <;> rfl

/-! ### `ChRead` -/

/-- A read without a timeout takes what there is, up to `n` bytes. -/
theorem Channel.readBytes_infinite {c : Channel} (ht : c.timeout = .infinite) (hup : c.move.torn = false) (n : Nat) :
    c.readBytes n = (c.inBuf ++ c.upcoming.arrive).take n := by
  rw [Channel.readBytes, if_neg (by simp [hup]), Channel.move_of_up hup]
  simp [Channel.readLimit, ht]

/-- A read that was not blocked blocks exactly when it has no timeout, the Channel is up and too few bytes come (U18). -/
theorem Channel.afterRead_hung_iff {c : Channel} (h : c.timeout ≠ .hung) (n : Nat) :
    (c.afterRead n).timeout = .hung ↔
      c.timeout = .infinite ∧ c.move.torn = false ∧ (c.inBuf ++ c.upcoming.arrive).length < n := by
  rw [Channel.afterRead_timeout]
  cases hup : c.move.torn
  · by_cases ht : c.timeout = .infinite
    · simp [Channel.waited, ht, Channel.readBytes_infinite ht hup]
    · simp [Channel.waited, ht, h]
  · simp [h]

/-- On a torn Channel a read returns nothing and leaves every buffer. -/
theorem Channel.read_of_torn {c : Channel} (h : c.move.torn = true) (n : Nat) :
    c.readBytes n = [] ∧ c.afterRead n = { c with torn := true, script := c.rest } :=
  ⟨if_pos h, (if_pos h).trans (Channel.move_of_torn h)⟩

theorem Channel.move_up_iff (c : Channel) : c.move.torn = false ↔ c.torn = false ∧ c.upcoming.tearDown = false := by
  rw [← Bool.not_eq_true, Channel.move_torn_iff, not_or, Bool.not_eq_true, Bool.not_eq_true]

/-- Settles O19: the read is blocked exactly in the case of `Channel.afterRead_hung_iff`; otherwise what it returns and
leaves is said by the laws of a Channel that is up and of one that is torn. -/
theorem channelRead : Obligations.ChannelRead := by
  unfold Obligations.ChannelRead
  intro n s he blocks
  have hexec : exec (.chRead n) s = settle (.next (s.chRead n)) := whileOpen_eq _ he
  have hblocks (hlive : s.live) : (s.chRead n).chan.timeout = .hung ↔ blocks := by
    rw [State.chRead_chan, Channel.afterRead_hung_iff hlive, Channel.move_up_iff, and_assoc]
  refine ⟨fun hlive hnot => ?_, fun hb => ?_⟩
  · refine ⟨s.chRead n, by rw [hexec, settle_next (mt (hblocks hlive).mp hnot)], s.length_chRead_le n, rfl,
      fun ht => ?_, fun hup => ⟨Channel.readBytes_append n _ hup, Channel.output_afterRead n _ hup⟩,
      fun hinf hup => ?_, fun hq => Channel.readBytes_quiet hq n⟩
    · obtain ⟨hrd, hchan⟩ := Channel.read_of_torn (by simpa using ht) n
      rw [State.chRead_rd, State.chRead_chan, hrd, hchan]
      exact ⟨rfl, rfl, rfl, rfl⟩
    · have hm : s.chan.move.torn = false := by simpa using hup
      have hfull : n ≤ (s.chan.inBuf ++ s.chan.upcoming.arrive).length :=
        Nat.le_of_not_lt fun hlt => hnot ⟨hinf, ((Channel.move_up_iff _).mp hm).1, ((Channel.move_up_iff _).mp hm).2, hlt⟩
      rw [State.chRead_rd, Channel.readBytes_infinite hinf hm, List.length_take_of_le hfull]
  · have hlive : s.live := by rw [State.live, hb.1]; decide
    rw [hexec, settle_hung ((hblocks hlive).mpr hb)]

/-! ### `ChWrite` and `ChClear` -/

/-- Settles O20: on a Channel that is up by the move before the call, on a torn one because the call does nothing. -/
theorem channelWriteClear : Obligations.ChannelWriteClear := by
  unfold Obligations.ChannelWriteClear
  intro bs s he hlive
  refine ⟨⟨s.chWrite bs, ?_, rfl, fun hup => ?_, fun ht => ?_⟩, s.chClear, ?_, rfl, fun hup => ?_, fun ht => ?_⟩
  · exact (whileOpen_eq _ he).trans (settle_next ((State.live_chWrite bs s).mpr hlive))
  · have hm : s.chan.move.torn = false := by simpa using hup
    have hwrite : s.chan.afterWrite bs = { s.chan.move with outBuf := s.chan.move.outBuf ++ bs } := if_neg (by simp [hm])
    rw [State.chWrite_chan, hwrite, Channel.move_of_up hm]
    refine ⟨?_, rfl⟩
    rw [List.append_assoc, ← List.append_assoc (List.take _ _), List.take_append_drop, List.append_assoc]
  · have hm : s.chan.move.torn = true := by simpa using ht
    simp [Channel.afterWrite, Channel.move_of_torn hm]
  · exact (whileOpen_eq _ he).trans (settle_next ((State.live_chClear s).mpr hlive))
  · have hm : s.chan.move.torn = false := by simpa using hup
    have hclear : s.chan.afterClear = { s.chan.move with inBuf := [], outBuf := [] } := if_neg (by simp [hm])
    rw [State.chClear_chan, hclear, Channel.move_of_up hm]
    exact ⟨rfl, rfl, _, rfl, _, List.take_append_drop _ _⟩
  · have hm : s.chan.move.torn = true := by simpa using ht
    simp [Channel.afterClear, Channel.move_of_torn hm]

end Sys2Proof.Machine
end

section
/-! Proofs: a step of an engine that reads, and the unit of the line it runs (rules R55, R84, R92, R140). -/

namespace Sys2Proof.Machine

/-! ### A step of an engine that reads -/

/-- A receiver in marker position decodes one unit and acts on the outcome. -/
theorem step_of_rxDecoding {s : State} (h : s.rxDecoding = true) (hl : s.cfg.legal) :
    step s = settle (.next (s.rxDecode.2.receive s.rxDecode.1)) := by
  obtain ⟨hr, hq⟩ := (State.rxDecoding_iff s).mp h
  have hop {i : Instr} (hi : s.rxOp = some i) : step s = exec i s :=
    step_of_nextOp (State.standing_ne_response_of_receiver hr) ((State.nextOp_receiver hr).trans hi)
  have hsame : s.rxDecode.2.rxState = s.rxState := State.decodeUnit_rxState _ _ s
  rcases hq with hq | hq | hq <;> rw [hop (by rw [State.rxOp, hq]), State.receive, hsame, hq]
  · exact inRx_eq hr hq hl (by decide) (by decide)
  · exact inRx_eq hr hq hl (by decide) (by decide)
  · exact inRx_eq hr hq hl (by decide) (by decide)

/-- A sender in response position reads one byte and acts on it. -/
theorem step_of_response {s : State} (h : s.txBounded = true) (hp : s.pos ≠ .none) : step s = settle (.next s.awaitOne) :=
  if_pos (State.standing_of_response h hp)

/-! ### The units of the line -/

/-- What the decoder accepts: a whole frame of the size its marker declares, or one control symbol (rules R83, R84). -/
theorem decode_ok_cases {k : Nat} {bs rest : List Byte} {i : Instr} (h : decode k bs = .ok (i, rest)) :
    (∃ m s0 s1 p hi lo, payloadSize k m = some p.length ∧ i = m.frame s0 s1 p (joinBytes hi lo) ∧
      bs = m.byte :: s0 :: s1 :: p ++ [hi, lo] ++ rest) ∨
    ∃ b, symbolClass k b = .control i ∧ bs = b :: rest := by
  unfold decode at h
  split at h
  · cases h
  · rename_i b r
    split at h
    · rename_i m n hc
      obtain ⟨rfl, hsize⟩ := symbolClass_data hc
      unfold decodeBody at h
      split at h
      · rename_i s0 s1 r
        split at h
        · rename_i hi lo rest' hdrop
          cases h
          have hlen : (r.take n).length = n := by
            have := congrArg List.length hdrop
            simp only [List.length_drop, List.length_cons] at this
            rw [List.length_take]; omega
          refine .inl ⟨m, s0, s1, r.take n, hi, lo, by rw [hsize, hlen], rfl, ?_⟩
          simp [← hdrop]
        · cases h
      · cases h
    · rename_i j hc
      cases h
      exact .inr ⟨b, hc, rfl⟩
    · cases h

/-- A control symbol means what `DECODE` answers for its byte, in the position the engine stands in (rules R91, R92). -/
theorem control_outcome {k : Nat} {b : Byte} {i : Instr} (h : symbolClass k b = .control i) :
    ∃ d, (∀ s, exec i s = settle (.next (s.onControl b d))) ∧
      ∀ (e0 e1 : Byte) (s : State), s.cfg.customSize = k → s.marker = b → s.decodeMarker e0 e1 = (d, s) := by
  obtain ⟨hb, hi⟩ := symbolClass_control h
  rcases hi with rfl | rfl | rfl | rfl | rfl <;> cases hb
  · exact ⟨.ctrlEot, fun _ => rfl, fun _ _ _ hk hm => by rw [State.decodeMarker, hk, hm, h]⟩
  · exact ⟨.unrecognized, fun _ => rfl, fun _ _ _ hk hm => by rw [State.decodeMarker, hk, hm, h]⟩
  · exact ⟨.ctrlNak, fun _ => rfl, fun _ _ _ hk hm => by rw [State.decodeMarker, hk, hm, h]⟩
  · exact ⟨.ctrlCan, fun _ => rfl, fun _ _ _ hk hm => by rw [State.decodeMarker, hk, hm, h]⟩
  · exact ⟨.unrecognized, fun _ => rfl, fun _ _ _ hk hm => by rw [State.decodeMarker, hk, hm, h]⟩

/-- A control symbol is one read of one byte. -/
theorem unitReads_control {k : Nat} {b : Byte} {i : Instr} (h : symbolClass k b = .control i) : unitReads i = [1] := by
  rcases (symbolClass_control h).2 with rfl | rfl | rfl | rfl | rfl <;> rfl

theorem unitReads_frame (m : Marker) (s0 s1 : Byte) (p : List Byte) (c : Half) :
    unitReads (m.frame s0 s1 p c) = [1, 1, 1, p.length, 1, 1] := by
  cases m <;> rfl

/-- Reads leave every register that `DECODE` does not write. -/
theorem sameBesidesDecode_afterReads (ns : List Nat) (s : State) : SameBesidesDecode s (s.afterReads ns) := by
  induction ns generalizing s with
  | nil => exact .refl s
  | cons n ns ih => exact (sameBesidesDecode_chRead n s).trans (ih (s.chRead n))

theorem SameBesidesDecode.rxDecoding {s t : State} (h : SameBesidesDecode s t) : t.rxDecoding = s.rxDecoding := by
  simp only [State.rxDecoding, h.cfg, h.rxState]

/-- A whole frame of the receiver's own size, in marker position, is the checks of `DECODE` and the reaction to them. -/
theorem exec_frame_marker {s : State} (h : s.rxDecoding = true) (hl : s.cfg.legal) {m : Marker} {p : List Byte}
    (hp : payloadSize s.cfg.customSize m = some p.length) (s0 s1 : Byte) (c : Half) :
    exec (m.frame s0 s1 p c) s = settle (.next (s.receiveFrame m s0 s1 p c)) := by
  rw [exec_frame, State.onFrame, State.standing_marker h]
  simp only [hl, hp, not_true, if_true, if_false]

section
variable {s : State} (h : s.rxDecoding = true) (hl : s.cfg.legal) (hq : s.quiet)
include h hl hq

/-- A receiver runs the frame that is the next unit on a quiet line. -/
theorem step_runs_frame {m : Marker} {s0 s1 hi lo : Byte} {p rest : List Byte}
    (hp : payloadSize s.cfg.customSize m = some p.length) (hb : s.chan.inBuf = m.byte :: s0 :: s1 :: p ++ [hi, lo] ++ rest) :
    step s = exec (m.frame s0 s1 p (joinBytes hi lo)) (s.afterReads [1, 1, 1, p.length, 1, 1]) ∧
      (s.afterReads [1, 1, 1, p.length, 1, 1]).chan.inBuf = rest := by
  have hsame := sameBesidesDecode_afterReads [1, 1, 1, p.length, 1, 1] s
  obtain ⟨t, hd, rfl, hrest, -, -⟩ := State.decodeUnit_quiet hq hp hb s.seq0 s.seq1
  refine ⟨?_, hrest⟩
  rw [step_of_rxDecoding h hl, State.rxDecode, hd,
    exec_frame_marker (hsame.rxDecoding.trans h) (by rw [hsame.cfg]; exact hl) (by rw [hsame.cfg]; exact hp)]
  simp only [State.receiveFrame, State.latchFrame_seq0, State.latchFrame_seq1, hsame.seq0, hsame.seq1]

/-- A receiver runs the control symbol that is the next unit on a quiet line. -/
theorem step_runs_control {b : Byte} {i : Instr} {rest : List Byte} (hc : symbolClass s.cfg.customSize b = .control i)
    (hb : s.chan.inBuf = b :: rest) : step s = exec i (s.chRead 1) ∧ (s.chRead 1).chan.inBuf = rest := by
  obtain ⟨hrd, hrest, -⟩ := State.chRead_quiet hq (n := 1) (bs := [b]) hb rfl
  obtain ⟨d, hexec, hmark⟩ := control_outcome hc
  refine ⟨?_, hrest⟩
  have hd : s.rxDecode = (d, (s.chRead 1).setMarker b) := by
    rw [State.rxDecode, State.decodeUnit]
    simp only [hrd]
    exact hmark _ _ _ rfl rfl
  rw [step_of_rxDecoding h hl, hd, hexec, State.onControl, State.standing_marker (s := s.chRead 1) h]

end

/-- A sender in response position runs the control symbol it reads. -/
theorem step_runs_response {s : State} (h : s.txBounded = true) (hp : s.pos ≠ .none) {k : Nat} {b : Byte} {i : Instr}
    (hrd : (s.chRead 1).rd = [b]) (hc : symbolClass k b = .control i) : step s = exec i (s.chRead 1) := by
  obtain ⟨d, hexec, -⟩ := control_outcome hc
  rw [step_of_response h hp, State.awaitOne, hrd, hexec, State.onControl, State.standing_of_response (s := s.chRead 1) h hp]

/-- Settles O48: by what the decoder accepts. One byte begins no whole frame, so a response is a control symbol. -/
theorem stepRunsUnit : Obligations.StepRunsUnit := by
  unfold Obligations.StepRunsUnit
  refine ⟨fun s i rest h hl hq hdec => ?_, fun s b i rest h hp hrd hdec => ?_⟩
  · rcases decode_ok_cases hdec with ⟨m, s0, s1, p, hi, lo, hsize, rfl, hb⟩ | ⟨b, hc, hb⟩
    · rw [unitReads_frame]
      exact step_runs_frame h hl hq hsize hb
    · rw [unitReads_control hc]
      exact step_runs_control h hl hq hc hb
  · rcases decode_ok_cases hdec with ⟨m, s0, s1, p, hi, lo, -, -, hb⟩ | ⟨c, hc, hb⟩
    · simp at hb
    · cases hb
      exact step_runs_response h hp hrd hc

end Sys2Proof.Machine
end

section
/-! Proofs: a torn Channel ends a receiver's session and a sender's handshake (rules R58, R162, R228, R235). -/

namespace Sys2Proof.Machine

/-! ### Runs -/

/-- The next step of a run of any machine. -/
theorem coreRun_succ {M : Host.Core} {s t : M.State} (h : M.step s = .next t) (k : Nat) : M.run (k + 1) s = M.run k t := by
  rw [Host.Core.run, h]

theorem run_succ {s t : State} (h : step s = .next t) (k : Nat) : core.run (k + 1) s = core.run k t := coreRun_succ (M := core) h k

theorem run_one {s t : State} (h : step s = .next t) : core.run 1 s = .next t := run_succ h 0

/-! ### A failed attempt on a torn Channel -/

/-- Nothing can be read any more, and no read blocks. -/
def State.cutOff (s : State) : Prop := s.chan.torn = true ∧ s.live

theorem State.cutOff.chWrite {s : State} (h : s.cutOff) (bs : List Byte) : (s.chWrite bs).cutOff :=
  ⟨Channel.torn_afterWrite h.1 bs, (State.live_chWrite bs s).mpr h.2⟩

theorem State.cutOff.chClear {s : State} (h : s.cutOff) : s.chClear.cutOff :=
  ⟨Channel.torn_afterClear h.1, (State.live_chClear s).mpr h.2⟩

/-- A read returns nothing and leaves the engine cut off (rule R58). -/
theorem State.cutOff.chRead {s : State} (h : s.cutOff) (n : Nat) : (s.chRead n).rd = [] ∧ (s.chRead n).cutOff :=
  ⟨Channel.readBytes_torn h.1 n, Channel.torn_afterRead h.1 n, by
    rw [State.live, State.chRead_chan, Channel.afterRead_torn n h.1]; exact h.2⟩

/-- The retry path keeps the engine cut off. -/
theorem State.cutOff.fail {s : State} (h : s.cutOff) (e : Cause) : (s.fail e).cutOff := by
  have hf : (s.countFailure e).cutOff := h
  rcases s.fail_cases e with ⟨-, he⟩ | ⟨-, ⟨-, -, -, he⟩ | ⟨-, -, -, he⟩ | he⟩ <;> rw [he]
  · exact h
  · exact hf.chClear.chWrite _
  · exact hf.chClear
  · exact hf.chClear

/-- Below the bound a failed attempt leaves the receiver's state register. -/
theorem State.fail_rxState_of_lt {s : State} (h : s.retry + 1 < s.bound) (e : Cause) : (s.fail e).rxState = s.rxState := by
  rcases s.fail_cases e with ⟨hb, -⟩ | ⟨-, ⟨-, -, -, he⟩ | ⟨-, -, -, he⟩ | he⟩
  · omega
  · rw [he]; rfl
  · rw [he]; rfl
  · rw [he]; rfl

/-! ### The receiver -/

/-- A receiver in a state that decodes, on a torn Channel. -/
structure TornReceiver (s : State) : Prop where
  decoding : s.rxDecoding = true
  legal : s.cfg.legal
  cutOff : s.cutOff

section
variable {s : State} (h : TornReceiver s)
include h

/-- Every attempt fails with `Timeout` at its first read. -/
theorem TornReceiver.step_fails : step s = .next ((s.chRead 1).fail .timeout) := by
  obtain ⟨hrd, hcut⟩ := h.cutOff.chRead 1
  have hd : s.rxDecode = (.timeout, s.chRead 1) := by rw [State.rxDecode, State.decodeUnit]; simp only [hrd]
  have hfail : (s.chRead 1).receive .timeout = (s.chRead 1).fail .timeout := by
    rcases ((State.rxDecoding_iff s).mp h.decoding).2 with hq | hq | hq <;>
      rw [State.receive, State.chRead_rxState, hq] <;> rfl
  rw [step_of_rxDecoding h.decoding h.legal, hd, hfail, settle_fail hcut.2]

/-- Below the bound the receiver tries again in the same state. -/
theorem TornReceiver.retries (hb : s.retry + 1 < s.cfg.rxMaxRetries) : TornReceiver ((s.chRead 1).fail .timeout) where
  decoding := by
    obtain ⟨hr, hq⟩ := (State.rxDecoding_iff s).mp h.decoding
    rw [State.rxDecoding_iff, State.fail_rxState_of_lt (by rw [State.bound_receiver (s := s.chRead 1) hr]; exact hb), State.fail_cfg]
    exact ⟨hr, hq⟩
  legal := by simpa using h.legal
  cutOff := (h.cutOff.chRead 1).2.fail _

/-- At the bound the session is aborted. -/
theorem TornReceiver.aborts (hb : s.cfg.rxMaxRetries = s.retry + 1) :
    ((s.chRead 1).fail .timeout).rxState = .aborted ∧ ((s.chRead 1).fail .timeout).exitClass = .protocolAbort := by
  have hr := ((State.rxDecoding_iff s).mp h.decoding).1
  rw [State.fail_aborts _ (by rw [State.bound_receiver (s := s.chRead 1) hr]; exact Nat.le_of_eq hb)]
  simp [State.abortClass, hr]

end

/-- `k + 1` attempts are left, and they are made. -/
theorem TornReceiver.run (k : Nat) {s : State} (h : TornReceiver s) (hk : s.cfg.rxMaxRetries = s.retry + (k + 1)) :
    ∃ t, core.run (k + 1) s = .next t ∧ t.rxState = .aborted ∧ t.exitClass = .protocolAbort ∧ t.lastErr = .timeout ∧
      t.retry = s.cfg.rxMaxRetries := by
  induction k generalizing s with
  | zero =>
    obtain ⟨hq, hx⟩ := h.aborts hk
    exact ⟨_, run_one h.step_fails, hq, hx, by simp, by simp [hk]⟩
  | succ k ih =>
    obtain ⟨t, hrun, hq, hx, he, hretry⟩ := ih (h.retries (by omega))
      (by rw [State.fail_cfg, State.fail_retry, State.chRead_cfg, State.chRead_retry]; omega)
    exact ⟨t, (run_succ h.step_fails _).trans hrun, hq, hx, he, by simpa using hretry⟩

/-- Settles O58: by induction on the attempts that are left. -/
theorem tornReceiverEnds : Obligations.TornReceiverEnds := by
  unfold Obligations.TornReceiverEnds
  intro s hd hl ht hlive hlt
  obtain ⟨k, hk⟩ := Nat.exists_eq_add_of_lt hlt
  have h : TornReceiver s := ⟨hd, hl, ht, hlive⟩
  have hleft : s.cfg.rxMaxRetries - s.retry = k + 1 := by omega
  rw [hleft]
  exact h.run k (by omega)

/-! ### The sender's handshake -/

/-- A sender that is about to ask for the handshake, on a torn Channel. -/
structure TornHandshake (s : State) : Prop where
  role : s.cfg.role = .sender
  state : s.txState = .handshaking
  first : s.rehandshake = false
  pos : s.pos = .none
  legal : s.cfg.legal
  cutOff : s.cutOff

/-- The request has been written and the read of the response has returned nothing. -/
def State.unanswered (s : State) : State := (s.send [CRQ]).chRead 1

@[simp] theorem State.unanswered_cfg (s : State) : s.unanswered.cfg = s.cfg := rfl
@[simp] theorem State.unanswered_txState (s : State) : s.unanswered.txState = s.txState := rfl
@[simp] theorem State.unanswered_rehandshake (s : State) : s.unanswered.rehandshake = s.rehandshake := rfl
@[simp] theorem State.unanswered_retry (s : State) : s.unanswered.retry = s.retry := rfl

theorem State.cutOff.unanswered {s : State} (h : s.cutOff) : s.unanswered.cutOff :=
  (State.cutOff.chRead (s := s.send [CRQ]) (h.chWrite [CRQ]) 1).2

section
variable {s : State} (h : TornHandshake s)
include h

/-- Every attempt writes its request and fails with `Timeout`. -/
theorem TornHandshake.step_fails : step s = .next (s.unanswered.fail .timeout) := by
  have hrd : ((s.send [CRQ]).chRead 1).rd = [] := Channel.readBytes_torn (h.cutOff.chWrite [CRQ]).1 1
  have hone : (s.send [CRQ]).awaitOne = s.unanswered.fail .timeout := by rw [State.awaitOne, hrd]; rfl
  have hattempt : s.txAttempt [CRQ] = s.unanswered.fail .timeout := by
    rw [State.txAttempt, hone, if_neg (by simp)]
  have hop : step s = exec .txHandshake s :=
    step_of_nextOp (State.standing_ne_response_of_pos h.pos) ((State.nextOp_sender h.role).trans (by rw [State.txOp, h.state]))
  have hexec : exec .txHandshake s = settle (.next (s.txAttempt [CRQ])) := inTx_eq h.role h.state h.legal (by decide) (by decide)
  rw [hop, hexec, hattempt, settle_fail h.cutOff.unanswered.2]

theorem TornHandshake.bound : s.unanswered.bound = s.cfg.txMaxRetries := by
  rw [State.bound_sender (s := s.unanswered) h.role, if_neg (by simp [h.state]), State.unanswered_cfg]

/-- Below the bound the channel is cleared and the handshake is asked for again. -/
theorem TornHandshake.fail_eq (hb : s.retry + 1 < s.cfg.txMaxRetries) :
    s.unanswered.fail .timeout = (s.unanswered.countFailure .timeout).chClear := by
  rw [State.fail_retries _ (by rw [h.bound]; exact hb)]
  simp [State.prepareRetry, h.role, h.state]

theorem TornHandshake.retries (hb : s.retry + 1 < s.cfg.txMaxRetries) : TornHandshake (s.unanswered.fail .timeout) := by
  have hcut := h.cutOff.unanswered.fail .timeout
  rw [h.fail_eq hb] at hcut ⊢
  exact ⟨by simp [h.role], by simp [h.state], by simp [h.first], by simp, by simp [h.legal], hcut⟩

/-- At the bound the session is aborted. -/
theorem TornHandshake.fail_eq_abort (hb : s.cfg.txMaxRetries = s.retry + 1) :
    s.unanswered.fail .timeout = (s.unanswered.countFailure .timeout).abort .handshakeFailed .timeout := by
  have hclass : s.unanswered.abortClass = .handshakeFailed := if_pos ⟨h.role, h.state, h.first⟩
  rw [State.fail_aborts _ (by rw [h.bound]; exact Nat.le_of_eq hb), hclass]

/-- An attempt writes its request once, whatever follows it. -/
theorem TornHandshake.trace (hb : s.retry < s.cfg.txMaxRetries) :
    ∃ new, (s.unanswered.fail .timeout).trace = new ++ s.trace ∧ new.count (.write [CRQ]) = 1 := by
  rcases Nat.lt_or_eq_of_le (Nat.succ_le_of_lt hb) with hlt | heq
  · exact ⟨[.clear, .read 1 _, .write [CRQ]], by rw [h.fail_eq hlt]; rfl, by simp⟩
  · exact ⟨[.exit _, .read 1 _, .write [CRQ]], by rw [h.fail_eq_abort heq.symm]; rfl, by simp⟩

end

/-- `k + 1` attempts are left; they are made, and each writes its request once. -/
theorem TornHandshake.run (k : Nat) {s : State} (h : TornHandshake s) (hk : s.cfg.txMaxRetries = s.retry + (k + 1)) :
    ∃ t new, core.run (k + 1) s = .next t ∧ t.txState = .aborted ∧ t.exitClass = .handshakeFailed ∧ t.lastErr = .timeout ∧
      t.retry = s.cfg.txMaxRetries ∧ t.trace = new ++ s.trace ∧ new.count (.write [CRQ]) = k + 1 := by
  induction k generalizing s with
  | zero =>
    obtain ⟨new, htrace, hcount⟩ := h.trace (by omega)
    refine ⟨_, new, run_one h.step_fails, ?_, ?_, by simp, by simp [hk], htrace, hcount⟩
    · rw [h.fail_eq_abort hk]; simp [h.role]
    · rw [h.fail_eq_abort hk]; simp
  | succ k ih =>
    obtain ⟨new, htrace, hcount⟩ := h.trace (by omega)
    have hk' : (s.unanswered.fail .timeout).cfg.txMaxRetries = (s.unanswered.fail .timeout).retry + (k + 1) := by
      rw [State.fail_cfg, State.fail_retry, State.unanswered_cfg, State.unanswered_retry]; omega
    obtain ⟨t, later, hrun, hq, hx, he, hretry, ht, hc⟩ := ih (h.retries (by omega)) hk'
    refine ⟨t, later ++ new, (run_succ h.step_fails _).trans hrun, hq, hx, he, by simpa using hretry, ?_, ?_⟩
    · rw [ht, htrace, List.append_assoc]
    · rw [List.count_append, hc, hcount]

/-- Settles O59: by induction on the attempts that are left. -/
theorem tornHandshakeFails : Obligations.TornHandshakeFails := by
  unfold Obligations.TornHandshakeFails
  intro s hr hq hre hp hl ht hlive hlt
  obtain ⟨k, hk⟩ := Nat.exists_eq_add_of_lt hlt
  have h : TornHandshake s := ⟨hr, hq, hre, hp, hl, ht, hlive⟩
  have hleft : s.cfg.txMaxRetries - s.retry = k + 1 := by omega
  obtain ⟨t, new, hrun, hstate, hx, he, hretry, htrace, hcount⟩ := h.run k (by omega)
  have hnew : t.trace.take (t.trace.length - s.trace.length) = new := by simp [htrace]
  rw [hleft]
  exact ⟨t, hrun, hstate, hx, he, hretry, by rw [hnew]; exact hcount⟩

end Sys2Proof.Machine
end

section
/-! Proofs: what `DECODE` reads and writes on any line (rules R52, R55, R91, R140). -/

namespace Sys2Proof.Machine

/-! ### Reads in the order of a list of sizes -/

/-- Reads of the sizes of a list, in order, whole but for the last, which is short exactly when the outcome is `Timeout`. -/
inductive Reading : List Nat → List Event → DecodeOutcome → Prop
  | short {n : Nat} {ns : List Nat} {got : List Byte} : got.length < n → Reading (n :: ns) [.read n got] .timeout
  | last {n : Nat} {ns : List Nat} {got : List Byte} {d : DecodeOutcome} :
      got.length = n → d ≠ .timeout → Reading (n :: ns) [.read n got] d
  | more {n : Nat} {ns : List Nat} {got : List Byte} {calls : List Event} {d : DecodeOutcome} :
      got.length = n → Reading ns calls d → Reading (n :: ns) (.read n got :: calls) d

section
variable {ns : List Nat} {calls : List Event} {d : DecodeOutcome} (h : Reading ns calls d)
include h

theorem Reading.length_pos : 1 ≤ calls.length := by
  cases h <;> simp

theorem Reading.length_le : calls.length ≤ ns.length := by
  induction h with
  | short | last => simp
  | more _ _ ih => simpa using ih

/-- Each call is a read of the size at its place, and all but the last are whole. -/
theorem Reading.getElem? {j : Nat} {e : Event} (hj : calls[j]? = some e) :
    ∃ n got, e = .read n got ∧ ns[j]? = some n ∧ (j + 1 < calls.length → got.length = n) := by
  induction h generalizing j with
  | @short n _ got _ | @last n _ got _ _ _ =>
    obtain ⟨rfl, rfl⟩ : j = 0 ∧ Event.read n got = e := by cases j <;> simp_all
    exact ⟨n, got, rfl, rfl, by simp⟩
  | @more n _ got calls _ hgot _ ih =>
    cases j with
    | zero => cases hj; exact ⟨n, got, rfl, rfl, fun _ => hgot⟩
    | succ j =>
      obtain ⟨n', got', he, hn, hfull⟩ := ih (by simpa using hj)
      exact ⟨n', got', he, by simpa using hn, fun hlt => hfull (by simpa using hlt)⟩

/-- The outcome is `Timeout` exactly when the last read is short. -/
theorem Reading.timeout_iff : d = .timeout ↔ ∃ n got, calls.getLast? = some (.read n got) ∧ got.length < n := by
  induction h with
  | short hlt => simpa using hlt
  | last hgot hd => simp [hd, hgot]
  | @more _ _ _ calls _ _ hr ih =>
    obtain ⟨e, r, rfl⟩ := List.exists_cons_of_length_pos hr.length_pos
    rw [ih, List.getLast?_cons_cons]

end

/-! ### The buffer and the payload read -/

/-- The buffer is written by the read at a place of the calls, when that read is whole, and by nothing else. -/
def WrittenBy (i : Nat) (calls : List Event) (m m' : Memory) : Prop :=
  (∀ k p, calls[i]? = some (.read k p) → m' = if p.length = k then m.writeBlock 0 p else m) ∧ (calls[i]? = none → m' = m)

/-- Reads of some sizes take one state to another, with an outcome; the buffer is written by the read at place `i`. -/
structure Reads (i : Nat) (ns : List Nat) (calls : List Event) (s t : State) (d : DecodeOutcome) : Prop where
  trace : t.trace = calls.reverse ++ s.trace
  reading : Reading ns calls d
  buf : WrittenBy i calls s.buf t.buf

/-- One whole read before the others. -/
theorem Reads.after {i n : Nat} {ns : List Nat} {calls : List Event} {s u t : State} {d : DecodeOutcome} {got : List Byte}
    (h : Reads i ns calls u t d) (hgot : got.length = n) (htrace : u.trace = .read n got :: s.trace) (hbuf : u.buf = s.buf) :
    Reads (i + 1) (n :: ns) (.read n got :: calls) s t d where
  trace := by rw [h.trace, htrace]; simp
  reading := .more hgot h.reading
  buf := by simpa [WrittenBy, hbuf] using h.buf

/-- One read alone, before the place of the payload. -/
theorem Reads.one {i n : Nat} {ns : List Nat} {s t : State} {d : DecodeOutcome} {got : List Byte}
    (hreading : Reading (n :: ns) [.read n got] d) (htrace : t.trace = .read n got :: s.trace) (hbuf : t.buf = s.buf) :
    Reads (i + 1) (n :: ns) [.read n got] s t d where
  trace := by simpa using htrace
  reading := hreading
  buf := ⟨by simp, fun _ => hbuf⟩

/-- The payload read alone, when it is short. -/
theorem Reads.payload_short {n : Nat} {ns : List Nat} {s t : State} {got : List Byte}
    (hgot : got.length < n) (htrace : t.trace = .read n got :: s.trace) (hbuf : t.buf = s.buf) :
    Reads 0 (n :: ns) [.read n got] s t .timeout where
  trace := by simpa using htrace
  reading := .short hgot
  buf := by
    refine ⟨fun k p hp => ?_, by simp⟩
    cases hp
    rw [if_neg (Nat.ne_of_lt hgot), hbuf]

/-- A whole payload read, and reads after it that leave the buffer. -/
theorem Reads.payload {n : Nat} {ns : List Nat} {calls : List Event} {s u t : State} {d : DecodeOutcome} {got : List Byte}
    (h : Reads ns.length ns calls u t d) (hgot : got.length = n) (htrace : u.trace = .read n got :: s.trace)
    (hbuf : u.buf = s.buf.writeBlock 0 got) : Reads 0 (n :: ns) (.read n got :: calls) s t d where
  trace := by rw [h.trace, htrace]; simp
  reading := .more hgot h.reading
  buf := by
    have hkept : t.buf = u.buf := h.buf.2 (List.getElem?_eq_none h.reading.length_le)
    refine ⟨fun k p hp => ?_, by simp⟩
    cases hp
    rw [if_pos hgot, hkept, hbuf]

/-! ### The stages of `DECODE` -/

theorem reading_empty {got : List Byte} (h : got = []) (ns : List Nat) : Reading (1 :: ns) [.read 1 got] .timeout :=
  .short (by simp [h])

/-- The payload and the trailer. -/
theorem reads_readPayload (e0 e1 : Byte) (s : State) :
    ∃ calls, Reads 0 [s.n, 1, 1] calls s (s.readPayload e0 e1).2 (s.readPayload e0 e1).1 := by
  simp only [State.readPayload]
  split
  · next hshort => exact ⟨_, .payload_short hshort rfl rfl⟩
  · next hfull =>
    have hn : (s.chRead s.n).rd.length = s.n := Nat.le_antisymm (s.length_chRead_le s.n) (Nat.not_lt.mp hfull)
    split
    · next hhi => exact ⟨_, .payload (.one (reading_empty hhi _) rfl rfl) hn rfl rfl⟩
    · next hhi =>
      have hone := State.length_rd_one hhi
      split
      · next hlo => exact ⟨_, .payload (.after (.one (reading_empty hlo _) rfl rfl) hone rfl rfl) hn rfl rfl⟩
      · next hlo =>
        exact ⟨_, .payload (.after (.one (.last (State.length_rd_one hlo) (judge_ne_timeout _ _ _)) rfl rfl) hone rfl rfl) hn rfl rfl⟩

/-- The sequence bytes before them. -/
theorem reads_readFrame (e0 e1 : Byte) (s : State) :
    ∃ calls, Reads 2 [1, 1, s.n, 1, 1] calls s (s.readFrame e0 e1).2 (s.readFrame e0 e1).1 := by
  simp only [State.readFrame]
  split
  · next h0 => exact ⟨_, .one (reading_empty h0 _) rfl rfl⟩
  · next a _ h0 =>
    split
    · next h1 => exact ⟨_, .after (.one (reading_empty h1 _) rfl rfl) (State.length_rd_one h0) rfl rfl⟩
    · next b _ h1 =>
      obtain ⟨calls, h⟩ := reads_readPayload e0 e1 ((((s.chRead 1).setRxS0 a).chRead 1).setRxS1 b)
      exact ⟨_, .after (.after h (State.length_rd_one h1) rfl rfl) (State.length_rd_one h0) rfl rfl⟩

/-- After the marker neither `marker` nor `n` is written. -/
theorem State.readPayload_marker_n (e0 e1 : Byte) (s : State) :
    (s.readPayload e0 e1).2.marker = s.marker ∧ (s.readPayload e0 e1).2.n = s.n := by
  simp only [State.readPayload]
  split
  · simp
  · split
    · simp
    · split <;> simp

theorem State.readFrame_marker_n (e0 e1 : Byte) (s : State) :
    (s.readFrame e0 e1).2.marker = s.marker ∧ (s.readFrame e0 e1).2.n = s.n := by
  simp only [State.readFrame]
  split
  · exact ⟨rfl, rfl⟩
  · split
    · exact ⟨rfl, rfl⟩
    · exact State.readPayload_marker_n _ _ _

/-- A data marker is followed by its frame, with the size it declares; any other marker ends the decode at once. -/
theorem State.decodeMarker_cases (e0 e1 : Byte) (s : State) :
    (∃ m k, symbolClass s.cfg.customSize s.marker = .data m k ∧ s.decodeMarker e0 e1 = (s.setN k).readFrame e0 e1) ∨
    (∀ m k, symbolClass s.cfg.customSize s.marker ≠ .data m k) ∧ ∃ d, d ≠ .timeout ∧ s.decodeMarker e0 e1 = (d, s) := by
  unfold State.decodeMarker
  cases symbolClass s.cfg.customSize s.marker with
  | data m k => exact .inl ⟨m, k, rfl, rfl⟩
  | control i =>
    refine .inr ⟨nofun, ?_⟩
    split
    · contradiction
    · exact ⟨_, by decide, rfl⟩
    · exact ⟨_, by decide, rfl⟩
    · exact ⟨_, by decide, rfl⟩
    · exact ⟨_, by decide, rfl⟩
    · contradiction
  | undefined => exact .inr ⟨nofun, _, by decide, rfl⟩

/-- What `DECODE` reads and writes, by what its first read returns (rules R55, R91, R140). -/
theorem State.decodeUnit_reads (e0 e1 : Byte) (s : State) :
    ∃ calls, Reads 3 [1, 1, 1, (s.decodeUnit e0 e1).2.n, 1, 1] calls s (s.decodeUnit e0 e1).2 (s.decodeUnit e0 e1).1 ∧
      ((calls = [.read 1 []] ∧ (s.decodeUnit e0 e1).2.marker = s.marker ∧ (s.decodeUnit e0 e1).2.n = s.n) ∨
       ∃ b, calls[0]? = some (.read 1 [b]) ∧ (s.decodeUnit e0 e1).2.marker = b ∧
        ((∃ m, symbolClass s.cfg.customSize b = .data m (s.decodeUnit e0 e1).2.n) ∨
         (∀ m k, symbolClass s.cfg.customSize b ≠ .data m k) ∧ calls.length = 1 ∧ (s.decodeUnit e0 e1).2.n = s.n)) := by
  rcases s.chRead_one with hrd | ⟨b, hrd⟩
  · have hd : s.decodeUnit e0 e1 = (.timeout, s.chRead 1) := by simp only [State.decodeUnit, hrd]
    rw [hd]
    exact ⟨_, .one (reading_empty hrd _) rfl rfl, .inl ⟨by rw [hrd], rfl, rfl⟩⟩
  · have hd : s.decodeUnit e0 e1 = ((s.chRead 1).setMarker b).decodeMarker e0 e1 := by simp only [State.decodeUnit, hrd]
    have hone : (s.chRead 1).rd.length = 1 := State.length_rd_one hrd
    rw [hd]
    rcases ((s.chRead 1).setMarker b).decodeMarker_cases e0 e1 with ⟨m, k, hc, he⟩ | ⟨hc, d, hne, he⟩ <;> rw [he]
    · obtain ⟨calls, h⟩ := reads_readFrame e0 e1 (((s.chRead 1).setMarker b).setN k)
      obtain ⟨hmarker, hn⟩ := State.readFrame_marker_n e0 e1 (((s.chRead 1).setMarker b).setN k)
      rw [hmarker, hn]
      exact ⟨_, .after h hone rfl rfl, .inr ⟨b, by rw [hrd]; rfl, rfl, .inl ⟨m, hc⟩⟩⟩
    · exact ⟨_, .one (.last hone hne) rfl rfl, .inr ⟨b, by rw [hrd]; rfl, rfl, .inr ⟨hc, rfl, rfl⟩⟩⟩

/-- A buffer written by a read of `n` bytes at most is as before from address `n` on. -/
theorem WrittenBy.read_above {i n : Nat} {ns : List Nat} {calls : List Event} {d : DecodeOutcome} {m m' : Memory}
    (h : WrittenBy i calls m m') (hr : Reading ns calls d) (hi : ns[i]? = some n) (hwf : m.wf) {a : Nat} (ha : n ≤ a) :
    m'.read a = m.read a := by
  cases hc : calls[i]? with
  | none => rw [h.2 hc]
  | some e =>
    obtain ⟨k, p, rfl, hk, -⟩ := hr.getElem? hc
    have hkn : k = n := by rw [hi] at hk; cases hk; rfl
    rw [h.1 k p hc]
    split
    · rw [Memory.read_writeBlock hwf, dif_neg (by omega)]
    · rfl

/-- Settles O17: by `State.decodeUnit_reads`, each clause from the reading or from what the first read returned. -/
theorem decodeFrameCondition : Obligations.DecodeFrameCondition := by
  unfold Obligations.DecodeFrameCondition
  intro e0 e1 s t h
  obtain ⟨-, h, -⟩ := whileOpen_next h
  split at h
  · cases h
  cases h
  obtain ⟨calls, hreads, hfirst⟩ := State.decodeUnit_reads e0 e1 s
  refine ⟨?_, by simp, fun hwf a ha => hreads.buf.read_above hreads.reading rfl hwf ha, calls, hreads.trace,
    hreads.reading.length_pos, hreads.reading.length_le, fun j e => hreads.reading.getElem?,
    by simpa using hreads.reading.timeout_iff, fun h0 => ?_, fun b h0 => ?_, hreads.buf.1, hreads.buf.2⟩
  · exact congrArg (fun u : State => { u with outcome := some (s.decodeUnit e0 e1).1 }) (sameBesidesDecode_decodeUnit e0 e1 s).eq
  · rcases hfirst with ⟨-, hmarker, hn⟩ | ⟨b, hb, -⟩
    · exact ⟨hmarker, hn⟩
    · rw [h0] at hb; cases hb
  · rcases hfirst with ⟨rfl, -⟩ | ⟨c, hc, hmarker, hn⟩
    · cases h0
    · rw [h0] at hc
      cases hc
      refine ⟨hmarker, fun m k hk hb => ?_, fun hno => ?_⟩
      · have hclass := symbolClass_byte hk
        rw [← hb] at hclass
        rcases hn with ⟨m', hdata⟩ | ⟨hdata, -⟩
        · rw [hclass] at hdata; cases hdata; rfl
        · exact absurd hclass (hdata m k)
      · rcases hn with ⟨m', hdata⟩ | ⟨-, hlen, hkept⟩
        · obtain ⟨hb, hsize⟩ := symbolClass_data hdata
          exact absurd hb (hno _ _ hsize)
        · exact ⟨hkept, hlen⟩

end Sys2Proof.Machine
end

section
/-! Proofs: the wire encoding. What is encoded decodes to itself, and what decodes was encoded (rules R81, R83, R84, R86, R91, R93). -/

namespace Sys2Proof.Machine

theorem encode_frame (m : Marker) (s0 s1 : Byte) (p : List Byte) (c : Half) : encode (m.frame s0 s1 p c) = frameBytes m s0 s1 p c := by
  cases m <;> rfl

theorem frame_onWire (m : Marker) (s0 s1 : Byte) (p : List Byte) (c : Half) : (m.frame s0 s1 p c).onWire = true := by
  cases m <;> rfl

theorem wf_frame_iff (c : Cfg) (m : Marker) (s0 s1 : Byte) (p : List Byte) (w : Half) :
    (m.frame s0 s1 p w).wf c = true ↔ payloadSize c.customSize m = some p.length := by
  cases m <;> exact decide_eq_true_iff

/-- The wire symbols: a data frame, or a control symbol that is its one byte under every custom size (rules R81 to R83, R98). -/
theorem onWire_cases {i : Instr} (h : i.onWire = true) :
    (∃ (m : Marker) (s0 s1 : Byte) (p : List Byte) (c : Half), i = m.frame s0 s1 p c) ∨
      ∃ b, encode i = [b] ∧ ∀ k, symbolClass k b = .control i := by
  cases i with
  | soh s0 s1 p c => exact .inl ⟨.soh, s0, s1, p, c, rfl⟩
  | stx s0 s1 p c => exact .inl ⟨.stx, s0, s1, p, c, rfl⟩
  | cus s0 s1 p c => exact .inl ⟨.cus, s0, s1, p, c, rfl⟩
  | eot => exact .inr ⟨EOT, rfl, fun _ => rfl⟩
  | ack => exact .inr ⟨ACK, rfl, fun _ => rfl⟩
  | nak => exact .inr ⟨NAK, rfl, fun _ => rfl⟩
  | can => exact .inr ⟨CAN, rfl, fun _ => rfl⟩
  | crq => exact .inr ⟨CRQ, rfl, fun _ => rfl⟩
  | _ => cases h

/-- A frame of the size its marker declares decodes to its fields (rules R64, R83, R86). -/
theorem decode_frame {k : Nat} {m : Marker} {p : List Byte} (h : payloadSize k m = some p.length) (s0 s1 hi lo : Byte)
    (rest : List Byte) :
    decode k (m.byte :: s0 :: s1 :: (p ++ hi :: lo :: rest)) = .ok (m.frame s0 s1 p (joinBytes hi lo), rest) := by
  simp only [decode, symbolClass_byte h, decodeBody, List.drop_left', List.take_left']

theorem decode_control {k : Nat} {b : Byte} {i : Instr} (h : symbolClass k b = .control i) (rest : List Byte) :
    decode k (b :: rest) = .ok (i, rest) := by
  simp only [decode, h]

/-- Settles O2: a frame by its fields, a control symbol by its one byte. -/
theorem decodeEncode : Obligations.DecodeEncode := by
  unfold Obligations.DecodeEncode
  intro c i rest hwf hwire
  rcases onWire_cases hwire with ⟨m, s0, s1, p, w, rfl⟩ | ⟨b, hb, hc⟩
  · have hbytes : encode (m.frame s0 s1 p w) ++ rest = m.byte :: s0 :: s1 :: (p ++ hiByte w :: loByte w :: rest) := by
      simp [encode_frame, frameBytes]
    rw [hbytes, decode_frame ((wf_frame_iff c m s0 s1 p w).mp hwf), joinBytes_hiByte_loByte]
  · rw [hb]
    exact decode_control (hc _) rest

/-- A byte that is none of the eight symbols has no class (rules R91, R93). -/
theorem symbolClass_undefined {b : Byte} (h : b ∉ [0x01#8, 0x02#8, 0x03#8, 0x04#8, 0x06#8, 0x15#8, 0x18#8, 0x43#8]) (k : Nat) :
    symbolClass k b = .undefined := by
  simp only [List.mem_cons, List.not_mem_nil, or_false, not_or] at h
  simp [symbolClass, SOH, STX, CUS, EOT, ACK, NAK, CAN, CRQ, h]

theorem decode_undefined {k : Nat} {b : Byte} (h : symbolClass k b = .undefined) (rest : List Byte) :
    decode k (b :: rest) = .error (.unrecognized b) := by
  simp only [decode, h]

/-- Settles O3: what the decoder accepts is a whole frame or one control symbol, and the encoder writes the same bytes. -/
theorem decodeUnambiguous : Obligations.DecodeUnambiguous := by
  unfold Obligations.DecodeUnambiguous
  refine ⟨fun k bs i rest h => ?_, fun k b r hb => decode_undefined (symbolClass_undefined hb k) r, fun r => decode_undefined rfl r⟩
  rcases decode_ok_cases h with ⟨m, s0, s1, p, hi, lo, -, rfl, rfl⟩ | ⟨b, hc, rfl⟩
  · refine ⟨?_, frame_onWire ..⟩
    rw [encode_frame, frameBytes, hiByte_joinBytes, loByte_joinBytes]
  · have hi := (symbolClass_control hc).1
    exact ⟨by rw [hi]; rfl, by rw [Instr.onWire, hi]; rfl⟩

/-- Settles O1: the words are the bytes of their units, and those decode to the unit (`decode_frame`, `decode_control`). -/
theorem symbolWordsDecode : Obligations.SymbolWordsDecode := by
  unfold Obligations.SymbolWordsDecode
  refine ⟨decode_control rfl [], decode_control rfl [], decode_control rfl [], decode_control rfl [], decode_control rfl [],
    ?_, ?_, ?_⟩
  · rw [List.append_assoc]
    exact decode_frame (k := 0) (m := .soh) (congrArg some List.length_replicate.symm) 0x80#8 0x7F#8 0xA5#8 0x46#8 [0x06#8]
  · rw [List.append_assoc]
    exact decode_frame (k := 0) (m := .stx) (congrArg some List.length_replicate.symm) 0x01#8 0xFE#8 0xC0#8 0x84#8 []
  · exact decode_frame (k := 2) (m := .cus) (p := [0x11#8, 0x22#8]) rfl 0x05#8 0xFA#8 0x2B#8 0xF5#8 []

end Sys2Proof.Machine
end

section
/-! Proofs: the framer's operations: `HDR.BUILD`, `DECODE` of a byte that begins no data frame, and `READRESP` (rules R88, R91, R93,
R94, R134, R135, R140, R143). -/

namespace Sys2Proof.Machine

/-! ### `HDR.BUILD` -/

/-- Name, 0x00, digits, 0x00, and zeros up to 128 bytes (rule R88). -/
theorem headerBytes_eq (name : List Byte) (size : Nat) :
    headerBytes name size = name ++ [0x00#8] ++ decBytes size ++ [0x00#8] ++
      List.replicate (128 - (name.length + (decBytes size).length + 2)) 0x00#8 := by
  have hlen : (name ++ 0x00#8 :: decBytes size ++ [0x00#8]).length = name.length + (decBytes size).length + 2 := by
    simp; omega
  rw [headerBytes, padBytes, hlen]
  simp [zeros]

/-- Settles O10: the block written is the header payload, and only below 128. -/
theorem hdrBuild : Obligations.HdrBuild := by
  unfold Obligations.HdrBuild
  intro name size s hwf
  refine ⟨fun hadmitted hmax => ?_, fun h => if_pos fun hc => h ?_⟩
  · have hfits : headerFits name size := decide_eq_true ⟨⟨hadmitted.1, hadmitted.2.1⟩, hadmitted.2.2⟩
    refine ⟨s.setPayload (headerBytes name size), (if_neg (not_not.mpr hfits)).trans (if_pos hmax), rfl, ?_, fun a ha => ?_⟩
    · exact (State.payload_header s hfits).trans (headerBytes_eq name size)
    · rw [State.setPayload_buf, Memory.read_writeBlock hwf, dif_neg]
      rw [length_headerBytes hfits]; omega
  · obtain ⟨⟨hne, hz⟩, hle⟩ := of_decide_eq_true hc
    exact ⟨hne, hz, hle⟩

/-! ### `DECODE` in marker position -/

/-- A marker that begins no data frame ends the decode at once, with the outcome of the table (rules R91, R93). -/
theorem State.decodeMarker_of_not_data {s : State} (hsoh : s.marker ≠ SOH) (hstx : s.marker ≠ STX)
    (hcus : s.marker = CUS → s.cfg.customSize = 0) (e0 e1 : Byte) :
    s.decodeMarker e0 e1 =
      (if s.marker = NAK then .ctrlNak else if s.marker = EOT then .ctrlEot else if s.marker = CAN then .ctrlCan
        else .unrecognized, s) := by
  unfold State.decodeMarker
  cases hc : symbolClass s.cfg.customSize s.marker with
  | data m n =>
    obtain ⟨hb, hsize⟩ := symbolClass_data hc
    cases m with
    | soh => exact absurd hb hsoh
    | stx => exact absurd hb hstx
    | cus => simp [payloadSize, hcus hb] at hsize
  | control i =>
    obtain ⟨hb, hi⟩ := symbolClass_control hc
    rcases hi with rfl | rfl | rfl | rfl | rfl <;> rw [← List.head_eq_of_cons_eq hb] <;> rfl
  | undefined =>
    have hne {b : Byte} {i : Instr} (h : symbolClass s.cfg.customSize b = .control i) : s.marker ≠ b := fun hm => by
      rw [hm, h] at hc; cases hc
    rw [if_neg (hne (i := .nak) rfl), if_neg (hne (i := .eot) rfl), if_neg (hne (i := .can) rfl)]

/-- Settles O16: one read of one byte, and the outcome of the table. -/
theorem decodeMarkerPosition : Obligations.DecodeMarkerPosition := by
  unfold Obligations.DecodeMarkerPosition
  intro e0 e1 b rest s hended hl hq hb hsoh hstx hcus
  obtain ⟨hrd, hrest, hquiet⟩ := State.chRead_quiet hq (n := 1) (bs := [b]) hb rfl
  refine ⟨?_, hrest⟩
  have hd : s.decodeUnit e0 e1 = ((s.chRead 1).setMarker b).decodeMarker e0 e1 := by
    rw [State.decodeUnit]; simp only [hrd]
  refine (whileOpen_eq _ hended).trans ?_
  rw [if_neg (not_not.mpr hl), hd, State.decodeMarker_of_not_data (s := (s.chRead 1).setMarker b) hsoh hstx hcus]
  exact settle_next (State.live_chRead_byte (by simp [State.live, hq]) hrd)

/-! ### `READRESP` -/

/-- The cancel test settles when the one read it makes returns. -/
theorem settle_cancelTest {s : State} (h : (s.chRead 1).live) : settle (.next s.cancelTest) = .next s.cancelTest :=
  settle_next (by simpa [State.live] using h)

/-- `READRESP` in the sender's states that read a response. -/
theorem exec_readResp {s : State} (h : s.txBounded = true) : exec .readResp s = settle (.next s.readResponse) := by
  obtain ⟨hr, -, hdone, haborted⟩ := (State.txBounded_iff s).mp h
  have hended : s.ended = false := by simp [State.ended, hr, hdone, haborted]
  exact (whileOpen_eq _ hended).trans (congrArg settle (if_pos h))

/-- Settles O18: the three cases of the byte read. -/
theorem readResponse : Obligations.ReadResponse := by
  unfold Obligations.ReadResponse
  intro s hr hq
  have hb : s.txBounded = true := (State.txBounded_iff s).mpr ⟨hr, by rcases hq with h | h | h | h | h <;> simp [h]⟩
  rw [exec_readResp hb]
  refine ⟨fun b hrd hcan hlive => ?_, fun hrd hlive => ?_, fun hrd hlive => ?_⟩
  · have he : s.readResponse = (s.chRead 1).setResp b := by
      rw [State.readResponse, hrd]; exact if_neg hcan
    rw [he]
    exact settle_next (State.live_chRead_byte hlive hrd)
  · have he : s.readResponse = ((s.chRead 1).setResp CAN).cancelTest := by
      rw [State.readResponse, hrd]; exact if_pos rfl
    rw [he]
    exact settle_cancelTest hlive
  · have he : s.readResponse = (s.chRead 1).fail .timeout := by rw [State.readResponse, hrd]
    rw [he]
    exact settle_fail hlive .timeout

end Sys2Proof.Machine
end

section
/-! Proofs: the control symbols where they are expected, and the two that fail or cancel in either position (rules R91, R92, R94,
R143, R162, R164, R166, R168, R170, R176). -/

namespace Sys2Proof.Machine

/-! ### What a receiver does with an outcome, and a sender with a byte -/

/-- The outcomes on which every state that decodes fails the attempt, with the cause the outcome stands for (rules R195, R199). -/
theorem State.receive_failing {s : State} (h : s.rxDecoding = true) {d : DecodeOutcome} (hd : d.failing) :
    s.receive d = s.fail d.cause := by
  obtain ⟨hpacket, heot, hcan⟩ := hd
  rcases ((State.rxDecoding_iff s).mp h).2 with hq | hq | hq <;> rw [State.receive, hq]
  · rcases s.headerOutcome_cases d with ⟨hc, _⟩ | ⟨hc, _⟩ | ⟨hc, _⟩ | ⟨_, he⟩
    exacts [absurd hc hpacket, absurd hc heot, absurd hc hcan, he]
  · rcases s.dataOutcome_cases d with ⟨hc, _⟩ | ⟨hc, _⟩ | ⟨_, _, he⟩
    exacts [absurd hc hpacket, absurd hc hcan, he]
  · rcases s.eotOutcome_cases d with ⟨hc, _⟩ | ⟨hc, _⟩ | ⟨_, _, he⟩
    exacts [absurd hc heot, absurd hc hcan, he]

/-- `CAN` is the cancel test in every state that decodes (rule R94). -/
theorem State.receive_ctrlCan {s : State} (h : s.rxDecoding = true) : s.receive .ctrlCan = s.cancelTest := by
  rcases ((State.rxDecoding_iff s).mp h).2 with hq | hq | hq <;> rw [State.receive, hq] <;> rfl

/-- No sender waits for a byte other than `ACK` and 0x43. -/
theorem State.ne_expected {s : State} {b : Byte} (hack : b ≠ ACK) (hcrq : b ≠ CRQ) : b ≠ s.expected := by
  rw [State.expected_eq]; split <;> assumption

/-- A byte that is not the one awaited fails the attempt (rule R143). -/
theorem State.onResponse_unawaited {s : State} {b : Byte} (hcan : b ≠ CAN) (h : b ≠ s.expected) :
    s.onResponse b = (s.setResp b).fail (respCause b) := by
  rw [State.onResponse, if_neg hcan, if_neg h]

/-! ### `NAK` and `CAN` in either position -/

/-- The state a control symbol `b` acts from, the symbol in the register of the position the engine stands in. -/
def LatchedControl (b : Byte) (s t : State) : Prop :=
  s.rxDecoding = true ∧ t = s.setMarker b ∨ s.txBounded = true ∧ s.pos ≠ .none ∧ t = s.setResp b

theorem LatchedControl.timeout {b : Byte} {s t : State} (h : LatchedControl b s t) : t.chan.timeout = s.chan.timeout := by
  rcases h with ⟨-, rfl⟩ | ⟨-, -, rfl⟩ <;> rfl

theorem LatchedControl.onControl_nak {s t : State} (h : LatchedControl NAK s t) : s.onControl NAK .ctrlNak = t.fail .nak := by
  rcases h with ⟨hd, rfl⟩ | ⟨hb, hp, rfl⟩
  · rw [State.onControl, State.standing_marker hd]
    exact State.receive_failing (s := s.setMarker NAK) hd (by decide)
  · rw [State.onControl, State.standing_of_response hb hp]
    exact State.onResponse_unawaited (by decide) (State.ne_expected (by decide) (by decide))

theorem LatchedControl.onControl_can {s t : State} (h : LatchedControl CAN s t) : s.onControl CAN .ctrlCan = t.cancelTest := by
  rcases h with ⟨hd, rfl⟩ | ⟨hb, hp, rfl⟩
  · rw [State.onControl, State.standing_marker hd]
    exact State.receive_ctrlCan (s := s.setMarker CAN) hd
  · rw [State.onControl, State.standing_of_response hb hp]
    exact if_pos rfl

/-- Settles O23: `NAK` fails, `CAN` runs the cancel test, from the state with the symbol in its register. -/
theorem nakAndCan : Obligations.NakAndCan := by
  unfold Obligations.NakAndCan
  intro s t b hlive hlatched
  have hlatched : LatchedControl b s t := hlatched
  have hlive : t.live := by rw [State.live, hlatched.timeout]; exact hlive
  have hcan (hb : b = CAN) (hq : (t.chRead 1).live) : exec .can s = .next t.cancelTest := by
    subst hb
    have hexec : exec .can s = settle (.next (s.onControl CAN .ctrlCan)) := rfl
    rw [hexec, hlatched.onControl_can]
    exact settle_cancelTest hq
  refine ⟨fun hb => ?_, fun hb hrd => ?_, fun hb hrd hq => ?_⟩
  · subst hb
    have hexec : exec .nak s = settle (.next (s.onControl NAK .ctrlNak)) := rfl
    rw [hexec, hlatched.onControl_nak]
    exact settle_fail hlive .nak
  · rw [hcan hb (State.live_chRead_byte hlive hrd), State.cancelTest]; exact congrArg _ (if_pos hrd)
  · rw [hcan hb hq, State.cancelTest]; exact congrArg _ (if_neg hrd)

/-! ### The response that is awaited -/

/-- The symbol a waiting sender expects is accepted (rule R92). -/
theorem exec_accepted {s : State} {k : Nat} {b : Byte} {i : Instr} (hc : symbolClass k b = .control i) (hb : s.txBounded = true)
    (hp : s.pos ≠ .none) (hlive : s.live) (hcan : b ≠ CAN) (he : b = s.expected) : exec i s = .next (s.setResp b).accepted := by
  obtain ⟨d, hexec, -⟩ := control_outcome hc
  rw [hexec, State.onControl, State.standing_of_response hb hp]
  simp only [State.onResponse, if_neg hcan, if_pos he]
  exact settle_next (by simpa [State.live] using hlive)

/-- The first of two responses leaves the sender waiting for the second. -/
theorem State.accepted_first {s : State} (hq : s.txState = .sendingHeader ∨ s.txState = .awaitingEot) (hp : s.pos ≠ .resp2) :
    s.accepted = s.setPos .resp2 := by
  rcases hq with hq | hq <;> simp [State.accepted, hq, hp]

/-- The registers of a sender's `Done` (rules R170, R232). -/
theorem State.finish_sender {s : State} (hr : s.cfg.role = .sender) : s.finish = { s with
    retry := 0, exitClass := .success, txState := .done, trace := .exit .success :: s.trace,
    pos := .none, outcome := none, hdr := none } := by
  simp [State.finish, State.endAttempt, hr]

/-- Settles O36: the awaited symbol is accepted, and what that does is read off the state and the position. -/
theorem acceptedResponses : Obligations.AcceptedResponses := by
  unfold Obligations.AcceptedResponses
  intro s hr hlive
  have hbounded (h : s.txState ≠ .idle ∧ s.txState ≠ .done ∧ s.txState ≠ .aborted) : s.txBounded = true :=
    (State.txBounded_iff s).mpr ⟨hr, h⟩
  have hack {t : State} (hb : s.txBounded = true) (hp : s.pos ≠ .none) (he : ACK = s.expected)
      (ht : (s.setResp ACK).accepted = t) : exec .ack s = .next t :=
    ht ▸ exec_accepted (k := 0) rfl hb hp hlive (by decide) he
  have hcrq {t : State} (hb : s.txBounded = true) (hp : s.pos ≠ .none) (he : CRQ = s.expected)
      (ht : (s.setResp CRQ).accepted = t) : exec .crq s = .next t :=
    ht ▸ exec_accepted (k := 0) rfl hb hp hlive (by decide) he
  refine ⟨fun hp hq => ?_, fun hp hq => ?_, fun hp hq => ?_, fun hp hq => ?_, fun hp hq => ?_, fun hp hq => ?_⟩
  · refine hack (hbounded (by rcases hq with h | h <;> simp [h])) (by simp [hp])
      (by rcases hq with h | h <;> simp [State.expected_eq, h, hp]) ?_
    exact (State.accepted_first (s := s.setResp ACK) hq (by simp [hp])).trans rfl
  · refine hack (hbounded (by simp [hq])) (by simp [hp]) (by simp [State.expected_eq, hq]) ?_
    have hdone : (s.setResp ACK).accepted = (s.setResp ACK).dataDone := by simp [State.accepted, hq]
    rw [hdone, State.dataDone_eq (s := s) (u := s.setResp ACK) rfl rfl rfl rfl rfl rfl, hr]
    rfl
  · refine hack (hbounded (by simp [hq])) (by simp [hp]) (by simp [State.expected_eq, hq]) ?_
    have hdone : (s.setResp ACK).accepted = (s.setResp ACK).finish := by simp [State.accepted, hq]
    rw [hdone, State.finish_sender (s := s.setResp ACK) hr]
    rfl
  · refine hcrq (hbounded (by simp [hq])) hp (by simp [State.expected_eq, hq]) ?_
    have hdone : (s.setResp CRQ).accepted = (s.setResp CRQ).handshakeDone := by simp [State.accepted, hq]
    exact hdone.trans rfl
  · refine hcrq (hbounded (by simp [hq])) (by simp [hp]) (by simp [State.expected_eq, hq, hp]) ?_
    have hdone : (s.setResp CRQ).accepted = (s.setResp CRQ).headerDone := by simp [State.accepted, hq, hp]
    exact hdone.trans rfl
  · refine hcrq (hbounded (by simp [hq])) (by simp [hp]) (by simp [State.expected_eq, hq, hp]) ?_
    have hdone : (s.setResp CRQ).accepted = (s.setResp CRQ).eotDone := by simp [State.accepted, hq, hp]
    exact hdone.trans rfl

end Sys2Proof.Machine
end

section
/-! Proofs: an attempt of the sender that is not answered as its step expects (rules R92, R94, R143, R169, R172; U18). -/

namespace Sys2Proof.Machine

/-! ### A blocked wait -/

/-- A wait that is blocked for ever stays blocked, whatever is made of the byte. -/
theorem State.awaitOne_hung {s : State} (h : (s.chRead 1).chan.timeout = .hung) : s.awaitOne.chan.timeout = .hung := by
  rcases s.awaitOne_cases with ⟨_, he⟩ | ⟨b, _, he⟩ <;> rw [he]
  · rw [State.fail_timeout, h]
  · rw [State.onResponse_timeout]
    split
    · exact Channel.afterRead_hung 1 h
    · exact h

/-- An attempt whose first wait is blocked is blocked. -/
theorem State.txAttempt_hung {s : State} {bs : List Byte} (h : ((s.chWrite bs).chRead 1).chan.timeout = .hung) :
    (s.txAttempt bs).chan.timeout = .hung := by
  have hfirst : (s.send bs).awaitOne.chan.timeout = .hung := State.awaitOne_hung (s := s.send bs) h
  rcases s.txAttempt_cases bs with ⟨_, he⟩ | ⟨_, he⟩ <;> rw [he]
  · exact State.awaitOne_hung (Channel.afterRead_hung 1 hfirst)
  · exact hfirst

/-! ### One wait that fails -/

/-- What operation `i` answers from `s` when a wait that has left `r` brings no byte, or another than `first` (rules R94, R143). -/
structure Unanswered (i : Instr) (s : State) (first : Byte) (r : State) : Prop where
  none : r.rd = [] → r.live → exec i s = .next (r.fail .timeout)
  nak : r.rd = [NAK] → r.live → exec i s = .next ((r.setResp NAK).fail .nak)
  can : r.rd = [CAN] → (r.chRead 1).live → exec i s = .next (r.setResp CAN).cancelTest
  other (b : Byte) : r.rd = [b] → r.live → b ≠ first → b ≠ NAK → b ≠ CAN → exec i s = .next ((r.setResp b).fail .unexpected)

/-! The retry path and the cancel test drop the place within the attempt. -/

theorem State.setPos_fail (p : Pos) (e : Cause) (s : State) : (s.setPos p).fail e = s.fail e := rfl

theorem State.setPos_cancelTest (p : Pos) (s : State) : (s.setPos p).cancelTest = s.cancelTest := rfl

/-- An operation that ends with the wait of `u` whenever that wait ends the attempt. -/
theorem unanswered_of_awaitOne {i : Instr} {s u r : State} {p : Pos} (hr : u.chRead 1 = r.setPos p)
    (hrun : ∀ t, u.awaitOne = t → t.pos = .none → exec i s = settle (.next t)) : Unanswered i s u.expected r := by
  have hbyte {b : Byte} (h : r.rd = [b]) : u.awaitOne = (r.setPos p).onResponse b := by
    rw [State.awaitOne, hr, State.setPos_rd, h]
  have hexp : (r.setPos p).expected = u.expected := by
    rw [← hr]; rfl
  have hunawaited {b : Byte} (h : r.rd = [b]) (hl : r.live) (hcan : b ≠ CAN) (hne : b ≠ u.expected) :
      exec i s = .next ((r.setResp b).fail (respCause b)) := by
    refine (hrun _ ?_ (by simp)).trans (settle_fail (s := r.setResp b) hl _)
    rw [hbyte h, State.onResponse_unawaited hcan (hexp ▸ hne)]
    exact State.setPos_fail p _ (r.setResp b)
  refine ⟨fun h hl => ?_, fun h hl => ?_, fun h hl => ?_, fun b h hl hne hnak hcan => ?_⟩
  · refine (hrun _ ?_ (by simp)).trans (settle_fail hl _)
    rw [State.awaitOne, hr, State.setPos_rd, h]
    exact State.setPos_fail p _ r
  · exact hunawaited h hl (by decide) (State.ne_expected (by decide) (by decide))
  · refine (hrun _ ?_ (by simp)).trans (settle_cancelTest (s := r.setResp CAN) hl)
    rw [hbyte h, State.onResponse, if_pos rfl]
    exact State.setPos_cancelTest p (r.setResp CAN)
  · have hcause : respCause b = .unexpected := if_neg hnak
    exact hcause ▸ hunawaited h hl hcan hne

/-! ### The attempts -/

/-- A frame of a payload with checksum zero (rules R83, R118). -/
theorem builtFrame_of_crc_zero {p : List Byte} (h : crcOf p = 0x0000#16) (sq : Byte) :
    builtFrame .soh sq p = [0x01#8, sq, 0xFF#8 - sq] ++ p ++ [0x00#8, 0x00#8] := by
  rw [builtFrame, h]; rfl

/-- The registers the terminator's frame is built into (rule R169). -/
theorem State.enterTerm_eq (s : State) : s.enterTerm = if s.fresh = false then s else { s with
    fresh := false,
    seq0 := if s.cfg.seqResetPerFile then 0x00#8 else s.seq0, seq1 := if s.cfg.seqResetPerFile then 0xFF#8 else s.seq1,
    buf := s.buf.writeBlock 0 (List.replicate 128 0x00#8), marker := 0x01#8, n := 128, crc := 0x0000#16,
    frame := [0x01#8, if s.cfg.seqResetPerFile then 0x00#8 else s.seq0,
      0xFF#8 - (if s.cfg.seqResetPerFile then 0x00#8 else s.seq0)] ++
      List.replicate 128 0x00#8 ++ [0x00#8, 0x00#8] } := by
  have hcrc : crcOf (zeros 128) = 0x0000#16 := crcFrom_replicate_zero 128
  have hpad : padBytes [] 128 = zeros 128 := List.nil_append _
  have hzeros : List.replicate 128 0x00#8 = zeros 128 := rfl
  unfold State.enterTerm
  rw [hpad, hzeros]
  split
  · rfl
  · simp only [State.encodeFrame, hcrc, builtFrame_of_crc_zero hcrc]
    rfl

/-- An attempt ends with its first wait when that wait ends the attempt. -/
theorem State.txAttempt_first {s t : State} {bs : List Byte} (h : (s.send bs).awaitOne = t) (ht : t.pos = .none) :
    s.txAttempt bs = t := by
  rw [State.txAttempt, h]
  exact if_neg (by simp [ht])

/-- Settles O35: the operation is one attempt; its first wait is judged by `unanswered_of_awaitOne`, and so is the second, where the first
has brought the `ACK` it asks for. -/
theorem txUnanswered : Obligations.TxUnanswered := by
  unfold Obligations.TxUnanswered
  intro s e i request first hr hl hstate r q
  obtain ⟨hexec, hfirst, htwo⟩ : exec i s = settle (.next (e.txAttempt request)) ∧ (e.send request).expected = first ∧
      (i = .txHeader ∨ i = .txEot → e.txState = .sendingHeader ∨ e.txState = .awaitingEot) := by
    rcases hstate with ⟨rfl, ⟨hq, rfl, rfl, rfl⟩ | ⟨hq, hf, rfl, rfl, rfl⟩ | ⟨hq, hf, rfl, rfl, rfl⟩ | ⟨hq, rfl, rfl, rfl⟩⟩ |
      ⟨hq, rfl, rfl, rfl, he⟩
    · exact ⟨inTx_eq hr hq hl (by decide) (by decide), by simp [State.expected_eq, hq, CRQ], by simp⟩
    · exact ⟨exec_txHeader_built hr hl hq hf, by simp [State.expected_eq, hq, ACK], fun _ => .inl hq⟩
    · exact ⟨exec_txData_built hr hl hq hf, by simp [State.expected_eq, hq, ACK], by simp⟩
    · exact ⟨inTx_eq hr hq hl (by decide) (by decide), by simp [State.expected_eq, hq, ACK], fun _ => .inr hq⟩
    · obtain rfl : e = s.enterTerm := he.trans s.enterTerm_eq.symm
      exact ⟨inTx_eq hr hq hl (by decide) (by decide), by simp [State.expected_eq, State.enterTerm_txState, hq, ACK], by simp⟩
  have h1 : Unanswered i s (e.send request).expected r :=
    unanswered_of_awaitOne (u := e.send request) (p := .resp1) rfl fun t ht hp => by rw [hexec, State.txAttempt_first ht hp]
  rw [hfirst] at h1
  refine ⟨h1.none, h1.nak, h1.can, h1.other, fun hh => ?_, fun hack hi => ?_⟩
  · rw [hexec]
    exact settle_hung (State.txAttempt_hung hh)
  · have hq := htwo hi
    let u := (((e.send request).chRead 1).setResp ACK).setPos .resp2
    have hsecond : exec i s = settle (.next u.awaitOne) := by rw [hexec, State.txAttempt_second hq hack]
    have hcrq : u.expected = CRQ := by rcases hq with hq | hq <;> simp [u, State.expected_eq, hq]
    have h2 : Unanswered i s u.expected (q.setResp ACK) :=
      unanswered_of_awaitOne (p := .resp2) rfl fun t ht _ => by rw [hsecond, ht]
    rw [hcrq] at h2
    exact ⟨h2.none, h2.nak, h2.can, h2.other, fun hh => hsecond.trans (settle_hung (State.awaitOne_hung hh))⟩

end Sys2Proof.Machine
end

section
/-! Proofs: what fails a receiver's attempt (rules R94, R194, R197 to R199; U18). -/

namespace Sys2Proof.Machine

/-- The receiver's operation in the state it belongs to is `DECODE` and the reaction to its outcome. -/
theorem exec_rxOperation {s d : State} {o : DecodeOutcome} {i : Instr} (hr : s.cfg.role = .receiver) (hl : s.cfg.legal)
    (hi : s.rxState = .awaitingHeader ∧ i = .rxHeader ∨ s.rxState = .receivingData ∧ i = .rxData ∨
      s.rxState = .awaitingNextOrEnd ∧ i = .rxEot)
    (hd : s.decodeUnit s.seq0 s.seq1 = (o, d)) : exec i s = settle (.next (d.receive o)) := by
  have hdec : s.rxDecode = (o, d) := hd
  have hstep : step s = settle (.next (d.receive o)) := by
    rw [step_of_rxDecoding ((State.rxDecoding_iff s).mpr ⟨hr, hi.imp And.left (.imp And.left And.left)⟩) hl, hdec]
  have hop : s.rxOp = some i := by rcases hi with ⟨hq, rfl⟩ | ⟨hq, rfl⟩ | ⟨hq, rfl⟩ <;> rw [State.rxOp, hq]
  rw [← hstep]
  exact (step_of_nextOp (State.standing_ne_response_of_receiver hr) ((State.nextOp_receiver hr).trans hop)).symm

/-- Settles O43: the operation is the reaction to the outcome, which fails with the outcome's cause wherever the state does not accept it. -/
theorem rxFailedAttempt : Obligations.RxFailedAttempt := by
  unfold Obligations.RxFailedAttempt
  intro s d o i hr hl hi hdec
  have hexec := exec_rxOperation hr hl hi hdec
  have hsame : SameBesidesDecode s d := by
    have := sameBesidesDecode_decodeUnit s.seq0 s.seq1 s; rwa [hdec] at this
  have hd : d.rxDecoding = true :=
    hsame.rxDecoding.trans ((State.rxDecoding_iff s).mpr ⟨hr, hi.imp And.left (.imp And.left And.left)⟩)
  have hfail {e : Cause} (h : d.receive o = d.fail e) (hlive : d.live) : exec i s = .next (d.fail e) := by
    rw [hexec, h]
    exact settle_fail hlive e
  have hfailing (ho : o.failing) : d.receive o = d.fail o.cause := State.receive_failing hd ho
  have hpacket (hq : s.rxState = .awaitingHeader) (hbad : parseHeader s.cfg.sizeW (d.buf.readBlock 0 d.n) = .bad) :
      d.receive .packet = d.fail .unrecognized := by
    have hheader : d.receive .packet = d.onHeader := by rw [State.receive, hsame.rxState, hq]; rfl
    rw [hheader, State.onHeader, hsame.cfg, State.payload, hbad]
  refine ⟨?_, ?_, ?_, ?_, ?_, ?_, fun ho hlive => ?_, fun ho hq => hfail ?_, fun ho hq => hfail ?_, fun ho hq hbad => hfail ?_,
    fun hh => hexec.trans (settle_hung (State.receive_hung o hh))⟩
  case refine_7 =>
    rw [hexec, ho, State.receive_ctrlCan hd]
    exact settle_cancelTest hlive
  case refine_8 => rw [ho, State.receive, hsame.rxState, hq]; rfl
  case refine_9 => rw [ho, State.receive, hsame.rxState, hq]; rfl
  case refine_10 => rw [ho, hpacket hq hbad]
  all_goals rintro rfl; exact hfail (hfailing (by decide))

end Sys2Proof.Machine
end

section
/-! Proofs: a whole data frame at a receiver, and a frame that was built for another payload size (rules R91, R132, R140, R141, R197,
R275). -/

namespace Sys2Proof.Machine

/-! ### The packet is accepted -/

/-- An accepted data packet, its file not closed and the interface without errors: the bytes are appended, the file is closed after the
last, and the packet is acknowledged (rule R197). -/
theorem State.onData_accepts {d : State} {x : StoredFile} {older : List StoredFile} (hs : d.store.stored = x :: older)
    (hc : x.closed = false) (hio : d.store.ioErrors = []) :
    let take := d.rxTake
    let last := decide (d.size ≤ d.written + take)
    let bytes := (d.payload d.n).take take
    d.onData = ({ d with
      store := { ioErrors := [], stored := { x with data := x.data ++ bytes, closed := last } :: older },
      trace := (if last then [Event.fileClose true] else []) ++ Event.fileWrite bytes true :: d.trace }.count take).dataAccepted := by
  intro take last bytes
  have hk := State.fileUseOk_open hs hc (mt (FileStore.ioError_iff _).mp (by simp [hio]))
  have hwrite := State.fileWrite_open hs hk bytes
  have hstored : (d.fileWrite bytes).store.stored = { x with data := x.data ++ bytes } :: older := by rw [hwrite]
  rcases d.onData_cases with ⟨h, _⟩ | ⟨_, hlt, he⟩ | ⟨_, _, hclose, _⟩ | ⟨_, hle, hclose, he⟩
  · rw [hk] at h; cases h
  · have hlast : last = false := decide_eq_false (Nat.not_le.mpr hlt)
    rw [he, hwrite, hlast, hc, hio]
    rfl
  · have hok := State.fileUseOk_open hstored hc (mt (FileStore.ioError_iff _).mp (by simp [hwrite, hio]))
    rw [hclose] at hok; cases hok
  · have hlast : last = true := decide_eq_true hle
    rw [he, State.fileClose_count, State.fileClose_open hstored hclose, hwrite, hlast, hio]
    rfl

/-- The registers of a frame that has passed the checks of `DECODE` (rule R140). -/
def State.checkedFrame (m : Marker) (p : List Byte) (s : State) : State :=
  { s.latchFrame m s.seq0 s.seq1 p (crcOf p) with crc := crcOf p }

theorem State.payload_checkedFrame (m : Marker) (p : List Byte) (s : State) : (s.checkedFrame m p).payload p.length = p :=
  s.buf.readBlock_writeBlock p

/-- A frame with the expected pair and the right checksum passes the checks, in `ReceivingData` as a data packet (rules R140, R141, R197). -/
theorem State.receiveFrame_checked {s : State} (hq : s.rxState = .receivingData) (m : Marker) (p : List Byte) :
    s.receiveFrame m s.seq0 s.seq1 p (crcOf p) = (s.checkedFrame m p).onData := by
  have hpayload : (s.latchFrame m s.seq0 s.seq1 p (crcOf p)).payload p.length = p := s.payload_checkedFrame m p
  have hjudge : (s.latchFrame m s.seq0 s.seq1 p (crcOf p)).judge s.seq0 s.seq1 = .packet := by simp [State.judge, hpayload]
  have hafter : (s.latchFrame m s.seq0 s.seq1 p (crcOf p)).afterJudge s.seq0 s.seq1 = s.checkedFrame m p := by
    simp [State.afterJudge, hpayload, State.checkedFrame]
  have hstate : (s.checkedFrame m p).rxState = .receivingData := hq
  rw [State.receiveFrame, State.latchFrame_seq0, State.latchFrame_seq1, hjudge, hafter, State.receive, hstate]
  rfl

/-! ### A frame of another size -/

/-- A read of one byte on a quiet line takes the first unread byte, or finds none. -/
theorem State.chRead_one_quiet {s : State} (h : s.quiet) :
    (s.chRead 1).quiet ∧ ((s.chRead 1).rd = [] ∧ (s.chRead 1).chan.inBuf = [] ∨
      ∃ b, s.chan.inBuf = b :: (s.chRead 1).chan.inBuf ∧ (s.chRead 1).rd = [b]) := by
  have hrd : (s.chRead 1).rd = s.chan.inBuf.take 1 := Channel.readBytes_quiet h 1
  have hleft : (s.chRead 1).chan.inBuf = s.chan.inBuf.drop 1 := by rw [State.chRead_chan, Channel.afterRead_quiet h]
  refine ⟨Channel.quiet_afterRead h 1, ?_⟩
  rw [hrd, hleft]
  cases s.chan.inBuf with
  | nil => exact .inl ⟨rfl, rfl⟩
  | cons b rest => exact .inr ⟨b, rfl, rfl⟩

/-- The payload and the trailer on a quiet line that holds too few bytes for them: everything is taken, and the outcome is `Timeout`
(rule R140). -/
theorem State.readPayload_quiet_short {s : State} (h : s.quiet) (hlen : s.chan.inBuf.length < s.n + 2) (e0 e1 : Byte) :
    (s.readPayload e0 e1).1 = .timeout ∧ (s.readPayload e0 e1).2.chan.inBuf = [] ∧ (s.readPayload e0 e1).2.quiet := by
  have hrd : (s.chRead s.n).rd = s.chan.inBuf.take s.n := Channel.readBytes_quiet h s.n
  have hleft : (s.chRead s.n).chan.inBuf = s.chan.inBuf.drop s.n := by rw [State.chRead_chan, Channel.afterRead_quiet h]
  have hq : ((s.chRead s.n).setPayload (s.chRead s.n).rd).quiet := Channel.quiet_afterRead h s.n
  have hlen' : (s.chRead s.n).chan.inBuf.length < 2 := by rw [hleft, List.length_drop]; omega
  simp only [State.readPayload]
  split
  · rename_i hshort
    rw [hrd, List.length_take] at hshort
    exact ⟨rfl, by rw [hleft]; exact List.drop_eq_nil_of_le (by omega), hq⟩
  · obtain ⟨hq2, ⟨hnil, hempty⟩ | ⟨hi, hb, hhi⟩⟩ := State.chRead_one_quiet hq
    · rw [hnil]
      exact ⟨rfl, hempty, hq2⟩
    · rw [hhi]
      obtain ⟨hq3, ⟨hnil, hempty⟩ | ⟨lo, hb2, -⟩⟩ := State.chRead_one_quiet hq2
      · simp only [hnil]
        exact ⟨trivial, hempty, hq3⟩
      · rw [State.setPayload_chan] at hb
        rw [hb, hb2, List.length_cons, List.length_cons] at hlen'
        omega

/-- The frame after its marker on a quiet line that holds too few bytes for it (rule R140). -/
theorem State.readFrame_quiet_short {s : State} (h : s.quiet) (hlen : s.chan.inBuf.length < s.n + 4) (e0 e1 : Byte) :
    (s.readFrame e0 e1).1 = .timeout ∧ (s.readFrame e0 e1).2.chan.inBuf = [] ∧ (s.readFrame e0 e1).2.quiet := by
  simp only [State.readFrame]
  obtain ⟨hq, ⟨hnil, hempty⟩ | ⟨a, hb, ha⟩⟩ := State.chRead_one_quiet h
  · rw [hnil]
    exact ⟨rfl, hempty, hq⟩
  · rw [ha]
    obtain ⟨hq2, ⟨hnil, hempty⟩ | ⟨b, hb2, hrd2⟩⟩ := State.chRead_one_quiet (s := (s.chRead 1).setRxS0 a) hq
    · simp only [hnil]
      exact ⟨trivial, hempty, hq2⟩
    · simp only [hrd2]
      rw [State.setRxS0_chan] at hb2
      rw [hb, hb2, List.length_cons, List.length_cons] at hlen
      exact State.readPayload_quiet_short (s := (((s.chRead 1).setRxS0 a).chRead 1).setRxS1 b) hq2
        (Nat.lt_of_add_lt_add_right hlen) e0 e1

/-- A receiver that has read a data marker and knows the payload size of the frame. -/
def State.atBody (m : Marker) (k : Nat) (s : State) : State := (s.setMarker m.byte).setN k

/-- The frame after its marker, whole on a quiet line: five reads, and the checks of `DECODE` (rules R140, R141). -/
theorem State.readFrame_atBody {s : State} (h : s.quiet) (m : Marker) {s0 s1 hi lo : Byte} {p rest : List Byte}
    (hb : s.chan.inBuf = s0 :: s1 :: p ++ [hi, lo] ++ rest) (e0 e1 : Byte) :
    let t := (s.afterReads [1, 1, p.length, 1, 1]).latchFrame m s0 s1 p (joinBytes hi lo)
    (s.atBody m p.length).readFrame e0 e1 = (t.judge e0 e1, t.afterJudge e0 e1) ∧ t.chan.inBuf = rest := by
  obtain ⟨t, hread, he, hrest, -, -⟩ := State.readFrame_quiet (s := s.atBody m p.length) h rfl hb e0 e1
  have ht : t = (s.afterReads [1, 1, p.length, 1, 1]).latchFrame m s0 s1 p (joinBytes hi lo) := by
    simpa only [State.atBody, State.chRead_setMarker, State.chRead_setN, State.latchFrame_eq, State.afterReads, List.foldl] using he
  subst ht
  exact ⟨hread, hrest⟩

theorem Marker.byte_injective {m m' : Marker} (h : m.byte = m'.byte) : m = m' := by
  revert h; cases m <;> cases m' <;> decide

/-- A frame whose marker has been read: what is left of it joins the unread input in front. -/
theorem State.leaveBody_eq (m : Marker) (s0 s1 : Byte) (p : List Byte) (c : Half) (s : State) : s.leaveBody m s0 s1 p c =
    { s with chan := { s.chan with inBuf := [s0, s1] ++ p ++ [hiByte c, loByte c] ++ s.chan.inBuf } } := by
  simp [State.leaveBody, Channel.unread, frameBytes]

/-- A frame of another size than the receiver's, in marker position, is read with the receiver's size (rule R275). -/
theorem exec_frame_resized {s : State} (h : s.rxDecoding = true) (hl : s.cfg.legal) {m : Marker} {k : Nat} {p : List Byte}
    (hk : payloadSize s.cfg.customSize m = some k) (hne : p.length ≠ k) (s0 s1 : Byte) (c : Half) :
    let d := ((s.leaveBody m s0 s1 p c).atBody m k).readFrame s.seq0 s.seq1
    exec (m.frame s0 s1 p c) s = settle (.next (d.2.receive d.1)) := by
  rw [exec_frame, State.onFrame, State.standing_marker h]
  simp only [hl, hk, hne, not_true, if_false]
  rfl

/-- Settles O44: a frame of the receiver's size passes the checks and is accepted; one of another size is read as the frame that its bytes and those
after them hold, or to the end of the input. -/
theorem frameSymbolAccepted : Obligations.FrameSymbolAccepted := by
  unfold Obligations.FrameSymbolAccepted
  refine ⟨fun m p s x older hr hq hl hsize hs hc hio hlive => ?_, fun m k s0 s1 p c s hd hl hquiet hsize hne => ?_⟩
  · intro take w last o
    have hdec : s.rxDecoding = true := (State.rxDecoding_iff s).mpr ⟨hr, .inr (.inl hq)⟩
    refine ⟨?_, fun hwf a => by simp [Memory.read_writeBlock hwf]⟩
    have haccept : (s.checkedFrame m p).onData = (o.count take).dataAccepted := by
      have h := State.onData_accepts (d := s.checkedFrame m p) hs hc hio
      have hbytes : (s.checkedFrame m p).payload (s.checkedFrame m p).n = p := s.payload_checkedFrame m p
      simp only [hbytes] at h
      exact h.trans (by cases m <;> rfl)
    rw [exec_frame_marker hdec hl hsize, State.receiveFrame_checked hq, haccept,
      State.dataAccepted_count (s := s) (u := o) take rfl rfl rfl rfl rfl rfl, hr, settle_next]
    · simp only [last, decide_eq_true_eq]
      rfl
    · simpa [State.live] using hlive
  · intro u
    have hexec := exec_frame_resized hd hl hsize hne s0 s1 c
    rw [State.leaveBody_eq] at hexec
    refine ⟨fun i rest hdec => ?_, fun hlen => ?_⟩
    · rcases decode_ok_cases hdec with ⟨m', t0, t1, p', hi, lo, hsize', rfl, hb⟩ | ⟨b, hc, hb⟩
      · obtain ⟨hm, hbody⟩ := List.cons.inj hb
        obtain rfl := Marker.byte_injective hm
        obtain rfl : k = p'.length := by rw [hsize] at hsize'; exact Option.some.inj hsize'
        have hsame := sameBesidesDecode_afterReads [1, 1, p'.length, 1, 1] u
        obtain ⟨hread, hrest⟩ := State.readFrame_atBody (s := u) hquiet m hbody s.seq0 s.seq1
        refine ⟨?_, hrest⟩
        rw [exec_frame_marker (hsame.rxDecoding.trans hd) (by rw [hsame.cfg]; exact hl) (by rw [hsame.cfg]; exact hsize), hexec,
          hread, State.receiveFrame, State.latchFrame_seq0, State.latchFrame_seq1, hsame.seq0, hsame.seq1]
      · obtain ⟨hm, -⟩ := List.cons.inj hb
        rw [← hm, symbolClass_byte hsize] at hc
        cases hc
    · obtain ⟨htimeout, hempty, hq⟩ := State.readFrame_quiet_short (s := u.atBody m k) hquiet hlen s.seq0 s.seq1
      have hsame := sameBesidesDecode_readFrame s.seq0 s.seq1 (u.atBody m k)
      obtain ⟨hmarker, hn⟩ := State.readFrame_marker_n s.seq0 s.seq1 (u.atBody m k)
      refine ⟨((u.atBody m k).readFrame s.seq0 s.seq1).2, ?_, hempty, hmarker, hn, hsame.rxState, hsame.retry,
        hsame.seq0, hsame.seq1, hsame.store⟩
      rw [hexec, htimeout, State.receive_failing (hsame.rxDecoding.trans hd) (by decide)]
      exact settle_fail (by simp [State.live, hq]) _

end Sys2Proof.Machine
end

section
/-! Proofs: the checksum engine: its three operations, the bit-serial form, the laws of the zero initial value, and order sensitivity
(rules R111, R112, R115, R116, R118, R121). -/

namespace Sys2Proof.Machine

/-! ### The operations -/

theorem exec_crcInit (s : State) : exec .crcInit s = .next { s with crc := 0x0000#16 } := rfl

theorem exec_crcByte (b : Byte) (s : State) : exec (.crcByte b) s = .next { s with crc := crcUpdate s.crc b } := rfl

theorem exec_crc16 (bs : List Byte) (s : State) : exec (.crc16 bs) s = .next { s with crc := crcOf bs } := rfl

theorem execAll_cons_next {i : Instr} {s t : State} (h : exec i s = .next t) (is : List Instr) :
    execAll (i :: is) s = execAll is t := by
  rw [execAll, h]

theorem execAll_crcByte (bs : List Byte) (s : State) :
    execAll (bs.map Instr.crcByte) s = .next { s with crc := crcFrom s.crc bs } := by
  induction bs generalizing s with
  | nil => rfl
  | cons b bs ih =>
    rw [List.map_cons, execAll_cons_next (exec_crcByte b s)]
    exact ih _

theorem crcIndex_eq_masked (c : Half) (b : Byte) :
    crcIndex c b = BitVec.ofNat 8 (((c.toNat >>> 8) ^^^ b.toNat) &&& 0xFF) := by
  apply BitVec.eq_of_toNat_eq
  have hmask : ∀ n : Nat, n &&& 0xFF = n % 2 ^ 8 := fun n => Nat.and_two_pow_sub_one_eq_mod n 8
  rw [crcIndex, BitVec.toNat_xor, BitVec.extractLsb'_toNat, BitVec.toNat_ofNat, hmask, Nat.mod_mod, Nat.xor_mod_two_pow,
    Nat.mod_eq_of_lt b.isLt]

/-- The update in 16 bits is the source's formula on unbounded naturals with its masks (rule R112). -/
theorem crcUpdate_eq_masked (c : Half) (b : Byte) :
    crcUpdate c b = BitVec.ofNat 16
      (((c.toNat <<< 8) ^^^ (crcRom (BitVec.ofNat 8 (((c.toNat >>> 8) ^^^ b.toNat) &&& 0xFF))).toNat) &&& 0xFFFF) := by
  apply BitVec.eq_of_toNat_eq
  have hmask : ∀ n : Nat, n &&& 0xFFFF = n % 2 ^ 16 := fun n => Nat.and_two_pow_sub_one_eq_mod n 16
  rw [crcUpdate, ← crcIndex_eq_masked, BitVec.toNat_xor, BitVec.toNat_shiftLeft, BitVec.toNat_ofNat, hmask, Nat.mod_mod,
    Nat.xor_mod_two_pow, Nat.mod_eq_of_lt (crcRom _).isLt]

/-- Settles O4: the masks of the source's formula are the widths of the words, and `CRC16` is the fold of `CRC.BYTE` over the string. -/
theorem crcOperations : Obligations.CrcOperations := by
  unfold Obligations.CrcOperations
  refine ⟨exec_crcInit, fun b s => ?_, fun bs s => ⟨?_, crcOf bs, exec_crc16 bs s⟩⟩
  · rw [exec_crcByte, crcUpdate_eq_masked]
  · rw [exec_crc16, execAll_cons_next (exec_crcInit s), execAll_crcByte, crcOf]

/-! ### The bit-serial form -/

/-- The bit a shift step tests is the comparison of the register with 0x8000. -/
theorem getLsbD_15_iff (c : Half) : c.getLsbD 15 = true ↔ 0x8000 ≤ c.toNat := by
  rw [← BitVec.msb_eq_getLsbD_last c, BitVec.msb_eq_true_iff_two_mul_ge]
  omega

theorem crcShift_eq_ite (c : Half) : crcShift c = if 0x8000 ≤ c.toNat then (c <<< 1) ^^^ 0x1021#16 else c <<< 1 := by
  simp only [crcShift, getLsbD_15_iff]

theorem crcShift8_eq_repeat (c : Half) : crcShift8 c = Nat.repeat crcShift 8 c := rfl

/-- Settles O6: the update is eight shift steps, each of which is the step of the bit-serial form. -/
theorem bitSerial : Obligations.BitSerial := by
  unfold Obligations.BitSerial
  intro b s
  refine ⟨_, exec_crcByte b s, ?_⟩
  simp only [crcUpdate_eq_shift8, crcShift8_eq_repeat, ← crcShift_eq_ite]

/-! ### The laws of the zero initial value -/

theorem crcOf_append (as bs : List Byte) : crcOf (as ++ bs) = crcFrom (crcOf as) bs := crcFrom_append _ as bs

theorem crcOf_xor {as bs : List Byte} (h : as.length = bs.length) :
    crcOf (List.zipWith (fun x y => x ^^^ y) as bs) = crcOf as ^^^ crcOf bs :=
  crcFrom_xor 0#16 0#16 as bs h

/-- A byte equal to the high half of the register selects entry 0, and the update is a plain shift. -/
theorem crcUpdate_hiByte (c : Half) : crcUpdate c (hiByte c) = c <<< 8 := by
  have hindex : crcIndex c (hiByte c) = 0#8 := BitVec.xor_self
  have hentry : crcRom 0#8 = 0#16 := crcShift8_zero
  rw [crcUpdate, hindex, hentry, BitVec.xor_zero]

theorem hiByte_shiftLeft (c : Half) : hiByte (c <<< 8) = loByte c := by
  ext i h
  simp only [hiByte, loByte, BitVec.getElem_extractLsb', BitVec.getLsbD_shiftLeft]
  grind

/-- The trailer shifts its own checksum out of the register (rule R118). -/
theorem crcFrom_trailer (c : Half) : crcFrom c [hiByte c, loByte c] = 0#16 := by
  rw [crcFrom_cons, crcUpdate_hiByte, crcFrom_cons, ← hiByte_shiftLeft, crcUpdate_hiByte, crcFrom_nil, ← BitVec.shiftLeft_add]
  exact BitVec.shiftLeft_eq_zero (le_refl 16)

/-- Settles O7, by the linearity of the update and because a zero register stays zero on zero bytes. -/
theorem crcLaws : Obligations.CrcLaws := by
  unfold Obligations.CrcLaws
  refine ⟨crcFrom_replicate_zero, fun j bs => ?_, fun as bs h => crcOf_xor h, fun bs => ?_⟩
  · have hzeros : crcOf (List.replicate j 0x00#8) = 0#16 := crcFrom_replicate_zero j
    rw [crcOf_append, hzeros, crcOf]
  · rw [crcOf_append, crcFrom_trailer]

/-! ### Order -/

/-- Two strings of one length have the same checksum exactly when their difference has the checksum 0x0000 (rules R118, R121). -/
theorem crcOf_eq_iff_xor {as bs : List Byte} (h : as.length = bs.length) :
    crcOf as = crcOf bs ↔ crcOf (List.zipWith (fun x y => x ^^^ y) as bs) = 0#16 := by
  rw [crcOf_xor h, BitVec.xor_eq_zero_iff]

theorem crcOf_twice_ne_zero : ∀ d : Byte, d ≠ 0#8 → crcOf [d, d] ≠ 0#16 := by decide +kernel

theorem crcOf_twice_apart_ne_zero : ∀ d : Byte, d ≠ 0#8 → crcOf [d, 0#8, d] ≠ 0#16 := by decide +kernel

/-- Settles O8: the difference of a short string and its reverse repeats one byte, and no nonzero byte repeated so has the checksum
0x0000. -/
theorem crcOrder : Obligations.CrcOrder := by
  unfold Obligations.CrcOrder
  have hne : ∀ {a b : Byte}, a ≠ b → a ^^^ b ≠ 0#8 := mt BitVec.xor_eq_zero_iff.mp
  refine ⟨fun a b h heq => ?_, fun a b c h heq => ?_, by decide, by decide⟩
  · have hzero : crcOf [a ^^^ b, b ^^^ a] = 0#16 := (crcOf_eq_iff_xor (as := [a, b]) (bs := [b, a]) rfl).mp heq
    rw [BitVec.xor_comm b a] at hzero
    exact crcOf_twice_ne_zero _ (hne h) hzero
  · have hzero : crcOf [a ^^^ c, b ^^^ b, c ^^^ a] = 0#16 :=
      (crcOf_eq_iff_xor (as := [a, b, c]) (bs := [c, b, a]) rfl).mp heq
    rw [BitVec.xor_comm c a, BitVec.xor_self] at hzero
    exact crcOf_twice_apart_ne_zero _ (hne h) hzero

end Sys2Proof.Machine
end

section
/-! Proofs: `HDR.PARSE` case by case, and `DECODE` of a whole frame on a quiet line (rules R137, R140, R141). -/

namespace Sys2Proof.Machine

/-! ### `HDR.PARSE` -/

/-- A string without a 0x00 is not split. -/
theorem splitZero_of_notMem {x : List Byte} (h : 0x00#8 ∉ x) : splitZero x = none := by
  induction x with
  | nil => rfl
  | cons b x ih =>
    have hb : b ≠ 0x00#8 := fun hc => h (by simp [hc])
    simp [splitZero, hb, ih (fun hc => h (by simp [hc]))]

/-- A payload that begins with a name does not begin with 0x00. -/
theorem head?_name_append {name : List Byte} (hne : name ≠ []) (hz : 0x00#8 ∉ name) (r : List Byte) :
    (name ++ r).head? ≠ some 0x00#8 := by
  rw [List.head?_append_of_ne_nil _ hne]
  exact fun hc => hz (List.mem_of_head? hc)

/-- Without a first terminator the payload is `Bad`. -/
theorem parseHeader_unterminated {name : List Byte} (hne : name ≠ []) (hz : 0x00#8 ∉ name) (sizeW : Nat) :
    parseHeader sizeW name = .bad := by
  have hhead : name.head? ≠ some 0x00#8 := by simpa using head?_name_append hne hz []
  rw [parseHeader, if_neg hhead, splitZero_of_notMem hz]

/-- After a name and its terminator the size field follows. -/
theorem parseHeader_name {name : List Byte} (hne : name ≠ []) (hz : 0x00#8 ∉ name) (sizeW : Nat) (field : List Byte) :
    parseHeader sizeW (name ++ 0x00#8 :: field) = parseSize sizeW name field := by
  rw [parseHeader, if_neg (head?_name_append hne hz _), splitZero_append hz]

/-- Without a second terminator the size field is `Bad`. -/
theorem parseSize_unterminated {field : List Byte} (hz : 0x00#8 ∉ field) (sizeW : Nat) (name : List Byte) :
    parseSize sizeW name field = .bad := by
  rw [parseSize, splitZero_of_notMem hz]

/-- The test of the model is the rule's: every byte is an ASCII digit. -/
theorem all_isDigit_iff (ds : List Byte) : ds.all isDigit = true ↔ ∀ b ∈ ds, 0x30 ≤ b.toNat ∧ b.toNat ≤ 0x39 := by
  simp [isDigit]

section
variable {digits : List Byte} (hz : 0x00#8 ∉ digits) {sizeW : Nat} (name rest : List Byte)
include hz

/-- Digits whose value is in range are the size. -/
theorem parseSize_digits
    (h : digits ≠ [] ∧ (∀ b ∈ digits, 0x30 ≤ b.toNat ∧ b.toNat ≤ 0x39) ∧ digitsValue digits < 2 ^ sizeW) :
    parseSize sizeW name (digits ++ 0x00#8 :: rest) = .file name (digitsValue digits) := by
  obtain ⟨hne, hdig, hv⟩ := h
  simp [parseSize, splitZero_append hz, hne, (all_isDigit_iff digits).mpr hdig, hv]

/-- Anything else between the name's terminator and the next is `Bad`. -/
theorem parseSize_not_digits
    (h : ¬ (digits ≠ [] ∧ (∀ b ∈ digits, 0x30 ≤ b.toNat ∧ b.toNat ≤ 0x39) ∧ digitsValue digits < 2 ^ sizeW)) :
    parseSize sizeW name (digits ++ 0x00#8 :: rest) = .bad := by
  rw [parseSize, splitZero_append hz]
  by_cases hd : digits = [] ∨ digits.all isDigit = false
  · exact if_pos hd
  · obtain ⟨hne, hdig⟩ : digits ≠ [] ∧ digits.all isDigit = true := by simpa using hd
    have hv : 2 ^ sizeW ≤ digitsValue digits := Nat.not_lt.mp fun hv => h ⟨hne, (all_isDigit_iff digits).mp hdig, hv⟩
    exact (if_neg hd).trans (if_pos hv)

end

/-- A `Bad` payload is an unrecognised frame (rule R137). -/
theorem execHdrParse_of_bad {p : List Byte} {s : State} (hp : parseHeader s.cfg.sizeW p = .bad) :
    execHdrParse p s = .next { s with hdr := some .bad, outcome := some .unrecognized } := by
  simp [execHdrParse, hp]

/-- Settles O11: the payload is split at its first 0x00, and the size field at the next. -/
theorem hdrParse : Obligations.HdrParse := by
  unfold Obligations.HdrParse
  refine fun s => ⟨fun r => ?null, fun name hne hz => ?unnamed, fun name field hne hz hf => ?unsized,
    fun name digits rest hne hz hd => ?sized⟩
  case null => exact execHdrParse_of_ne_bad rfl (by simp)
  case unnamed => exact execHdrParse_of_bad (parseHeader_unterminated hne hz _)
  case unsized =>
    refine execHdrParse_of_bad ?_
    rw [List.append_assoc, List.singleton_append, parseHeader_name hne hz, parseSize_unterminated hf]
  case sized =>
    have hparse := parseHeader_name hne hz s.cfg.sizeW (digits ++ 0x00#8 :: rest)
    rw [show name ++ [0x00#8] ++ digits ++ [0x00#8] ++ rest = name ++ 0x00#8 :: (digits ++ 0x00#8 :: rest) by simp]
    split
    next hfile => exact execHdrParse_of_ne_bad (hparse.trans (parseSize_digits hd name rest hfile)) (by simp)
    next hbad => exact execHdrParse_of_bad (hparse.trans (parseSize_not_digits hd name rest hbad))

/-! ### `DECODE` of a whole frame -/

/-- Settles O14: the reads and the fields are those of a frame on a quiet line, and the checks are made on the fields. -/
theorem decodeWholeFrame : Obligations.DecodeWholeFrame := by
  unfold Obligations.DecodeWholeFrame
  intro m e0 e1 s0 s1 hi lo p rest s he hl hq hm hb
  obtain ⟨t, hdecode, ht, hin, htq, htrace⟩ := State.decodeUnit_quiet hq hm hb e0 e1
  have hexec : exec (.decode e0 e1) s = .next { t.afterJudge e0 e1 with outcome := some (t.judge e0 e1) } := by
    refine (whileOpen_eq _ he).trans ?_
    rw [if_neg (by simpa using hl), hdecode]
    exact settle_next (by simp [State.live, htq])
  have hpayload : t.buf.readBlock 0 p.length = p := by
    rw [ht]
    exact Memory.readBlock_writeBlock _ p
  have hjudge : t.judge e0 e1 = if s0 ≠ e0 then .badSeqLow else if s1 ≠ e1 then .badSeqHigh
      else if hi ++ lo ≠ crcOf p then .badChecksum else .packet := by
    have hn : t.payload t.n = p := by rw [ht] at hpayload ⊢; exact hpayload
    rw [State.judge, hn]
    simp [ht, joinBytes_eq_append]
  refine ⟨_, hexec, ?_, ?_, ?_, ?_, ?_, ?_, ?_, ?_, congrArg some hjudge⟩
  · simp [ht]
  · simp [ht]
  · simp [ht]
  · simp [ht]
  · simp [ht, joinBytes_eq_append]
  · simpa using hpayload
  · simpa using hin
  · simpa using htrace

end Sys2Proof.Machine
end

section
/-! Proofs: a frame with one flipped bit (rules R118, R139, R140, R142). The checksum is injective in the register and in each byte,
so that one changed byte of payload or trailer always shows. -/

namespace Sys2Proof.Machine

/-! ### One changed byte changes the checksum -/

/-- Eight shift steps lose nothing. -/
theorem crcShift8_injective {c d : Half} (h : crcShift8 c = crcShift8 d) : c = d := by
  have hzero : crcShift8 (c ^^^ d) = 0#16 := by rw [crcShift8_xor, h, BitVec.xor_self]
  exact BitVec.xor_eq_zero_iff.mp (crcShift8_eq_zero hzero)

/-- Two updates agree exactly when the registers differ, in the high half, as the bytes do. -/
theorem crcUpdate_eq_iff {c d : Half} {a b : Byte} :
    crcUpdate c a = crcUpdate d b ↔ c ^^^ (a.setWidth 16 <<< 8) = d ^^^ (b.setWidth 16 <<< 8) := by
  rw [crcUpdate_eq_shift8, crcUpdate_eq_shift8]
  exact ⟨crcShift8_injective, congrArg _⟩

/-- One string leads two registers to the same one only from the same one. -/
theorem crcFrom_injective {c d : Half} {bs : List Byte} (h : crcFrom c bs = crcFrom d bs) : c = d := by
  induction bs generalizing c d with
  | nil => exact h
  | cons b bs ih => exact (BitVec.xor_left_inj _).mp (crcUpdate_eq_iff.mp (ih h))

/-- Another byte gives another register. -/
theorem crcUpdate_xor_ne (c : Half) (b : Byte) {d : Byte} (hd : d ≠ 0#8) : crcUpdate c (b ^^^ d) ≠ crcUpdate c b := by
  intro h
  have hshift : (b ^^^ d).setWidth 16 <<< 8 = b.setWidth 16 <<< (8 : Nat) := (BitVec.xor_right_inj _).mp (crcUpdate_eq_iff.mp h)
  have hbyte : b ^^^ d = b := by bv_omega
  exact hd (by simpa using hbyte)

/-- One changed byte of a string changes its checksum. -/
theorem crcFrom_modify_ne {c : Half} {bs : List Byte} {i : Nat} (hi : i < bs.length) {d : Byte} (hd : d ≠ 0#8) :
    crcFrom c (bs.modify i (fun b => b ^^^ d)) ≠ crcFrom c bs := by
  induction bs generalizing c i with
  | nil => simp at hi
  | cons b bs ih =>
    cases i with
    | zero =>
      rw [List.modify_zero_cons]
      exact fun h => crcUpdate_xor_ne c b hd (crcFrom_injective (bs := bs) h)
    | succ i =>
      rw [List.modify_succ_cons]
      exact ih (by simpa using hi)

/-! ### The trailer -/

/-- The checksum of a string with a trailer is 0x0000 exactly when the trailer holds the checksum of the string (rule R118). -/
theorem crcOf_trailer_eq_zero_iff {p : List Byte} {hi lo : Byte} : crcOf (p ++ [hi, lo]) = 0#16 ↔ hi ++ lo = crcOf p := by
  have htrailer : crcFrom (hi ++ lo) [hi, lo] = 0#16 := by
    simpa [← joinBytes_eq_append] using crcFrom_trailer (joinBytes hi lo)
  rw [crcOf_append, ← htrailer]
  exact ⟨fun h => (crcFrom_injective h).symm, fun h => by rw [h]⟩

/-- The last two bytes of a string. -/
theorem exists_trailer {bs : List Byte} {n : Nat} (h : bs.length = n + 2) :
    ∃ p hi lo, p.length = n ∧ bs = p ++ [hi, lo] := by
  obtain ⟨hi, lo, htwo⟩ := List.length_eq_two.mp (show (bs.drop n).length = 2 by rw [List.length_drop, h]; omega)
  exact ⟨bs.take n, hi, lo, by rw [List.length_take, h]; omega, by rw [← htwo, List.take_append_drop]⟩

/-- Payload and trailer with one changed byte are those of a frame whose checksum does not match. -/
theorem exists_changed_body {p : List Byte} {j : Nat} (hj : j < p.length + 2) {d : Byte} (hd : d ≠ 0#8) :
    ∃ q hi lo, q.length = p.length ∧
      (p ++ [hiByte (crcOf p), loByte (crcOf p)]).modify j (fun b => b ^^^ d) = q ++ [hi, lo] ∧ hi ++ lo ≠ crcOf q := by
  have hzero : crcOf (p ++ [hiByte (crcOf p), loByte (crcOf p)]) = 0#16 := by rw [crcOf_append, crcFrom_trailer]
  obtain ⟨q, hi, lo, hq, hbody⟩ := exists_trailer (n := p.length)
    (show ((p ++ [hiByte (crcOf p), loByte (crcOf p)]).modify j (fun b => b ^^^ d)).length = p.length + 2 by simp)
  refine ⟨q, hi, lo, hq, hbody, fun h => ?_⟩
  rw [← crcOf_trailer_eq_zero_iff, ← hbody, ← hzero] at h
  exact crcFrom_modify_ne (by simpa using hj) hd h

/-! ### The frame -/

theorem builtFrame_eq_body (m : Marker) (sq : Byte) (p : List Byte) :
    builtFrame m sq p = m.byte :: sq :: (0xFF#8 - sq) :: (p ++ [hiByte (crcOf p), loByte (crcOf p)]) := by
  simp [builtFrame, frameBytes, seqComplement]

/-- A single bit. -/
theorem one_shiftLeft_ne_zero {k : Nat} (hk : k < 8) : (1#8 <<< k) ≠ 0#8 := by
  interval_cases k <;> decide

/-- Settles O15: the unchanged frame passes the three checks; a flipped bit leaves the sequence bytes and changes the checksum of
payload and trailer together, so that the last check fails. -/
theorem frameRoundTrip : Obligations.FrameRoundTrip := by
  unfold Obligations.FrameRoundTrip
  intro m sq p rest s he hl hq hm
  refine ⟨fun hb => ?_, fun i k h3 hi hk hb => ?_⟩
  · have hmatch : hiByte (crcOf p) ++ loByte (crcOf p) = crcOf p := by rw [← joinBytes_eq_append, joinBytes_hiByte_loByte]
    obtain ⟨t, hexec, hmarker, hn, hs0, -, -, hbuf, hin, -, hout⟩ :=
      decodeWholeFrame m sq (0xFF#8 - sq) sq (0xFF#8 - sq) (hiByte (crcOf p)) (loByte (crcOf p)) p rest s he hl hq hm
        (by rw [hb, builtFrame_eq_body]; simp)
    exact ⟨t, hexec, by simpa [hmatch] using hout, hmarker, hs0, hn, by rw [hn, hbuf], hin⟩
  · obtain ⟨j, rfl⟩ : ∃ j, i = j + 3 := ⟨i - 3, by omega⟩
    obtain ⟨q, hi', lo', hlen, hbody, hne⟩ := exists_changed_body (p := p) (j := j) (by omega) (one_shiftLeft_ne_zero hk)
    have hframe : s.chan.inBuf = m.byte :: sq :: (0xFF#8 - sq) :: q ++ [hi', lo'] ++ rest := by
      rw [hb, builtFrame_eq_body, List.modify_succ_cons, List.modify_succ_cons, List.modify_succ_cons, hbody]
      simp
    obtain ⟨t, hexec, -, -, -, -, -, -, -, -, hout⟩ :=
      decodeWholeFrame m sq (0xFF#8 - sq) sq (0xFF#8 - sq) hi' lo' q rest s he hl hq (by rw [hlen, hm]) hframe
    exact ⟨t, hexec, by simpa [hne] using hout⟩

end Sys2Proof.Machine
end

section
/-! Proofs: the entry part of `TX.DATA` (rules R133, R139, R165, R166). -/

namespace Sys2Proof.Machine

/-- `FileRead` of bytes that the file has, when the interface gives no error (rule R13). -/
theorem State.fileReadAnswer_some {s : State} {i o n : Nat} {f : SrcFile} (hio : s.store.ioErrors.head? ≠ some true)
    (hf : s.files[i]? = some f) (hlen : o + n ≤ f.data.length) : s.fileReadAnswer i o n = some ((f.data.drop o).take n) := by
  rw [State.fileReadAnswer, if_neg (mt (FileStore.ioError_iff _).mp hio), hf]
  exact if_pos hlen

/-- The registers a data frame is built into (rule R166). -/
theorem State.buildData_eq (s : State) {chunk : List Byte} (h : chunk.length = s.take) :
    let k := chunkSize s.cfg (s.size - s.offset)
    let m := chunkMarker s.cfg (s.size - s.offset)
    s.buildData chunk = { s with
      fresh := false, buf := s.buf.writeBlock 0 (padBytes chunk k), marker := m.byte, n := k, crc := crcOf (padBytes chunk k),
      frame := builtFrame m s.seq0 (padBytes chunk k) } := by
  intro k m
  have hlen : (padBytes chunk k).length = k := length_padBytes (by rw [h]; exact Nat.min_le_left _ _)
  have hread (t : State) : (t.setPayload (padBytes chunk k)).payload k = padBytes chunk k := by
    have := t.payload_setPayload (padBytes chunk k); rwa [hlen] at this
  simp only [State.buildData, hread, k]
  rfl

/-- Settles O31: both sides are the attempt with the frame that the entry part builds. -/
theorem txDataEntry : Obligations.TxDataEntry := by
  unfold Obligations.TxDataEntry
  intro s f hr hq hl hfresh hio hf remaining k take chunk p hlen
  have hchunk : chunk.length = s.take := by
    simp only [chunk, List.length_take, List.length_drop]
    exact Nat.min_eq_left (by omega)
  have hread : s.fileReadAnswer s.fileIdx s.offset s.take = some chunk := State.fileReadAnswer_some hio hf hlen
  have hpad : padBytes chunk k = p := by rw [padBytes, hchunk]; rfl
  have henter : s.enterData = .ready ((s.fileRead s.fileIdx s.offset s.take).buildData chunk) := by
    rw [State.enterData, if_neg (by simp [hfresh]), hread]
  refine (inTx_eq hr hq hl (by decide) (by decide)).trans ?_
  rw [henter, State.buildData_eq (s.fileRead s.fileIdx s.offset s.take) hchunk, State.fileRead, hread, ← hpad]
  refine Eq.symm ((exec_txData_built ?_ ?_ ?_ ?_).trans ?_)
  exacts [hr, hl, hq, rfl, rfl]

end Sys2Proof.Machine
end

section
/-! Proofs: what the two roles write (rules R131, R175, R201, R205). Whatever a role is held to, it may write 0x43, which is all that a
failed attempt may send. -/

namespace Sys2Proof.Machine

/-! ### The writes between two states -/

/-- Every write between two states is of bytes that meet `W`. -/
def Writes (W : List Byte → Prop) (s t : State) : Prop :=
  ∃ new, t.trace = new ++ s.trace ∧ ∀ bs, Event.write bs ∈ new → W bs

section
variable {W : List Byte → Prop}

theorem Writes.same {s t : State} (ht : t.trace = s.trace) : Writes W s t := ⟨[], ht, nofun⟩

/-- One event: a write of admitted bytes, or no write. -/
theorem Writes.event {s t : State} {e : Event} (ht : t.trace = e :: s.trace) (he : ∀ bs, e = .write bs → W bs) : Writes W s t :=
  ⟨[e], ht, fun bs hm => he bs (List.mem_singleton.mp hm).symm⟩

theorem Writes.trans {s t u : State} (h : Writes W s t) (k : Writes W t u) : Writes W s u := by
  obtain ⟨n1, e1, h1⟩ := h
  obtain ⟨n2, e2, h2⟩ := k
  exact ⟨n2 ++ n1, by rw [e2, e1, List.append_assoc], fun bs hm => (List.mem_append.mp hm).elim (h2 bs) (h1 bs)⟩

theorem writes_chWrite {bs : List Byte} (h : W bs) (s : State) : Writes W s (s.chWrite bs) :=
  .event rfl fun _ he => Event.write.inj he ▸ h

theorem writes_chRead (n : Nat) (s : State) : Writes W s (s.chRead n) := .event rfl nofun

theorem writes_abort (c : ExitClass) (e : Cause) (s : State) : Writes W s (s.abort c e) := .event rfl nofun

theorem writes_finish (s : State) : Writes W s s.finish := .event rfl nofun

/-- `DECODE` makes reads only. -/
theorem writes_rxDecode (s : State) : Writes W s s.rxDecode.2 := by
  obtain ⟨n, got, older, ht, _, ho, _⟩ := readsOnly_decodeUnit s.seq0 s.seq1 s
  refine ⟨.read n got :: older, ht, fun bs hm => ?_⟩
  rcases List.mem_cons.mp hm with hm | hm
  · cases hm
  · obtain ⟨_, _, he, _⟩ := ho _ hm
    cases he

/-- An accepted response writes nothing. -/
theorem writes_accepted (s : State) : Writes W s s.accepted := by
  rcases s.accepted_cases with ⟨_, h⟩ | ⟨_, _, h⟩ | ⟨_, _, h⟩ | ⟨_, h⟩ | ⟨_, _, h⟩ | ⟨_, h⟩ | ⟨_, h⟩ <;> rw [h]
  · exact .same (by simp)
  · exact .same rfl
  · exact .same (by simp)
  · exact .event (State.dataDone_trace s) nofun
  · exact .same (by simp)
  · exact writes_finish s
  · exact .same rfl

theorem writes_enterAwaitHeader (s : State) : Writes W s s.enterAwaitHeader := .same rfl

/-- The entry part of the terminator builds its frame and sends nothing. -/
theorem writes_enterTerm (s : State) : Writes W s s.enterTerm := by
  unfold State.enterTerm
  split
  · exact .same rfl
  · exact .same (by simp)

/-- An accepted packet is acknowledged, and reported after that. -/
theorem writes_dataAccepted (hack : W [ACK]) (s : State) : Writes W s s.dataAccepted :=
  (writes_chWrite hack s).trans
    (.event (e := .progress s.written s.size (Config.freeElapsed s.cfg.role s.draws)) (by simp) nofun)

/-- A decoded data packet goes to the file; only its acceptance is answered. -/
theorem writes_onData (hack : W [ACK]) (s : State) : Writes W s s.onData := by
  have hwrite (bs : List Byte) : Writes W s (s.fileWrite bs) := .event rfl nofun
  have hcount (bs : List Byte) (k : Nat) : Writes W s ((s.fileWrite bs).count k) := .event rfl nofun
  have hclose (bs : List Byte) (k : Nat) : Writes W s ((s.fileWrite bs).count k).fileClose :=
    (hcount bs k).trans (.event rfl nofun)
  rcases s.onData_cases with ⟨_, h⟩ | ⟨_, _, h⟩ | ⟨_, _, _, h⟩ | ⟨_, _, _, h⟩ <;> rw [h]
  · exact (hwrite _).trans (writes_abort _ _ _)
  · exact (hcount _ _).trans (writes_dataAccepted hack _)
  · exact (hclose _ _).trans (writes_abort _ _ _)
  · exact (hclose _ _).trans (writes_dataAccepted hack _)

end

/-! ### The retry path -/

section
variable {W : List Byte → Prop} (hcrq : W [CRQ])
include hcrq

/-- The retry path clears the Channel, and may write `CRQ`; at the bound it aborts. -/
theorem writes_fail (e : Cause) (s : State) : Writes W s (s.fail e) := by
  have hcount : Writes W s (s.countFailure e) := .same rfl
  have hclear : Writes W s (s.countFailure e).chClear := hcount.trans (.event rfl nofun)
  rcases s.fail_cases e with ⟨_, h⟩ | ⟨_, ⟨_, _, _, h⟩ | ⟨_, _, _, h⟩ | h⟩ <;> rw [h]
  · exact hcount.trans (writes_abort _ _ _)
  · exact hclear.trans (writes_chWrite hcrq _)
  · exact hclear.trans (.same rfl)
  · exact hclear

theorem writes_cancelTest (s : State) : Writes W s s.cancelTest := by
  rcases s.cancelTest_cases with ⟨_, h⟩ | ⟨_, h⟩ <;> rw [h]
  · exact (writes_chRead 1 s).trans (writes_abort _ _ _)
  · exact (writes_chRead 1 s).trans (writes_fail hcrq _ _)

/-! ### The sender's attempt -/

theorem writes_awaitOne (s : State) : Writes W s s.awaitOne := by
  rcases s.awaitOne_cases with ⟨_, h⟩ | ⟨b, _, h⟩ <;> rw [h]
  · exact (writes_chRead 1 s).trans (writes_fail hcrq _ _)
  · have hresp : Writes W s ((s.chRead 1).setResp b) := (writes_chRead 1 s).trans (.same rfl)
    rcases (s.chRead 1).onResponse_cases b with ⟨_, h⟩ | ⟨_, _, h⟩ | ⟨_, _, h⟩ <;> rw [h]
    · exact hresp.trans (writes_cancelTest hcrq _)
    · exact hresp.trans (writes_accepted _)
    · exact hresp.trans (writes_fail hcrq _ _)

/-- An attempt writes its request. -/
theorem writes_txAttempt {bs : List Byte} (h : W bs) (s : State) : Writes W s (s.txAttempt bs) := by
  have hsend : Writes W s (s.send bs) := (writes_chWrite h s).trans (.same rfl)
  have hfirst : Writes W s (s.send bs).awaitOne := hsend.trans (writes_awaitOne hcrq _)
  rcases s.txAttempt_cases bs with ⟨_, h⟩ | ⟨_, h⟩ <;> rw [h]
  · exact hfirst.trans (writes_awaitOne hcrq _)
  · exact hfirst

/-! ### The receiver's answers -/

section
variable (hack : W [ACK])
include hack

theorem writes_ackCrq (s : State) : Writes W s s.ackCrq := (writes_chWrite hack s).trans (writes_chWrite hcrq _)

theorem writes_onHeader (s : State) : Writes W s s.onHeader := by
  rcases s.onHeader_cases with ⟨_, h⟩ | ⟨_, h⟩ | ⟨name, size, _, ⟨_, h⟩ | ⟨_, h⟩⟩ <;> rw [h]
  · exact (writes_chWrite hack s).trans (writes_finish _)
  · exact writes_fail hcrq _ s
  all_goals have hopen : Writes W s (s.fileOpen name size) := .event rfl nofun
  · exact (hopen.trans (writes_ackCrq hcrq hack _)).trans (.same (by simp))
  · exact hopen.trans (writes_abort _ _ _)

theorem writes_headerOutcome (d : DecodeOutcome) (s : State) : Writes W s (s.headerOutcome d) := by
  rcases s.headerOutcome_cases d with ⟨_, h⟩ | ⟨_, h⟩ | ⟨_, h⟩ | ⟨_, h⟩ <;> rw [h]
  · exact writes_onHeader hcrq hack s
  · exact (writes_ackCrq hcrq hack s).trans (writes_enterAwaitHeader _)
  · exact writes_cancelTest hcrq s
  · exact writes_fail hcrq _ s

theorem writes_dataOutcome (d : DecodeOutcome) (s : State) : Writes W s (s.dataOutcome d) := by
  rcases s.dataOutcome_cases d with ⟨_, h⟩ | ⟨_, h⟩ | ⟨_, _, h⟩ <;> rw [h]
  · exact writes_onData hack s
  · exact writes_cancelTest hcrq s
  · exact writes_fail hcrq _ s

theorem writes_eotOutcome (d : DecodeOutcome) (s : State) : Writes W s (s.eotOutcome d) := by
  rcases s.eotOutcome_cases d with ⟨_, h⟩ | ⟨_, h⟩ | ⟨_, _, h⟩ <;> rw [h]
  · have hanswer : Writes W s { s.ackCrq with retry := 0 } := (writes_ackCrq hcrq hack s).trans (.same rfl)
    exact hanswer.trans (writes_enterAwaitHeader _)
  · exact writes_cancelTest hcrq s
  · exact writes_fail hcrq _ s

end
end

/-! ### A step of each role -/

/-- A step of a receiver writes 0x43 and 0x06 only. -/
theorem step_rx_writes {s t : State} (hr : s.cfg.role = .receiver) (h : step s = .next t) : Writes receiverWrites s t := by
  have hcrq : receiverWrites [CRQ] := .inl rfl
  have hack : receiverWrites [ACK] := .inr rfl
  have hdecode : Writes receiverWrites s s.rxDecode.2 := writes_rxDecode s
  rcases step_rx hr h with ⟨_, _, _, rfl⟩ | ⟨_, _, rfl⟩ | ⟨_, _, rfl⟩ | ⟨_, _, rfl⟩ | ⟨_, _, rfl⟩
  · exact .same rfl
  · exact (writes_chWrite hcrq s).trans (writes_enterAwaitHeader _)
  · exact hdecode.trans (writes_headerOutcome hcrq hack _ _)
  · exact hdecode.trans (writes_dataOutcome hcrq hack _ _)
  · exact hdecode.trans (writes_eotOutcome hcrq hack _ _)

/-- The frame that a running sender holds is one that it may write (rule R131). -/
theorem TxRunning.frame_writes {s : State} (h : TxRunning s) (hf : s.fresh = false)
    (hq : s.txState = .sendingHeader ∨ s.txState = .sendingData ∨ s.txState = .sendingTerminator) :
    senderWrites s.cfg.customSize s.frame := by
  obtain ⟨m, p, hm, hp⟩ := h.frame (.inl ⟨hf, hq⟩)
  exact .inr (.inr ⟨m, s.seq0, p, hm, hp⟩)

section
variable {s t : State} (h : TxRunning s)
include h

/-- The header's attempt writes the frame that its entry part has built, now or before. -/
theorem TxRunning.header_writes (hq : s.txState = .sendingHeader) (ht : attemptAfter s.enterHeader = .next t) :
    Writes (senderWrites s.cfg.customSize) s t := by
  have hinfo : Writes (senderWrites s.cfg.customSize) s (s.fileInfo s.fileIdx) := .event rfl nofun
  rcases s.enterHeader_cases with ⟨hf, he⟩ | ⟨_, _, he⟩ | ⟨name, size, _, _, hfits, _, he⟩ | ⟨_, _, _, _, _, he⟩ <;>
    rw [he] at ht <;> cases ht
  · exact writes_txAttempt (.inl rfl) (h.frame_writes hf (.inl hq)) s
  · exact hinfo.trans (writes_abort _ _ _)
  · have hs : TxRunning (s.fileInfo s.fileIdx) := { h with }
    have hbuild : Writes (senderWrites s.cfg.customSize) s ((s.fileInfo s.fileIdx).buildHeader name size) :=
      hinfo.trans (.same (by simp))
    exact hbuild.trans (writes_txAttempt (.inl rfl) ((hs.buildHeader hq hfits).frame_writes rfl (.inl hq)) _)

/-- The data packet's attempt writes the frame that its entry part has built, now or before. -/
theorem TxRunning.data_writes (hq : s.txState = .sendingData) (ht : attemptAfter s.enterData = .next t) :
    Writes (senderWrites s.cfg.customSize) s t := by
  have hread : Writes (senderWrites s.cfg.customSize) s (s.fileRead s.fileIdx s.offset s.take) := .event rfl nofun
  rcases s.enterData_cases with ⟨hf, he⟩ | ⟨_, _, he⟩ | ⟨chunk, _, hc, he⟩ <;> rw [he] at ht <;> cases ht
  · exact writes_txAttempt (.inl rfl) (h.frame_writes hf (.inr (.inl hq))) s
  · exact hread.trans (writes_abort _ _ _)
  · have hs : TxRunning (s.fileRead s.fileIdx s.offset s.take) := { h with }
    have hbuild : Writes (senderWrites s.cfg.customSize) s ((s.fileRead s.fileIdx s.offset s.take).buildData chunk) :=
      hread.trans (.same (by simp))
    have hframe := (hs.buildData (State.length_fileReadAnswer hc)).frame_writes rfl (.inr (.inl hq))
    exact hbuild.trans (writes_txAttempt (.inl rfl) hframe _)

/-- The terminator's attempt writes its frame. -/
theorem TxRunning.term_writes (hq : s.txState = .sendingTerminator) :
    Writes (senderWrites s.cfg.customSize) s (s.enterTerm.txAttempt s.enterTerm.frame) := by
  obtain ⟨hterm, hbuilt⟩ := h.enterTerm hq
  have hframe := hterm.frame_writes hbuilt (.inr (.inr ((State.enterTerm_txState s).trans hq)))
  rw [(sameSession_enterTerm s).cfg] at hframe
  exact (writes_enterTerm s).trans (writes_txAttempt (.inl rfl) hframe _)

end

/-- A step of a sender writes 0x43, 0x04 and frames it has built. -/
theorem State.Inv.step_tx_writes {s t : State} (h : s.Inv) (hr : s.cfg.role = .sender) (ht : step s = .next t) :
    Writes (senderWrites s.cfg.customSize) s t := by
  have hcrq : senderWrites s.cfg.customSize [CRQ] := .inl rfl
  have heot : senderWrites s.cfg.customSize [EOT] := .inr (.inl rfl)
  have hrun (h1 : s.txState ≠ .idle) (h2 : s.txState ≠ .done) (h3 : s.txState ≠ .aborted) : TxRunning s :=
    h.txRunning ((State.txBounded_iff s).mpr ⟨hr, h1, h2, h3⟩)
  rcases step_tx hr ht with ⟨_, _, rfl⟩ | ⟨_, _, _, _, rfl⟩ | ⟨_, _, rfl⟩ | ⟨hq, _, ha⟩ | ⟨hq, _, ha⟩ | ⟨_, _, rfl⟩ | ⟨hq, _, rfl⟩
  · exact writes_awaitOne hcrq s
  · exact .same rfl
  · exact writes_txAttempt hcrq hcrq s
  · exact (hrun (by simp [hq]) (by simp [hq]) (by simp [hq])).header_writes hq ha
  · exact (hrun (by simp [hq]) (by simp [hq]) (by simp [hq])).data_writes hq ha
  · exact writes_txAttempt hcrq heot s
  · exact (hrun (by simp [hq]) (by simp [hq]) (by simp [hq])).term_writes hq

/-- Settles O54, by role: the receiver's answers and the retry path write single bytes, and the invariant says that the frame a sender
holds was built. -/
theorem writesOfRoles : Obligations.WritesOfRoles := by
  unfold Obligations.WritesOfRoles
  intro s t h ht
  cases hr : s.cfg.role
  · obtain ⟨new, htrace, hw⟩ := h.step_tx_writes hr ht
    exact ⟨new, htrace, fun bs hm => ⟨fun _ => hw bs hm, nofun⟩⟩
  · obtain ⟨new, htrace, hw⟩ := step_rx_writes hr ht
    exact ⟨new, htrace, fun bs hm => ⟨nofun, fun _ => hw bs hm⟩⟩

end Sys2Proof.Machine
end

section
/-! Proofs: the retry path, and what a failed attempt leaves alone (rules R176, R205, R226, R227, R228). An attempt counts a failure in
`fail` only, and what comes before it in the step reads, writes and remembers a response byte. -/

namespace Sys2Proof.Machine

/-! ### The retry path -/

/-- The two variants of the retry path, each of one role (rules R176, R205). -/
theorem State.prepareRetry_eq (s : State) : s.prepareRetry =
    if s.cfg.role = .receiver ∧ s.rxState = .awaitingHeader ∧ s.cfg.rxResendCrq = true then s.chWrite [CRQ]
    else if s.cfg.role = .sender ∧ s.txState = .sendingHeader ∧ s.cfg.txRehandshake = true then s.backToHandshake
    else s := by
  unfold State.prepareRetry
  cases hr : s.cfg.role <;> simp

/-- Settles O21: the two branches of `fail`, the second with its variants by `State.prepareRetry_eq`. -/
theorem retryPath : Obligations.RetryPath := by
  unfold Obligations.RetryPath
  intro e s b t
  exact ⟨fun h => State.fail_aborts e h, fun h => (State.fail_retries e h).trans (State.prepareRetry_eq _)⟩

/-! ### The position in the transfer -/

/-- The registers that say where the transfer stands, the frame and the file store (rule R226). -/
structure TransferPosition where
  seq0 : Byte
  seq1 : Byte
  offset : Nat
  written : Nat
  fileIdx : Nat
  size : Nat
  frame : List Byte
  store : FileStore

def State.position (s : State) : TransferPosition :=
  ⟨s.seq0, s.seq1, s.offset, s.written, s.fileIdx, s.size, s.frame, s.store⟩

/-- What a failed attempt may do to the position and to the state registers. -/
structure FailedPrecisely (s t : State) : Prop where
  position : t.position = s.position
  tx : t.txState = s.txState ∨ t.txState = .aborted ∨ t.txState = .handshaking ∧ s.cfg.txRehandshake = true
  rx : t.rxState = s.rxState ∨ t.rxState = .aborted

/-- If a failure has been counted between two states, the attempt has failed precisely. -/
def CountsPrecisely (s t : State) : Prop := t.retry = s.retry + 1 → FailedPrecisely s t

/-- The step goes on: nothing that a failed attempt must leave has changed. -/
structure SameAttempt (s t : State) : Prop where
  position : t.position = s.position
  retry : t.retry = s.retry
  cfg : t.cfg = s.cfg
  txState : t.txState = s.txState
  rxState : t.rxState = s.rxState

theorem SameAttempt.countsPrecisely {s t u : State} (h : SameAttempt s t) (k : CountsPrecisely t u) : CountsPrecisely s u := by
  intro hu
  obtain ⟨hp, htx, hrx⟩ := k (by rw [hu, h.retry])
  rw [h.cfg, h.txState] at htx
  rw [h.rxState] at hrx
  exact ⟨hp.trans h.position, htx, hrx⟩

theorem SameAttempt.chRead (n : Nat) (s : State) : SameAttempt s (s.chRead n) := ⟨rfl, rfl, rfl, rfl, rfl⟩

theorem SameAttempt.response (b : Byte) (s : State) : SameAttempt s ((s.chRead 1).setResp b) := ⟨rfl, rfl, rfl, rfl, rfl⟩

/-- The first of two responses is accepted. -/
theorem SameAttempt.secondWait (s : State) : SameAttempt s (((s.chRead 1).setResp ACK).setPos .resp2) :=
  ⟨by simp [State.position], by simp, by simp, by simp, by simp⟩

theorem SameAttempt.send (bs : List Byte) (s : State) : SameAttempt s (s.send bs) := ⟨rfl, rfl, rfl, rfl, rfl⟩

theorem SameAttempt.rxDecode (s : State) : SameAttempt s s.rxDecode.2 := by
  have h : SameBesidesDecode s s.rxDecode.2 := sameBesidesDecode_decodeUnit s.seq0 s.seq1 s
  refine ⟨?_, h.retry, h.cfg, h.txState, h.rxState⟩
  simp only [State.position, h.seq0, h.seq1, h.offset, h.written, h.fileIdx, h.size, h.frame, h.store]

/-- A part of a step that leaves the retry counter or clears it has counted no failure. -/
theorem countsPrecisely_of_retry {s t : State} (h : t.retry = s.retry ∨ t.retry = 0) : CountsPrecisely s t := fun hc => by omega

/-! ### Where a failure is counted -/

theorem countsPrecisely_fail (e : Cause) (s : State) : CountsPrecisely s (s.fail e) := fun _ => by
  have hpos : (s.fail e).position = s.position := by simp [State.position]
  rcases s.fail_cases e with ⟨_, h⟩ | ⟨_, ⟨_, _, _, h⟩ | ⟨_, _, hre, h⟩ | h⟩ <;> refine ⟨hpos, ?_, ?_⟩ <;> rw [h]
  · rw [State.abort_txState]; split <;> simp
  · rw [State.abort_rxState]; split <;> simp
  · exact .inl rfl
  · exact .inl rfl
  · exact .inr (.inr ⟨rfl, hre⟩)
  · exact .inl rfl
  · exact .inl rfl
  · exact .inl rfl

theorem countsPrecisely_abort (c : ExitClass) (e : Cause) (s : State) : CountsPrecisely s (s.abort c e) :=
  countsPrecisely_of_retry (.inl rfl)

theorem countsPrecisely_cancelTest (s : State) : CountsPrecisely s s.cancelTest := by
  refine (SameAttempt.chRead 1 s).countsPrecisely ?_
  rcases s.cancelTest_cases with ⟨_, h⟩ | ⟨_, h⟩ <;> rw [h]
  · exact countsPrecisely_abort _ _ _
  · exact countsPrecisely_fail _ _

/-! ### The sender -/

/-- An accepted response clears the retry counter; a re-handshake and a first response leave it (rule R176). -/
theorem State.accepted_retry (s : State) : s.accepted.retry = s.retry ∨ s.accepted.retry = 0 := by
  rcases s.accepted_cases with ⟨_, h⟩ | ⟨_, _, h⟩ | ⟨_, _, h⟩ | ⟨_, h⟩ | ⟨_, _, h⟩ | ⟨_, h⟩ | ⟨_, h⟩ <;> rw [h]
  · rw [State.handshakeDone_retry]; split <;> simp
  · exact .inl rfl
  · exact .inr rfl
  · exact .inr rfl
  · exact .inr rfl
  · exact .inr rfl
  · exact .inl rfl

theorem countsPrecisely_awaitOne (s : State) : CountsPrecisely s s.awaitOne := by
  rcases s.awaitOne_cases with ⟨_, h⟩ | ⟨b, _, h⟩ <;> rw [h]
  · exact (SameAttempt.chRead 1 s).countsPrecisely (countsPrecisely_fail _ _)
  · refine (SameAttempt.response b s).countsPrecisely ?_
    rcases (s.chRead 1).onResponse_cases b with ⟨_, h⟩ | ⟨_, _, h⟩ | ⟨_, _, h⟩ <;> rw [h]
    · exact countsPrecisely_cancelTest _
    · exact countsPrecisely_of_retry (State.accepted_retry _)
    · exact countsPrecisely_fail _ _

/-- An attempt whose frame is built: the wait that fails is the first, or the second after an accepted first. -/
theorem countsPrecisely_txAttempt {s : State} (hb : s.txBounded = true) (bs : List Byte) : CountsPrecisely s (s.txAttempt bs) := by
  refine (SameAttempt.send bs s).countsPrecisely ?_
  rcases s.txAttempt_cases bs with ⟨h2, h⟩ | ⟨_, h⟩ <;> rw [h]
  · obtain ⟨_, hi, hd, ha⟩ := (State.txBounded_iff s).mp hb
    rcases State.awaitOne_resp2 h2 with ⟨_, _, he⟩ | hq | hq | hq
    · have hfirst : SameAttempt (s.send bs) (s.send bs).awaitOne := by rw [he]; exact .secondWait _
      exact hfirst.countsPrecisely (countsPrecisely_awaitOne _)
    · exact absurd hq hi
    · exact absurd hq hd
    · exact absurd hq ha
  · exact countsPrecisely_awaitOne _

theorem step_tx_countsPrecisely {s t : State} (hr : s.cfg.role = .sender) (hf : s.fresh = false) (h : step s = .next t) :
    CountsPrecisely s t := by
  have hattempt (h1 : s.txState ≠ .idle) (h2 : s.txState ≠ .done) (h3 : s.txState ≠ .aborted) (bs : List Byte) :
      CountsPrecisely s (s.txAttempt bs) :=
    countsPrecisely_txAttempt ((State.txBounded_iff s).mpr ⟨hr, h1, h2, h3⟩) bs
  rcases step_tx hr h with ⟨_, _, rfl⟩ | ⟨_, _, _, _, rfl⟩ | ⟨hq, _, rfl⟩ | ⟨hq, _, ha⟩ | ⟨hq, _, ha⟩ | ⟨hq, _, rfl⟩ | ⟨hq, _, rfl⟩
  · exact countsPrecisely_awaitOne s
  · exact countsPrecisely_of_retry (.inr rfl)
  · exact hattempt (by simp [hq]) (by simp [hq]) (by simp [hq]) _
  · rw [State.enterHeader, if_pos hf] at ha
    cases ha
    exact hattempt (by simp [hq]) (by simp [hq]) (by simp [hq]) _
  · rw [State.enterData, if_pos hf] at ha
    cases ha
    exact hattempt (by simp [hq]) (by simp [hq]) (by simp [hq]) _
  · exact hattempt (by simp [hq]) (by simp [hq]) (by simp [hq]) _
  · rw [State.enterTerm, if_pos hf]
    exact hattempt (by simp [hq]) (by simp [hq]) (by simp [hq]) _

/-! ### The receiver -/

theorem countsPrecisely_onHeader (s : State) : CountsPrecisely s s.onHeader := by
  rcases s.onHeader_cases with ⟨_, h⟩ | ⟨_, h⟩ | ⟨_, _, _, ⟨_, h⟩ | ⟨_, h⟩⟩ <;> rw [h]
  · exact countsPrecisely_of_retry (.inr (by simp))
  · exact countsPrecisely_fail _ s
  · exact countsPrecisely_of_retry (.inr (by simp))
  · exact countsPrecisely_of_retry (.inl (by simp))

/-- A decoded data packet is accepted or a file error: neither counts a failure. -/
theorem State.onData_retry (s : State) : s.onData.retry = s.retry ∨ s.onData.retry = 0 := by
  rcases s.onData_cases with ⟨_, h⟩ | ⟨_, _, h⟩ | ⟨_, _, _, h⟩ | ⟨_, _, _, h⟩ <;> rw [h]
  · exact .inl (by simp)
  · exact .inr (by simp)
  · exact .inl (by simp)
  · exact .inr (by simp)

theorem countsPrecisely_headerOutcome (d : DecodeOutcome) (s : State) : CountsPrecisely s (s.headerOutcome d) := by
  rcases s.headerOutcome_cases d with ⟨_, h⟩ | ⟨_, h⟩ | ⟨_, h⟩ | ⟨_, h⟩ <;> rw [h]
  · exact countsPrecisely_onHeader s
  · exact countsPrecisely_of_retry (.inl (by simp))
  · exact countsPrecisely_cancelTest s
  · exact countsPrecisely_fail _ s

theorem countsPrecisely_dataOutcome (d : DecodeOutcome) (s : State) : CountsPrecisely s (s.dataOutcome d) := by
  rcases s.dataOutcome_cases d with ⟨_, h⟩ | ⟨_, h⟩ | ⟨_, _, h⟩ <;> rw [h]
  · exact countsPrecisely_of_retry s.onData_retry
  · exact countsPrecisely_cancelTest s
  · exact countsPrecisely_fail _ s

theorem countsPrecisely_eotOutcome (d : DecodeOutcome) (s : State) : CountsPrecisely s (s.eotOutcome d) := by
  rcases s.eotOutcome_cases d with ⟨_, h⟩ | ⟨_, h⟩ | ⟨_, _, h⟩ <;> rw [h]
  · exact countsPrecisely_of_retry (.inr (by simp))
  · exact countsPrecisely_cancelTest s
  · exact countsPrecisely_fail _ s

theorem step_rx_countsPrecisely {s t : State} (hr : s.cfg.role = .receiver) (h : step s = .next t) : CountsPrecisely s t := by
  have hdecode := SameAttempt.rxDecode s
  rcases step_rx hr h with ⟨_, _, _, rfl⟩ | ⟨_, _, rfl⟩ | ⟨_, _, rfl⟩ | ⟨_, _, rfl⟩ | ⟨_, _, rfl⟩
  · exact countsPrecisely_of_retry (.inr rfl)
  · exact countsPrecisely_of_retry (.inl (by simp))
  · exact hdecode.countsPrecisely (countsPrecisely_headerOutcome _ _)
  · exact hdecode.countsPrecisely (countsPrecisely_dataOutcome _ _)
  · exact hdecode.countsPrecisely (countsPrecisely_eotOutcome _ _)

/-- Settles O56, by role: a step that counts a failure ends in `fail`, before which the attempt has changed nothing of the position. -/
theorem failedAttemptPrecise : Obligations.FailedAttemptPrecise := by
  unfold Obligations.FailedAttemptPrecise
  intro s t _ h hretry hf
  have hcounts : CountsPrecisely s t := by
    cases hr : s.cfg.role
    · exact step_tx_countsPrecisely hr hf h
    · exact step_rx_countsPrecisely hr h
  obtain ⟨hpos, htx, hrx⟩ := hcounts hretry
  obtain ⟨h0, h1, ho, hw, hi, hz, hframe, hstore⟩ := TransferPosition.mk.inj hpos
  exact ⟨h0, h1, ho, hw, hi, hz, hframe, hstore, htx, hrx⟩

end Sys2Proof.Machine
end

section
/-! Proofs: `Done` and `Aborted` are terminal (rules R171, R200; U17). -/

namespace Sys2Proof.Machine

section
variable {s : State} (he : s.ended = true)
include he

/-! ### What is refused -/

theorem whileOpen_ended (k : Step State) : whileOpen s k = .refused .sessionEnded := if_pos he

theorem inTx_ended (q : TxState) (k : Step State) : inTx q s k = .refused .sessionEnded := if_pos he

theorem inRx_ended (q : RxState) (k : Step State) : inRx q s k = .refused .sessionEnded := if_pos he

/-- No register names an operation after the end. -/
theorem State.nextOp_ended : s.nextOp = none := by
  unfold State.ended at he
  cases hr : s.cfg.role <;> simp only [hr, decide_eq_true_eq] at he
  · rw [State.nextOp_sender hr, State.txOp]; rcases he with hq | hq <;> rw [hq]
  · rw [State.nextOp_receiver hr, State.rxOp]; rcases he with hq | hq <;> rw [hq]

/-- An engine whose session has ended is not reading. -/
theorem State.standing_ended : s.standing = .deaf := by
  have hrx : s.rxDecoding = false := by
    by_contra hc
    obtain ⟨hr, hq⟩ := (State.rxDecoding_iff s).mp (by simpa using hc)
    rcases hq with hq | hq | hq <;> simp [State.ended, hr, hq] at he
  have htx : s.txBounded = false := by
    by_contra hc
    obtain ⟨hr, _, hd, ha⟩ := (State.txBounded_iff s).mp (by simpa using hc)
    simp [State.ended, hr, hd, ha] at he
  exact State.standing_deaf hrx (.inl htx)

theorem step_ended : step s = .refused .sessionEnded := by
  unfold step
  rw [if_neg (by simp [State.standing_ended he]), State.nextOp_ended he]

end

/-! ### What still runs -/

/-- The session has ended in the same way. -/
structure SameEnding (s t : State) : Prop where
  txState : t.txState = s.txState
  rxState : t.rxState = s.rxState
  exitClass : t.exitClass = s.exitClass
  lastErr : t.lastErr = s.lastErr

theorem sameEnding_arrive (bs : List Byte) (s : State) : SameEnding s (s.arrive bs) := ⟨rfl, rfl, rfl, rfl⟩

theorem sameEnding_pad {chunk : List Byte} {n : Nat} {s t : State} (h : execPad chunk n s = .next t) : SameEnding s t := by
  unfold execPad at h
  split at h <;> cases h
  exact ⟨rfl, rfl, rfl, rfl⟩

theorem sameEnding_encode {m : Marker} {sq : Byte} {p : List Byte} {s t : State} (h : execEncode m sq p s = .next t) :
    SameEnding s t := by
  unfold execEncode at h
  split at h <;> cases h
  exact ⟨rfl, rfl, rfl, rfl⟩

section
variable {s t : State} (he : s.ended = true)
include he

/-- A data frame after the end joins the unread input. -/
theorem sameEnding_onFrame {m : Marker} {s0 s1 : Byte} {p : List Byte} {c : Half}
    (h : settle (s.onFrame m s0 s1 p c) = .next t) : SameEnding s t := by
  have hframe : s.onFrame m s0 s1 p c = .next (s.arrive (frameBytes m s0 s1 p c)) := by
    rw [State.onFrame, State.standing_ended he]
  rw [hframe] at h
  cases (of_settle h).1
  exact sameEnding_arrive _ s

/-- A control symbol after the end joins the unread input. -/
theorem sameEnding_onControl {b : Byte} {d : DecodeOutcome} (h : settle (.next (s.onControl b d)) = .next t) : SameEnding s t := by
  have hcontrol : s.onControl b d = s.arrive [b] := by rw [State.onControl, State.standing_ended he]
  rw [hcontrol] at h
  cases (of_settle h).1
  exact sameEnding_arrive _ s

/-- After the end only the wire symbols and the operations on registers answer a next state, and they leave the ending. -/
theorem exec_sameEnding {i : Instr} (h : exec i s = .next t) : SameEnding s t := by
  cases i <;> simp only [exec] at h
  case soh | stx | cus => exact sameEnding_onFrame he h
  case eot | ack | nak | can | crq => exact sameEnding_onControl he h
  case crcInit | crcByte | crc16 | hdrParse => cases h; exact ⟨rfl, rfl, rfl, rfl⟩
  case pad => exact sameEnding_pad h
  case hdrBuild => obtain ⟨_, rfl⟩ := execHdrBuild_next h; exact ⟨rfl, rfl, rfl, rfl⟩
  case encode => exact sameEnding_encode h
  case chRead | chWrite | chClear | decode | readResp | txStart | rxStart =>
    exact absurd ((whileOpen_ended he _).symm.trans h) nofun
  case txHandshake | txHeader | txData | txEot | txTerm => exact absurd ((inTx_ended he _ _).symm.trans h) nofun
  case rxHandshake | rxHeader | rxData | rxEot => exact absurd ((inRx_ended he _ _).symm.trans h) nofun

end

/-- Settles O49: the guards refuse, and `exec_sameEnding` says what still runs. -/
theorem terminalStates : Obligations.TerminalStates := by
  unfold Obligations.TerminalStates
  intro s he
  refine ⟨step_ended he, fun i hi => ?_, fun files cfg => ⟨whileOpen_ended he _, whileOpen_ended he _⟩,
    fun n bs => ⟨whileOpen_ended he _, whileOpen_ended he _⟩, fun i t h => ?_⟩
  · simp only [List.mem_cons, List.not_mem_nil, or_false] at hi
    rcases hi with rfl | rfl | rfl | rfl | rfl | rfl | rfl | rfl | rfl | rfl | rfl
    iterate 5 exact inTx_ended he _ _
    iterate 4 exact inRx_ended he _ _
    iterate 2 exact whileOpen_ended he _
  · obtain ⟨htx, hrx, hexit, herr⟩ := exec_sameEnding he h
    exact ⟨htx, hrx, hexit, herr⟩

end Sys2Proof.Machine
end

section
/-! Proofs: the data packets of a file (rules R16, R165, R167). -/

namespace Sys2Proof.Machine

/-! ### The choice of the marker -/

theorem chunkMarker_large {c : Cfg} {r : Nat} (h : largeSize c ≤ r) : chunkMarker c r = largeMarker c := if_pos h

theorem chunkMarker_small {c : Cfg} {r : Nat} (h : r < largeSize c) : chunkMarker c r = .soh := if_neg (Nat.not_le.mpr h)

theorem chunkSize_large {c : Cfg} {r : Nat} (h : largeSize c ≤ r) : chunkSize c r = largeSize c := if_pos h

theorem chunkSize_small {c : Cfg} {r : Nat} (h : r < largeSize c) : chunkSize c r = 128 := if_neg (Nat.not_le.mpr h)

theorem chunkTake_large {c : Cfg} {r : Nat} (h : largeSize c ≤ r) : chunkTake c r = largeSize c := by
  rw [chunkTake, chunkSize_large h, Nat.min_eq_left h]

theorem chunkTake_small {c : Cfg} {r : Nat} (h : r < largeSize c) : chunkTake c r = min 128 r := by
  rw [chunkTake, chunkSize_small h]

/-- Settles O29: the two branches of the choice. -/
theorem markerChoice : Obligations.MarkerChoice := by
  unfold Obligations.MarkerChoice
  intro c r large
  exact ⟨fun h => ⟨chunkMarker_large h, chunkSize_large h, chunkTake_large h⟩,
    fun h => ⟨chunkMarker_small h, chunkSize_small h, chunkTake_small h⟩, payloadSize_chunkMarker c r⟩

/-! ### The packets -/

theorem largeSize_pos (c : Cfg) : 0 < largeSize c := by
  unfold largeSize
  split <;> omega

/-- Below the large size the rest of the file goes in 128-byte packets, at least one. -/
theorem packetsFor_small {c : Cfg} (fuel : Nat) {r : Nat} (hf : r < fuel) (h : r < largeSize c) :
    packetsFor c fuel r = List.replicate (if r = 0 then 1 else (r + 127) / 128) .soh := by
  induction fuel generalizing r with
  | zero => omega
  | succ f ih =>
    rw [packetsFor, chunkMarker_small h, chunkTake_small h]
    by_cases hlast : r ≤ 128
    · have hone : (if r = 0 then 1 else (r + 127) / 128) = 1 := by split <;> omega
      rw [if_pos (by omega), hone]
      rfl
    · have hmore : (if r = 0 then 1 else (r + 127) / 128) = (r - 128 + 127) / 128 + 1 := by rw [if_neg (by omega)]; omega
      rw [if_neg (by omega), Nat.min_eq_left (by omega), ih (by omega) (by omega), if_neg (by omega), hmore, List.replicate_succ]

/-- From the large size on a file begins with large packets, the tail in 128-byte packets; an exact multiple has no tail. -/
theorem packetsFor_eq {c : Cfg} (fuel : Nat) {r : Nat} (hf : r < fuel) :
    packetsFor c fuel r = List.replicate (r / largeSize c) (largeMarker c) ++
      List.replicate (if r = 0 then 1 else (r % largeSize c + 127) / 128) .soh := by
  have hpos := largeSize_pos c
  induction fuel generalizing r with
  | zero => omega
  | succ f ih =>
    rcases Nat.lt_or_ge r (largeSize c) with h | h
    · rw [packetsFor_small _ hf h, Nat.div_eq_of_lt h, Nat.mod_eq_of_lt h]
      rfl
    · have hdiv : r / largeSize c = (r - largeSize c) / largeSize c + 1 := Nat.div_eq_sub_div hpos h
      have hmod : r % largeSize c = (r - largeSize c) % largeSize c := Nat.mod_eq_sub_mod h
      rw [packetsFor, chunkMarker_large h, chunkTake_large h, hdiv, hmod, List.replicate_succ, List.cons_append,
        if_neg (show r ≠ 0 by omega)]
      by_cases hlast : r ≤ largeSize c
      · simp [if_pos hlast, Nat.sub_eq_zero_of_le hlast]
      · rw [if_neg hlast, ih (by omega), if_neg (by omega)]

/-- Settles O30, by `packetsFor_eq` with fuel for one packet a byte and one more. -/
theorem packetCount : Obligations.PacketCount := by
  unfold Obligations.PacketCount
  intro c size large
  exact packetsFor_eq (size + 1) (Nat.lt_succ_self size)

end Sys2Proof.Machine
end

section
/-! Proofs: the operations of the sender that shake hands and end a file or the transfer, answered as they should be (rules R162, R168,
R169, R170). -/

namespace Sys2Proof.Machine

/-! ### The operations in their states -/

section
variable {s : State} (hr : s.cfg.role = .sender) (hl : s.cfg.legal)
include hr hl

theorem exec_txHandshake (hq : s.txState = .handshaking) : exec .txHandshake s = settle (.next (s.txAttempt [CRQ])) :=
  inTx_eq hr hq hl (by decide) (by decide)

theorem exec_txEot (hq : s.txState = .awaitingEot) : exec .txEot s = settle (.next (s.txAttempt [EOT])) :=
  inTx_eq hr hq hl (by decide) (by decide)

/-- `TX.TERM` is its entry part and the attempt with the frame built. -/
theorem exec_txTerm (hq : s.txState = .sendingTerminator) :
    exec .txTerm s = settle (.next (s.enterTerm.txAttempt s.enterTerm.frame)) :=
  inTx_eq hr hq hl (by decide) (by decide)

end

/-- The entry part of the terminator calls no primitive. -/
theorem State.enterTerm_chan (s : State) : s.enterTerm.chan = s.chan := by
  unfold State.enterTerm
  split <;> simp

/-! ### What the accepted responses leave -/

/-- The registers a confirmed handshake writes (rules R162, R176), from the values they had in an earlier state of the attempt. -/
theorem State.handshakeDone_eq {s u : State} (hre : u.rehandshake = s.rehandshake) (hretry : u.retry = s.retry)
    (hfresh : u.fresh = s.fresh) : u.handshakeDone = { u with
      retry := if s.rehandshake then s.retry else 0, txState := .sendingHeader,
      fresh := if s.rehandshake then s.fresh else true, rehandshake := false, pos := .none, outcome := none, hdr := none } := by
  rw [← hre, ← hretry, ← hfresh]
  rfl

/-- The registers an acknowledged end of transmission writes (rule R168), from the values they had in an earlier state of the
attempt. -/
theorem State.eotDone_eq {s u : State} (hi : u.fileIdx = s.fileIdx) (hf : u.files = s.files) : u.eotDone = { u with
    retry := 0, fileIdx := s.fileIdx + 1, fresh := true,
    txState := if s.fileIdx + 1 < s.files.length then .sendingHeader else .sendingTerminator,
    pos := .none, outcome := none, hdr := none } := by
  rw [← hi, ← hf]
  rfl

/-! ### The attempts -/

/-- Settles O26: one wait for 0x43, accepted. -/
theorem txHandshake : Obligations.TxHandshake := by
  unfold Obligations.TxHandshake
  intro s hr hq hl hlive hcrq
  have h1 : (s.send [CRQ]).awaitOne = (((s.send [CRQ]).chRead 1).setResp CRQ).handshakeDone := by
    rw [State.awaitOne_accepts (b := CRQ) (s := s.send [CRQ]) hcrq (by decide) (by simp [State.expected_eq, hq])]
    simp [State.accepted, hq]
  rw [exec_txHandshake hr hl hq, State.txAttempt_first h1 (by simp), settle_next]
  · rw [State.handshakeDone_eq (s := s) (by simp) (by simp) (by simp)]
    simp [State.send, State.chRead_setPos, CRQ]
  · simpa [State.live] using State.live_chRead_byte ((s.live_chWrite [CRQ]).mpr hlive) hcrq

/-- Settles O33: two waits, the first for `ACK`, the second for 0x43, each accepted. -/
theorem txEot : Obligations.TxEot := by
  unfold Obligations.TxEot
  intro s hr hq hl hlive hack hcrq
  have h2 : s.txAttempt [EOT] =
      (((((s.send [EOT]).chRead 1).setResp ACK).setPos .resp2).chRead 1 |>.setResp CRQ).eotDone := by
    rw [State.txAttempt_second (bs := [EOT]) (.inr hq) hack,
      State.awaitOne_accepts (b := CRQ) (s := (((s.send [EOT]).chRead 1).setResp ACK).setPos .resp2)
        (by simpa [CRQ, EOT] using hcrq) (by decide) (by simp [State.expected_eq, hq])]
    simp [State.accepted, hq]
  rw [exec_txEot hr hl hq, h2, settle_next]
  · rw [State.eotDone_eq (s := s) (by simp) (by simp)]
    simp [State.send, State.chRead_setPos, State.chRead_setResp, CRQ, EOT]
  · have h1 := State.live_chRead_byte ((s.live_chWrite [EOT]).mpr hlive) hack
    simpa [State.live] using State.live_chRead_byte h1 hcrq

/-- Settles O34: one wait for `ACK` after the null header frame, accepted. -/
theorem txTerm : Obligations.TxTerm := by
  unfold Obligations.TxTerm
  intro s hr hq hl hlive q0 q1 e hack
  have he : e = s.enterTerm := s.enterTerm_eq.symm
  clear_value e
  have her : e.cfg.role = .sender := by rw [he, (sameSession_enterTerm s).cfg, hr]
  have heq : e.txState = .sendingTerminator := by rw [he, State.enterTerm_txState, hq]
  have helive : e.live := by rw [he, State.live, State.enterTerm_chan]; exact hlive
  have h1 : (e.send e.frame).awaitOne = (((e.send e.frame).chRead 1).setResp ACK).finish := by
    rw [State.awaitOne_accepts (b := ACK) (s := e.send e.frame) hack (by decide) (by simp [State.expected_eq, heq])]
    simp [State.accepted, heq]
  rw [exec_txTerm hr hl hq, ← he, State.txAttempt_first h1 (by simp), settle_next]
  · rw [State.finish_sender (s := ((e.send e.frame).chRead 1).setResp ACK) her]
    simp [State.send, State.chRead_setPos, ACK]
  · simpa [State.live] using State.live_chRead_byte ((e.live_chWrite e.frame).mpr helive) hack

end Sys2Proof.Machine
end

section
/-! Proofs: the receiver between files: a header packet (rules R194, R196), a stray `EOT` (rules R193, R195, R277), and the end of a file
(rule R198). -/

namespace Sys2Proof.Machine

/-! ### The operation and the symbol, by state -/

/-- `DECODE` keeps the registers of `SameBesidesDecode`; for use where its result is named. -/
theorem SameBesidesDecode.of_decodeUnit {s d : State} {o : DecodeOutcome} {e0 e1 : Byte} (h : s.decodeUnit e0 e1 = (o, d)) :
    SameBesidesDecode s d := by
  have hsame := sameBesidesDecode_decodeUnit e0 e1 s
  rwa [h] at hsame

/-- Reacting to any outcome but `Ctrl(CAN)` reads nothing, so it settles where `DECODE` did. -/
theorem settle_receive {s : State} (h : s.live) {o : DecodeOutcome} (ho : o ≠ .ctrlCan) :
    settle (.next (s.receive o)) = .next (s.receive o) :=
  settle_next (by rw [State.live, s.receive_timeout ho]; exact h)

theorem State.receive_awaitingHeader {s : State} (h : s.rxState = .awaitingHeader) (o : DecodeOutcome) :
    s.receive o = s.headerOutcome o := by
  rw [State.receive, h]

theorem State.receive_awaitingNextOrEnd {s : State} (h : s.rxState = .awaitingNextOrEnd) (o : DecodeOutcome) :
    s.receive o = s.eotOutcome o := by
  rw [State.receive, h]

/-- The symbol `EOT` at a receiver that decodes is the outcome `Ctrl(EOT)` (rules R140, R195, R198, R199). -/
theorem exec_eot_marker {s : State} (h : s.rxDecoding = true) (hlive : s.live) :
    exec .eot s = .next ((s.setMarker EOT).receive .ctrlEot) := by
  have hexec : exec .eot s = settle (.next (s.onControl EOT .ctrlEot)) := rfl
  rw [hexec, State.onControl, State.standing_marker h]
  exact settle_receive (s := s.setMarker EOT) hlive (by decide)

/-! ### A header packet -/

/-- A successful `FileOpen` puts a new, empty, open file in front of the others (rule R42). -/
theorem State.fileOpen_succeeds {s : State} (h : s.store.ioError = false) (name : List Byte) (size : Nat) :
    s.fileOpenOk = true ∧ s.fileOpen name size = { s with
      store := { ioErrors := s.store.ioErrors.tail,
                 stored := { name := name, declared := size, data := [], closed := false } :: s.store.stored },
      trace := .fileOpen name size true :: s.trace } := by
  simp [State.fileOpen, State.fileOpenOk, FileStore.called, h]

/-- A failed `FileOpen` makes no file. -/
theorem State.fileOpen_failed {s : State} (h : s.store.ioError = true) (name : List Byte) (size : Nat) :
    s.fileOpenOk = false ∧ s.fileOpen name size = { s with
      store := { s.store with ioErrors := s.store.ioErrors.tail }, trace := .fileOpen name size false :: s.trace } := by
  simp [State.fileOpen, State.fileOpenOk, FileStore.called, h]

/-- The registers of a receiver's `Done` (rules R194, R232). -/
theorem State.finish_receiver {s : State} (hr : s.cfg.role = .receiver) : s.finish = { s with
    retry := 0, exitClass := .success, rxState := .done, trace := .exit .success :: s.trace,
    pos := .none, outcome := none, hdr := none } := by
  simp [State.finish, State.endAttempt, hr]

/-- A payload that begins with 0x00 is the null header (rule R137). -/
theorem parseHeader_payload_null {s : State} {k : Nat} (hk : 0 < k) (h : s.buf.read 0 = 0x00#8) (sizeW : Nat) :
    parseHeader sizeW (s.payload k) = .null := by
  have hhead : (s.payload k).head? = some 0x00#8 := by
    obtain ⟨j, rfl⟩ := Nat.exists_eq_succ_of_ne_zero (Nat.ne_of_gt hk)
    rw [State.payload, Memory.readBlock_eq, List.range_succ_eq_map]
    simp [h]
  exact if_pos hhead

/-- Settles O39: the operation is `State.onHeader` after `DECODE`, by what the payload parses as and whether the file opens. -/
theorem rxHeader : Obligations.RxHeader := by
  unfold Obligations.RxHeader
  intro s d hr hq hl hdec hlive
  have hsame := SameBesidesDecode.of_decodeUnit hdec
  have hdr : d.cfg.role = .receiver := by rw [hsame.cfg, hr]
  have hexec : exec .rxHeader s = .next d.onHeader := by
    rw [exec_rxOperation hr hl (.inl ⟨hq, rfl⟩) hdec, settle_receive hlive (by decide),
      State.receive_awaitingHeader (hsame.rxState.trans hq)]
    rfl
  refine ⟨fun name size hparse => ?_, fun hn hnull => ?_⟩
  · have hfile : d.onHeader = if d.fileOpenOk then (d.fileOpen name size).headerAccepted size
        else (d.fileOpen name size).abort .localIoError .ioError := by
      rw [State.onHeader, hsame.cfg, State.payload, hparse]
    refine ⟨fun hio => ?_, fun hio => ?_⟩
    · have hok : d.store.ioError = false := Bool.eq_false_iff.mpr (mt (FileStore.ioError_iff _).mp hio)
      obtain ⟨hopen, hnew⟩ := State.fileOpen_succeeds hok name size
      rw [hexec, hfile, if_pos hopen, hnew, ← hsame.seq0, ← hsame.seq1]
      rfl
    · obtain ⟨hopen, hnone⟩ := State.fileOpen_failed ((FileStore.ioError_iff _).mpr hio) name size
      rw [hexec, hfile, hopen, State.abort_receiver (s := d.fileOpen name size) hdr, hnone]
      rfl
  · have hdone : d.onHeader = (d.chWrite [ACK]).finish := by
      rw [State.onHeader, parseHeader_payload_null hn hnull]
    rw [hexec, hdone, State.finish_receiver (s := d.chWrite [ACK]) hdr]
    rfl

/-! ### The end of a file -/

/-- Settles O42: the operation and the symbol are the same reaction to `Ctrl(EOT)`. -/
theorem rxEot : Obligations.RxEot := by
  unfold Obligations.RxEot
  intro s d hr hq
  refine ⟨fun hl hlive hdec => ?_, fun hlive => ?_⟩
  · have hsame := SameBesidesDecode.of_decodeUnit hdec
    rw [exec_rxOperation hr hl (.inr (.inr ⟨hq, rfl⟩)) hdec, settle_receive hlive (by decide),
      State.receive_awaitingNextOrEnd (hsame.rxState.trans hq), ← hsame.cfg, ← hsame.seq0, ← hsame.seq1]
    rfl
  · rw [exec_eot_marker ((State.rxDecoding_iff s).mpr ⟨hr, .inr (.inr hq)⟩) hlive,
      State.receive_awaitingNextOrEnd (s := s.setMarker EOT) hq]
    rfl

/-! ### A stray `EOT` -/

/-- A write adds its bytes to the output, if the Channel is still up after it. -/
theorem Channel.output_afterWrite (bs : List Byte) (c : Channel) (h : (c.afterWrite bs).torn = false) :
    (c.afterWrite bs).wire ++ (c.afterWrite bs).outBuf = c.wire ++ c.outBuf ++ bs := by
  rw [Channel.torn_afterWrite_eq] at h
  rw [Channel.afterWrite, if_neg (by simp [h]), Channel.move_of_up h]
  simp only [List.append_assoc, List.append_cancel_left_eq]
  rw [← List.append_assoc, List.take_append_drop]

/-- A Channel that is up after a write was up before it. -/
theorem Channel.up_of_afterWrite {bs : List Byte} {c : Channel} (h : (c.afterWrite bs).torn = false) : c.torn = false :=
  Bool.eq_false_iff.mpr fun hc => by rw [Channel.torn_afterWrite hc bs] at h; cases h

/-- Entered again, `AwaitingHeader` only resets the pair (rule R193). -/
theorem State.enterAwaitHeader_again {s : State} (h : s.rxState = .awaitingHeader) : s.enterAwaitHeader = { s with
    seq0 := if s.cfg.seqResetPerFile then 0x00#8 else s.seq0, seq1 := if s.cfg.seqResetPerFile then 0xFF#8 else s.seq1,
    pos := .none, outcome := none, hdr := none } := by
  rw [State.enterAwaitHeader, ← h]
  rfl

/-- The receiver after a stray `EOT` that it has read: acknowledged, and `AwaitingHeader` entered again (rules R193, R195). -/
def State.strayAnswered (s : State) : State := ((s.chRead 1).setMarker EOT).ackCrq.enterAwaitHeader

section
variable (s : State)

theorem State.strayAnswered_chan : s.strayAnswered.chan = ((s.chan.afterRead 1).afterWrite [ACK]).afterWrite [CRQ] := by
  simp [State.strayAnswered]

@[simp] theorem State.strayAnswered_cfg : s.strayAnswered.cfg = s.cfg := by simp [State.strayAnswered]

@[simp] theorem State.strayAnswered_rxState : s.strayAnswered.rxState = .awaitingHeader := by simp [State.strayAnswered]

@[simp] theorem State.strayAnswered_retry : s.strayAnswered.retry = s.retry := by simp [State.strayAnswered]

@[simp] theorem State.strayAnswered_lastErr : s.strayAnswered.lastErr = s.lastErr := by simp [State.strayAnswered]

end

/-- The answer to a stray `EOT` is 0x06 0x43, on a Channel that is still up after it. -/
theorem State.strayAnswered_output {s : State} (h : s.strayAnswered.chan.torn = false) :
    s.strayAnswered.chan.wire ++ s.strayAnswered.chan.outBuf = s.chan.wire ++ s.chan.outBuf ++ [ACK, CRQ] := by
  rw [State.strayAnswered_chan] at h ⊢
  have hack := Channel.up_of_afterWrite h
  rw [Channel.output_afterWrite _ _ h, Channel.output_afterWrite _ _ hack,
    Channel.output_afterRead _ _ (Channel.up_of_afterWrite hack), List.append_assoc]
  rfl

/-- A receiver that waits for a header and reads `EOT` answers it (rules R193, R195). -/
theorem step_strayEot {s : State} (hr : s.cfg.role = .receiver) (hq : s.rxState = .awaitingHeader) (hl : s.cfg.legal)
    (hlive : s.live) (hrd : (s.chRead 1).rd = [EOT]) : step s = .next s.strayAnswered := by
  have hdec : s.rxDecode = (.ctrlEot, (s.chRead 1).setMarker EOT) := by
    rw [State.rxDecode, State.decodeUnit]
    simp only [hrd]
    rfl
  rw [step_of_rxDecoding ((State.rxDecoding_iff s).mpr ⟨hr, .inl hq⟩) hl, hdec,
    settle_receive (s := (s.chRead 1).setMarker EOT) (o := .ctrlEot) (State.live_chRead_byte hlive hrd) (by decide),
    State.receive_awaitingHeader (s := (s.chRead 1).setMarker EOT) hq]
  rfl

/-! ### The endless line of `EOT` -/

/-- A Channel that holds and delivers nothing but `EOT`, one before each call, for ever (rule R277). -/
structure Channel.EotForever (c : Channel) : Prop where
  up : c.torn = false
  noScript : c.script = []
  delivers : ∃ e : LineStep, c.again = [e] ∧ e.arrive = [EOT] ∧ e.cut = none ∧ e.tearDown = false
  unread : ∀ b ∈ c.inBuf, b = EOT

section
variable {c : Channel} (h : c.EotForever)
include h

/-- Before each call one more `EOT` arrives. -/
theorem Channel.EotForever.move : c.move.EotForever ∧ c.move.inBuf = c.inBuf ++ [EOT] := by
  obtain ⟨e, hagain, harrive, hcut, hdown⟩ := h.delivers
  have hup : c.upcoming = e := by simp [Channel.upcoming, h.noScript, hagain]
  have hmove := Channel.move_of_up ((Channel.move_up_iff c).mpr ⟨h.up, by rw [hup, hdown]⟩)
  rw [hup, harrive] at hmove
  rw [hmove]
  refine ⟨⟨h.up, by simp [Channel.rest, h.noScript, hagain], ⟨e, hagain, harrive, hcut, hdown⟩, fun b hb => ?_⟩, rfl⟩
  exact (List.mem_append.mp hb).elim (h.unread b) List.eq_of_mem_singleton

theorem Channel.EotForever.afterWrite (bs : List Byte) : (c.afterWrite bs).EotForever := by
  obtain ⟨⟨hup, hs, hd, hu⟩, -⟩ := h.move
  rw [Channel.afterWrite, if_neg (by simp [hup])]
  exact ⟨hup, hs, hd, hu⟩

theorem Channel.EotForever.readLimit (n : Nat) : c.readLimit n = n := by
  obtain ⟨e, hagain, -, hcut, -⟩ := h.delivers
  simp [Channel.readLimit, Channel.upcoming, h.noScript, hagain, hcut]

/-- A read of one byte returns `EOT`. -/
theorem Channel.EotForever.readBytes_one : c.readBytes 1 = [EOT] := by
  obtain ⟨hm, hin⟩ := h.move
  rw [Channel.readBytes, if_neg (by simp [hm.up]), h.readLimit, hin]
  cases hb : c.inBuf with
  | nil => rfl
  | cons b r => simp [h.unread b (by simp [hb])]

theorem Channel.EotForever.afterRead (n : Nat) : (c.afterRead n).EotForever := by
  obtain ⟨⟨hup, hs, hd, hu⟩, -⟩ := h.move
  rw [Channel.afterRead, if_neg (by simp [hup])]
  exact ⟨hup, hs, hd, fun b hb => hu b (List.mem_of_mem_drop hb)⟩

end

/-- A receiver that waits for a header on such a line. -/
structure FedEot (s : State) : Prop where
  role : s.cfg.role = .receiver
  state : s.rxState = .awaitingHeader
  legal : s.cfg.legal
  live : s.live
  line : s.chan.EotForever

/-- Each step answers one `EOT` and leaves the receiver where it was. -/
theorem FedEot.step {s : State} (h : FedEot s) : Machine.step s = .next s.strayAnswered ∧ FedEot s.strayAnswered := by
  have hrd : (s.chRead 1).rd = [EOT] := h.line.readBytes_one
  refine ⟨step_strayEot h.role h.state h.legal h.live hrd, by simp [h.role], by simp, by simp [h.legal], ?_, ?_⟩
  · have hread := State.live_chRead_byte h.live hrd
    simpa [State.live, State.strayAnswered_chan] using hread
  · rw [State.strayAnswered_chan]
    exact ((h.line.afterRead 1).afterWrite [ACK]).afterWrite [CRQ]

/-- The receiver runs for any number of steps and answers one `EOT` in each (rule R277). -/
theorem FedEot.run (k : Nat) {s : State} (h : FedEot s) :
    ∃ t, core.run k s = .next t ∧ t.rxState = .awaitingHeader ∧ t.retry = s.retry ∧ t.lastErr = s.lastErr ∧
      t.chan.wire ++ t.chan.outBuf = s.chan.wire ++ s.chan.outBuf ++ (List.replicate k [ACK, CRQ]).flatten := by
  induction k generalizing s with
  | zero => exact ⟨s, rfl, h.state, rfl, rfl, by simp⟩
  | succ k ih =>
    obtain ⟨hstep, hnext⟩ := h.step
    obtain ⟨t, hrun, hstate, hretry, herr, hout⟩ := ih hnext
    refine ⟨t, (run_succ hstep k).trans hrun, hstate, hretry.trans s.strayAnswered_retry,
      herr.trans s.strayAnswered_lastErr, ?_⟩
    rw [hout, State.strayAnswered_output hnext.line.up, List.replicate_succ, List.flatten_cons, List.append_assoc _ [ACK, CRQ]]

/-- Settles O40: the symbol and the step are the same answer, and on the endless line every step is that one. -/
theorem strayEot : Obligations.StrayEot := by
  unfold Obligations.StrayEot
  intro s hr hq hlive
  refine ⟨?_, fun rest hl hquiet hb => ?_, fun e hl hup hs hagain harrive hcut hdown hin k => ?_⟩
  · rw [exec_eot_marker ((State.rxDecoding_iff s).mpr ⟨hr, .inl hq⟩) hlive,
      State.receive_awaitingHeader (s := s.setMarker EOT) hq]
    exact congrArg _ (State.enterAwaitHeader_again (s := (s.setMarker EOT).ackCrq) hq)
  · obtain ⟨hrd, hrest, -⟩ := State.chRead_quiet hquiet (n := 1) (bs := [EOT]) hb rfl
    have hread : (s.chan.afterRead 1).quiet := Channel.quiet_afterRead hquiet 1
    have hack : ((s.chan.afterRead 1).afterWrite [ACK]).quiet := Channel.quiet_afterWrite hread [ACK]
    have hanswer : s.strayAnswered.quiet := by
      rw [State.quiet_iff, State.strayAnswered_chan]
      exact Channel.quiet_afterWrite hack [CRQ]
    refine ⟨s.strayAnswered, step_strayEot hr hq hl hlive hrd, s.strayAnswered_rxState, s.strayAnswered_retry,
      s.strayAnswered_lastErr, ?_, hanswer, State.strayAnswered_output hanswer.1⟩
    rw [State.strayAnswered_chan, Channel.afterWrite_quiet hack, Channel.afterWrite_quiet hread]
    exact hrest
  · exact FedEot.run k ⟨hr, hq, hl, hlive, hup, hs, ⟨e, hagain, harrive, hcut, hdown⟩, hin⟩

end Sys2Proof.Machine
end

section
/-! Proofs: the abort path, and what comes right before the exit signal of an abort (rules R231, R232, R234). A session aborts in `fail`
and in the cancel test, each right after a read, and right after a failed file primitive. -/

namespace Sys2Proof.Machine

/-- Settles O22: the equation of rule R231 is the definition of `State.abort`. -/
theorem abortPath : Obligations.AbortPath := by
  unfold Obligations.AbortPath
  intro c e s
  rfl

/-! ### The event before the exit signal -/

/-- A read, or a file primitive that has failed: nothing is sent or cleared by it. -/
def Event.readOrFailure (e : Event) : Prop :=
  (∃ n got, e = .read n got) ∨ (∃ i, e = .fileInfo i none) ∨ (∃ i o n, e = .fileRead i o n none) ∨
    (∃ name size, e = .fileOpen name size false) ∨ (∃ bs, e = .fileWrite bs false) ∨ e = .fileClose false

/-- The last event is a read or a failed file primitive. -/
def State.afterReadOrFailure (s : State) : Prop := ∃ e r, s.trace = e :: r ∧ e.readOrFailure

/-- If the session has been aborted, the exit signal is the last event and a read or a failed file primitive the one before it. -/
def State.silentIfAborted (t : State) : Prop :=
  t.exitClass ≠ .none → t.exitClass ≠ .success →
    ∃ e r, t.trace = .exit (.failure t.exitClass t.lastErr) :: e :: r ∧ e.readOrFailure

theorem silentIfAborted_of_running {t : State} (h : t.exitClass = .none) : t.silentIfAborted := fun hn => absurd h hn

theorem silentIfAborted_finish (s : State) : s.finish.silentIfAborted := fun _ hs => absurd (State.finish_exitClass s) hs

/-- `abort` gives the exit signal and nothing else. -/
theorem silentIfAborted_abort {s : State} (h : s.afterReadOrFailure) (c : ExitClass) (e : Cause) : (s.abort c e).silentIfAborted := by
  obtain ⟨last, r, ht, hlast⟩ := h
  exact fun _ _ => ⟨last, r, by simp [ht], hlast⟩

theorem afterReadOrFailure_chRead (n : Nat) (s : State) : (s.chRead n).afterReadOrFailure := ⟨_, _, rfl, .inl ⟨_, _, rfl⟩⟩

/-- `DECODE` ends with a read. -/
theorem afterReadOrFailure_rxDecode (s : State) : s.rxDecode.2.afterReadOrFailure := by
  obtain ⟨n, got, older, ht, _⟩ := readsOnly_decodeUnit s.seq0 s.seq1 s
  exact ⟨_, _, ht, .inl ⟨n, got, rfl⟩⟩

section
variable {s : State}

theorem afterReadOrFailure_fileInfo {i : Nat} (h : s.fileInfoAnswer i = none) : (s.fileInfo i).afterReadOrFailure :=
  ⟨_, _, s.fileInfo_trace i, .inr (.inl ⟨i, congrArg _ h⟩)⟩

theorem afterReadOrFailure_fileRead {i o n : Nat} (h : s.fileReadAnswer i o n = none) : (s.fileRead i o n).afterReadOrFailure :=
  ⟨_, _, s.fileRead_trace i o n, .inr (.inr (.inl ⟨i, o, n, congrArg _ h⟩))⟩

theorem afterReadOrFailure_fileOpen (h : s.fileOpenOk = false) (name : List Byte) (size : Nat) :
    (s.fileOpen name size).afterReadOrFailure :=
  ⟨_, _, s.fileOpen_trace name size, .inr (.inr (.inr (.inl ⟨name, size, congrArg _ h⟩)))⟩

theorem afterReadOrFailure_fileWrite (h : s.fileUseOk = false) (bs : List Byte) : (s.fileWrite bs).afterReadOrFailure :=
  ⟨_, _, s.fileWrite_trace bs, .inr (.inr (.inr (.inr (.inl ⟨bs, congrArg _ h⟩))))⟩

theorem afterReadOrFailure_fileClose (h : s.fileUseOk = false) : s.fileClose.afterReadOrFailure :=
  ⟨_, _, s.fileClose_trace, .inr (.inr (.inr (.inr (.inr (congrArg _ h)))))⟩

end

/-! ### The retry path and the cancel test -/

/-- At the bound `fail` aborts at once; below it the session goes on. -/
theorem silentIfAborted_fail {s : State} (hx : s.exitClass = .none) (h : s.afterReadOrFailure) (e : Cause) :
    (s.fail e).silentIfAborted := by
  rcases s.fail_cases e with ⟨_, he⟩ | ⟨hretry, _⟩
  · rw [he]
    exact silentIfAborted_abort (s := s.countFailure e) h _ _
  · exact silentIfAborted_of_running (by rw [State.fail_retries e hretry]; simp [hx])

theorem silentIfAborted_cancelTest {s : State} (hx : s.exitClass = .none) : s.cancelTest.silentIfAborted := by
  have hread := afterReadOrFailure_chRead 1 s
  rcases s.cancelTest_cases with ⟨_, h⟩ | ⟨_, h⟩ <;> rw [h]
  · exact silentIfAborted_abort hread _ _
  · exact silentIfAborted_fail (s := s.chRead 1) hx hread _

/-! ### The sender -/

/-- An accepted response ends the session in `Done` or leaves it running. -/
theorem silentIfAborted_accepted {s : State} (hx : s.exitClass = .none) : s.accepted.silentIfAborted := by
  rcases s.accepted_cases with ⟨_, h⟩ | ⟨_, _, h⟩ | ⟨_, _, h⟩ | ⟨_, h⟩ | ⟨_, _, h⟩ | ⟨_, h⟩ | ⟨_, h⟩ <;> rw [h]
  iterate 5 exact silentIfAborted_of_running (by simp [hx])
  · exact silentIfAborted_finish s
  · exact silentIfAborted_of_running hx

theorem silentIfAborted_awaitOne {s : State} (hx : s.exitClass = .none) : s.awaitOne.silentIfAborted := by
  have hread := afterReadOrFailure_chRead 1 s
  rcases s.awaitOne_cases with ⟨_, h⟩ | ⟨b, _, h⟩ <;> rw [h]
  · exact silentIfAborted_fail (s := s.chRead 1) hx hread _
  · rcases (s.chRead 1).onResponse_cases b with ⟨_, h⟩ | ⟨_, _, h⟩ | ⟨_, _, h⟩ <;> rw [h]
    · exact silentIfAborted_cancelTest hx
    · exact silentIfAborted_accepted hx
    · exact silentIfAborted_fail (s := (s.chRead 1).setResp b) hx hread _

section
variable {s t : State} (h : TxRunning s)
include h

/-- An attempt whose frame is built ends in a wait, the second one of a sender that still runs. -/
theorem TxRunning.txAttempt_silent
    (hf : s.txState = .sendingHeader ∨ s.txState = .sendingData ∨ s.txState = .sendingTerminator → s.fresh = false) (bs : List Byte) :
    (s.txAttempt bs).silentIfAborted := by
  have hs : TxRunning (s.send bs) := { h with built := fun _ => hf }
  rcases s.txAttempt_cases bs with ⟨h2, he⟩ | ⟨_, he⟩ <;> rw [he]
  · exact silentIfAborted_awaitOne (hs.awaitOne_resp2 (by simp) h2).exit
  · exact silentIfAborted_awaitOne hs.exit

/-- The header's entry part aborts right after the `FileInfo` that failed. -/
theorem TxRunning.header_silent (hq : s.txState = .sendingHeader) (ht : attemptAfter s.enterHeader = .next t) :
    t.silentIfAborted := by
  rcases s.enterHeader_cases with ⟨hf, he⟩ | ⟨_, hinfo, he⟩ | ⟨name, size, _, _, hfits, _, he⟩ | ⟨_, _, _, _, _, he⟩ <;>
    rw [he] at ht <;> cases ht
  · exact h.txAttempt_silent (fun _ => hf) _
  · exact silentIfAborted_abort (afterReadOrFailure_fileInfo hinfo) _ _
  · have hs : TxRunning (s.fileInfo s.fileIdx) := { h with }
    exact (hs.buildHeader hq hfits).txAttempt_silent (fun _ => rfl) _

/-- The data packet's entry part aborts right after the `FileRead` that failed. -/
theorem TxRunning.data_silent (ht : attemptAfter s.enterData = .next t) : t.silentIfAborted := by
  rcases s.enterData_cases with ⟨hf, he⟩ | ⟨_, hnone, he⟩ | ⟨chunk, _, hc, he⟩ <;> rw [he] at ht <;> cases ht
  · exact h.txAttempt_silent (fun _ => hf) _
  · exact silentIfAborted_abort (afterReadOrFailure_fileRead hnone) _ _
  · have hs : TxRunning (s.fileRead s.fileIdx s.offset s.take) := { h with }
    exact (hs.buildData (State.length_fileReadAnswer hc)).txAttempt_silent (fun _ => rfl) _

end

theorem State.Inv.step_tx_silent {s t : State} (h : s.Inv) (hr : s.cfg.role = .sender) (ht : step s = .next t) :
    t.silentIfAborted := by
  have hrun (h1 : s.txState ≠ .idle) (h2 : s.txState ≠ .done) (h3 : s.txState ≠ .aborted) : TxRunning s :=
    h.txRunning ((State.txBounded_iff s).mpr ⟨hr, h1, h2, h3⟩)
  rcases step_tx hr ht with ⟨hb, _, rfl⟩ | ⟨_, _, _, _, rfl⟩ | ⟨hq, _, rfl⟩ | ⟨hq, _, ha⟩ | ⟨hq, _, ha⟩ | ⟨hq, _, rfl⟩ | ⟨hq, _, rfl⟩
  · exact silentIfAborted_awaitOne (h.txRunning hb).exit
  · exact silentIfAborted_of_running rfl
  all_goals have hs : TxRunning s := hrun (by simp [hq]) (by simp [hq]) (by simp [hq])
  · exact hs.txAttempt_silent (by simp [hq]) _
  · exact hs.header_silent hq ha
  · exact hs.data_silent ha
  · exact hs.txAttempt_silent (by simp [hq]) _
  · obtain ⟨hterm, hbuilt⟩ := hs.enterTerm hq
    exact hterm.txAttempt_silent (fun _ => hbuilt) _

/-! ### The receiver -/

section
variable {s : State} (hx : s.exitClass = .none)
include hx

/-- A decoded data packet aborts only right after a `FileWrite` or a `FileClose` that failed. -/
theorem silentIfAborted_onData : s.onData.silentIfAborted := by
  rcases s.onData_cases with ⟨hwrite, h⟩ | ⟨_, _, h⟩ | ⟨_, _, hclose, h⟩ | ⟨_, _, _, h⟩ <;> rw [h]
  · exact silentIfAborted_abort (afterReadOrFailure_fileWrite hwrite _) _ _
  · exact silentIfAborted_of_running (by simp [hx])
  · exact silentIfAborted_abort (afterReadOrFailure_fileClose hclose) _ _
  · exact silentIfAborted_of_running (by simp [hx])

variable (hread : s.afterReadOrFailure)
include hread

/-- A decoded header aborts by the retry path, or right after the `FileOpen` that failed. -/
theorem silentIfAborted_onHeader : s.onHeader.silentIfAborted := by
  rcases s.onHeader_cases with ⟨_, h⟩ | ⟨_, h⟩ | ⟨name, size, _, ⟨_, h⟩ | ⟨hopen, h⟩⟩ <;> rw [h]
  · exact silentIfAborted_finish _
  · exact silentIfAborted_fail hx hread _
  · exact silentIfAborted_of_running (by simp [hx])
  · exact silentIfAborted_abort (afterReadOrFailure_fileOpen hopen name size) _ _

theorem silentIfAborted_headerOutcome (d : DecodeOutcome) : (s.headerOutcome d).silentIfAborted := by
  rcases s.headerOutcome_cases d with ⟨_, h⟩ | ⟨_, h⟩ | ⟨_, h⟩ | ⟨_, h⟩ <;> rw [h]
  · exact silentIfAborted_onHeader hx hread
  · exact silentIfAborted_of_running (by simp [hx])
  · exact silentIfAborted_cancelTest hx
  · exact silentIfAborted_fail hx hread _

theorem silentIfAborted_dataOutcome (d : DecodeOutcome) : (s.dataOutcome d).silentIfAborted := by
  rcases s.dataOutcome_cases d with ⟨_, h⟩ | ⟨_, h⟩ | ⟨_, _, h⟩ <;> rw [h]
  · exact silentIfAborted_onData hx
  · exact silentIfAborted_cancelTest hx
  · exact silentIfAborted_fail hx hread _

theorem silentIfAborted_eotOutcome (d : DecodeOutcome) : (s.eotOutcome d).silentIfAborted := by
  rcases s.eotOutcome_cases d with ⟨_, h⟩ | ⟨_, h⟩ | ⟨_, _, h⟩ <;> rw [h]
  · exact silentIfAborted_of_running (by simp [hx])
  · exact silentIfAborted_cancelTest hx
  · exact silentIfAborted_fail hx hread _

end

theorem State.Inv.step_rx_silent {s t : State} (h : s.Inv) (hr : s.cfg.role = .receiver) (ht : step s = .next t) :
    t.silentIfAborted := by
  have hread := afterReadOrFailure_rxDecode s
  rcases step_rx hr ht with ⟨_, _, _, rfl⟩ | ⟨hq, _, rfl⟩ | ⟨hq, _, rfl⟩ | ⟨hq, _, rfl⟩ | ⟨hq, _, rfl⟩
  · exact silentIfAborted_of_running rfl
  all_goals have hs : RxRunning s := h.rxRunning hr (by simp [hq])
  · exact silentIfAborted_of_running hs.exit
  · exact silentIfAborted_headerOutcome hs.rxDecode.exit hread _
  · exact silentIfAborted_dataOutcome hs.rxDecode.exit hread _
  · exact silentIfAborted_eotOutcome hs.rxDecode.exit hread _

/-- Settles O55, by role: every abort of a step is right after a read or a failed file primitive. -/
theorem silenceOnAbort : Obligations.SilenceOnAbort := by
  unfold Obligations.SilenceOnAbort
  intro s t h ht
  cases hr : s.cfg.role
  · exact h.step_tx_silent hr ht
  · exact h.step_rx_silent hr ht

end Sys2Proof.Machine
end
